-- ==== Sys2Proof/Word.lean ====
section
/-! DEFINITION. The word types of the D20 IFDU (`00_scope.md` R10): unsigned integers of 8, 16, 32, 64 and 128
bits, and the index of a general register. -/

namespace Sys2Proof

/-- u8 (R10). -/
abbrev Byte := BitVec 8

/-- A 16-bit immediate field (R103). -/
abbrev Half := BitVec 16

/-- u32 (R10): an instruction word, an address, `pc`. -/
abbrev Word := BitVec 32

/-- u64 (R10): `x[i]`, bits 63:0 of a general register (R11). -/
abbrev Dword := BitVec 64

/-- u128 (R10): a whole general register (R21). -/
abbrev Quad := BitVec 128

/-- The number of a general register, 0 to 31 (R21). -/
abbrev Reg := Fin 32

end Sys2Proof
end

