-- ==== Sys2Proof/Syntax.lean ====
section
/-! DEFINITION. The abstract syntax of the 39 admitted instructions (`30_encoding.md` R101), one constructor per row
of `opcode_table.json`, operands in the assembler order of R113. -/

namespace Sys2Proof

/-- The admitted instructions. Register operands are indexes; `imm` is the raw 16-bit field `imm16`, `index` the raw
field `index26` (R103, R104); `sa` is the shift amount, `n` a coprocessor-0 register number, and `code` the field
that the hardware ignores (R106), each a number whose range `Instr.wf` checks. -/
inductive Instr where
  | sll (rd rt : Reg) (sa : Nat)
  | add (rd rs rt : Reg)
  | addi (rt rs : Reg) (imm : Half)
  | daddu (rd rs rt : Reg)
  | mult (rs rt : Reg)
  | div (rs rt : Reg)
  | mfhi (rd : Reg)
  | mflo (rd : Reg)
  | beq (rs rt : Reg) (imm : Half)
  | bne (rs rt : Reg) (imm : Half)
  | j (index : BitVec 26)
  | jal (index : BitVec 26)
  | jr (rs : Reg)
  | lb (rt base : Reg) (imm : Half)
  | lbu (rt base : Reg) (imm : Half)
  | lh (rt base : Reg) (imm : Half)
  | lhu (rt base : Reg) (imm : Half)
  | lw (rt base : Reg) (imm : Half)
  | lwu (rt base : Reg) (imm : Half)
  | ld (rt base : Reg) (imm : Half)
  | lq (rt base : Reg) (imm : Half)
  | sb (rt base : Reg) (imm : Half)
  | sh (rt base : Reg) (imm : Half)
  | sw (rt base : Reg) (imm : Half)
  | sd (rt base : Reg) (imm : Half)
  | sq (rt base : Reg) (imm : Half)
  | tge (rs rt : Reg) (code : Nat)
  | tgeu (rs rt : Reg) (code : Nat)
  | tlt (rs rt : Reg) (code : Nat)
  | tltu (rs rt : Reg) (code : Nat)
  | teq (rs rt : Reg) (code : Nat)
  | tne (rs rt : Reg) (code : Nat)
  | syscall (code : Nat)
  | breakpoint (code : Nat)
  | eret
  | mfc0 (rt : Reg) (n : Nat)
  | mtc0 (rt : Reg) (n : Nat)
  | wait
  | cfc2i
deriving DecidableEq, Repr

/-- The handler tag of a descriptor: one of the 39 mnemonics (`40_core_step.md` R124). -/
inductive Handler where
  | sll | add | addi | daddu | mult | div | mfhi | mflo | beq | bne | j | jal | jr
  | lb | lbu | lh | lhu | lw | lwu | ld | lq | sb | sh | sw | sd | sq
  | tge | tgeu | tlt | tltu | teq | tne | syscall | breakpoint | eret | mfc0 | mtc0 | wait | cfc2i
deriving DecidableEq, Repr

end Sys2Proof
end

