-- ==== Sys2Proof/Decode.lean ====
section
/-! DEFINITION. The decode table (`30_encoding.md` R101), the decoder over bytes, total, rejecting by name (R108,
R110), the encoder written from the same formats (R102 to R105), and the little-endian byte order of the fetch and
of every access (`20_memory.md` R62). -/

namespace Sys2Proof

/-- The number whose bytes, lowest address first, are `bs` (little-endian, R62). -/
def leNat : List Byte → Nat
  | [] => 0
  | b :: bs => b.toNat + 256 * leNat bs

/-- The `n` lowest bytes of `v`, lowest address first (little-endian, R62). -/
def leBytes : Nat → Nat → List Byte
  | 0, _ => []
  | n + 1, v => BitVec.ofNat 8 v :: leBytes n (v / 256)

/-- A register field of a word: 5 bits from bit `lo` up (R102). -/
def regField (w : Word) (lo : Nat) : Reg := (w.extractLsb' lo 5).toFin

/-- The field `imm16`, bits 15:0 (R103). -/
def immField (w : Word) : Half := w.extractLsb' 0 16

/-- The field `index26`, bits 25:0 (R104). -/
def indexField (w : Word) : BitVec 26 := w.extractLsb' 0 26

/-- A field read as a number: `n` bits from bit `lo` up (R102, R105). -/
def numField (w : Word) (lo n : Nat) : Nat := (w.extractLsb' lo n).toNat

/-- A row of a decode table: a word `w` is this row's instruction when `w & mask = pattern` (R101); `build` takes
the operands out of the word. -/
structure Row where
  pattern : Word
  mask : Word
  build : Word → Instr

/-- `(w & mask_M) = match_M` (R101). -/
def Row.matches (r : Row) (w : Word) : Bool := w &&& r.mask == r.pattern

/-- Build an instruction of form `M rd, rs, rt` (R113). -/
def buildRdRsRt (c : Reg → Reg → Reg → Instr) (w : Word) : Instr :=
  c (regField w 11) (regField w 21) (regField w 16)

/-- Build an instruction of form `M rs, rt` (R113). -/
def buildRsRt (c : Reg → Reg → Instr) (w : Word) : Instr := c (regField w 21) (regField w 16)

/-- Build a branch `M rs, rt, off` (R113). -/
def buildBranch (c : Reg → Reg → Half → Instr) (w : Word) : Instr :=
  c (regField w 21) (regField w 16) (immField w)

/-- Build a load, a store or ADDI: `rt`, then the register in the `rs`/`base` field, then `imm16` (R113). -/
def buildRtRsImm (c : Reg → Reg → Half → Instr) (w : Word) : Instr :=
  c (regField w 16) (regField w 21) (immField w)

/-- Build a trap `M rs, rt` with its ignored 10-bit code (R102). -/
def buildTrap (c : Reg → Reg → Nat → Instr) (w : Word) : Instr :=
  c (regField w 21) (regField w 16) (numField w 6 10)

/-- Build a coprocessor-0 move `M rt, n` (R105). -/
def buildCop0 (c : Reg → Nat → Instr) (w : Word) : Instr := c (regField w 16) (numField w 11 5)

/-- Rows 1 to 8 of R101. -/
def integerRows : List Row :=
  [ ⟨0x00000000#32, 0xFFE0003F#32, fun w => .sll (regField w 11) (regField w 16) (numField w 6 5)⟩,
    ⟨0x00000020#32, 0xFC0007FF#32, buildRdRsRt .add⟩,
    ⟨0x20000000#32, 0xFC000000#32, buildRtRsImm .addi⟩,
    ⟨0x0000002D#32, 0xFC0007FF#32, buildRdRsRt .daddu⟩,
    ⟨0x00000018#32, 0xFC00FFFF#32, buildRsRt .mult⟩,
    ⟨0x0000001A#32, 0xFC00FFFF#32, buildRsRt .div⟩,
    ⟨0x00000010#32, 0xFFFF07FF#32, fun w => .mfhi (regField w 11)⟩,
    ⟨0x00000012#32, 0xFFFF07FF#32, fun w => .mflo (regField w 11)⟩ ]

/-- Rows 9 to 13 of R101. -/
def branchRows : List Row :=
  [ ⟨0x10000000#32, 0xFC000000#32, buildBranch .beq⟩,
    ⟨0x14000000#32, 0xFC000000#32, buildBranch .bne⟩,
    ⟨0x08000000#32, 0xFC000000#32, fun w => .j (indexField w)⟩,
    ⟨0x0C000000#32, 0xFC000000#32, fun w => .jal (indexField w)⟩,
    ⟨0x00000008#32, 0xFC1FFFFF#32, fun w => .jr (regField w 21)⟩ ]

/-- Rows 14 to 21 of R101. -/
def loadRows : List Row :=
  [ ⟨0x80000000#32, 0xFC000000#32, buildRtRsImm .lb⟩,
    ⟨0x90000000#32, 0xFC000000#32, buildRtRsImm .lbu⟩,
    ⟨0x84000000#32, 0xFC000000#32, buildRtRsImm .lh⟩,
    ⟨0x94000000#32, 0xFC000000#32, buildRtRsImm .lhu⟩,
    ⟨0x8C000000#32, 0xFC000000#32, buildRtRsImm .lw⟩,
    ⟨0x9C000000#32, 0xFC000000#32, buildRtRsImm .lwu⟩,
    ⟨0xDC000000#32, 0xFC000000#32, buildRtRsImm .ld⟩,
    ⟨0x78000000#32, 0xFC000000#32, buildRtRsImm .lq⟩ ]

/-- Rows 22 to 26 of R101. -/
def storeRows : List Row :=
  [ ⟨0xA0000000#32, 0xFC000000#32, buildRtRsImm .sb⟩,
    ⟨0xA4000000#32, 0xFC000000#32, buildRtRsImm .sh⟩,
    ⟨0xAC000000#32, 0xFC000000#32, buildRtRsImm .sw⟩,
    ⟨0xFC000000#32, 0xFC000000#32, buildRtRsImm .sd⟩,
    ⟨0x7C000000#32, 0xFC000000#32, buildRtRsImm .sq⟩ ]

/-- Rows 27 to 39 of R101. -/
def systemRows : List Row :=
  [ ⟨0x00000030#32, 0xFC00003F#32, buildTrap .tge⟩,
    ⟨0x00000031#32, 0xFC00003F#32, buildTrap .tgeu⟩,
    ⟨0x00000032#32, 0xFC00003F#32, buildTrap .tlt⟩,
    ⟨0x00000033#32, 0xFC00003F#32, buildTrap .tltu⟩,
    ⟨0x00000034#32, 0xFC00003F#32, buildTrap .teq⟩,
    ⟨0x00000036#32, 0xFC00003F#32, buildTrap .tne⟩,
    ⟨0x0000000C#32, 0xFC00003F#32, fun w => .syscall (numField w 6 20)⟩,
    ⟨0x0000000D#32, 0xFC00003F#32, fun w => .breakpoint (numField w 6 20)⟩,
    ⟨0x42000018#32, 0xFFFFFFFF#32, fun _ => .eret⟩,
    ⟨0x40000000#32, 0xFFE007FF#32, buildCop0 .mfc0⟩,
    ⟨0x40800000#32, 0xFFE007FF#32, buildCop0 .mtc0⟩,
    ⟨0x42000020#32, 0xFFFFFFFF#32, fun _ => .wait⟩,
    ⟨0x48400001#32, 0xFFFFFFFF#32, fun _ => .cfc2i⟩ ]

/-- The decode table of CFG_REF, the 39 rows of R101 in order. -/
def decodeTable : List Row := integerRows ++ branchRows ++ loadRows ++ storeRows ++ systemRows

/-- Why a byte sequence is not an instruction. -/
inductive DecodeError where
  /-- fewer than the 4 bytes of an instruction (R100) -/
  | truncated
  /-- the word matches no row of the decode table (R110) -/
  | unknownInstruction
deriving DecidableEq, Repr

/-- `Decode(w)` (R108) by a decode table (`00_scope.md` R8 `DECODE_TABLE`): the instruction of the one matching row, or
`UNKNOWN`. DESIGN CHOICE (log entry 28): no rule asks a configured table to have disjoint rows; of several that match,
the first in the table's order is taken. The rows of CFG_REF are disjoint (R101). -/
def decodeWith (table : List Row) (w : Word) : Except DecodeError Instr :=
  match table.find? (fun r => r.matches w) with
  | some r => .ok (r.build w)
  | none => .error .unknownInstruction

/-- `Decode(w)` (R108) by the table of CFG_REF. -/
def decodeWord (w : Word) : Except DecodeError Instr := decodeWith decodeTable w

/-- Decode the instruction at the head of a byte sequence (4 bytes, little-endian: R100, R62) and give the rest. -/
def decode : List Byte → Except DecodeError (Instr × List Byte)
  | b0 :: b1 :: b2 :: b3 :: rest =>
    match decodeWord (BitVec.ofNat 32 (leNat [b0, b1, b2, b3])) with
    | .ok i => .ok (i, rest)
    | .error e => .error e
  | _ => .error .truncated

/-- The instruction the decoder reads from a row's word of `nbits` bits (the bits above are 0). -/
def decodeTableWord (nbits w : Nat) : Option Instr :=
  match decode (leBytes 4 (w % 2 ^ nbits)) with
  | .ok (i, _) => some i
  | .error _ => none

/-- A register index as its 5-bit field. -/
def regBits (r : Reg) : BitVec 5 := BitVec.ofNat 5 r.val

/-- Format R with `op` = 0 (R102). -/
def formatR (rs rt rd : Reg) (sa : BitVec 5) (funct : BitVec 6) : Word :=
  0#6 ++ regBits rs ++ regBits rt ++ regBits rd ++ sa ++ funct

/-- Format I (R103). -/
def formatI (op : BitVec 6) (rs rt : Reg) (imm : Half) : Word := op ++ regBits rs ++ regBits rt ++ imm

/-- Format J (R104). -/
def formatJ (op : BitVec 6) (index : BitVec 26) : Word := op ++ index

/-- Format C, a coprocessor-0 move (R105). -/
def formatC (sub : BitVec 5) (rt : Reg) (n : Nat) : Word :=
  0x10#6 ++ sub ++ regBits rt ++ BitVec.ofNat 5 n ++ 0#11

/-- The variant of format R with a 10-bit code in bits 15:6 (R102). -/
def formatTrap (rs rt : Reg) (code : Nat) (funct : BitVec 6) : Word :=
  0#6 ++ regBits rs ++ regBits rt ++ BitVec.ofNat 10 code ++ funct

/-- The variant of format R with a 20-bit code in bits 25:6 (R102). -/
def formatCode (code : Nat) (funct : BitVec 6) : Word := 0#6 ++ BitVec.ofNat 20 code ++ funct

/-- The word of an instruction, from the formats R102 to R105 and the opcode map of R107. -/
def encode : Instr → Word
  | .sll rd rt sa => formatR 0 rt rd (BitVec.ofNat 5 sa) 0x00#6
  | .add rd rs rt => formatR rs rt rd 0 0x20#6
  | .addi rt rs imm => formatI 0x08#6 rs rt imm
  | .daddu rd rs rt => formatR rs rt rd 0 0x2D#6
  | .mult rs rt => formatR rs rt 0 0 0x18#6
  | .div rs rt => formatR rs rt 0 0 0x1A#6
  | .mfhi rd => formatR 0 0 rd 0 0x10#6
  | .mflo rd => formatR 0 0 rd 0 0x12#6
  | .beq rs rt imm => formatI 0x04#6 rs rt imm
  | .bne rs rt imm => formatI 0x05#6 rs rt imm
  | .j index => formatJ 0x02#6 index
  | .jal index => formatJ 0x03#6 index
  | .jr rs => formatR rs 0 0 0 0x08#6
  | .lb rt base imm => formatI 0x20#6 base rt imm
  | .lbu rt base imm => formatI 0x24#6 base rt imm
  | .lh rt base imm => formatI 0x21#6 base rt imm
  | .lhu rt base imm => formatI 0x25#6 base rt imm
  | .lw rt base imm => formatI 0x23#6 base rt imm
  | .lwu rt base imm => formatI 0x27#6 base rt imm
  | .ld rt base imm => formatI 0x37#6 base rt imm
  | .lq rt base imm => formatI 0x1E#6 base rt imm
  | .sb rt base imm => formatI 0x28#6 base rt imm
  | .sh rt base imm => formatI 0x29#6 base rt imm
  | .sw rt base imm => formatI 0x2B#6 base rt imm
  | .sd rt base imm => formatI 0x3F#6 base rt imm
  | .sq rt base imm => formatI 0x1F#6 base rt imm
  | .tge rs rt code => formatTrap rs rt code 0x30#6
  | .tgeu rs rt code => formatTrap rs rt code 0x31#6
  | .tlt rs rt code => formatTrap rs rt code 0x32#6
  | .tltu rs rt code => formatTrap rs rt code 0x33#6
  | .teq rs rt code => formatTrap rs rt code 0x34#6
  | .tne rs rt code => formatTrap rs rt code 0x36#6
  | .syscall code => formatCode code 0x0C#6
  | .breakpoint code => formatCode code 0x0D#6
  | .eret => 0x42000018#32
  | .mfc0 rt n => formatC 0x00#5 rt n
  | .mtc0 rt n => formatC 0x04#5 rt n
  | .wait => 0x42000020#32
  | .cfc2i => 0x48400001#32

/-- The bytes of an instruction as memory holds them (R100, R62). -/
def encodeBytes (i : Instr) : List Byte := leBytes 4 (encode i).toNat

end Sys2Proof
end

