-- ==== Sys2Proof/Config.lean ====
section
/-! DEFINITION. The configuration record CFG (`00_scope.md` R8), its reference value CFG_REF (`cfg`: log entry
1), the types the configuration and the environment's ports need, and the free
values (constants without a body: nothing constrains them). -/

namespace Sys2Proof

/-- The BUS access widths in bits (R8 `BUS_WIDTHS`, R61). -/
inductive Width where
  | w8 | w16 | w32 | w64 | w128
deriving DecidableEq, Repr

/-- Bytes per access (R11). -/
def Width.bytes : Width → Nat
  | .w8 => 1
  | .w16 => 2
  | .w32 => 4
  | .w64 => 8
  | .w128 => 16

/-- All five widths. -/
def Width.all : List Width := [.w8, .w16, .w32, .w64, .w128]

/-- The pipeline classes (`40_core_step.md` R125). -/
inductive PipeClass where
  | int | branch | mult | div | ldst | copctl
deriving DecidableEq, Repr

/-- The exceptions, complete (`60_exceptions.md` R271). -/
inductive ExcKind where
  | interrupt | syscall | breakpoint | trap
deriving DecidableEq, Repr

/-- Granularity of the interrupt check (R8 `IRQ_CHECK`, R275). -/
inductive IrqCheck where
  | perSlice | perStep
deriving DecidableEq, Repr

/-- The name of a device of a route table. DESIGN CHOICE (log entry 27): `ROUTES` is open (`00_scope.md` R8,
`20_memory.md` R70) and the spec fixes no set of names. The twelve entries of CFG_REF's table (R72) have a constructor
each, any further device of another table is `other n`, and two entries with one name are one device. -/
inductive DeviceName where
  | iopRam | timers | gsPriv | dmac | vu0Code | vu0Data | vu1Code | vu1Data | mainRam | bootRom
  | intcStat | intcMask
  /-- A device that CFG_REF's table does not have, by a number that the configuration chooses. -/
  | other (n : Nat)
deriving DecidableEq, Repr

/-- The device kinds (R71): a byte array, possibly read-only, or an external register file. -/
inductive DeviceKind where
  | memory (readOnly : Bool)
  | register
deriving DecidableEq, Repr

/-- A device of the route table with the widths it has delegates for (R71). The name that R70 gives the entry stands
here (log entry 27). -/
structure Device where
  name : DeviceName
  kind : DeviceKind
  rdWidths : List Width
  wrWidths : List Width
deriving DecidableEq, Repr

/-- A window `(name, base, size, dev)` of the route table (R70); the name is the device's (log entry 27). -/
structure Window where
  base : Nat
  size : Nat
  dev : Device
deriving DecidableEq, Repr

/-- An exact-match entry `(name, addr, dev)` of the route table (R70); the name is the device's (log entry 27). -/
structure ExactEntry where
  addr : Nat
  dev : Device
deriving DecidableEq, Repr

/-- What an agent outside the block can do to it (`47_run_loop_host.md` R258): one port operation. -/
inductive PortOp where
  /-- `BusRead(w, pa)` -/
  | busRead (w : Width) (pa : Word)
  /-- `BusWrite(w, pa, v)` -/
  | busWrite (w : Width) (pa : Word) (v : Quad)
  /-- `register_function(callback)` -/
  | registerFunction
  /-- `add_event(handler_id, cycles_from_now, payload)`: a signed 64-bit offset and a u64 (`46_scheduler.md` R226) -/
  | addEvent (handlerId : Nat) (cyclesFromNow : Dword) (payload : Dword)
  /-- `add_timer(handler_id, interval)`: a u64 (`46_scheduler.md` R228) -/
  | addTimer (handlerId : Nat) (interval : Dword)
  /-- `irq_set(i, level)` -/
  | irqSet (line : Nat) (level : Bool)
  /-- `InterlockRequest(VU)`, vector unit 0 in its turn only -/
  | interlockRequest
  /-- wake of the graphics worker: no effect on the block (R83) -/
  | wakeGraphics
deriving DecidableEq, Repr

/-- What the environment does at one point where the spec lets it act (a device access, an external unit's turn, a
fired handler): the value it answers with (used by a device read alone) and the port operations it performs, in
order, before it returns (`20_memory.md` R78, `46_scheduler.md` R222, `47_run_loop_host.md` R255). -/
structure EnvAnswer where
  value : Quad
  ops : List PortOp
deriving DecidableEq, Repr, Inhabited

/-- The external units the run loop advances (`47_run_loop_host.md` R251): secondary CPU, DMA controller, vector
units 0 and 1, video interface. -/
inductive ExtUnit where
  | iop | dma | vu0 | vu1 | vif
deriving DecidableEq, Repr

/-- The configuration record CFG (`00_scope.md` R8). `GPR_COUNT`, `GPR_WIDTH`, `PC_WIDTH`, `PADDR_WIDTH`,
`BUS_WIDTHS` and `INSTR_BYTES` are fixed by the source, and `BYTE_ORDER` cannot be switched (`20_memory.md` R62); they
are built into the types and the decoder. `ROUTES` is the pair of `windows` and `exact`. -/
structure Config where
  translate : Word → Word
  windows : List Window
  exact : List ExactEntry
  decodeTable : List Row
  /-- `UNMAPPED_READ_VALUE`, one value (R8). DESIGN CHOICE (log entry 29): the spec states no width for it; it is held
  in 128 bits, the widest an access takes, and an access cuts it to its own width (`20_memory.md` R65, "as u(w)"). -/
  unmappedReadValue : Quad
  ieStackDepth : Nat
  causeCode : ExcKind → BitVec 5
  excVector : Word
  resetPc : Word
  irqCheck : IrqCheck
  nIrq : Nat
  stepCost : Nat
  latency : PipeClass → Nat
  throughput : PipeClass → Nat
  minRunCycles : Nat
  idleBudget : Nat
  busDiv : Nat
  iopDiv : Nat
  frameCycles : Option Dword
  icacheLines : Nat
  icacheEnabled : Bool
  /-- `INIT_IMAGE` of every MEMORY device (`10_state.md` R20, R52), by physical address. -/
  initImage : Nat → Byte
  /-- What each external unit's `reset()` does to the block: a finite sequence of port operations
  (`47_run_loop_host.md` R255, R258; `70_reset_and_hazards.md` R303; log entry 17). -/
  unitReset : ExtUnit → List PortOp
  /-- What each REGISTER device's `reset()` does to the block (R255, R258, R303; log entry 17). -/
  deviceReset : DeviceName → List PortOp

/-- A read-write MEMORY device with all five widths (R71). -/
def ramDevice (n : DeviceName) : Device :=
  { name := n, kind := .memory false, rdWidths := Width.all, wrWidths := Width.all }

/-- A read-only MEMORY device: its `wr_widths` is empty (R71). -/
def romDevice (n : DeviceName) : Device :=
  { name := n, kind := .memory true, rdWidths := Width.all, wrWidths := [] }

/-- A REGISTER device with all five widths (R71). -/
def registerDevice (n : DeviceName) : Device :=
  { name := n, kind := .register, rdWidths := Width.all, wrWidths := Width.all }

/-- The windows of CFG_REF in the order of `20_memory.md` R72. PRESUMED (log entry 1): the spec marks every address
and size as general knowledge. -/
def refWindows : List Window :=
  [ { base := 0x1C000000, size := 0x00200000, dev := ramDevice .iopRam },
    { base := 0x10000000, size := 0x00002000, dev := registerDevice .timers },
    { base := 0x12000000, size := 0x00002000, dev := registerDevice .gsPriv },
    { base := 0x10008000, size := 0x00007000, dev := registerDevice .dmac },
    { base := 0x11000000, size := 0x00001000, dev := ramDevice .vu0Code },
    { base := 0x11004000, size := 0x00001000, dev := ramDevice .vu0Data },
    { base := 0x11008000, size := 0x00004000, dev := ramDevice .vu1Code },
    { base := 0x1100C000, size := 0x00004000, dev := ramDevice .vu1Data },
    { base := 0x00000000, size := 0x02000000, dev := ramDevice .mainRam },
    { base := 0x1FC00000, size := 0x00400000, dev := romDevice .bootRom } ]

/-- The exact-match entries of CFG_REF (R72). -/
def refExact : List ExactEntry :=
  [ { addr := 0x1000F000, dev := registerDevice .intcStat },
    { addr := 0x1000F010, dev := registerDevice .intcMask } ]

/-- Latency per class in CFG_REF (`40_core_step.md` R128). -/
def refLatency : PipeClass → Nat
  | .mult => 4
  | .div => 37
  | .int | .branch | .ldst | .copctl => 1

/-- Throughput per class in CFG_REF (R128). -/
def refThroughput : PipeClass → Nat
  | .mult => 2
  | .div => 37
  | .int | .branch | .ldst | .copctl => 1

/-- Cause codes in CFG_REF (`60_exceptions.md` R271). -/
def refCauseCode : ExcKind → BitVec 5
  | .interrupt => 0
  | .syscall => 8
  | .breakpoint => 9
  | .trap => 13

/-- The reference configuration CFG_REF (R8). Every definition of the machine that a parameter of R8 reaches takes the
configuration as its last argument `c`, with `cfg` where none is given; `exec`, `step` and `State.reset`, whose types
the host fixes, are the machine at `cfg`. -/
def cfg : Config :=
  { translate := fun v => v &&& 0x1FFFFFFF#32
    windows := refWindows
    exact := refExact
    decodeTable := decodeTable
    unmappedReadValue := 0
    ieStackDepth := 3
    causeCode := refCauseCode
    excVector := 0x80000180#32
    resetPc := 0xBFC00000#32
    irqCheck := .perSlice
    nIrq := 8
    stepCost := 1
    latency := refLatency
    throughput := refThroughput
    minRunCycles := 1
    idleBudget := 32
    busDiv := 2
    iopDiv := 8
    frameCycles := none
    icacheLines := 0
    icacheEnabled := false
    initImage := fun _ => 0
    unitReset := fun _ => []
    deviceReset := fun _ => [] }

/-- FREE VALUE (log entry 5): what the environment does the n-th time it is consulted beyond the answers listed in
the state (`20_memory.md` R78: "a w-bit value that the spec does not determine"). -/
opaque Config.freeAnswer : Nat → EnvAnswer

/-- FREE VALUE (log entry 16): the constant `SIGNATURE` of a saved blob (`47_run_loop_host.md` R262). -/
opaque Config.saveSignature : Nat

/-- FREE VALUE (log entry 16): the constant `VERSION` of a saved blob (`47_run_loop_host.md` R262). -/
opaque Config.saveVersion : Nat

end Sys2Proof
end

