-- ==== Sys2Proof/Machine/State.lean ====
section
/-! DEFINITION. The machine's state: every element of the table of `10_state.md` R20, the run loop's place, the
environment's answers and the output streams, all plain data; the state after reset (`70_reset_and_hazards.md`
R300, R302); and the reasons a step can stop. -/

namespace Sys2Proof.Machine

/-- The fatal codes, complete (`60_exceptions.md` R294). -/
inductive FatalCode where
  | misalignedAccess
  | misalignedBranchTarget
  | unregisteredHandler
  | unknownInstruction
  | branchInDelaySlot
  | unknownCop0Register
deriving DecidableEq, Repr

/-- How an instruction handler ends, exactly one of these (`00_scope.md` R12). `fatal` carries the word or address
of its diagnostic record (R293). -/
inductive Completion where
  | done
  | branch (target : Word)
  | ret (target : Word)
  | hold
  | exception (code : BitVec 5)
  | fatal (code : FatalCode) (info : Word)
deriving DecidableEq, Repr

/-- Instruction kind for hazard purposes (`40_core_step.md` R126). -/
inductive InstrKind where
  | plain | mult | div
deriving DecidableEq, Repr

/-- Direction of a dependency record (R127). -/
inductive DepDir where
  | read | write
deriving DecidableEq, Repr

/-- Register file of a dependency record (R127): `SPECIAL` 0 = LO, 1 = HI, 2 = SA; `COP0` 12, 13, 14. -/
inductive RegFile where
  | gpr | special | cop0
deriving DecidableEq, Repr

/-- A dependency record `(dir, file, index)` (R127). -/
structure Dep where
  dir : DepDir
  file : RegFile
  index : Nat
deriving DecidableEq, Repr

/-- The decoded-instruction descriptor (R124). -/
structure Descriptor where
  handler : Handler
  cls : PipeClass
  latency : Nat
  throughput : Nat
  kind : InstrKind
  deps : List Dep
deriving DecidableEq, Repr

/-- A line of the inert instruction-cache table (`10_state.md` R41). -/
structure IcacheLine where
  tag : Word
  valid : Bool
deriving DecidableEq, Repr

/-- A one-shot event (`10_state.md` R46); `seq` is also its `event_id`. -/
structure ScheduledEvent where
  absoluteCycle : Nat
  handlerId : Nat
  payload : Dword
  seq : Nat
deriving DecidableEq, Repr

/-- A periodic timer (`10_state.md` R47). -/
structure PeriodicTimer where
  intervalCycles : Dword
  nextFireCycle : Nat
  handlerId : Nat
  seq : Nat
  timerId : Nat
deriving DecidableEq, Repr

/-- The state of the scheduler (`10_state.md` R45 to R47). Its counts and cycles are unbounded naturals, as
`46_scheduler.md` R240 allows (log entry 7); `handlers` is the set of valid handler ids. -/
structure Sched where
  runCycles : Nat
  seq : Nat
  events : List ScheduledEvent
  timers : List PeriodicTimer
  handlers : List Nat
  nextHandlerId : Nat
  cpuBudget : Nat
  busBudget : Nat
  iopBudget : Nat
  busRem : Nat
  iopRem : Nat
deriving DecidableEq, Repr

/-- The scheduler after its own reset (`46_scheduler.md` R236). -/
def Sched.reset : Sched :=
  { runCycles := 0, seq := 0, events := [], timers := [], handlers := [], nextHandlerId := 0
    cpuBudget := 0, busBudget := 0, iopBudget := 0, busRem := 0, iopRem := 0 }

/-- An entry of the snapshot that `process_events` takes (`46_scheduler.md` R233): an event or a timer, as it is when
the snapshot is taken. -/
inductive Due where
  | event (e : ScheduledEvent)
  | timer (t : PeriodicTimer)
deriving DecidableEq, Repr

/-- Where the run loop stands (log entry 3): what moves next. -/
inductive Phase where
  /-- no call in progress: the host calls `run_frame` next -/
  | idle
  /-- at the top of `run_frame`'s repeat loop: `run_iteration` begins next -/
  | frame
  /-- inside `CoreRun`, with `remaining` cycles of the slice left (R139) -/
  | core (remaining : Nat)
  /-- the turns of these external units come next, in order (R251); then `process_events` -/
  | units (todo : List ExtUnit)
  /-- inside `process_events`, with these entries of the snapshot left (R233) -/
  | firing (due : List Due)
deriving DecidableEq, Repr

/-- A record of one of the block's output-only streams (R75, R78, R222, R293, R312): no rule reads them. -/
inductive OutEvent where
  /-- stream `log`: `UnmappedRead(pa, w)` (`20_memory.md` R75) -/
  | unmappedRead (pa : Word) (w : Width)
  /-- stream `diag`: `(code, pc, word or address)` (`60_exceptions.md` R293) -/
  | diag (code : FatalCode) (pc info : Word)
  /-- the advisory `Hazard(cur_pc, raw, war, waw, md_busy)` (`70_reset_and_hazards.md` R312) -/
  | hazard (pc : Word) (raw war waw : List (RegFile × Nat)) (mdBusy : Bool)
  /-- `(Read, dev, w, pa, value)` at a REGISTER device (`20_memory.md` R78) -/
  | devRead (dev : DeviceName) (w : Width) (pa : Word) (value : Quad)
  /-- `(Write, dev, w, pa, v)` at a REGISTER device (R78) -/
  | devWrite (dev : DeviceName) (w : Width) (pa : Word) (value : Quad)
  /-- `run(cycles)` of an external unit (`47_run_loop_host.md` R251) -/
  | unitTurn (unit : ExtUnit) (cycles : Nat)
  /-- `Fire(handler_id, payload, cycle)` (`46_scheduler.md` R222) -/
  | fire (handlerId : Nat) (payload : Dword) (cycle : Nat)
  /-- wake of the graphics worker, by a write to the privileged graphics window (`20_memory.md` R83, R258) -/
  | wakeGraphics
deriving DecidableEq, Repr

/-- Memory behind the MEMORY devices: (physical address, byte) pairs in one canonical form (`Memory.wf`). -/
abbrev Memory := List Host.Cell

/-- The machine's state. -/
structure State where
  /-- `GPR[0..31]`, 128 bits each (`10_state.md` R21) -/
  gpr : Vector Quad 32
  /-- `LO` (R27) -/
  lo : Quad
  /-- `HI` (R27) -/
  hi : Quad
  /-- `SA`, inert (R28) -/
  sa : Dword
  /-- `pc` (R29) -/
  pc : Word
  /-- `next_pc` (R31) -/
  nextPc : Word
  /-- `branch_pending` (R32) -/
  branchPending : Bool
  /-- `branch_target` (R32) -/
  branchTarget : Word
  /-- `STATUS`, coprocessor-0 register 12 (R34) -/
  status : Word
  /-- `CAUSE.ExcCode` of coprocessor-0 register 13 (R35) -/
  excCode : BitVec 5
  /-- `CAUSE.BD` of coprocessor-0 register 13 (R35) -/
  bd : Bool
  /-- `EPC`, coprocessor-0 register 14 (R36) -/
  epc : Word
  /-- `wait_for_irq` (R38) -/
  waitForIrq : Bool
  /-- `FPR[0..31]`, inert (R39) -/
  fpr : Vector Word 32
  /-- `FCOND`, inert (R39) -/
  fcond : Bool
  /-- `ICACHE[0..ICACHE_LINES-1]`, inert (R41) -/
  icache : List IcacheLine
  /-- `last_desc` of the hazard tracker (R54) -/
  lastDesc : Option Descriptor
  /-- `md_ready_cycle` of the hazard tracker (R54) -/
  mdReadyCycle : Nat
  /-- `ilock_cop2` (R42) -/
  ilockCop2 : Bool
  /-- `ilock_vu` (R42) -/
  ilockVu : Bool
  /-- contents of every MEMORY device, by physical address (R52) -/
  mem : Memory
  /-- the scheduler (R45 to R47) -/
  sched : Sched
  /-- `frame_complete` (R51) -/
  frameComplete : Bool
  /-- the latch `fatal` (R43) -/
  fatal : Bool
  /-- `fatal_code` (R43) -/
  fatalCode : Option FatalCode
  /-- `irq_line[0..N_IRQ-1]` (R44); `CAUSE.IP` is a live view of it (R35) -/
  irqLine : BitVec 8
  /-- MODEL'S OWN (log entry 3): where the run loop stands -/
  phase : Phase
  /-- MODEL'S OWN (log entry 26): the handler id of the LOOP's frame-end handler, if one is registered (R254) -/
  frameHandler : Option Nat
  /-- MODEL'S OWN (log entry 5): the environment's next answers, oldest first -/
  env : List EnvAnswer
  /-- MODEL'S OWN (log entry 5): how many free answers have been taken -/
  draws : Nat
  /-- MODEL'S OWN (log entry 8): the output streams, newest record first -/
  out : List OutEvent
deriving DecidableEq, Repr

/-- The state elements after reset (`70_reset_and_hazards.md` R300, R302), before any component registers again (R303):
every element 0, empty or none but `pc` and `next_pc`. The last five fields are the model's own (log entry 11). -/
def State.resetOf (c : Config) : State :=
  { gpr := Vector.replicate 32 0
    lo := 0
    hi := 0
    sa := 0
    pc := c.resetPc
    nextPc := c.resetPc + 4
    branchPending := false
    branchTarget := 0
    status := 0
    excCode := 0
    bd := false
    epc := 0
    waitForIrq := false
    fpr := Vector.replicate 32 0
    fcond := false
    icache := List.replicate c.icacheLines { tag := 0, valid := false }
    lastDesc := none
    mdReadyCycle := 0
    ilockCop2 := false
    ilockVu := false
    mem := []
    sched := Sched.reset
    frameComplete := false
    fatal := false
    fatalCode := none
    irqLine := 0
    phase := .idle
    frameHandler := none
    env := []
    draws := 0
    out := [] }

/-- The machine right after reset under CFG_REF, where no component registers anything (R303). -/
def State.reset : State := State.resetOf cfg

/-- Why a step has no next state. -/
inductive Fault where
  /-- Raised by `step` alone, in a state whose latch `fatal` is set: "fatal errors unwind out of the run loop entirely
  and stop the session" (`60_exceptions.md` R295; `93_implementation_defined.md` I29: "stuck"). Safe: no step of the
  machine follows (log entry 2). -/
  | fatalLatched (code : Option FatalCode)
deriving DecidableEq, Repr

/-- What the model gives no meaning. -/
inductive Refusal where
  /-- Raised by `exec` for an instruction not modelled yet, by its mnemonic in the opcode table. Safe. No arm uses
  it: all 39 instructions have their meaning. -/
  | notModelled (mnemonic : String)
  /-- Raised by `hostCall` when the host calls a port in the middle of an iteration, which the spec forbids the caller
  (`47_run_loop_host.md` R260; `93_implementation_defined.md` I31: "refuse"). Safe (log entry 15). -/
  | hostCallMidIteration
deriving DecidableEq, Repr

end Sys2Proof.Machine
end

