-- ==== Sys2Proof/Machine/Flags.lean ====
section
/-! DEFINITION. The bit fields of STATUS and CAUSE (`10_state.md` R34, R35) and the interrupt-enable stack
(`60_exceptions.md` R282, R290). The integer unit has no status flags and no condition codes (`10_state.md` R40):
these fields are the only flags an admitted instruction touches. -/

namespace Sys2Proof.Machine

/-- The bits of STATUS that hold the interrupt-enable stack: `IE_STACK_DEPTH-1:0` (R34). -/
def ieMask (c : Config := cfg) : Word := BitVec.ofNat 32 (2 ^ c.ieStackDepth - 1)

/-- The deepest entry of the interrupt-enable stack. -/
def ieDeepest (c : Config := cfg) : Word := BitVec.ofNat 32 (2 ^ (c.ieStackDepth - 1))

/-- The bits of STATUS that hold `IM`: `8+N_IRQ-1:8` (R34). -/
def imMask (c : Config := cfg) : Word := BitVec.ofNat 32 ((2 ^ c.nIrq - 1) * 256)

/-- `STATUS_WMASK`: the OR of the writable fields of STATUS (`45_system.md` R210). -/
def statusWmask (c : Config := cfg) : Word := ieMask c ||| imMask c

/-- Push of the interrupt-enable stack (R282): every entry moves one place away from the top, the deepest is lost,
the top becomes 0. -/
def pushIE (st : Word) (c : Config := cfg) : Word := (st &&& ~~~(ieMask c)) ||| ((st <<< 1) &&& ieMask c)

/-- Pop of the interrupt-enable stack (R290): every entry moves one place toward the top, the deepest keeps its
value. -/
def popIE (st : Word) (c : Config := cfg) : Word :=
  (st &&& ~~~(ieMask c)) ||| (((st &&& ieMask c) >>> 1) ||| (st &&& ieDeepest c))

/-- `STATUS.IE0`, the global enable flag (R34). -/
def State.ie0 (s : State) : Bool := s.status.getLsbD 0

/-- `STATUS.IM`, the enabled-interrupt mask (R34). -/
def State.im (s : State) : Byte := s.status.extractLsb' 8 8

/-- `CAUSE` as a 32-bit value (R35): `BD`, `IP` (the lines as they are now), `ExcCode`; every other bit reads 0. -/
def State.cause (s : State) : Word :=
  BitVec.ofBool s.bd ++ 0#15 ++ s.irqLine ++ 0#1 ++ s.excCode ++ 0#2

/-- `CAUSE.IP & STATUS.IM`: the enabled lines that are asserted (R275). -/
def State.pend (s : State) : Byte := s.irqLine &&& s.im

end Sys2Proof.Machine
end

