-- ==== Sys2Proof/Machine/Operands.lean ====
section
/-! DEFINITION. Reading and writing registers (`00_scope.md` R11, `10_state.md` R22, R23, R27) and assembling
operands (`30_encoding.md` R106, `44_loadstore.md` R180, `43_branch.md` R170). -/

namespace Sys2Proof.Machine

/-- `xq[i]`: all 128 bits of a general register; register 0 reads 0 (R11, R22). -/
def State.xq (s : State) (r : Reg) : Quad := if r = 0 then 0 else s.gpr[r]

/-- `x[i]`: bits 63:0 of a general register (R11). -/
def State.x (s : State) (r : Reg) : Dword := (s.xq r).extractLsb' 0 64

/-- `x[i][31:0]`, the operand of a 32-bit operation (`41_integer.md` R154). -/
def State.x32 (s : State) (r : Reg) : Word := (s.x r).extractLsb' 0 32

/-- Bits 63:0 replaced, bits 127:64 kept (R23, R27). -/
def withLow64 (q : Quad) (v : Dword) : Quad := q.extractLsb' 64 64 ++ v

/-- `xq[i] <- v`: a write to register 0 does nothing (R11, R22). -/
def State.setXq (s : State) (r : Reg) (v : Quad) : State :=
  { s with gpr := if r = 0 then s.gpr else s.gpr.set r v }

/-- `x[i] <- v`: bits 63:0 written, bits 127:64 unchanged; a write to register 0 does nothing (R11, R22, R23). -/
def State.setX (s : State) (r : Reg) (v : Dword) : State :=
  { s with gpr := if r = 0 then s.gpr else s.gpr.set r (withLow64 s.gpr[r] v) }

/-- `sext_64` of a 32-bit value (R10). -/
def sext64 (v : Word) : Dword := v.signExtend 64

/-- `sext_32(imm16)` (R106). -/
def sextImm (imm : Half) : Word := imm.signExtend 32

/-- The effective CPU address of a load or store (R180): base + sign-extended displacement, mod 2^32. -/
def State.effAddr (s : State) (base : Reg) (imm : Half) : Word := s.x32 base + sextImm imm

/-- The target of a taken conditional branch (R170): `next_pc + (sext_32(imm16) << 2)`. -/
def branchDest (nextPc : Word) (imm : Half) : Word := nextPc + (sextImm imm <<< 2)

/-- The target of J and JAL (R170): `{next_pc[31:28], index26, 0b00}`. -/
def jumpDest (nextPc : Word) (index : BitVec 26) : Word := nextPc.extractLsb' 28 4 ++ index ++ 0#2

/-- The LO and HI pair after a multiply or divide (`42_muldiv.md` R160): each half sign-extended into bits 63:0. -/
def State.setLoHi (s : State) (l h : Word) : State :=
  { s with lo := withLow64 s.lo (sext64 l), hi := withLow64 s.hi (sext64 h) }

end Sys2Proof.Machine
end

