-- ==== Sys2Proof/Machine/Ops.lean ====
section
/-! DEFINITION. The shared operations: emitting a record, latching a fatal code (`60_exceptions.md` R293), taking an
exception (R281), returning from one (`45_system.md` R208), the interrupt check (R275, R276), and Advance
(`40_core_step.md` R135). -/

namespace Sys2Proof.Machine

/-- Emit one record on the output streams. -/
def State.emit (s : State) (e : OutEvent) : State := { s with out := e :: s.out }

/-- `fatal c` (R293): the latch and its code are set and one diagnostic record is emitted; nothing else changes. -/
def State.latchFatal (s : State) (c : FatalCode) (info : Word) : State :=
  { s with fatal := true, fatalCode := some c, out := .diag c s.pc info :: s.out }

/-- The saved pc (R280): the address of the instruction, or of the branch before it when it is in a delay slot. -/
def savedPc (a : Word) (slot : Bool) : Word := if slot then a - 4 else a

/-- TAKING AN EXCEPTION, `TrapEntry(code, a, slot)` (R281). -/
def State.trapEntry (s : State) (code : BitVec 5) (a : Word) (slot : Bool) (c : Config := cfg) : State :=
  { s with
    epc := savedPc a slot
    bd := slot
    excCode := code
    status := pushIE s.status c
    pc := c.excVector
    branchPending := false
    waitForIrq := false
    lastDesc := none }

/-- The state change of a return from exception (R208, R290) besides the transfer of control: the pop. -/
def State.popStatus (s : State) (c : Config := cfg) : State := { s with status := popIE s.status c }

/-- `InterruptCheck()` (R275): wake when an enabled line is asserted (R276), then take the interrupt if `IE0`
allows. -/
def State.interruptCheck (s : State) (c : Config := cfg) : State :=
  if s.pend = 0 then s
  else if s.ie0 then
    ({ s with waitForIrq := false }).trapEntry (c.causeCode .interrupt) s.pc s.branchPending c
  else { s with waitForIrq := false }

/-- `Advance(outcome, in_slot, cur_pc)` (R135), with `in_slot` = `branch_pending` and `cur_pc` = `pc`, which no
handler changes before it. -/
def State.advance (s : State) (o : Completion) (c : Config := cfg) : State :=
  match o with
  | .fatal f info => s.latchFatal f info
  | .exception code => s.trapEntry code s.pc s.branchPending c
  | .hold => s
  | .branch t => { s with branchPending := true, branchTarget := t, pc := s.nextPc }
  | .ret t => { s with pc := t, branchPending := false }
  | .done =>
    if s.branchPending then { s with pc := s.branchTarget, branchPending := false }
    else { s with pc := s.nextPc }

end Sys2Proof.Machine
end

