-- ==== Sys2Proof/Machine/Hazard.lean ====
section
/-! DEFINITION. The descriptor of every instruction (`40_core_step.md` R124 to R129), the advisory hazard tracker
(`70_reset_and_hazards.md` R312 to R315), and `retire`: what every handler ends with, Advance and then HazardTrack
(R120). -/

namespace Sys2Proof.Machine

/-- A read record of a general register (R127). -/
def rGpr (r : Reg) : Dep := { dir := .read, file := .gpr, index := r.val }

/-- A write record of a general register (R127). -/
def wGpr (r : Reg) : Dep := { dir := .write, file := .gpr, index := r.val }

/-- A read record of LO (0), HI (1) or SA (2) (R127). -/
def rSpecial (i : Nat) : Dep := { dir := .read, file := .special, index := i }

/-- A write record of LO (0), HI (1) or SA (2) (R127). -/
def wSpecial (i : Nat) : Dep := { dir := .write, file := .special, index := i }

/-- A read record of a coprocessor-0 register (R127). -/
def rCop0 (n : Nat) : Dep := { dir := .read, file := .cop0, index := n }

/-- A write record of a coprocessor-0 register (R127). -/
def wCop0 (n : Nat) : Dep := { dir := .write, file := .cop0, index := n }

/-- A descriptor: latency and throughput are those of the class (R128). -/
def mkDesc (h : Handler) (p : PipeClass) (k : InstrKind) (deps : List Dep) (c : Config := cfg) : Descriptor :=
  { handler := h, cls := p, latency := c.latency p, throughput := c.throughput p, kind := k, deps := deps }

/-- The descriptor of a load (R129). -/
def loadDesc (h : Handler) (rt base : Reg) (c : Config := cfg) : Descriptor :=
  mkDesc h .ldst .plain [rGpr base, wGpr rt] c

/-- The descriptor of a store (R129). -/
def storeDesc (h : Handler) (rt base : Reg) (c : Config := cfg) : Descriptor :=
  mkDesc h .ldst .plain [rGpr base, rGpr rt] c

/-- The descriptor of a trap-on-condition instruction (R129). -/
def trapDesc (h : Handler) (rs rt : Reg) (c : Config := cfg) : Descriptor :=
  mkDesc h .int .plain [rGpr rs, rGpr rt] c

/-- The descriptor of each instruction, the table of R129. -/
def descriptor (i : Instr) (c : Config := cfg) : Descriptor :=
  match i with
  | .sll rd rt _ => mkDesc .sll .int .plain [rGpr rt, wGpr rd] c
  | .add rd rs rt => mkDesc .add .int .plain [rGpr rs, rGpr rt, wGpr rd] c
  | .addi rt rs _ => mkDesc .addi .int .plain [rGpr rs, wGpr rt] c
  | .daddu rd rs rt => mkDesc .daddu .int .plain [rGpr rs, rGpr rt, wGpr rd] c
  | .mult rs rt => mkDesc .mult .mult .mult [rGpr rs, rGpr rt, wSpecial 0, wSpecial 1] c
  | .div rs rt => mkDesc .div .div .div [rGpr rs, rGpr rt, wSpecial 0, wSpecial 1] c
  | .mfhi rd => mkDesc .mfhi .int .plain [rSpecial 1, wGpr rd] c
  | .mflo rd => mkDesc .mflo .int .plain [rSpecial 0, wGpr rd] c
  | .beq rs rt _ => mkDesc .beq .branch .plain [rGpr rs, rGpr rt] c
  | .bne rs rt _ => mkDesc .bne .branch .plain [rGpr rs, rGpr rt] c
  | .j _ => mkDesc .j .branch .plain [] c
  | .jal _ => mkDesc .jal .branch .plain [wGpr 31] c
  | .jr rs => mkDesc .jr .branch .plain [rGpr rs] c
  | .lb rt base _ => loadDesc .lb rt base c
  | .lbu rt base _ => loadDesc .lbu rt base c
  | .lh rt base _ => loadDesc .lh rt base c
  | .lhu rt base _ => loadDesc .lhu rt base c
  | .lw rt base _ => loadDesc .lw rt base c
  | .lwu rt base _ => loadDesc .lwu rt base c
  | .ld rt base _ => loadDesc .ld rt base c
  | .lq rt base _ => loadDesc .lq rt base c
  | .sb rt base _ => storeDesc .sb rt base c
  | .sh rt base _ => storeDesc .sh rt base c
  | .sw rt base _ => storeDesc .sw rt base c
  | .sd rt base _ => storeDesc .sd rt base c
  | .sq rt base _ => storeDesc .sq rt base c
  | .tge rs rt _ => trapDesc .tge rs rt c
  | .tgeu rs rt _ => trapDesc .tgeu rs rt c
  | .tlt rs rt _ => trapDesc .tlt rs rt c
  | .tltu rs rt _ => trapDesc .tltu rs rt c
  | .teq rs rt _ => trapDesc .teq rs rt c
  | .tne rs rt _ => trapDesc .tne rs rt c
  | .syscall _ => mkDesc .syscall .copctl .plain [] c
  | .breakpoint _ => mkDesc .breakpoint .copctl .plain [] c
  | .eret => mkDesc .eret .copctl .plain [rCop0 14, rCop0 12, wCop0 12] c
  | .mfc0 rt n => mkDesc .mfc0 .copctl .plain [rCop0 n, wGpr rt] c
  | .mtc0 rt n => mkDesc .mtc0 .copctl .plain [rGpr rt, wCop0 n] c
  | .wait => mkDesc .wait .copctl .plain [] c
  | .cfc2i => mkDesc .cfc2i .copctl .plain [wGpr 0] c

/-- A record naming general register 0 is no dependency (R313). -/
def Dep.counts (d : Dep) : Bool := !(decide (d.file = .gpr) && decide (d.index = 0))

/-- Put a register into a list that stands for a set. -/
def addOnce (x : RegFile × Nat) (l : List (RegFile × Nat)) : List (RegFile × Nat) :=
  if x ∈ l then l else l ++ [x]

/-- The registers a descriptor has a record of direction `dir` on, after R313, each once, in record order. -/
def Descriptor.regs (d : Descriptor) (dir : DepDir) : List (RegFile × Nat) :=
  ((d.deps.filter (fun r => r.counts && decide (r.dir = dir))).map (fun r => (r.file, r.index))).foldl
    (fun acc x => addOnce x acc) []

/-- { r : (dp, r) in P and (dc, r) in C }, in the order of the current descriptor's records (R314); empty when there
is no previous descriptor (R312). -/
def conflicts (dp dc : DepDir) (p : Option Descriptor) (c : Descriptor) : List (RegFile × Nat) :=
  match p with
  | none => []
  | some p => (c.regs dc).filter (fun r => decide (r ∈ p.regs dp))

/-- Read after write (R314). -/
def raw (p : Option Descriptor) (c : Descriptor) : List (RegFile × Nat) := conflicts .write .read p c

/-- Write after read (R314). -/
def war (p : Option Descriptor) (c : Descriptor) : List (RegFile × Nat) := conflicts .read .write p c

/-- Write after write (R314). -/
def waw (p : Option Descriptor) (c : Descriptor) : List (RegFile × Nat) := conflicts .write .write p c

/-- `md_busy(desc, now)` (R315). -/
def mdBusy (c : Descriptor) (now ready : Nat) : Bool :=
  c.deps.any (fun r => decide (r.file = .special) && (decide (r.index = 0) || decide (r.index = 1))) &&
    decide (now < ready)

/-- `now` = `run_cycles - remaining` (R312). -/
def State.now (s : State) : Nat :=
  match s.phase with
  | .core r => s.sched.runCycles - r
  | .idle | .frame | .units _ | .firing _ => s.sched.runCycles

/-- The `Hazard` record of an instruction at `curPc` (R312). -/
def State.hazardRecord (s : State) (d : Descriptor) (curPc : Word) : OutEvent :=
  .hazard curPc (raw s.lastDesc d) (war s.lastDesc d) (waw s.lastDesc d) (mdBusy d s.now s.mdReadyCycle)

/-- The tracker's update after an outcome of `Done` or `Branch` (R312). -/
def State.track (s : State) (d : Descriptor) (curPc : Word) : State :=
  { s with
    out := s.hazardRecord d curPc :: s.out
    mdReadyCycle := if d.kind = .plain then s.mdReadyCycle else s.now + d.latency
    lastDesc := some d }

/-- `HazardTrack(desc, outcome)` (R312); advisory only. -/
def State.hazardTrack (s : State) (d : Descriptor) (o : Completion) (curPc : Word) : State :=
  match o with
  | .done => s.track d curPc
  | .branch _ => s.track d curPc
  | .ret _ => { s with lastDesc := none }
  | .hold => s
  | .exception _ => s
  | .fatal _ _ => s

/-- How every handler ends (R120): Advance, then HazardTrack with the address of the instruction. -/
def State.retire (s : State) (d : Descriptor) (o : Completion) (c : Config := cfg) : State :=
  (s.advance o c).hazardTrack d o s.pc

end Sys2Proof.Machine
end

