-- ==== Sys2Proof/Machine/Branch.lean ====
section
/-! DEFINITION. Control transfer (`43_branch.md`): BEQ, BNE, J, JAL, JR. Every one has one delay slot (R170) and is
fatal in a delay slot (`40_core_step.md` R132). -/

namespace Sys2Proof.Machine

/-- The address after the delay slot, `(next_pc + 4) mod 2^32` (R170). -/
def State.afterSlot (s : State) : Word := s.nextPc + 4

/-- How a control transfer ends: `Fatal(BranchInDelaySlot)` before any other check when it is in a delay slot (R132),
otherwise `o`. -/
def State.transfer (s : State) (o : Completion) : Completion :=
  if s.branchPending then .fatal .branchInDelaySlot s.pc else o

/-- A conditional branch (R170, R131): taken or not, it ends `Branch`. -/
def branchIf (d : Descriptor) (taken : Bool) (imm : Half) (s : State) (c : Config := cfg) :
    Host.Outcome State Fault Refusal :=
  .next (s.retire d (s.transfer (.branch (if taken then branchDest s.nextPc imm else s.afterSlot))) c)

/-- BEQ (R171): compares bits 63:0 (R176). -/
def execBeq (rs rt : Reg) (imm : Half) (s : State) (c : Config := cfg) : Host.Outcome State Fault Refusal :=
  branchIf (descriptor (.beq rs rt imm) c) (decide (s.x rs = s.x rt)) imm s c

/-- BNE (R172). -/
def execBne (rs rt : Reg) (imm : Half) (s : State) (c : Config := cfg) : Host.Outcome State Fault Refusal :=
  branchIf (descriptor (.bne rs rt imm) c) (decide (s.x rs ≠ s.x rt)) imm s c

/-- J (R175). -/
def execJ (index : BitVec 26) (s : State) (c : Config := cfg) : Host.Outcome State Fault Refusal :=
  .next (s.retire (descriptor (.j index) c) (s.transfer (.branch (jumpDest s.nextPc index))) c)

/-- JAL (R173): the link is the address after the delay slot, sign-extended, in register 31 (R178). -/
def execJal (index : BitVec 26) (s : State) (c : Config := cfg) : Host.Outcome State Fault Refusal :=
  .next ((if s.branchPending then s else s.setX 31 (sext64 s.afterSlot)).retire (descriptor (.jal index) c)
    (s.transfer (.branch (jumpDest s.nextPc index))) c)

/-- JR (R174): the target is checked here, before the delay slot runs (R177). -/
def execJr (rs : Reg) (s : State) (c : Config := cfg) : Host.Outcome State Fault Refusal :=
  .next (s.retire (descriptor (.jr rs) c) (s.transfer
    (if (s.x32 rs).toNat % 4 = 0 then .branch (s.x32 rs)
     else .fatal .misalignedBranchTarget (s.x32 rs))) c)

end Sys2Proof.Machine
end

