-- ==== Sys2Proof/Machine/Integer.lean ====
section
/-! DEFINITION. The integer instructions (`41_integer.md`): SLL, ADD, ADDI, DADDU. -/

namespace Sys2Proof.Machine

/-- An instruction that writes one general register's bits 63:0 and ends `Done`. -/
def writeDone (d : Descriptor) (rd : Reg) (v : Dword) (s : State) (c : Config := cfg) :
    Host.Outcome State Fault Refusal :=
  .next ((s.setX rd v).retire d .done c)

/-- SLL (R150): the 32-bit result sign-extended; the amount is the instruction's, never `SA`. -/
def execSll (rd rt : Reg) (sa : Nat) (s : State) (c : Config := cfg) : Host.Outcome State Fault Refusal :=
  writeDone (descriptor (.sll rd rt sa) c) rd (sext64 (s.x32 rt <<< sa)) s c

/-- ADD (R151): 32-bit, wraps, no overflow exception (R155). -/
def execAdd (rd rs rt : Reg) (s : State) (c : Config := cfg) : Host.Outcome State Fault Refusal :=
  writeDone (descriptor (.add rd rs rt) c) rd (sext64 (s.x32 rs + s.x32 rt)) s c

/-- ADDI (R152). -/
def execAddi (rt rs : Reg) (imm : Half) (s : State) (c : Config := cfg) : Host.Outcome State Fault Refusal :=
  writeDone (descriptor (.addi rt rs imm) c) rt (sext64 (s.x32 rs + sextImm imm)) s c

/-- DADDU (R153): 64-bit, wraps. -/
def execDaddu (rd rs rt : Reg) (s : State) (c : Config := cfg) : Host.Outcome State Fault Refusal :=
  writeDone (descriptor (.daddu rd rs rt) c) rd (s.x rs + s.x rt) s c

end Sys2Proof.Machine
end

