-- ==== Sys2Proof/Machine/Memory.lean ====
section
/-! DEFINITION. The bytes of the MEMORY devices (`20_memory.md` R77), held by physical address: reading and writing
one byte, runs of bytes, and the canonical form that every operation keeps (proofs: Laws/Memory.lean). -/

namespace Sys2Proof.Machine

namespace Memory

/-- What an address that is not listed reads as: its byte of `INIT_IMAGE` (`10_state.md` R52). -/
def initByte (a : Nat) (c : Config := cfg) : Byte := c.initImage a

/-- The byte at address `a`. -/
def read (m : Memory) (a : Nat) (c : Config := cfg) : Byte :=
  match m with
  | [] => initByte a c
  | (k, b) :: m => if a = k then b else read m a c

/-- The memory without an entry for `a`. -/
def erase : Memory → Nat → Memory
  | [], _ => []
  | (k, b) :: m, a => if a = k then erase m a else (k, b) :: erase m a

/-- The memory with an entry for `a` put before the first higher address. -/
def insert : Memory → Nat → Byte → Memory
  | [], a, b => [(a, b)]
  | (k, c) :: m, a, b => if a < k then (a, b) :: (k, c) :: m else (k, c) :: insert m a b

/-- Write the byte `b` at address `a`; writing what an unlisted address reads as removes the entry. -/
def write (m : Memory) (a : Nat) (b : Byte) (c : Config := cfg) : Memory :=
  if b = initByte a c then erase m a else insert (erase m a) a b

/-- `n` bytes from address `a` up, lowest address first. -/
def readBytes (m : Memory) (a n : Nat) (c : Config := cfg) : List Byte :=
  match n with
  | 0 => []
  | n + 1 => read m a c :: readBytes m (a + 1) n c

/-- Store bytes from address `a` up, lowest address first. -/
def writeBytes (m : Memory) (a : Nat) (bs : List Byte) (c : Config := cfg) : Memory :=
  match bs with
  | [] => m
  | b :: bs => writeBytes (write m a b c) (a + 1) bs c

/-- The canonical form: addresses strictly rising, and no entry equal to what its address reads as unlisted. -/
def wf (m : Memory) (c : Config := cfg) : Bool :=
  match m with
  | [] => true
  | (k, b) :: m => decide (b ≠ initByte k c) && m.all (fun e => decide (k < e.1)) && wf m c

end Memory

/-- The byte of memory at physical address `a`. -/
def State.byteAt (s : State) (a : Nat) (c : Config := cfg) : Byte := Memory.read s.mem a c

end Sys2Proof.Machine
end

