-- ==== Sys2Proof/Machine/Scheduler.lean ====
section
/-! DEFINITION. The scheduler's operations on its own state (`46_scheduler.md`): registration (R224, R226, R228), the
budget (R229 to R231) and the parts of `process_events` (R233). -/

namespace Sys2Proof.Machine

/-- `register_function(callback) -> handler_id` (R224). -/
def Sched.registerFunction (c : Sched) : Nat × Sched :=
  (c.nextHandlerId,
    { c with nextHandlerId := c.nextHandlerId + 1, handlers := c.handlers ++ [c.nextHandlerId] })

/-- `add_event(handler_id, cycles_from_now, payload) -> event_id` (R226), the offset a signed 64-bit value; `none` when
the id is not in `handlers` (fatal `UnregisteredHandler`). The cycle is `max(0, run_cycles + d)` in unbounded
integers. -/
def Sched.addEvent (c : Sched) (h : Nat) (d p : Dword) : Option (Nat × Sched) :=
  if c.handlers.contains h then
    some (c.seq,
      { c with
        events := c.events ++
          [{ absoluteCycle := ((c.runCycles : Int) + d.toInt).toNat, handlerId := h, payload := p, seq := c.seq }]
        seq := c.seq + 1 })
  else none

/-- `add_timer(handler_id, interval) -> timer_id` (R228); `none` when the id is not in `handlers`. -/
def Sched.addTimer (c : Sched) (h : Nat) (n : Dword) : Option (Nat × Sched) :=
  if c.handlers.contains h then
    some (c.seq,
      { c with
        timers := c.timers ++
          [{ intervalCycles := n, nextFireCycle := c.runCycles + n.toNat, handlerId := h, seq := c.seq
             timerId := c.seq }]
        seq := c.seq + 1 })
  else none

/-- The cycles at which something is pending (R229, the set P). -/
def Sched.pendingCycles (c : Sched) : List Nat :=
  c.events.map (·.absoluteCycle) ++ c.timers.map (·.nextFireCycle)

/-- The least number of a list, none for the empty list. -/
def listMin : List Nat → Option Nat
  | [] => none
  | n :: ns =>
    match listMin ns with
    | none => some n
    | some m => some (min n m)

/-- The budget b of R229. -/
def Sched.budget (c : Sched) (g : Config := cfg) : Nat :=
  match listMin c.pendingCycles with
  | none => g.idleBudget
  | some e => if e ≤ c.runCycles then g.minRunCycles else max g.minRunCycles (e - c.runCycles)

/-- `calculate_run_cycles()` (R229): the three budgets are latched; nothing else changes. -/
def Sched.calculateRunCycles (c : Sched) (g : Config := cfg) : Sched :=
  { c with
    cpuBudget := c.budget g
    busBudget := (c.busRem + c.budget g) / g.busDiv
    iopBudget := (c.iopRem + c.budget g) / g.iopDiv }

/-- `update_cycle_counts()` (R231): the latched budget is committed, the remainders carried (R232). -/
def Sched.updateCycleCounts (c : Sched) (g : Config := cfg) : Sched :=
  { c with
    runCycles := c.runCycles + c.cpuBudget
    busRem := (c.busRem + c.cpuBudget) % g.busDiv
    iopRem := (c.iopRem + c.cpuBudget) % g.iopDiv }

/-- The cycle of an entry as of the snapshot (R233). -/
def Due.cycle : Due → Nat
  | .event e => e.absoluteCycle
  | .timer t => t.nextFireCycle

/-- The sequence number of an entry as of the snapshot (R233). -/
def Due.seq : Due → Nat
  | .event e => e.seq
  | .timer t => t.seq

/-- Fires no later than: ascending by (cycle, seq) (R233, R234). -/
def Due.before (a b : Due) : Bool :=
  decide (a.cycle < b.cycle) || (decide (a.cycle = b.cycle) && decide (a.seq ≤ b.seq))

/-- Put an entry into a sorted list, after the entries that fire no later. -/
def insertDue (d : Due) : List Due → List Due
  | [] => [d]
  | e :: es => if Due.before e d then e :: insertDue d es else d :: e :: es

/-- Sort ascending by (cycle, seq) (R233). -/
def sortDue (l : List Due) : List Due := l.foldl (fun acc d => insertDue d acc) []

/-- The snapshot of `process_events` (R233): every due event and timer, sorted. -/
def Sched.dueNow (c : Sched) : List Due :=
  sortDue
    ((c.events.filter (fun e => decide (e.absoluteCycle ≤ c.runCycles))).map Due.event ++
     (c.timers.filter (fun t => decide (t.nextFireCycle ≤ c.runCycles))).map Due.timer)

/-- "events without x" (R233). -/
def Sched.removeEvent (c : Sched) (e : ScheduledEvent) : Sched := { c with events := c.events.erase e }

/-- A timer after its re-arm (R233): one interval later, with the sequence number `q`. -/
def PeriodicTimer.rearmed (t : PeriodicTimer) (q : Nat) : PeriodicTimer :=
  { t with nextFireCycle := t.nextFireCycle + t.intervalCycles.toNat, seq := q }

/-- The re-arm of the timer `x` at the moment it fires (R233, R234), with a fresh sequence number. -/
def Sched.rearm (c : Sched) (x : PeriodicTimer) : Sched :=
  { c with timers := c.timers.replace x (x.rearmed c.seq), seq := c.seq + 1 }

end Sys2Proof.Machine
end

