-- ==== Sys2Proof/Machine/Bus.lean ====
section
/-! DEFINITION. The bus dispatcher (`20_memory.md`): routing (R73), reads and writes (R65), the device kinds (R77,
R78), the interlock (R85); the scheduler's ports (`46_scheduler.md` R221, R238); and the port operations of the agents
outside the block (`47_run_loop_host.md` R258). -/

namespace Sys2Proof.Machine

/-- `Route(pa)` (R73): the windows in order, then the exact entries in order. -/
def route (pa : Nat) (c : Config := cfg) : Option Device :=
  match c.windows.find? (fun w => decide (w.base ≤ pa) && decide (pa < w.base + w.size)) with
  | some w => some w.dev
  | none => (c.exact.find? (fun e => e.addr == pa)).map (·.dev)

/-- A value cut to the width of an access, as `u(8n)` (R61). -/
def cutTo (w : Width) (v : Quad) : Quad := BitVec.ofNat 128 (v.toNat % 256 ^ w.bytes)

/-- `UNMAPPED_READ_VALUE as u(w)` (R65): the sentinel cut to the width (log entry 29). -/
def unmappedValue (w : Width) (c : Config := cfg) : Quad := cutTo w c.unmappedReadValue

/-- The value of an access of a MEMORY device: its bytes, little-endian (R62, R77). DESIGN CHOICE (log entry 10): the
bytes stand under their physical addresses also for a MEMORY device that has an exact entry, or several entries, which
R77 does not speak of. -/
def State.memValue (s : State) (w : Width) (pa : Nat) (c : Config := cfg) : Quad :=
  BitVec.ofNat 128 (leNat (Memory.readBytes s.mem pa w.bytes c))

/-- The bytes of `v` stored at `pa`, little-endian (R62, R77; by physical address: log entry 10). -/
def State.memStore (s : State) (w : Width) (pa : Nat) (v : Quad) (c : Config := cfg) : State :=
  { s with mem := Memory.writeBytes s.mem pa (leBytes w.bytes v.toNat) c }

/-- `irq_set(i, level)` (`47_run_loop_host.md` R257): `0 <= i < N_IRQ`. -/
def State.irqSet (s : State) (i : Nat) (level : Bool) (c : Config := cfg) : State :=
  if i < c.nIrq then
    { s with irqLine :=
        if level then s.irqLine ||| BitVec.twoPow 8 i else s.irqLine &&& ~~~(BitVec.twoPow 8 i) }
  else s

/-! ### The scheduler's ports

While the latch `fatal` is set each does nothing and returns 0 (`46_scheduler.md` R238, `60_exceptions.md` R295). -/

/-- The port `register_function` (`46_scheduler.md` R224). -/
def State.registerFunction (s : State) : Nat × State :=
  if s.fatal then (0, s) else (s.sched.registerFunction.1, { s with sched := s.sched.registerFunction.2 })

/-- What a registration answers: its id, or `Fatal(UnregisteredHandler)` with nothing added (R226, R228). -/
def State.schedAnswer (s : State) (h : Nat) : Option (Nat × Sched) → Nat × State
  | some (i, k) => (i, { s with sched := k })
  | none => (0, s.latchFatal .unregisteredHandler (BitVec.ofNat 32 h))

/-- The port `add_event` (R226). -/
def State.addEvent (s : State) (h : Nat) (d p : Dword) : Nat × State :=
  if s.fatal then (0, s) else s.schedAnswer h (s.sched.addEvent h d p)

/-- The port `add_timer` (R228). -/
def State.addTimer (s : State) (h : Nat) (n : Dword) : Nat × State :=
  if s.fatal then (0, s) else s.schedAnswer h (s.sched.addTimer h n)

/-- The port `calculate_run_cycles` (R229). -/
def State.calculateRunCycles (s : State) (c : Config := cfg) : Nat × State :=
  if s.fatal then (0, s)
  else ((s.sched.calculateRunCycles c).cpuBudget, { s with sched := s.sched.calculateRunCycles c })

/-- The port `get_bus_run_cycles` (R230). -/
def State.getBusRunCycles (s : State) : Nat := if s.fatal then 0 else s.sched.busBudget

/-- The port `get_iop_run_cycles` (R230). -/
def State.getIopRunCycles (s : State) : Nat := if s.fatal then 0 else s.sched.iopBudget

/-- The port `update_cycle_counts` (R231). -/
def State.updateCycleCounts (s : State) (c : Config := cfg) : State :=
  if s.fatal then s else { s with sched := s.sched.updateCycleCounts c }

/-! ### The interlock -/

/-- The two sides of the interlock (R85). -/
inductive IlockSide where
  | cop2 | vu
deriving DecidableEq, Repr

/-- The answers of the interlock (R85). -/
inductive IlockAnswer where
  | satisfied | mustWait
deriving DecidableEq, Repr

/-- The flag of a side. -/
def State.ilockFlag (s : State) : IlockSide → Bool
  | .cop2 => s.ilockCop2
  | .vu => s.ilockVu

/-- Set the flag of a side. -/
def State.setIlock (s : State) : IlockSide → State
  | .cop2 => { s with ilockCop2 := true }
  | .vu => { s with ilockVu := true }

/-- The other side. -/
def IlockSide.other : IlockSide → IlockSide
  | .cop2 => .vu
  | .vu => .cop2

/-- `InterlockRequest(X)` (R85); while the latch `fatal` is set it answers MUST_WAIT and does nothing (R295). -/
def State.interlockRequest (s : State) (x : IlockSide) : IlockAnswer × State :=
  if s.fatal then (.mustWait, s)
  else if s.ilockFlag x.other = false then (.mustWait, s.setIlock x)
  else if s.ilockFlag x = false then (.satisfied, s.setIlock x)
  else (.satisfied, { s with ilockCop2 := false, ilockVu := false })

/-! ### What a device may do -/

/-- What a port operation answers to the agent that called it (`20_memory.md` R65, R85; `46_scheduler.md` R221). -/
inductive PortResult where
  | none
  | value (v : Quad)
  | id (n : Nat)
  | interlock (a : IlockAnswer)
deriving DecidableEq, Repr

/-- What a port operation answers while the latch `fatal` is set: reads and the scheduler's operations 0, the interlock
MUST_WAIT (`60_exceptions.md` R295). -/
def fatalResult : PortOp → PortResult
  | .busRead _ _ => .value 0
  | .busWrite _ _ _ => .none
  | .registerFunction => .id 0
  | .addEvent _ _ _ => .id 0
  | .addTimer _ _ => .id 0
  | .irqSet _ _ => .none
  | .interlockRequest => .interlock .mustWait
  | .wakeGraphics => .none

/-- The id a scheduler's port answers, and the state after it. -/
def idResult (r : Nat × State) : PortResult × State := (.id r.1, r.2)

/-- An unmapped read (R75): logged, and the sentinel value. -/
def State.unmappedRead (s : State) (w : Width) (pa : Word) (c : Config := cfg) : Quad × State :=
  (unmappedValue w c, s.emit (.unmappedRead pa w))

/-- What a device reads at `pa`: a MEMORY device there as the bus reads it (R65, R77), so without a read delegate for
the width an unmapped read (R75, R76); at any other address the sentinel without a record, which is the model's choice
(DESIGN CHOICE, log entry 19). -/
def State.deviceRead (s : State) (w : Width) (pa : Word) (c : Config := cfg) : Quad × State :=
  match route pa.toNat c with
  | some d =>
    if d.kind = .register then (unmappedValue w c, s)
    else if w ∈ d.rdWidths then (s.memValue w pa.toNat c, s)
    else s.unmappedRead w pa c
  | none => (unmappedValue w c, s)

/-- What a device stores at `pa`: writable memory with a write delegate for the width is written; at any other address
the write is dropped (R78, R76; not a MEMORY device: log entry 19). -/
def State.deviceStore (s : State) (w : Width) (pa : Nat) (v : Quad) (c : Config := cfg) : State :=
  match route pa c with
  | some d => if d.kind = .memory false ∧ w ∈ d.wrWidths then s.memStore w pa v c else s
  | none => s

/-- A port operation by a REGISTER device in a side effect or by a fired handler (`20_memory.md` R78, `46_scheduler.md`
R222), with its answer: SCHED registrations, interrupt lines, accesses to MEMORY devices, and nothing else (log entry
19). The interlock is not its port, and the graphics worker is woken only by a write to its window
(`State.writeOp`). -/
def State.deviceCall (s : State) (op : PortOp) (c : Config := cfg) : PortResult × State :=
  if s.fatal then (fatalResult op, s)
  else
    match op with
    | .busRead w pa =>
      if pa.toNat % w.bytes ≠ 0 then (.none, s.latchFatal .misalignedAccess pa)
      else (.value (s.deviceRead w pa c).1, (s.deviceRead w pa c).2)
    | .busWrite w pa v =>
      if pa.toNat % w.bytes ≠ 0 then (.none, s.latchFatal .misalignedAccess pa)
      else (.none, s.deviceStore w pa.toNat v c)
    | .registerFunction => idResult s.registerFunction
    | .addEvent h d p => idResult (s.addEvent h d p)
    | .addTimer h n => idResult (s.addTimer h n)
    | .irqSet i level => (.none, s.irqSet i level c)
    | .interlockRequest => (.none, s)
    | .wakeGraphics => (.none, s)

/-- The state after a port operation of a device. -/
def State.deviceOp (s : State) (op : PortOp) (c : Config := cfg) : State := (s.deviceCall op c).2

/-- The port operations of one side effect, in order. -/
def State.deviceOps (s : State) (ops : List PortOp) (c : Config := cfg) : State :=
  ops.foldl (fun t op => t.deviceOp op c) s

/-- A port operation in a side effect of a write routed to the device `n`: a write to the privileged graphics window may
also wake the graphics worker, which nothing waits for (R83, R258). -/
def State.writeOp (n : DeviceName) (s : State) (op : PortOp) (c : Config := cfg) : State :=
  if n = .gsPriv ∧ op = .wakeGraphics ∧ s.fatal = false then s.emit .wakeGraphics else s.deviceOp op c

/-- The port operations of one side effect of a write, in order. -/
def State.writeOps (s : State) (n : DeviceName) (ops : List PortOp) (c : Config := cfg) : State :=
  ops.foldl (fun t op => State.writeOp n t op c) s

/-- The environment's next answer: the next of those the state lists, else a free one (log entry 5). -/
def State.nextAnswer (s : State) : EnvAnswer :=
  match s.env with
  | a :: _ => a
  | [] => Config.freeAnswer s.draws

/-- The state after the environment's next answer is taken. -/
def State.takeAnswer (s : State) : State :=
  match s.env with
  | _ :: as => { s with env := as }
  | [] => { s with draws := s.draws + 1 }

/-- A read of a REGISTER device (R78): the value is the environment's, cut to the width; the access is recorded;
then the device's side effects. -/
def State.registerRead (s : State) (n : DeviceName) (w : Width) (pa : Word) (c : Config := cfg) : Quad × State :=
  (cutTo w s.nextAnswer.value,
    (s.takeAnswer.emit (.devRead n w pa (cutTo w s.nextAnswer.value))).deviceOps s.nextAnswer.ops c)

/-- A write of a REGISTER device (R78): the access is recorded, then the device's side effects. -/
def State.registerWrite (s : State) (n : DeviceName) (w : Width) (pa : Word) (v : Quad) (c : Config := cfg) : State :=
  (s.takeAnswer.emit (.devWrite n w pa (cutTo w v))).writeOps n s.nextAnswer.ops c

/-- `DevRead(dev, w, pa)` (R77, R78). -/
def State.devRead (s : State) (d : Device) (w : Width) (pa : Word) (c : Config := cfg) : Quad × State :=
  match d.kind with
  | .memory _ => (s.memValue w pa.toNat c, s)
  | .register => s.registerRead d.name w pa c

/-- `DevWrite(dev, w, pa, v)` (R77, R78): read-only memory drops it (R76). -/
def State.devWrite (s : State) (d : Device) (w : Width) (pa : Word) (v : Quad) (c : Config := cfg) : State :=
  match d.kind with
  | .memory true => s
  | .memory false => s.memStore w pa.toNat v c
  | .register => s.registerWrite d.name w pa v c

/-- `BusRead(w, pa)` (R65): the value and the state after the access, or the fatal code. While the latch `fatal` is
set it does nothing and reads 0 (`60_exceptions.md` R295). -/
def State.busRead (s : State) (w : Width) (pa : Word) (c : Config := cfg) : Except FatalCode (Quad × State) :=
  if s.fatal then .ok (0, s)
  else if pa.toNat % w.bytes ≠ 0 then .error .misalignedAccess
  else
    match route pa.toNat c with
    | none => .ok (s.unmappedRead w pa c)
    | some d => if w ∈ d.rdWidths then .ok (s.devRead d w pa c) else .ok (s.unmappedRead w pa c)

/-- `BusWrite(w, pa, v)` (R65): an unmapped write, or one for which the device has no delegate, is dropped (R76). -/
def State.busWrite (s : State) (w : Width) (pa : Word) (v : Quad) (c : Config := cfg) : Except FatalCode State :=
  if s.fatal then .ok s
  else if pa.toNat % w.bytes ≠ 0 then .error .misalignedAccess
  else
    match route pa.toNat c with
    | none => .ok s
    | some d => if w ∈ d.wrWidths then .ok (s.devWrite d w pa v c) else .ok s

/-- `MemRead(addr, n)` (`00_scope.md` R11): a CPU address, through TRANSLATE (R64). -/
def State.memRead (s : State) (w : Width) (addr : Word) (c : Config := cfg) : Except FatalCode (Quad × State) :=
  s.busRead w (c.translate addr) c

/-- `MemWrite(addr, n, v)` (`00_scope.md` R11). -/
def State.memWrite (s : State) (w : Width) (addr : Word) (v : Quad) (c : Config := cfg) : Except FatalCode State :=
  s.busWrite w (c.translate addr) v c

/-! ### What an external unit may do -/

/-- A bus read by an external unit: its value, or the fatal. -/
def State.unitRead (s : State) (w : Width) (pa : Word) (c : Config := cfg) : PortResult × State :=
  match s.busRead w pa c with
  | .ok (v, t) => (.value v, t)
  | .error f => (.none, s.latchFatal f pa)

/-- A bus write by an external unit. -/
def State.unitWrite (s : State) (w : Width) (pa : Word) (v : Quad) (c : Config := cfg) : PortResult × State :=
  match s.busWrite w pa v c with
  | .ok t => (.none, t)
  | .error f => (.none, s.latchFatal f pa)

/-- The interlock request of an external unit: vector unit 0's alone. -/
def State.unitInterlock (u : ExtUnit) (s : State) : PortResult × State :=
  if u = .vu0 then (.interlock (s.interlockRequest .vu).1, (s.interlockRequest .vu).2) else (.none, s)

/-- A port operation by an external unit in its turn (`47_run_loop_host.md` R258), with its answer: BUS accesses to any
device, the interlock for vector unit 0 alone, the scheduler's registrations and the interrupt lines. -/
def State.unitCall (u : ExtUnit) (s : State) (op : PortOp) (c : Config := cfg) : PortResult × State :=
  if s.fatal then (fatalResult op, s)
  else
    match op with
    | .busRead w pa => s.unitRead w pa c
    | .busWrite w pa v => s.unitWrite w pa v c
    | .interlockRequest => State.unitInterlock u s
    | .registerFunction => s.deviceCall .registerFunction c
    | .addEvent h d p => s.deviceCall (.addEvent h d p) c
    | .addTimer h n => s.deviceCall (.addTimer h n) c
    | .irqSet i level => s.deviceCall (.irqSet i level) c
    | .wakeGraphics => s.deviceCall .wakeGraphics c

/-- The state after a port operation of an external unit. -/
def State.unitOp (u : ExtUnit) (s : State) (op : PortOp) (c : Config := cfg) : State := (State.unitCall u s op c).2

/-- The port operations of one turn, in order. -/
def State.unitOps (u : ExtUnit) (s : State) (ops : List PortOp) (c : Config := cfg) : State :=
  ops.foldl (fun t op => State.unitOp u t op c) s

end Sys2Proof.Machine
end

