-- ==== Sys2Proof/Machine/LoadStore.lean ====
section
/-! DEFINITION. Loads and stores (`44_loadstore.md`). Each makes exactly one BUS access of its own width at the
effective address (R180, R181). -/

namespace Sys2Proof.Machine

/-- A load (R180, R197): the access, then the register write `wr`. A misaligned address ends `Fatal` (R195). When a
side effect of the access latched `fatal`, the instruction does not complete (log entry 6). -/
def loadOp (d : Descriptor) (w : Width) (base : Reg) (imm : Half) (wr : State → Quad → State) (s : State)
    (c : Config := cfg) :
    Host.Outcome State Fault Refusal :=
  match s.memRead w (s.effAddr base imm) c with
  | .error f => .next (s.retire d (.fatal f (s.effAddr base imm)) c)
  | .ok (v, t) => if t.fatal then .next t else .next ((wr t v).retire d .done c)

/-- A store (R180, R197) of the value `v`. -/
def storeOp (d : Descriptor) (w : Width) (base : Reg) (imm : Half) (v : Quad) (s : State) (c : Config := cfg) :
    Host.Outcome State Fault Refusal :=
  match s.memWrite w (s.effAddr base imm) v c with
  | .error f => .next (s.retire d (.fatal f (s.effAddr base imm)) c)
  | .ok t => if t.fatal then .next t else .next (t.retire d .done c)

/-- The register write of a load that sign-extends its `n`-bit value to 64 bits (R181). -/
def wrSigned (n : Nat) (rt : Reg) (s : State) (v : Quad) : State :=
  s.setX rt ((v.extractLsb' 0 n).signExtend 64)

/-- The register write of a load that zero-extends its `n`-bit value to 64 bits (R181). -/
def wrUnsigned (n : Nat) (rt : Reg) (s : State) (v : Quad) : State :=
  s.setX rt ((v.extractLsb' 0 n).zeroExtend 64)

/-- LB (R182). -/
def execLb (rt base : Reg) (imm : Half) (s : State) (c : Config := cfg) : Host.Outcome State Fault Refusal :=
  loadOp (descriptor (.lb rt base imm) c) .w8 base imm (wrSigned 8 rt) s c

/-- LBU (R183). -/
def execLbu (rt base : Reg) (imm : Half) (s : State) (c : Config := cfg) : Host.Outcome State Fault Refusal :=
  loadOp (descriptor (.lbu rt base imm) c) .w8 base imm (wrUnsigned 8 rt) s c

/-- LH (R184). -/
def execLh (rt base : Reg) (imm : Half) (s : State) (c : Config := cfg) : Host.Outcome State Fault Refusal :=
  loadOp (descriptor (.lh rt base imm) c) .w16 base imm (wrSigned 16 rt) s c

/-- LHU (R185). -/
def execLhu (rt base : Reg) (imm : Half) (s : State) (c : Config := cfg) : Host.Outcome State Fault Refusal :=
  loadOp (descriptor (.lhu rt base imm) c) .w16 base imm (wrUnsigned 16 rt) s c

/-- LW (R186). -/
def execLw (rt base : Reg) (imm : Half) (s : State) (c : Config := cfg) : Host.Outcome State Fault Refusal :=
  loadOp (descriptor (.lw rt base imm) c) .w32 base imm (wrSigned 32 rt) s c

/-- LWU (R187). -/
def execLwu (rt base : Reg) (imm : Half) (s : State) (c : Config := cfg) : Host.Outcome State Fault Refusal :=
  loadOp (descriptor (.lwu rt base imm) c) .w32 base imm (wrUnsigned 32 rt) s c

/-- LD (R188). -/
def execLd (rt base : Reg) (imm : Half) (s : State) (c : Config := cfg) : Host.Outcome State Fault Refusal :=
  loadOp (descriptor (.ld rt base imm) c) .w64 base imm (wrUnsigned 64 rt) s c

/-- LQ (R189): the only instruction that writes bits 127:64 of a general register. -/
def execLq (rt base : Reg) (imm : Half) (s : State) (c : Config := cfg) : Host.Outcome State Fault Refusal :=
  loadOp (descriptor (.lq rt base imm) c) .w128 base imm (fun t v => t.setXq rt v) s c

/-- The value of a store of `x[rt]` or a sub-field of it: the bytes above the access's width are not stored. -/
def State.storeValue (s : State) (rt : Reg) : Quad := (s.x rt).zeroExtend 128

/-- SB (R190). -/
def execSb (rt base : Reg) (imm : Half) (s : State) (c : Config := cfg) : Host.Outcome State Fault Refusal :=
  storeOp (descriptor (.sb rt base imm) c) .w8 base imm (s.storeValue rt) s c

/-- SH (R191). -/
def execSh (rt base : Reg) (imm : Half) (s : State) (c : Config := cfg) : Host.Outcome State Fault Refusal :=
  storeOp (descriptor (.sh rt base imm) c) .w16 base imm (s.storeValue rt) s c

/-- SW (R192). -/
def execSw (rt base : Reg) (imm : Half) (s : State) (c : Config := cfg) : Host.Outcome State Fault Refusal :=
  storeOp (descriptor (.sw rt base imm) c) .w32 base imm (s.storeValue rt) s c

/-- SD (R193). -/
def execSd (rt base : Reg) (imm : Half) (s : State) (c : Config := cfg) : Host.Outcome State Fault Refusal :=
  storeOp (descriptor (.sd rt base imm) c) .w64 base imm (s.storeValue rt) s c

/-- SQ (R194): the only instruction that reads bits 127:64 of a general register. -/
def execSq (rt base : Reg) (imm : Half) (s : State) (c : Config := cfg) : Host.Outcome State Fault Refusal :=
  storeOp (descriptor (.sq rt base imm) c) .w128 base imm (s.xq rt) s c

end Sys2Proof.Machine
end

