-- ==== Sys2Proof/Machine/MulDiv.lean ====
section
/-! DEFINITION. Multiply and divide (`42_muldiv.md`): MULT, DIV, MFHI, MFLO. -/

namespace Sys2Proof.Machine

/-- The exact product of two signed 32-bit values as a 64-bit pattern (R162). -/
def multProduct (a b : Word) : Dword := BitVec.ofInt 64 (a.toInt * b.toInt)

/-- Quotient and remainder, the table of R161: division never raises anything. -/
def divResult (a b : Int) : Int × Int :=
  if b = 0 then (if 0 ≤ a then -1 else 1, a)
  else if a = -2147483648 ∧ b = -1 then (-2147483648, 0)
  else (Int.tdiv a b, Int.tmod a b)

/-- MULT (R162). -/
def execMult (rs rt : Reg) (s : State) (c : Config := cfg) : Host.Outcome State Fault Refusal :=
  .next ((s.setLoHi ((multProduct (s.x32 rs) (s.x32 rt)).extractLsb' 0 32)
    ((multProduct (s.x32 rs) (s.x32 rt)).extractLsb' 32 32)).retire (descriptor (.mult rs rt) c) .done c)

/-- DIV (R163). -/
def execDiv (rs rt : Reg) (s : State) (c : Config := cfg) : Host.Outcome State Fault Refusal :=
  .next ((s.setLoHi (BitVec.ofInt 32 (divResult (s.x32 rs).toInt (s.x32 rt).toInt).1)
    (BitVec.ofInt 32 (divResult (s.x32 rs).toInt (s.x32 rt).toInt).2)).retire (descriptor (.div rs rt) c) .done c)

/-- MFHI (R164). -/
def execMfhi (rd : Reg) (s : State) (c : Config := cfg) : Host.Outcome State Fault Refusal :=
  writeDone (descriptor (.mfhi rd) c) rd (s.hi.extractLsb' 0 64) s c

/-- MFLO (R165). -/
def execMflo (rd : Reg) (s : State) (c : Config := cfg) : Host.Outcome State Fault Refusal :=
  writeDone (descriptor (.mflo rd) c) rd (s.lo.extractLsb' 0 64) s c

end Sys2Proof.Machine
end

