-- ==== Sys2Proof/Machine/System.lean ====
section
/-! DEFINITION. Traps, system call and breakpoint, return from exception, coprocessor-0 moves, WAIT and the interlock
instruction (`45_system.md`). One privilege level: every one is always permitted (`60_exceptions.md` R296). -/

namespace Sys2Proof.Machine

/-- `raise E` (`60_exceptions.md` R279): the outcome `Exception(CAUSE_CODE[E])`. -/
def raised (e : ExcKind) (c : Config := cfg) : Completion := .exception (c.causeCode e)

/-- A trap-on-condition instruction (R200): `raise Trap` when the condition holds, else `Done`. -/
def trapIf (d : Descriptor) (cond : Bool) (s : State) (c : Config := cfg) : Host.Outcome State Fault Refusal :=
  .next (s.retire d (if cond then raised .trap c else .done) c)

/-- TGE (R201): signed, bits 63:0. -/
def execTge (rs rt : Reg) (code : Nat) (s : State) (c : Config := cfg) : Host.Outcome State Fault Refusal :=
  trapIf (descriptor (.tge rs rt code) c) (decide ((s.x rt).toInt ≤ (s.x rs).toInt)) s c

/-- TGEU (R202): unsigned. -/
def execTgeu (rs rt : Reg) (code : Nat) (s : State) (c : Config := cfg) : Host.Outcome State Fault Refusal :=
  trapIf (descriptor (.tgeu rs rt code) c) (decide ((s.x rt).toNat ≤ (s.x rs).toNat)) s c

/-- TLT (R203): signed. -/
def execTlt (rs rt : Reg) (code : Nat) (s : State) (c : Config := cfg) : Host.Outcome State Fault Refusal :=
  trapIf (descriptor (.tlt rs rt code) c) (decide ((s.x rs).toInt < (s.x rt).toInt)) s c

/-- TLTU (R204): unsigned. -/
def execTltu (rs rt : Reg) (code : Nat) (s : State) (c : Config := cfg) : Host.Outcome State Fault Refusal :=
  trapIf (descriptor (.tltu rs rt code) c) (decide ((s.x rs).toNat < (s.x rt).toNat)) s c

/-- TEQ (R205). -/
def execTeq (rs rt : Reg) (code : Nat) (s : State) (c : Config := cfg) : Host.Outcome State Fault Refusal :=
  trapIf (descriptor (.teq rs rt code) c) (decide (s.x rs = s.x rt)) s c

/-- TNE (R206). -/
def execTne (rs rt : Reg) (code : Nat) (s : State) (c : Config := cfg) : Host.Outcome State Fault Refusal :=
  trapIf (descriptor (.tne rs rt code) c) (decide (s.x rs ≠ s.x rt)) s c

/-- SYSCALL (R207): `raise Syscall`, always; the code is ignored. -/
def execSyscall (code : Nat) (s : State) (c : Config := cfg) : Host.Outcome State Fault Refusal :=
  .next (s.retire (descriptor (.syscall code) c) (raised .syscall c) c)

/-- BREAK (R213): `raise Breakpoint`, always; the code is ignored. -/
def execBreak (code : Nat) (s : State) (c : Config := cfg) : Host.Outcome State Fault Refusal :=
  .next (s.retire (descriptor (.breakpoint code) c) (raised .breakpoint c) c)

/-- ERET (R208): fatal in a delay slot, then fatal on a misaligned `EPC`, else the pop and control to `EPC` with no
delay slot. -/
def execEret (s : State) (c : Config := cfg) : Host.Outcome State Fault Refusal :=
  if s.branchPending then .next (s.retire (descriptor .eret c) (.fatal .branchInDelaySlot s.pc) c)
  else if s.epc.toNat % 4 ≠ 0 then .next (s.retire (descriptor .eret c) (.fatal .misalignedBranchTarget s.epc) c)
  else .next ((s.popStatus c).retire (descriptor .eret c) (.ret s.epc) c)

/-- The value of a coprocessor-0 register (R209), none for a number the spec does not define. -/
def State.cop0 (s : State) (n : Nat) : Option Word :=
  if n = 12 then some s.status
  else if n = 13 then some s.cause
  else if n = 14 then some s.epc
  else none

/-- MFC0 (R209). -/
def execMfc0 (rt : Reg) (n : Nat) (s : State) (c : Config := cfg) : Host.Outcome State Fault Refusal :=
  match s.cop0 n with
  | some v => writeDone (descriptor (.mfc0 rt n) c) rt (sext64 v) s c
  | none => .next (s.retire (descriptor (.mfc0 rt n) c) (.fatal .unknownCop0Register (encode (.mfc0 rt n))) c)

/-- The write of a coprocessor-0 register (R210): STATUS through its write mask, CAUSE not at all, EPC whole; none for
a number the spec does not define. -/
def State.setCop0 (s : State) (n : Nat) (v : Word) (c : Config := cfg) : Option State :=
  if n = 12 then some { s with status := v &&& statusWmask c }
  else if n = 13 then some s
  else if n = 14 then some { s with epc := v }
  else none

/-- MTC0 (R210). -/
def execMtc0 (rt : Reg) (n : Nat) (s : State) (c : Config := cfg) : Host.Outcome State Fault Refusal :=
  match s.setCop0 n (s.x32 rt) c with
  | some t => .next (t.retire (descriptor (.mtc0 rt n) c) .done c)
  | none => .next (s.retire (descriptor (.mtc0 rt n) c) (.fatal .unknownCop0Register (encode (.mtc0 rt n))) c)

/-- WAIT (R211): the flag is set and the instruction completes. -/
def execWait (s : State) (c : Config := cfg) : Host.Outcome State Fault Refusal :=
  .next (({ s with waitForIrq := true }).retire (descriptor .wait c) .done c)

/-- CFC2.I r0, vi0 (R212): one interlock request; `Hold` on MUST_WAIT, else `Done` (the transfer goes to register
0). -/
def execCfc2i (s : State) (c : Config := cfg) : Host.Outcome State Fault Refusal :=
  match s.interlockRequest .cop2 with
  | (.mustWait, t) => .next (t.retire (descriptor .cfc2i c) .hold c)
  | (.satisfied, t) => .next ((t.setX 0 0).retire (descriptor .cfc2i c) .done c)

end Sys2Proof.Machine
end

