-- ==== Sys2Proof/Machine/Dispatch.lean ====
section
/-! DEFINITION. Dispatch (`40_core_step.md` R130): one arm per instruction. -/

namespace Sys2Proof.Machine

/-- Dispatch, Advance and HazardTrack of one instruction (R120, after Fetch and Decode). -/
def exec (i : Instr) (s : State) : Host.Outcome State Fault Refusal :=
  match i with
  | .sll rd rt sa => Sys2Proof.Machine.execSll rd rt sa s
  | .add rd rs rt => Sys2Proof.Machine.execAdd rd rs rt s
  | .addi rt rs imm => Sys2Proof.Machine.execAddi rt rs imm s
  | .daddu rd rs rt => Sys2Proof.Machine.execDaddu rd rs rt s
  | .mult rs rt => Sys2Proof.Machine.execMult rs rt s
  | .div rs rt => Sys2Proof.Machine.execDiv rs rt s
  | .mfhi rd => Sys2Proof.Machine.execMfhi rd s
  | .mflo rd => Sys2Proof.Machine.execMflo rd s
  | .beq rs rt imm => Sys2Proof.Machine.execBeq rs rt imm s
  | .bne rs rt imm => Sys2Proof.Machine.execBne rs rt imm s
  | .j index => Sys2Proof.Machine.execJ index s
  | .jal index => Sys2Proof.Machine.execJal index s
  | .jr rs => Sys2Proof.Machine.execJr rs s
  | .lb rt base imm => Sys2Proof.Machine.execLb rt base imm s
  | .lbu rt base imm => Sys2Proof.Machine.execLbu rt base imm s
  | .lh rt base imm => Sys2Proof.Machine.execLh rt base imm s
  | .lhu rt base imm => Sys2Proof.Machine.execLhu rt base imm s
  | .lw rt base imm => Sys2Proof.Machine.execLw rt base imm s
  | .lwu rt base imm => Sys2Proof.Machine.execLwu rt base imm s
  | .ld rt base imm => Sys2Proof.Machine.execLd rt base imm s
  | .lq rt base imm => Sys2Proof.Machine.execLq rt base imm s
  | .sb rt base imm => Sys2Proof.Machine.execSb rt base imm s
  | .sh rt base imm => Sys2Proof.Machine.execSh rt base imm s
  | .sw rt base imm => Sys2Proof.Machine.execSw rt base imm s
  | .sd rt base imm => Sys2Proof.Machine.execSd rt base imm s
  | .sq rt base imm => Sys2Proof.Machine.execSq rt base imm s
  | .tge rs rt code => Sys2Proof.Machine.execTge rs rt code s
  | .tgeu rs rt code => Sys2Proof.Machine.execTgeu rs rt code s
  | .tlt rs rt code => Sys2Proof.Machine.execTlt rs rt code s
  | .tltu rs rt code => Sys2Proof.Machine.execTltu rs rt code s
  | .teq rs rt code => Sys2Proof.Machine.execTeq rs rt code s
  | .tne rs rt code => Sys2Proof.Machine.execTne rs rt code s
  | .syscall code => Sys2Proof.Machine.execSyscall code s
  | .breakpoint code => Sys2Proof.Machine.execBreak code s
  | .eret => Sys2Proof.Machine.execEret s
  | .mfc0 rt n => Sys2Proof.Machine.execMfc0 rt n s
  | .mtc0 rt n => Sys2Proof.Machine.execMtc0 rt n s
  | .wait => Sys2Proof.Machine.execWait s
  | .cfc2i => Sys2Proof.Machine.execCfc2i s

end Sys2Proof.Machine
end

