-- ==== Sys2Proof/Machine/Meaning.lean ====
section
/-! DEFINITION. Dispatch under any configuration (`40_core_step.md` R130, `00_scope.md` R8). Dispatch.lean holds `exec`,
the same table at CFG_REF, in the form the host reads; Laws/Exec.lean proves the two equal there. -/

namespace Sys2Proof.Machine

/-- Dispatch, Advance and HazardTrack of one instruction (R120, after Fetch and Decode) under the configuration `c`. -/
def meaning (i : Instr) (s : State) (c : Config := cfg) : Host.Outcome State Fault Refusal :=
  match i with
  | .sll rd rt sa => execSll rd rt sa s c
  | .add rd rs rt => execAdd rd rs rt s c
  | .addi rt rs imm => execAddi rt rs imm s c
  | .daddu rd rs rt => execDaddu rd rs rt s c
  | .mult rs rt => execMult rs rt s c
  | .div rs rt => execDiv rs rt s c
  | .mfhi rd => execMfhi rd s c
  | .mflo rd => execMflo rd s c
  | .beq rs rt imm => execBeq rs rt imm s c
  | .bne rs rt imm => execBne rs rt imm s c
  | .j index => execJ index s c
  | .jal index => execJal index s c
  | .jr rs => execJr rs s c
  | .lb rt base imm => execLb rt base imm s c
  | .lbu rt base imm => execLbu rt base imm s c
  | .lh rt base imm => execLh rt base imm s c
  | .lhu rt base imm => execLhu rt base imm s c
  | .lw rt base imm => execLw rt base imm s c
  | .lwu rt base imm => execLwu rt base imm s c
  | .ld rt base imm => execLd rt base imm s c
  | .lq rt base imm => execLq rt base imm s c
  | .sb rt base imm => execSb rt base imm s c
  | .sh rt base imm => execSh rt base imm s c
  | .sw rt base imm => execSw rt base imm s c
  | .sd rt base imm => execSd rt base imm s c
  | .sq rt base imm => execSq rt base imm s c
  | .tge rs rt code => execTge rs rt code s c
  | .tgeu rs rt code => execTgeu rs rt code s c
  | .tlt rs rt code => execTlt rs rt code s c
  | .tltu rs rt code => execTltu rs rt code s c
  | .teq rs rt code => execTeq rs rt code s c
  | .tne rs rt code => execTne rs rt code s c
  | .syscall code => execSyscall code s c
  | .breakpoint code => execBreak code s c
  | .eret => execEret s c
  | .mfc0 rt n => execMfc0 rt n s c
  | .mtc0 rt n => execMtc0 rt n s c
  | .wait => execWait s c
  | .cfc2i => execCfc2i s c

end Sys2Proof.Machine
end

