-- ==== Sys2Proof/Machine/RunLoop.lean ====
section
/-! DEFINITION. Fetch, the instruction step (`40_core_step.md` R120), the slice (R139), and the run loop
(`47_run_loop_host.md` R250, R251): first the small moves that `step` makes one at a time, then the spec's own
operations `CoreRun`, `run_iteration` and `run_frame` as whole transitions, and the machine's one move. -/

namespace Sys2Proof.Machine

/-- The writes of Fetch before its access (R120, R121): `next_pc <- (pc + 4) mod 2^32`. -/
def State.latchNextPc (s : State) : State := { s with nextPc := s.pc + 4 }

/-- Fetch (R121): the word `MemRead(pc, 4)` and the state after the access, or the fatal code. -/
def State.fetch (s : State) (c : Config := cfg) : Except FatalCode (Word × State) :=
  match s.latchNextPc.memRead .w32 s.pc c with
  | .ok (v, t) => .ok (v.extractLsb' 0 32, t)
  | .error f => .error f

/-- Decode and Dispatch of a fetched word (R123, R130): a word that matches no row ends the step with
`Fatal(UnknownInstruction)` (`30_encoding.md` R110). -/
def runWord (w : Word) (s : State) (c : Config := cfg) : Host.Outcome State Fault Refusal :=
  match decodeWith c.decodeTable w with
  | .ok i => meaning i s c
  | .error _ => .next (s.latchFatal .unknownInstruction w)

/-- `CoreStep()` (R120): one pass Fetch, Decode, Dispatch, Advance, HazardTrack. A side effect of the fetch that
latched `fatal` ends it (log entry 6). -/
def coreStep (s : State) (c : Config := cfg) : Host.Outcome State Fault Refusal :=
  match s.fetch c with
  | .error f => .next (s.latchNextPc.latchFatal f s.pc)
  | .ok (w, t) => if t.fatal then .next t else runWord w t c

/-- `remaining <- remaining - STEP_COST`, floor at 0 (R139, R140). -/
def State.charge (s : State) (c : Config := cfg) : State :=
  match s.phase with
  | .core r => { s with phase := .core (r - c.stepCost) }
  | .idle | .frame | .units _ | .firing _ => s

/-- The charge of a step, on its outcome (R139). -/
def charged (o : Host.Outcome State Fault Refusal) (c : Config := cfg) : Host.Outcome State Fault Refusal :=
  match o with
  | .next t => .next (t.charge c)
  | .fault r => .fault r
  | .refused r => .refused r

/-- Under `IRQ_CHECK = PER_STEP` the interrupt check runs before every fetch (`60_exceptions.md` R275); under `PER_SLICE`
nothing comes before a fetch. -/
def State.stepCheck (s : State) (c : Config := cfg) : State :=
  match c.irqCheck with
  | .perSlice => s
  | .perStep => s.interruptCheck c

/-- An instruction step with the check before it and its charge (R139, R140). -/
def chargedStep (s : State) (c : Config := cfg) : Host.Outcome State Fault Refusal :=
  charged (coreStep (s.stepCheck c) c) c

/-- The slice goes on: budget left, not waiting (R139). -/
def State.sliceOn (s : State) : Bool :=
  match s.phase with
  | .core r => decide (0 < r) && !s.waitForIrq
  | .idle | .frame | .units _ | .firing _ => false

/-- `run_frame` begins (R250): `frame_complete <- 0`. -/
def State.startFrame (s : State) : State := { s with frameComplete := false, phase := .frame }

/-- The budget of an iteration, computed and committed (R251): `calculate_run_cycles`, then `update_cycle_counts`. -/
def State.commitBudget (s : State) (c : Config := cfg) : State := (s.calculateRunCycles c).2.updateCycleCounts c

/-- `run_iteration` begins (R251): the budget is computed and committed, then `CoreRun`'s interrupt check (R139). -/
def State.beginIteration (s : State) (c : Config := cfg) : State :=
  let t := (s.commitBudget c).interruptCheck c
  { t with phase := .core t.sched.cpuBudget }

/-- The units in the order of their turns (R251, R252). -/
def unitOrder : List ExtUnit := [.iop, .dma, .vu0, .vu1, .vif]

/-- The slice is over: the external units' turns come next (R251). -/
def State.endSlice (s : State) : State := { s with phase := .units unitOrder }

/-- The budget an external unit receives (R253). -/
def Sched.unitBudget (c : Sched) : ExtUnit → Nat
  | .iop => c.iopBudget
  | .dma => c.busBudget
  | .vu0 => c.cpuBudget
  | .vu1 => c.cpuBudget
  | .vif => c.busBudget

/-- One turn `run(cycles)` of an external unit (R251, R255): the port operations of the environment's next answer; a
unit given 0 cycles does nothing (R253). -/
def State.unitTurn (s : State) (u : ExtUnit) (c : Config := cfg) : State :=
  if s.sched.unitBudget u = 0 then s.emit (.unitTurn u 0)
  else
    State.unitOps u (s.takeAnswer.emit (.unitTurn u (s.sched.unitBudget u))) s.nextAnswer.ops c

/-- `process_events` takes its snapshot (`46_scheduler.md` R233). -/
def State.snapshot (s : State) : State := { s with phase := .firing s.sched.dueNow }

/-- `Fire(handler_id, payload, cycle)` (R222): the LOOP's frame-end handler sets `frame_complete` (R254); any other
agent's action is the environment's next answer. -/
def State.fire (s : State) (h : Nat) (p : Dword) (k : Nat) (c : Config := cfg) : State :=
  if s.frameHandler = some h then { s.emit (.fire h p k) with frameComplete := true }
  else (s.takeAnswer.emit (.fire h p k)).deviceOps s.nextAnswer.ops c

/-- One entry of the snapshot fires (R233): it is removed or re-armed first. A timer's payload is 0. -/
def State.fireDue (s : State) (d : Due) (c : Config := cfg) : State :=
  match d with
  | .event e => ({ s with sched := s.sched.removeEvent e }).fire e.handlerId e.payload e.absoluteCycle c
  | .timer t => ({ s with sched := s.sched.rearm t }).fire t.handlerId 0 t.nextFireCycle c

/-- `run_iteration` returns; `run_frame` returns too when the frame is complete (R250). -/
def State.endIteration (s : State) : State :=
  { s with phase := if s.frameComplete then .idle else .frame }

/-- `CoreRun`'s loop (R139), at most `fuel` steps. -/
def coreLoop (fuel : Nat) (s : State) (c : Config := cfg) : Host.Outcome State Fault Refusal :=
  match fuel with
  | 0 => .next s
  | k + 1 =>
    if s.fatal || !s.sliceOn then .next s
    else
      match chargedStep s c with
      | .next t => coreLoop k t c
      | .fault r => .fault r
      | .refused r => .refused r

/-- `CoreRun(n)` (R139). Every step is charged at least one cycle, so `n` steps are enough. -/
def coreRun (n : Nat) (s : State) (c : Config := cfg) : Host.Outcome State Fault Refusal :=
  if s.fatal then .next s
  else coreLoop n { s.interruptCheck c with phase := .core n } c

/-- The external units' turns in order (R251); a fatal stops everything after it (R295). -/
def runUnits (us : List ExtUnit) (s : State) (c : Config := cfg) : State :=
  match us with
  | [] => s
  | u :: us => if s.fatal then s else runUnits us (({ s with phase := .units us }).unitTurn u c) c

/-- The entries of the snapshot in order (R233); a fatal stops everything after it (R295). -/
def fireAll (ds : List Due) (s : State) (c : Config := cfg) : State :=
  match ds with
  | [] => s
  | d :: ds => if s.fatal then s else fireAll ds (({ s with phase := .firing ds }).fireDue d c) c

/-- `process_events()` (R233); while `fatal` is set it does nothing (R295). -/
def processEvents (s : State) (c : Config := cfg) : State :=
  if s.fatal then s else fireAll s.sched.dueNow s.snapshot c

/-- What follows the CORE's slice in an iteration (R251). -/
def finishIteration (s : State) (c : Config := cfg) : State :=
  if s.fatal then s
  else
    let t := processEvents (runUnits unitOrder s.endSlice c) c
    if t.fatal then t else t.endIteration

/-- `run_iteration()` (R251); while `fatal` is set it does nothing (R295). -/
def runIteration (s : State) (c : Config := cfg) : Host.Outcome State Fault Refusal :=
  if s.fatal then .next s
  else
    match coreRun (s.commitBudget c).sched.cpuBudget (s.commitBudget c) c with
    | .next u => .next (finishIteration u c)
    | .fault r => .fault r
    | .refused r => .refused r

/-- The result of `run_frame` (R250): it returned, or (MODEL'S OWN, log entry 23) it has not returned after as many
iterations as the model was asked for. -/
inductive FrameResult where
  | frameDone | fatal | running
deriving DecidableEq, Repr

/-- `run_frame`'s repeat loop (R250), at most `fuel` iterations. -/
def frameLoop (fuel : Nat) (s : State) (c : Config := cfg) : Host.Outcome (FrameResult × State) Fault Refusal :=
  match fuel with
  | 0 => .next (.running, s)
  | k + 1 =>
    match runIteration s c with
    | .next t =>
      if t.fatal then .next (.fatal, t)
      else if t.frameComplete then .next (.frameDone, t)
      else frameLoop k t c
    | .fault r => .fault r
    | .refused r => .refused r

/-- `run_frame()` (R250), at most `fuel` iterations. -/
def runFrame (fuel : Nat) (s : State) (c : Config := cfg) : Host.Outcome (FrameResult × State) Fault Refusal :=
  if s.fatal then .next (.fatal, s) else frameLoop fuel s.startFrame c

/-! ### One move -/

/-- One move of the machine (log entry 3): an instruction step of the CORE while a slice goes on (`40_core_step.md`
R139), else the run loop's next move (R250, R251). With the latch `fatal` set no move follows (`60_exceptions.md`
R295). -/
def move (s : State) (c : Config := cfg) : Host.Outcome State Fault Refusal :=
  if s.fatal then .fault (.fatalLatched s.fatalCode)
  else
    match s.phase with
    | .idle => .next s.startFrame
    | .frame => .next (s.beginIteration c)
    | .core _ => if s.sliceOn then chargedStep s c else .next s.endSlice
    | .units [] => .next s.snapshot
    | .units (u :: us) => .next (({ s with phase := .units us }).unitTurn u c)
    | .firing [] => .next s.endIteration
    | .firing (d :: ds) => .next (({ s with phase := .firing ds }).fireDue d c)

end Sys2Proof.Machine
end

