-- ==== Sys2Proof/Machine/FetchWord.lean ====
section
/-! DEFINITION. Placing an instruction where the next step fetches it. -/

namespace Sys2Proof.Machine

/-- The word at CPU address `v` can be placed: aligned, and behind it a MEMORY device with a 32-bit read delegate. -/
def fetchable (v : Word) (c : Config := cfg) : Bool :=
  decide ((c.translate v).toNat % 4 = 0) &&
  (match route (c.translate v).toNat c with
   | some d => decide (d.kind ≠ .register) && decide (.w32 ∈ d.rdWidths)
   | none => false)

/-- The address the placed instruction is fetched from: `pc`, or `RESET_PC` when no word can be placed at `pc`. -/
def State.placePc (s : State) (c : Config := cfg) : Word := if fetchable s.pc c then s.pc else c.resetPc

/-- The slice in which the placed instruction is the next step: the present one if it has a cycle left, else a new
one of one step. -/
def State.placePhase (s : State) (c : Config := cfg) : Phase :=
  match s.phase with
  | .core r => if 0 < r then .core r else .core c.stepCost
  | .idle | .frame | .units _ | .firing _ => .core c.stepCost

/-- The state with a word stored at the physical address that the next step fetches from, the slice running, and
nothing that keeps the CORE from stepping (log entry 4). -/
def State.placeWord (s : State) (w : Nat) (c : Config := cfg) : State :=
  { s with
    mem := Memory.writeBytes s.mem (c.translate (s.placePc c)).toNat (leBytes 4 w) c
    pc := s.placePc c
    phase := s.placePhase c
    waitForIrq := false
    fatal := false
    fatalCode := none }

end Sys2Proof.Machine
end

