-- ==== Sys2Proof/Machine/HostPorts.lean ====
section
/-! DEFINITION. The host's ports (`47_run_loop_host.md` R260 to R264, `70_reset_and_hazards.md` R300, R303): reset,
run_frame, run_iteration, core_halt, serialize, restore. -/

namespace Sys2Proof.Machine

/-- `CAUSE` of a blob, every bit but `IP` (`10_state.md` R56), by the fields of R35 from the highest down. -/
structure SavedCause where
  bd : Bool
  reserved30to16 : BitVec 15
  reserved7 : Bool
  excCode : BitVec 5
  reserved1to0 : BitVec 2
deriving DecidableEq, Repr

/-- The reserved bits of a blob's `CAUSE` are zero (R264, R35). -/
def SavedCause.wf (k : SavedCause) : Bool :=
  decide (k.reserved30to16 = 0) && !k.reserved7 && decide (k.reserved1to0 = 0)

/-- The persisted elements, exactly those of `10_state.md` R56. -/
structure Saved where
  gpr : Vector Quad 32
  lo : Quad
  hi : Quad
  sa : Dword
  fpr : Vector Word 32
  fcond : Bool
  status : Word
  cause : SavedCause
  epc : Word
  pc : Word
  branchPending : Bool
  branchTarget : Word
  waitForIrq : Bool
  runCycles : Nat
  seq : Nat
  events : List ScheduledEvent
  timers : List PeriodicTimer
  busRem : Nat
  iopRem : Nat
  ilockCop2 : Bool
  ilockVu : Bool
deriving DecidableEq, Repr

/-- The blob `(SIGNATURE, VERSION, S)` (R262). -/
structure Blob where
  signature : Nat
  version : Nat
  saved : Saved
deriving DecidableEq, Repr

/-- `CAUSE` of a state but `IP`: its reserved bits read 0 (R35; log entry 24). -/
def State.savedCause (s : State) : SavedCause :=
  { bd := s.bd, reserved30to16 := 0, reserved7 := false, excCode := s.excCode, reserved1to0 := 0 }

/-- The persisted elements of a state (R56, R262). -/
def State.saved (s : State) : Saved :=
  { gpr := s.gpr, lo := s.lo, hi := s.hi, sa := s.sa, fpr := s.fpr, fcond := s.fcond, status := s.status
    cause := s.savedCause, epc := s.epc, pc := s.pc, branchPending := s.branchPending
    branchTarget := s.branchTarget, waitForIrq := s.waitForIrq, runCycles := s.sched.runCycles
    seq := s.sched.seq, events := s.sched.events, timers := s.sched.timers, busRem := s.sched.busRem
    iopRem := s.sched.iopRem, ilockCop2 := s.ilockCop2, ilockVu := s.ilockVu }

/-- `serialize()` (R262): it changes no state and is allowed while `fatal = 1`. -/
def State.serialize (s : State) : Blob :=
  { signature := Config.saveSignature, version := Config.saveVersion, saved := s.saved }

/-- The `seq` values of the events and timers. -/
def Saved.seqs (b : Saved) : List Nat := b.events.map (·.seq) ++ b.timers.map (·.seq)

/-- No number twice. -/
def allDifferent : List Nat → Bool
  | [] => true
  | n :: ns => !ns.contains n && allDifferent ns

/-- `WellFormed(S)` against the live handler table (R264). -/
def Saved.wf (b : Saved) (handlers : List Nat) (c : Config := cfg) : Bool :=
  decide (b.pc.toNat % 4 = 0) &&
  (!b.branchPending || decide (b.branchTarget.toNat % 4 = 0)) &&
  decide (b.busRem < c.busDiv) && decide (b.iopRem < c.iopDiv) &&
  decide (b.status &&& ~~~(statusWmask c) = 0) && b.cause.wf &&
  b.events.all (fun e => handlers.contains e.handlerId) &&
  b.timers.all (fun t => handlers.contains t.handlerId) &&
  b.seqs.all (fun q => decide (q < b.seq)) && allDifferent b.seqs &&
  decide (b.gpr[0] = 0)

/-- The state with every persisted element from a blob and the derived state rebuilt (R263). -/
def State.load (s : State) (b : Saved) : State :=
  { s with
    gpr := b.gpr, lo := b.lo, hi := b.hi, sa := b.sa, fpr := b.fpr, fcond := b.fcond, status := b.status
    excCode := b.cause.excCode, bd := b.cause.bd, epc := b.epc, pc := b.pc, nextPc := b.pc + 4
    branchPending := b.branchPending, branchTarget := b.branchTarget, waitForIrq := b.waitForIrq
    lastDesc := none, mdReadyCycle := 0, ilockCop2 := b.ilockCop2, ilockVu := b.ilockVu
    frameComplete := false
    sched :=
      { s.sched with
        runCycles := b.runCycles, seq := b.seq, events := b.events, timers := b.timers
        busRem := b.busRem, iopRem := b.iopRem, cpuBudget := 0, busBudget := 0, iopBudget := 0 } }

/-- The answers of `restore` (R263). -/
inductive RestoreResult where
  | ok | failed
deriving DecidableEq, Repr

/-- `restore(blob)` (R263): validation happens before any state is overwritten; `FAILED` changes nothing. -/
def State.restore (s : State) (b : Blob) (c : Config := cfg) : RestoreResult × State :=
  if s.fatal then (.failed, s)
  else if b.signature ≠ Config.saveSignature ∨ b.version ≠ Config.saveVersion then (.failed, s)
  else if b.saved.wf s.sched.handlers c = false then (.failed, s)
  else (.ok, s.load b.saved)

/-- `core_halt()` (R261): `wait_for_irq <- 1`; nothing while `fatal` is set (`60_exceptions.md` R295). -/
def State.coreHalt (s : State) : State := if s.fatal then s else { s with waitForIrq := true }

/-- The LOOP's registration at reset (R254, R303): the frame-end handler and its timer, unless `FRAME_CYCLES` is
none. -/
def State.registerFrame (s : State) : Option Dword → State
  | none => s
  | some n =>
    { (s.registerFunction.2.addTimer s.registerFunction.1 n).2 with frameHandler := some s.registerFunction.1 }

/-- A port operation by a component during its `reset()`: of the ports of R258, the scheduler's registrations and the
interrupt lines, and nothing else (log entry 17). -/
def State.resetOp (s : State) (op : PortOp) (c : Config := cfg) : State :=
  match op with
  | .registerFunction => s.deviceOp .registerFunction c
  | .addEvent h d p => s.deviceOp (.addEvent h d p) c
  | .addTimer h n => s.deviceOp (.addTimer h n) c
  | .irqSet i level => s.deviceOp (.irqSet i level) c
  | .busRead _ _ => s
  | .busWrite _ _ _ => s
  | .interlockRequest => s
  | .wakeGraphics => s

/-- A component's `reset()` (`70_reset_and_hazards.md` R303): its port operations in order; it leaves every line it drives
deasserted (R305). A fatal among them ends it there (`60_exceptions.md` R295). -/
def State.componentReset (s : State) (ops : List PortOp) (c : Config := cfg) : State :=
  let t := ops.foldl (fun t op => t.resetOp op c) s
  if t.fatal then t else { t with irqLine := 0 }

/-- The REGISTER devices in route-table order, windows before exact entries, each once (R303). -/
def registerDevices (c : Config := cfg) : List DeviceName :=
  (((c.windows.map (·.dev) ++ c.exact.map (·.dev)).filter (fun d => decide (d.kind = .register))).map
    (·.name)).eraseDups

/-- `reset()` (`70_reset_and_hazards.md` R300, R303): the state after reset, with the environment's answers and the
output streams, which are not the block's state, as they stand (log entry 17); then the LOOP's registration, the
external units' `reset()` in run order and the REGISTER devices' in route-table order. -/
def State.hostReset (s : State) (c : Config := cfg) : State :=
  let loop := ({ State.resetOf c with env := s.env, draws := s.draws, out := s.out }).registerFrame c.frameCycles
  let units := unitOrder.foldl (fun t u => t.componentReset (c.unitReset u) c) loop
  (registerDevices c).foldl (fun t n => t.componentReset (c.deviceReset n) c) units

/-- The host's ports (R260); `runFrame` with the number of iterations the model is asked for (log entry 23). -/
inductive HostCall where
  | reset
  | runFrame (iterations : Nat)
  | runIteration
  | coreHalt
  | serialize
  | restore (b : Blob)
deriving DecidableEq, Repr

/-- What a host port answers. -/
inductive HostAnswer where
  | none
  | frame (r : FrameResult)
  | blob (b : Blob)
  | restored (r : RestoreResult)
deriving DecidableEq, Repr

/-- No iteration is in progress (R260); a latched fatal has unwound out of the run loop (`60_exceptions.md` R295). -/
def State.betweenIterations (s : State) : Bool :=
  s.fatal || decide (s.phase = .idle) || decide (s.phase = .frame)

/-- The answer of `run_frame` with the state after it. -/
def frameAnswer : Host.Outcome (FrameResult × State) Fault Refusal → Host.Outcome (HostAnswer × State) Fault Refusal
  | .next (r, t) => .next (.frame r, t)
  | .fault r => .fault r
  | .refused r => .refused r

/-- The answer of a port that returns nothing, with the state after it. -/
def plainAnswer : Host.Outcome State Fault Refusal → Host.Outcome (HostAnswer × State) Fault Refusal
  | .next t => .next (.none, t)
  | .fault r => .fault r
  | .refused r => .refused r

/-- A host call (R260): the port's answer and the state after it; every port is refused in the middle of an iteration,
which the spec forbids the caller (`93_implementation_defined.md` I31). -/
def hostCall (h : HostCall) (s : State) (c : Config := cfg) : Host.Outcome (HostAnswer × State) Fault Refusal :=
  if s.betweenIterations then
    match h with
    | .reset => .next (.none, s.hostReset c)
    | .runFrame k => frameAnswer (runFrame k s c)
    | .runIteration => plainAnswer (runIteration s c)
    | .coreHalt => .next (.none, s.coreHalt)
    | .serialize => .next (.blob s.serialize, s)
    | .restore b => .next (.restored (s.restore b c).1, (s.restore b c).2)
  else .refused .hostCallMidIteration

end Sys2Proof.Machine
end

