-- ==== Sys2Proof/Safety.lean ====
section
/-! DEFINITION. The terms claims are stated in: what it means that a part of the state is unchanged, that an
instruction completed, entered an exception or latched a fatal code, how memory reads as values, the invariants of
the machine, and a safe run. -/

namespace Sys2Proof.Machine

/-! ### Frames -/

/-- Every state element outside the register file, LO and HI, the branch state and `pc`, coprocessor 0 and
`wait_for_irq`, memory, and the advisory tracker with the output streams is unchanged. -/
structure SameRest (s t : State) : Prop where
  sa : t.sa = s.sa
  nextPc : t.nextPc = s.nextPc
  fpr : t.fpr = s.fpr
  fcond : t.fcond = s.fcond
  icache : t.icache = s.icache
  ilockCop2 : t.ilockCop2 = s.ilockCop2
  ilockVu : t.ilockVu = s.ilockVu
  sched : t.sched = s.sched
  frameComplete : t.frameComplete = s.frameComplete
  fatal : t.fatal = s.fatal
  fatalCode : t.fatalCode = s.fatalCode
  irqLine : t.irqLine = s.irqLine
  phase : t.phase = s.phase
  frameHandler : t.frameHandler = s.frameHandler
  env : t.env = s.env
  draws : t.draws = s.draws

/-- Coprocessor 0 and `wait_for_irq` are unchanged: no flag, no exception register. -/
structure SameCop0 (s t : State) : Prop where
  status : t.status = s.status
  excCode : t.excCode = s.excCode
  bd : t.bd = s.bd
  epc : t.epc = s.epc
  waitForIrq : t.waitForIrq = s.waitForIrq

/-- LO and HI are unchanged. -/
structure SameLoHi (s t : State) : Prop where
  lo : t.lo = s.lo
  hi : t.hi = s.hi

/-- Every general register reads the same. -/
def SameGprs (s t : State) : Prop := ∀ r : Reg, t.xq r = s.xq r

/-- Every byte of memory reads the same. -/
def SameMemory (s t : State) : Prop := ∀ a : Nat, t.byteAt a = s.byteAt a

/-- Every byte outside the `n` bytes from `pa` up reads the same. -/
def SameMemoryOutside (s t : State) (pa n : Nat) : Prop :=
  ∀ a : Nat, (a < pa ∨ pa + n ≤ a) → t.byteAt a = s.byteAt a

/-- Bits 63:0 of register `rd` hold `v`, its bits 127:64 and every other register are unchanged; a write to register 0
writes nothing (`10_state.md` R22, R23). -/
structure WroteX (s t : State) (rd : Reg) (v : Dword) : Prop where
  value : rd ≠ 0 → t.x rd = v
  upper : (t.xq rd).extractLsb' 64 64 = (s.xq rd).extractLsb' 64 64
  zero : rd = 0 → t.gpr = s.gpr
  others : ∀ r : Reg, r ≠ rd → t.xq r = s.xq r

/-- All 128 bits of register `rd` hold `v`, every other register is unchanged; register 0 is never written (R22). -/
structure WroteXq (s t : State) (rd : Reg) (v : Quad) : Prop where
  value : rd ≠ 0 → t.xq rd = v
  zero : rd = 0 → t.gpr = s.gpr
  others : ∀ r : Reg, r ≠ rd → t.xq r = s.xq r

/-- The elements of `SameRest` that no side effect of a device touches (`20_memory.md` R78). -/
structure SameOutsideDevices (s t : State) : Prop where
  sa : t.sa = s.sa
  nextPc : t.nextPc = s.nextPc
  fpr : t.fpr = s.fpr
  fcond : t.fcond = s.fcond
  icache : t.icache = s.icache
  ilockCop2 : t.ilockCop2 = s.ilockCop2
  ilockVu : t.ilockVu = s.ilockVu
  frameComplete : t.frameComplete = s.frameComplete
  phase : t.phase = s.phase
  frameHandler : t.frameHandler = s.frameHandler

/-- The elements a device's side effects can touch are those of `u`. -/
structure DevicesAs (u t : State) : Prop where
  mem : t.mem = u.mem
  sched : t.sched = u.sched
  irqLine : t.irqLine = u.irqLine
  env : t.env = u.env
  draws : t.draws = u.draws
  fatal : t.fatal = u.fatal
  fatalCode : t.fatalCode = u.fatalCode

/-- Advance after `Done` (`40_core_step.md` R135). -/
structure AdvancedDone (s t : State) : Prop where
  pcInSlot : s.branchPending = true → t.pc = s.branchTarget
  pcNext : s.branchPending = false → t.pc = s.nextPc
  pending : t.branchPending = false
  target : t.branchTarget = s.branchTarget

/-- Advance after `Branch(T)` (R135). -/
structure AdvancedBranch (s t : State) (target : Word) : Prop where
  pc : t.pc = s.nextPc
  pending : t.branchPending = true
  target : t.branchTarget = target

/-- The tracker's part of an instruction `i` that ended `Done` or `Branch` (`70_reset_and_hazards.md` R312): its
descriptor is the last, the multiply/divide ready time moves for MULT and DIV alone, and the newest record, on top of
`log`, is its `Hazard` record. -/
structure Tracked (i : Instr) (s t : State) (log : List OutEvent) : Prop where
  lastDesc : t.lastDesc = some (descriptor i)
  mdReadyCycle : t.mdReadyCycle =
    if (descriptor i).kind = .mult ∨ (descriptor i).kind = .div then s.now + (descriptor i).latency else s.mdReadyCycle
  out : t.out = .hazard s.pc (raw s.lastDesc (descriptor i)) (war s.lastDesc (descriptor i))
    (waw s.lastDesc (descriptor i)) (mdBusy (descriptor i) s.now s.mdReadyCycle) :: log

/-- The instruction `i` ended `Done` and changed nothing but what the other clauses of a statement say: the frame of an
instruction that writes general registers only. The streams get its `Hazard` record alone, on top of `log`. -/
structure DoneFrame (i : Instr) (s t : State) (log : List OutEvent := s.out) : Prop where
  tracker : Tracked i s t log
  advanced : AdvancedDone s t
  loHi : SameLoHi s t
  cop0 : SameCop0 s t
  memory : SameMemory s t
  rest : SameRest s t

/-- The frame of a store `i` of `n` bytes at physical address `pa`. -/
structure StoreFrame (i : Instr) (s t : State) (pa n : Nat) : Prop where
  tracker : Tracked i s t s.out
  advanced : AdvancedDone s t
  gprs : SameGprs s t
  loHi : SameLoHi s t
  cop0 : SameCop0 s t
  memory : SameMemoryOutside s t pa n
  rest : SameRest s t

/-- The frame of an access `i` of a REGISTER device whose side effects leave the devices and the streams as in `u`. -/
structure DeviceFrame (i : Instr) (s u t : State) : Prop where
  tracker : Tracked i s t u.out
  advanced : AdvancedDone s t
  loHi : SameLoHi s t
  cop0 : SameCop0 s t
  rest : SameOutsideDevices s t
  devices : DevicesAs u t

/-- The frame of a control transfer `i` that ended `Branch(T)`. -/
structure BranchFrame (i : Instr) (s t : State) (target : Word) : Prop where
  tracker : Tracked i s t s.out
  advanced : AdvancedBranch s t target
  loHi : SameLoHi s t
  cop0 : SameCop0 s t
  memory : SameMemory s t
  rest : SameRest s t

/-- The exception entry of `60_exceptions.md` R281 for the instruction at `pc`, and nothing else. -/
structure Entered (s t : State) (code : BitVec 5) : Prop where
  epc : t.epc = if s.branchPending then s.pc - 4 else s.pc
  bd : t.bd = s.branchPending
  excCode : t.excCode = code
  ieTop : t.status.getLsbD 0 = false
  iePushed : ∀ i : Nat, i + 1 < cfg.ieStackDepth → t.status.getLsbD (i + 1) = s.status.getLsbD i
  statusRest : ∀ i : Nat, cfg.ieStackDepth ≤ i → t.status.getLsbD i = s.status.getLsbD i
  pc : t.pc = cfg.excVector
  pending : t.branchPending = false
  target : t.branchTarget = s.branchTarget
  waitForIrq : t.waitForIrq = false
  lastDesc : t.lastDesc = none
  mdReadyCycle : t.mdReadyCycle = s.mdReadyCycle
  out : t.out = s.out
  gprs : SameGprs s t
  loHi : SameLoHi s t
  memory : SameMemory s t
  rest : SameRest s t

/-- The pop of the interrupt-enable stack (`60_exceptions.md` R290): every entry moves one place toward the top, the
deepest keeps its value, no other bit of STATUS changes. -/
structure Popped (before after : Word) : Prop where
  moved : ∀ i : Nat, i + 1 < cfg.ieStackDepth → after.getLsbD i = before.getLsbD (i + 1)
  kept : ∀ i : Nat, cfg.ieStackDepth ≤ i + 1 → after.getLsbD i = before.getLsbD i

/-- `Fatal(c)` (`60_exceptions.md` R293): the latch, its code and one diagnostic record; nothing else changes. -/
def LatchedOnly (s t : State) (c : FatalCode) : Prop :=
  ∃ info : Word, t = { s with fatal := true, fatalCode := some c, out := .diag c s.pc info :: s.out }

/-- The instruction answers a next state, and it is one of which `p` holds. -/
def Completes (o : Host.Outcome State Fault Refusal) (p : State → Prop) : Prop := ∃ t, o = .next t ∧ p t

/-- The instruction answers the state `s` with the latch `fatal` set for the reason `c`, and nothing else changed. -/
def Latches (o : Host.Outcome State Fault Refusal) (s : State) (c : FatalCode) : Prop :=
  Completes o fun t => LatchedOnly s t c

/-- The CORE executes an instruction in the next step: the slice goes on and nothing fatal happened (R139). -/
def State.stepsNext (s : State) : Prop := s.fatal = false ∧ s.sliceOn = true

/-- A load `i` of width `w` from physical address `pa` of the REGISTER device `n` (`20_memory.md` R78): the access is
made exactly once, its side effects leave the devices as in `u`, and `wrote` says what the register write did. A side
effect that latched `fatal` ends the instruction there (log entry 6). -/
def DeviceLoad (s : State) (i : Instr) (n : DeviceName) (w : Width) (pa : Word) (wrote : State → Prop) : Prop :=
  ((s.registerRead n w pa).2.fatal = true → exec i s = .next (s.registerRead n w pa).2) ∧
  ((s.registerRead n w pa).2.fatal = false →
    Completes (exec i s) fun t => wrote t ∧ DeviceFrame i s (s.registerRead n w pa).2 t)

/-- A store `i` of width `w` of the value `v` to physical address `pa` of the REGISTER device `n` (R78). -/
def DeviceStore (s : State) (i : Instr) (n : DeviceName) (w : Width) (pa : Word) (v : Quad) : Prop :=
  ((s.registerWrite n w pa v).fatal = true → exec i s = .next (s.registerWrite n w pa v)) ∧
  ((s.registerWrite n w pa v).fatal = false →
    Completes (exec i s) fun t => SameGprs s t ∧ DeviceFrame i s (s.registerWrite n w pa v) t)

/-- Among these records none is an access of a REGISTER device (`20_memory.md` R78). -/
def NoAccessRecord (l : List OutEvent) : Prop :=
  ∀ n w pa v, .devRead n w pa v ∉ l ∧ .devWrite n w pa v ∉ l

/-- The descriptor of an instruction (`40_core_step.md` R124, R129): the latency and throughput are its class's (R128). -/
def HasDescriptor (i : Instr) (h : Handler) (cls : PipeClass) (kind : InstrKind) (deps : List Dep) : Prop :=
  descriptor i = ⟨h, cls, cfg.latency cls, cfg.throughput cls, kind, deps⟩

/-! ### Memory as values -/

/-- The 16-bit little-endian value at `pa` (`20_memory.md` R62). -/
def State.halfAt (s : State) (pa : Nat) : Half := s.byteAt (pa + 1) ++ s.byteAt pa

/-- The 32-bit little-endian value at `pa` (R62). -/
def State.wordAt (s : State) (pa : Nat) : Word := s.halfAt (pa + 2) ++ s.halfAt pa

/-- The 64-bit little-endian value at `pa` (R62). -/
def State.dwordAt (s : State) (pa : Nat) : Dword := s.wordAt (pa + 4) ++ s.wordAt pa

/-- The 128-bit little-endian value at `pa` (R62). -/
def State.quadAt (s : State) (pa : Nat) : Quad := s.dwordAt (pa + 8) ++ s.dwordAt pa

/-- Physical address `pa` belongs to a MEMORY device. -/
def inMemory (pa : Nat) : Bool :=
  match route pa with
  | some d => decide (d.kind ≠ .register)
  | none => false

/-- Physical address `pa` belongs to a MEMORY device that is not read-only. -/
def inWritableMemory (pa : Nat) : Bool :=
  match route pa with
  | some d => decide (d.kind = .memory false)
  | none => false

/-- The physical address of a load or store, as the BUS receives it (R180, R64). -/
def State.physWord (s : State) (base : Reg) (imm : Half) : Word := cfg.translate (s.effAddr base imm)

/-- The physical address of a load or store, as a number. -/
def State.physAddr (s : State) (base : Reg) (imm : Half) : Nat := (s.physWord base imm).toNat

/-! ### Invariants -/

/-- The invariant of the machine: register 0 holds 0 (R22), `pc` and a pending target are aligned (R29), the reserved
bits of STATUS are 0 (R34), memory is in its canonical form, the remainders are below the clock divisors (R45), and a
fatal code is present exactly while the latch is set (R43). -/
structure State.Inv (s : State) : Prop where
  gprZero : s.gpr[0] = 0
  pcAligned : s.pc.toNat % 4 = 0
  targetAligned : s.branchPending = true → s.branchTarget.toNat % 4 = 0
  statusReserved : s.status &&& ~~~statusWmask = 0
  memory : Memory.wf s.mem = true
  busRem : s.sched.busRem < cfg.busDiv
  iopRem : s.sched.iopRem < cfg.iopDiv
  fatalCode : s.fatal = s.fatalCode.isSome

/-- The invariant of the scheduler: no entry names an unregistered handler (`46_scheduler.md` R238), ids are handed
out in increasing order (R224), and every sequence number was drawn once from `seq` (R234). -/
structure Sched.Inv (c : Sched) : Prop where
  eventHandlers : ∀ e ∈ c.events, e.handlerId ∈ c.handlers
  timerHandlers : ∀ t ∈ c.timers, t.handlerId ∈ c.handlers
  handlerIds : ∀ h ∈ c.handlers, h < c.nextHandlerId
  seqs : ∀ q ∈ c.events.map (·.seq) ++ c.timers.map (·.seq), q < c.seq
  seqsOnce : (c.events.map (·.seq) ++ c.timers.map (·.seq)).Nodup
  timerIds : ∀ t ∈ c.timers, t.timerId < c.seq
  timerIdsOnce : (c.timers.map (·.timerId)).Nodup

/-! ### Runs -/

/-- A run of `k` steps is safe: every state of it exists and none has the latch `fatal` set (`60_exceptions.md` R293:
"a proof about a program should establish that `fatal` stays 0"). -/
def SafeRun (k : Nat) (s : State) : Prop :=
  ∀ j ≤ k, ∃ t, Host.Core.run Sys2Proof.core j s = .next t ∧ t.fatal = false

/-- A record of any output stream but the advisory one of the hazard tracker. -/
def OutEvent.notHazard : OutEvent → Bool
  | .hazard _ _ _ _ _ => false
  | .unmappedRead _ _ => true
  | .diag _ _ _ => true
  | .devRead _ _ _ _ => true
  | .devWrite _ _ _ _ => true
  | .unitTurn _ _ => true
  | .fire _ _ _ => true
  | .wakeGraphics => true

/-- The state without the advisory tracker and its stream (`70_reset_and_hazards.md` R316): what every other rule can
see. -/
def State.withoutTracker (s : State) : State :=
  { s with lastDesc := none, mdReadyCycle := 0, out := s.out.filter OutEvent.notHazard }

end Sys2Proof.Machine
end

