-- ==== Sys2Proof/WellFormed.lean ====
section
/-! DEFINITION. Well-formed instructions (the ranges of the operands that are numbers: `30_encoding.md` R102, R105,
R106) and well-formed configurations (`00_scope.md` R9). -/

namespace Sys2Proof

/-- The operands are in the ranges their fields can hold: a shift amount 0..31, a coprocessor-0 register number of 5
bits, a trap code of 10 bits, a SYSCALL/BREAK code of 20 bits (R102, R105, R106). Every other operand is in range by
its type. -/
def Instr.wf : Instr → Bool
  | .sll _ _ sa => decide (sa < 32)
  | .tge _ _ code => decide (code < 1024)
  | .tgeu _ _ code => decide (code < 1024)
  | .tlt _ _ code => decide (code < 1024)
  | .tltu _ _ code => decide (code < 1024)
  | .teq _ _ code => decide (code < 1024)
  | .tne _ _ code => decide (code < 1024)
  | .syscall code => decide (code < 1048576)
  | .breakpoint code => decide (code < 1048576)
  | .mfc0 _ n => decide (n < 32)
  | .mtc0 _ n => decide (n < 32)
  | .add _ _ _ => true
  | .addi _ _ _ => true
  | .daddu _ _ _ => true
  | .mult _ _ => true
  | .div _ _ => true
  | .mfhi _ => true
  | .mflo _ => true
  | .beq _ _ _ => true
  | .bne _ _ _ => true
  | .j _ => true
  | .jal _ => true
  | .jr _ => true
  | .lb _ _ _ => true
  | .lbu _ _ _ => true
  | .lh _ _ _ => true
  | .lhu _ _ _ => true
  | .lw _ _ _ => true
  | .lwu _ _ _ => true
  | .ld _ _ _ => true
  | .lq _ _ _ => true
  | .sb _ _ _ => true
  | .sh _ _ _ => true
  | .sw _ _ _ => true
  | .sd _ _ _ => true
  | .sq _ _ _ => true
  | .eret => true
  | .wait => true
  | .cfc2i => true

/-- A window has a base and a size that are multiples of 16 and does not wrap past 2^32 (R9). -/
def Window.wf (w : Window) : Bool :=
  decide (w.base % 16 = 0) && decide (w.size % 16 = 0) && decide (w.base + w.size ≤ 2 ^ 32)

/-- Two windows share no address (R9). DESIGN CHOICE (log entry 13): R9 does not speak of windows of size 0; such a
window covers no address, so it is disjoint from every window, also from one it lies in. -/
def Window.disjoint (v w : Window) : Bool :=
  decide (v.size = 0) || decide (w.size = 0) ||
  decide (v.base + v.size ≤ w.base) || decide (w.base + w.size ≤ v.base)

/-- Every window is disjoint from every later one (R9). -/
def windowsDisjoint : List Window → Bool
  | [] => true
  | w :: ws => ws.all (fun v => Window.disjoint w v) && windowsDisjoint ws

/-- An exact-match address is a multiple of every width its device has a delegate for (R9). -/
def ExactEntry.wf (e : ExactEntry) : Bool :=
  (e.dev.rdWidths ++ e.dev.wrWidths).all (fun w => decide (e.addr % w.bytes = 0))

/-- The constraints of R9 that can be decided; that every step costs at least one cycle (`40_core_step.md` R139); and the
parameter value no rule defines, `ICACHE_ENABLED` true (`93_implementation_defined.md` I10). -/
def Config.wf (c : Config) : Bool :=
  decide (c.excVector.toNat % 4 = 0) && decide (c.resetPc.toNat % 4 = 0) &&
  c.windows.all Window.wf && windowsDisjoint c.windows && c.exact.all ExactEntry.wf &&
  decide (1 ≤ c.busDiv) && decide (1 ≤ c.iopDiv) && decide (1 ≤ c.minRunCycles) &&
  decide (c.minRunCycles ≤ c.idleBudget) &&
  decide (1 ≤ c.ieStackDepth) && decide (c.ieStackDepth ≤ 8) &&
  decide (1 ≤ c.nIrq) && decide (c.nIrq ≤ 8) &&
  decide (1 ≤ c.stepCost) &&
  !c.icacheEnabled

/-- The constraint of R9 on `TRANSLATE`: it keeps the low 4 bits of every address. -/
def Config.translateKeepsLow4 (c : Config) : Prop :=
  ∀ v : Word, (c.translate v).toNat % 16 = v.toNat % 16

end Sys2Proof
end

