-- ==== Sys2Proof/Certificates/Slice0/Obligations.lean ====
section
/-! DEFINITION. The statements for the provers. Each docstring names the rules of the spec it formalises. Numbers that
the spec gives only as values of CFG_REF (log entry 1) appear as fields of `cfg`, except where a docstring says
otherwise. -/

open Sys2Proof Sys2Proof.Machine

/-! ### Decoding and encoding -/

/-- A word of each family, written out from the examples of the instruction rules (R150, R162, R171, R189, R192,
R201, R209, R212), and one that matches no row (R110). The encodings are CFG_REF's (log entry 1). -/
def Obligations.SampleWordsDecode : Prop :=
  decodeWord 0x00011100#32 = .ok (.sll 2 1 4) ∧
  decodeWord 0x00220018#32 = .ok (.mult 1 2) ∧
  decodeWord 0x10220002#32 = .ok (.beq 1 2 2) ∧
  decodeWord 0x78220010#32 = .ok (.lq 2 1 16) ∧
  decodeWord 0xAC220008#32 = .ok (.sw 2 1 8) ∧
  decodeWord 0x0022AD74#32 = .ok (.teq 1 2 0x2B5) ∧
  decodeWord 0x40027000#32 = .ok (.mfc0 2 14) ∧
  decodeWord 0x48400001#32 = .ok .cfc2i ∧
  decodeWord 0x70000000#32 = .error .unknownInstruction

/-- Decoding the encoding of a well-formed instruction gives it back, as a word and as bytes in memory order, whatever
bytes follow (R100 to R106). -/
def Obligations.DecodeInvertsEncode : Prop :=
  ∀ (i : Instr) (rest : List Byte), i.wf = true →
    decodeWord (encode i) = .ok i ∧ decode (encodeBytes i ++ rest) = .ok (i, rest)

/-- A decoded instruction is well formed and its encoding is the word it was decoded from: no bit of an admitted word
is ignored by the decoder, and every admitted word has one meaning (R101, R108). -/
def Obligations.EncodeInvertsDecode : Prop :=
  ∀ (w : Word) (i : Instr), decodeWord w = .ok i → i.wf = true ∧ encode i = w

/-- "The masks make the rows pairwise disjoint, so at most one row matches" (R101). -/
def Obligations.DecodeRowsAreDisjoint : Prop :=
  ∀ (a b : Fin decodeTable.length) (w : Word),
    (decodeTable[a]).matches w = true → (decodeTable[b]).matches w = true → a = b

/-- R109: a word with a non-zero value in a field its instruction does not use matches no row, field by field of the
rule's list; the `code` fields of SYSCALL, BREAK and the six traps change nothing. -/
def Obligations.UnusedFieldsMustBeZero : Prop :=
  (∀ (rs rt rd : Reg) (sa : BitVec 5), rs ≠ 0 → decodeWord (formatR rs rt rd sa 0x00#6) = .error .unknownInstruction) ∧
  (∀ (rs rt rd : Reg) (sa : BitVec 5), sa ≠ 0 →
    decodeWord (formatR rs rt rd sa 0x20#6) = .error .unknownInstruction ∧
    decodeWord (formatR rs rt rd sa 0x2D#6) = .error .unknownInstruction) ∧
  (∀ (rs rt rd : Reg) (sa : BitVec 5), (rd ≠ 0 ∨ sa ≠ 0) →
    decodeWord (formatR rs rt rd sa 0x18#6) = .error .unknownInstruction ∧
    decodeWord (formatR rs rt rd sa 0x1A#6) = .error .unknownInstruction) ∧
  (∀ (rs rt rd : Reg) (sa : BitVec 5), (rs ≠ 0 ∨ rt ≠ 0 ∨ sa ≠ 0) →
    decodeWord (formatR rs rt rd sa 0x10#6) = .error .unknownInstruction ∧
    decodeWord (formatR rs rt rd sa 0x12#6) = .error .unknownInstruction) ∧
  (∀ (rs rt rd : Reg) (sa : BitVec 5), (rt ≠ 0 ∨ rd ≠ 0 ∨ sa ≠ 0) →
    decodeWord (formatR rs rt rd sa 0x08#6) = .error .unknownInstruction) ∧
  (∀ (rt : Reg) (n : BitVec 5) (low : BitVec 11), low ≠ 0 →
    decodeWord (0x10#6 ++ 0x00#5 ++ regBits rt ++ n ++ low) = .error .unknownInstruction ∧
    decodeWord (0x10#6 ++ 0x04#5 ++ regBits rt ++ n ++ low) = .error .unknownInstruction) ∧
  (∀ (rs rt : Reg) (c k : Nat) (s : State),
    exec (.tge rs rt c) s = exec (.tge rs rt k) s ∧ exec (.tgeu rs rt c) s = exec (.tgeu rs rt k) s ∧
    exec (.tlt rs rt c) s = exec (.tlt rs rt k) s ∧ exec (.tltu rs rt c) s = exec (.tltu rs rt k) s ∧
    exec (.teq rs rt c) s = exec (.teq rs rt k) s ∧ exec (.tne rs rt c) s = exec (.tne rs rt k) s ∧
    exec (.syscall c) s = exec (.syscall k) s ∧ exec (.breakpoint c) s = exec (.breakpoint k) s)

/-! ### A step -/

/-- R120, R139: while the slice goes on, a step is `exec` of the decoded instruction on the state Fetch leaves
(`next_pc` latched), with the step charged. First for an instruction in the bytes of memory, then for whatever the
fetch access answers; a fetch whose side effects latched `fatal` ends there (log entry 6). -/
def Obligations.StepRunsDecodedInstruction : Prop :=
  ∀ (s : State) (i : Instr), s.stepsNext →
    (s.pc.toNat % 4 = 0 → inMemory (cfg.translate s.pc).toNat = true →
      decode (Memory.readBytes s.mem (cfg.translate s.pc).toNat 4) = .ok (i, []) →
      step s = charged (exec i s.latchNextPc)) ∧
    (∀ (w : Word) (t : State), s.fetch = .ok (w, t) → t.fatal = false → decodeWord w = .ok i →
      step s = charged (exec i t)) ∧
    (∀ (w : Word) (t : State), s.fetch = .ok (w, t) → t.fatal = true → step s = .next t.charge)

/-- R110: a word that matches no row ends the step with `Fatal(UnknownInstruction)` and nothing is written (beyond
`next_pc`, which Fetch writes before the word is known, R121). -/
def Obligations.UnknownWordIsFatal : Prop :=
  ∀ s : State, s.stepsNext → s.pc.toNat % 4 = 0 → inMemory (cfg.translate s.pc).toNat = true →
    decode (Memory.readBytes s.mem (cfg.translate s.pc).toNat 4) = .error .unknownInstruction →
    ∃ t, LatchedOnly s.latchNextPc t .unknownInstruction ∧ step s = .next t.charge

/-- R79: a fetch from an unmapped address is logged and runs the word 0, the NOP; nothing fatal and no exception
happens. -/
def Obligations.UnmappedFetchRunsNop : Prop :=
  ∀ s : State, s.stepsNext → s.pc.toNat % 4 = 0 → route (cfg.translate s.pc).toNat = none →
    Completes (step s) fun t =>
      (s.branchPending = false → t.pc = s.pc + 4) ∧ (s.branchPending = true → t.pc = s.branchTarget) ∧
      t.branchPending = false ∧ SameGprs s t ∧ SameLoHi s t ∧ SameCop0 s t ∧ SameMemory s t ∧ t.fatal = false ∧
      Tracked (.sll 0 0 0) s t (.unmappedRead (cfg.translate s.pc) .w32 :: s.out)

/-- The host's placed word is the next instruction: from any state, the very next step of `withFetchWord` fetches
exactly that word and runs it (log entry 4). -/
def Obligations.PlacedWordIsTheNextInstruction : Prop :=
  ∀ (s : State) (w : Word),
    step (s.withFetchWord 32 w.toNat) = charged (runWord w (s.withFetchWord 32 w.toNat).latchNextPc)

/-- R139, R140: every instruction step is charged `STEP_COST`, whatever the instruction and its outcome, and simulated
time does not move during it. -/
def Obligations.EveryInstructionStepIsCharged : Prop :=
  ∀ (s t : State) (r : Nat), s.stepsNext → s.phase = .core r → step s = .next t →
    t.phase = .core (r - cfg.stepCost) ∧ t.sched.runCycles = s.sched.runCycles ∧
    t.sched.cpuBudget = s.sched.cpuBudget

/-- No step is left without a next state while the latch `fatal` is clear; with it set, no step follows (R295). -/
def Obligations.StepAnswersUnlessFatal : Prop :=
  ∀ s : State, (s.fatal = false → ∃ t, step s = .next t) ∧
    (s.fatal = true → step s = .fault (.fatalLatched s.fatalCode))

/-! ### Integer, multiply and divide -/

/-- SLL, ADD, ADDI, DADDU (R150 to R153): the wrapped sum or shifted value, sign-extended from 32 bits (DADDU: 64 bits),
in bits 63:0 of the destination; bits 127:64 and every other register unchanged; register 0 discards the result; no
exception on any operands (R155); nothing else changes but the pc. MFHI and MFLO (R164, R165) likewise, with bits 63:0
of HI and LO. -/
def Obligations.IntegerResults : Prop :=
  ∀ (s : State) (rd rs rt : Reg) (sa : Nat) (imm : Half),
    Completes (exec (.sll rd rt sa) s) (fun t =>
      WroteX s t rd ((BitVec.ofNat 32 ((s.x rt).toNat * 2 ^ sa)).signExtend 64) ∧ DoneFrame (.sll rd rt sa) s t) ∧
    Completes (exec (.add rd rs rt) s) (fun t =>
      WroteX s t rd ((BitVec.ofNat 32 ((s.x rs).toNat + (s.x rt).toNat)).signExtend 64) ∧
      DoneFrame (.add rd rs rt) s t) ∧
    Completes (exec (.addi rt rs imm) s) (fun t =>
      WroteX s t rt ((BitVec.ofInt 32 ((s.x rs).toInt + imm.toInt)).signExtend 64) ∧ DoneFrame (.addi rt rs imm) s t) ∧
    Completes (exec (.daddu rd rs rt) s) (fun t =>
      WroteX s t rd (BitVec.ofNat 64 ((s.x rs).toNat + (s.x rt).toNat)) ∧ DoneFrame (.daddu rd rs rt) s t) ∧
    Completes (exec (.mfhi rd) s) (fun t => WroteX s t rd (s.hi.extractLsb' 0 64) ∧ DoneFrame (.mfhi rd) s t) ∧
    Completes (exec (.mflo rd) s) (fun t => WroteX s t rd (s.lo.extractLsb' 0 64) ∧ DoneFrame (.mflo rd) s t)

/-- MULT (R162, R160): the exact signed product, its low half in LO and its high half in HI, each sign-extended into
bits 63:0; bits 127:64 of both and every general register unchanged. -/
def Obligations.MultGivesTheExactProduct : Prop :=
  ∀ (s : State) (rs rt : Reg),
    Completes (exec (.mult rs rt) s) fun t =>
      (t.hi.extractLsb' 0 32 ++ t.lo.extractLsb' 0 32).toInt =
        ((s.x rs).extractLsb' 0 32).toInt * ((s.x rt).extractLsb' 0 32).toInt ∧
      t.lo.extractLsb' 0 64 = (t.lo.extractLsb' 0 32).signExtend 64 ∧
      t.hi.extractLsb' 0 64 = (t.hi.extractLsb' 0 32).signExtend 64 ∧
      t.lo.extractLsb' 64 64 = s.lo.extractLsb' 64 64 ∧ t.hi.extractLsb' 64 64 = s.hi.extractLsb' 64 64 ∧
      Tracked (.mult rs rt) s t s.out ∧ SameGprs s t ∧ AdvancedDone s t ∧ SameCop0 s t ∧ SameMemory s t ∧ SameRest s t

/-- DIV (R163, R161): the quotient rounded toward zero in LO and the remainder with the dividend's sign in HI, and the
fixed substitutes for a zero divisor and for the overflow case; never an exception. -/
def Obligations.DivResults : Prop :=
  ∀ (s : State) (rs rt : Reg) (a b : Int),
    a = ((s.x rs).extractLsb' 0 32).toInt → b = ((s.x rt).extractLsb' 0 32).toInt →
    Completes (exec (.div rs rt) s) fun t =>
      (b = 0 → 0 ≤ a → (t.lo.extractLsb' 0 64).toInt = -1 ∧ (t.hi.extractLsb' 0 64).toInt = a) ∧
      (b = 0 → a < 0 → (t.lo.extractLsb' 0 64).toInt = 1 ∧ (t.hi.extractLsb' 0 64).toInt = a) ∧
      (a = -2147483648 → b = -1 →
        (t.lo.extractLsb' 0 64).toInt = -2147483648 ∧ (t.hi.extractLsb' 0 64).toInt = 0) ∧
      (b ≠ 0 → ¬(a = -2147483648 ∧ b = -1) →
        a = b * (t.lo.extractLsb' 0 64).toInt + (t.hi.extractLsb' 0 64).toInt ∧
        (t.hi.extractLsb' 0 64).toInt.natAbs < b.natAbs ∧
        (0 ≤ a → 0 ≤ (t.hi.extractLsb' 0 64).toInt) ∧ (a ≤ 0 → (t.hi.extractLsb' 0 64).toInt ≤ 0)) ∧
      t.lo.extractLsb' 64 64 = s.lo.extractLsb' 64 64 ∧ t.hi.extractLsb' 64 64 = s.hi.extractLsb' 64 64 ∧
      Tracked (.div rs rt) s t s.out ∧ SameGprs s t ∧ AdvancedDone s t ∧ SameCop0 s t ∧ SameMemory s t ∧ SameRest s t

/-! ### Control transfer -/

/-- BEQ and BNE (R171, R172, R176): compared in bits 63:0; taken or not, the next instruction is the delay slot, and the
pending target is the branch target or the address after the slot. -/
def Obligations.ConditionalBranches : Prop :=
  ∀ (s : State) (rs rt : Reg) (imm : Half), s.branchPending = false →
    Completes (exec (.beq rs rt imm) s) (fun t => SameGprs s t ∧ BranchFrame (.beq rs rt imm) s t
      (if s.x rs = s.x rt then s.nextPc + BitVec.ofInt 32 (4 * imm.toInt) else s.nextPc + 4)) ∧
    Completes (exec (.bne rs rt imm) s) (fun t => SameGprs s t ∧ BranchFrame (.bne rs rt imm) s t
      (if s.x rs = s.x rt then s.nextPc + 4 else s.nextPc + BitVec.ofInt 32 (4 * imm.toInt)))

/-- J and JAL (R175, R173, R178): the target is in the delay slot's 256 MiB region; JAL links the address after the
slot, sign-extended, in register 31. -/
def Obligations.Jumps : Prop :=
  ∀ (s : State) (index : BitVec 26) (target : Word), s.branchPending = false →
    target.toNat = s.nextPc.toNat / 2 ^ 28 * 2 ^ 28 + 4 * index.toNat →
    Completes (exec (.j index) s) (fun t => SameGprs s t ∧ BranchFrame (.j index) s t target) ∧
    Completes (exec (.jal index) s) (fun t =>
      WroteX s t 31 ((s.nextPc + 4).signExtend 64) ∧ BranchFrame (.jal index) s t target)

/-- JR (R174, R177): to bits 31:0 of the register after the delay slot; a target that is not a multiple of 4 is fatal
and nothing is written. -/
def Obligations.JumpRegister : Prop :=
  ∀ (s : State) (rs : Reg), s.branchPending = false →
    (((s.x rs).extractLsb' 0 32).toNat % 4 = 0 →
      Completes (exec (.jr rs) s) fun t => SameGprs s t ∧ BranchFrame (.jr rs) s t ((s.x rs).extractLsb' 0 32)) ∧
    (((s.x rs).extractLsb' 0 32).toNat % 4 ≠ 0 → Latches (exec (.jr rs) s) s .misalignedBranchTarget)

/-- R132: a control transfer or ERET in a delay slot is fatal before any other check and writes nothing. -/
def Obligations.TransferInDelaySlotIsFatal : Prop :=
  ∀ (s : State) (rs rt : Reg) (imm : Half) (index : BitVec 26), s.branchPending = true →
    Latches (exec (.beq rs rt imm) s) s .branchInDelaySlot ∧
    Latches (exec (.bne rs rt imm) s) s .branchInDelaySlot ∧
    Latches (exec (.j index) s) s .branchInDelaySlot ∧
    Latches (exec (.jal index) s) s .branchInDelaySlot ∧
    Latches (exec (.jr rs) s) s .branchInDelaySlot ∧
    Latches (exec .eret s) s .branchInDelaySlot

/-- R136: with a branch pending, an instruction step that stays out of `fatal` ends in exactly one of three ways: the
slot instruction completed and control is at the target; it was held and is issued again, still in the slot; or it
raised an exception whose saved pc is the branch. -/
def Obligations.DelaySlotExecutesOnce : Prop :=
  ∀ s t : State, s.stepsNext → s.branchPending = true → step s = .next t → t.fatal = false →
    (t.pc = s.branchTarget ∧ t.branchPending = false) ∨
    (t.pc = s.pc ∧ t.branchPending = true ∧ t.branchTarget = s.branchTarget ∧ t.gpr = s.gpr) ∨
    (t.pc = cfg.excVector ∧ t.branchPending = false ∧ t.epc = s.pc - 4 ∧ t.bd = true)

/-! ### Loads and stores -/

/-- Loads from a MEMORY device (R182 to R189, R181, R62): the little-endian value at the physical address, extended as
the instruction says; LQ alone writes all 128 bits. -/
def Obligations.LoadsFromMemory : Prop :=
  ∀ (s : State) (rt base : Reg) (imm : Half) (pa : Nat), s.fatal = false → pa = s.physAddr base imm →
    inMemory pa = true →
    Completes (exec (.lb rt base imm) s)
      (fun t => WroteX s t rt ((s.byteAt pa).signExtend 64) ∧ DoneFrame (.lb rt base imm) s t) ∧
    Completes (exec (.lbu rt base imm) s)
      (fun t => WroteX s t rt ((s.byteAt pa).zeroExtend 64) ∧ DoneFrame (.lbu rt base imm) s t) ∧
    (pa % 2 = 0 →
      Completes (exec (.lh rt base imm) s)
        (fun t => WroteX s t rt ((s.halfAt pa).signExtend 64) ∧ DoneFrame (.lh rt base imm) s t) ∧
      Completes (exec (.lhu rt base imm) s)
        (fun t => WroteX s t rt ((s.halfAt pa).zeroExtend 64) ∧ DoneFrame (.lhu rt base imm) s t)) ∧
    (pa % 4 = 0 →
      Completes (exec (.lw rt base imm) s)
        (fun t => WroteX s t rt ((s.wordAt pa).signExtend 64) ∧ DoneFrame (.lw rt base imm) s t) ∧
      Completes (exec (.lwu rt base imm) s)
        (fun t => WroteX s t rt ((s.wordAt pa).zeroExtend 64) ∧ DoneFrame (.lwu rt base imm) s t)) ∧
    (pa % 8 = 0 →
      Completes (exec (.ld rt base imm) s)
        (fun t => WroteX s t rt (s.dwordAt pa) ∧ DoneFrame (.ld rt base imm) s t)) ∧
    (pa % 16 = 0 →
      Completes (exec (.lq rt base imm) s) (fun t => WroteXq s t rt (s.quadAt pa) ∧ DoneFrame (.lq rt base imm) s t))

/-- Stores to a MEMORY device (R190 to R194, R181, R62): the bytes of the register, little-endian, at the physical
address, and no other byte; a store to a read-only device completes and is dropped (R76). -/
def Obligations.StoresToMemory : Prop :=
  (∀ (s : State) (rt base : Reg) (imm : Half) (pa : Nat), s.fatal = false → pa = s.physAddr base imm →
    inWritableMemory pa = true →
    Completes (exec (.sb rt base imm) s)
      (fun t => t.byteAt pa = (s.x rt).extractLsb' 0 8 ∧ StoreFrame (.sb rt base imm) s t pa 1) ∧
    (pa % 2 = 0 → Completes (exec (.sh rt base imm) s)
      (fun t => t.halfAt pa = (s.x rt).extractLsb' 0 16 ∧ StoreFrame (.sh rt base imm) s t pa 2)) ∧
    (pa % 4 = 0 → Completes (exec (.sw rt base imm) s)
      (fun t => t.wordAt pa = (s.x rt).extractLsb' 0 32 ∧ StoreFrame (.sw rt base imm) s t pa 4)) ∧
    (pa % 8 = 0 → Completes (exec (.sd rt base imm) s)
      (fun t => t.dwordAt pa = s.x rt ∧ StoreFrame (.sd rt base imm) s t pa 8)) ∧
    (pa % 16 = 0 → Completes (exec (.sq rt base imm) s)
      (fun t => t.quadAt pa = s.xq rt ∧ StoreFrame (.sq rt base imm) s t pa 16))) ∧
  (∀ (s : State) (rt base : Reg) (imm : Half) (pa : Nat), s.fatal = false → pa = s.physAddr base imm →
    inMemory pa = true → inWritableMemory pa = false →
    Completes (exec (.sb rt base imm) s) (fun t => SameGprs s t ∧ DoneFrame (.sb rt base imm) s t) ∧
    (pa % 2 = 0 → Completes (exec (.sh rt base imm) s) (fun t => SameGprs s t ∧ DoneFrame (.sh rt base imm) s t)) ∧
    (pa % 4 = 0 → Completes (exec (.sw rt base imm) s) (fun t => SameGprs s t ∧ DoneFrame (.sw rt base imm) s t)) ∧
    (pa % 8 = 0 → Completes (exec (.sd rt base imm) s) (fun t => SameGprs s t ∧ DoneFrame (.sd rt base imm) s t)) ∧
    (pa % 16 = 0 → Completes (exec (.sq rt base imm) s) (fun t => SameGprs s t ∧ DoneFrame (.sq rt base imm) s t)))

/-- Loads and stores at an unmapped address (R196, R75, R76): a load is logged and delivers `UNMAPPED_READ_VALUE` (0 at
every width under CFG_REF, log entry 1); a store is dropped and not logged. Neither is an exception or fatal. -/
def Obligations.UnmappedAccessesAreHarmless : Prop :=
  ∀ (s : State) (rt base : Reg) (imm : Half) (pa : Word), s.fatal = false → pa = s.physWord base imm →
    route pa.toNat = none →
    Completes (exec (.lb rt base imm) s)
      (fun t => WroteX s t rt 0 ∧ DoneFrame (.lb rt base imm) s t (.unmappedRead pa .w8 :: s.out)) ∧
    Completes (exec (.lbu rt base imm) s)
      (fun t => WroteX s t rt 0 ∧ DoneFrame (.lbu rt base imm) s t (.unmappedRead pa .w8 :: s.out)) ∧
    Completes (exec (.sb rt base imm) s) (fun t => SameGprs s t ∧ DoneFrame (.sb rt base imm) s t) ∧
    (pa.toNat % 2 = 0 →
      Completes (exec (.lh rt base imm) s)
        (fun t => WroteX s t rt 0 ∧ DoneFrame (.lh rt base imm) s t (.unmappedRead pa .w16 :: s.out)) ∧
      Completes (exec (.lhu rt base imm) s)
        (fun t => WroteX s t rt 0 ∧ DoneFrame (.lhu rt base imm) s t (.unmappedRead pa .w16 :: s.out)) ∧
      Completes (exec (.sh rt base imm) s) (fun t => SameGprs s t ∧ DoneFrame (.sh rt base imm) s t)) ∧
    (pa.toNat % 4 = 0 →
      Completes (exec (.lw rt base imm) s)
        (fun t => WroteX s t rt 0 ∧ DoneFrame (.lw rt base imm) s t (.unmappedRead pa .w32 :: s.out)) ∧
      Completes (exec (.lwu rt base imm) s)
        (fun t => WroteX s t rt 0 ∧ DoneFrame (.lwu rt base imm) s t (.unmappedRead pa .w32 :: s.out)) ∧
      Completes (exec (.sw rt base imm) s) (fun t => SameGprs s t ∧ DoneFrame (.sw rt base imm) s t)) ∧
    (pa.toNat % 8 = 0 →
      Completes (exec (.ld rt base imm) s)
        (fun t => WroteX s t rt 0 ∧ DoneFrame (.ld rt base imm) s t (.unmappedRead pa .w64 :: s.out)) ∧
      Completes (exec (.sd rt base imm) s) (fun t => SameGprs s t ∧ DoneFrame (.sd rt base imm) s t)) ∧
    (pa.toNat % 16 = 0 →
      Completes (exec (.lq rt base imm) s)
        (fun t => WroteXq s t rt 0 ∧ DoneFrame (.lq rt base imm) s t (.unmappedRead pa .w128 :: s.out)) ∧
      Completes (exec (.sq rt base imm) s) (fun t => SameGprs s t ∧ DoneFrame (.sq rt base imm) s t))

/-- Loads from a REGISTER device (R78, R181): one access, the device's value cut to the width and extended as the
instruction says, also into register 0, where only the register write is dropped (R180). The value is the
environment's and free (log entry 5). The access itself (R78): one `(Read, dev, w, pa, value)` record, then the port
operations of the environment's answer in order, and no further access record. The answer is the next of those the
state lists, else a free one, and is consumed (log entry 5). -/
def Obligations.LoadsFromRegisterDevices : Prop :=
  (∀ (s : State) (rt base : Reg) (imm : Half) (pa : Word) (d : Device), s.fatal = false →
    pa = s.physWord base imm → route pa.toNat = some d → d.kind = .register →
    DeviceLoad s (.lb rt base imm) d.name .w8 pa
      (fun t => WroteX s t rt ((s.nextAnswer.value.extractLsb' 0 8).signExtend 64)) ∧
    DeviceLoad s (.lbu rt base imm) d.name .w8 pa
      (fun t => WroteX s t rt ((s.nextAnswer.value.extractLsb' 0 8).zeroExtend 64)) ∧
    (pa.toNat % 2 = 0 →
      DeviceLoad s (.lh rt base imm) d.name .w16 pa
        (fun t => WroteX s t rt ((s.nextAnswer.value.extractLsb' 0 16).signExtend 64)) ∧
      DeviceLoad s (.lhu rt base imm) d.name .w16 pa
        (fun t => WroteX s t rt ((s.nextAnswer.value.extractLsb' 0 16).zeroExtend 64))) ∧
    (pa.toNat % 4 = 0 →
      DeviceLoad s (.lw rt base imm) d.name .w32 pa
        (fun t => WroteX s t rt ((s.nextAnswer.value.extractLsb' 0 32).signExtend 64)) ∧
      DeviceLoad s (.lwu rt base imm) d.name .w32 pa
        (fun t => WroteX s t rt ((s.nextAnswer.value.extractLsb' 0 32).zeroExtend 64))) ∧
    (pa.toNat % 8 = 0 →
      DeviceLoad s (.ld rt base imm) d.name .w64 pa
        (fun t => WroteX s t rt (s.nextAnswer.value.extractLsb' 0 64))) ∧
    (pa.toNat % 16 = 0 →
      DeviceLoad s (.lq rt base imm) d.name .w128 pa (fun t => WroteXq s t rt s.nextAnswer.value))) ∧
  (∀ (s : State) (n : DeviceName) (w : Width) (pa : Word), ∃ (v : Quad) (l : List OutEvent),
    v.toNat = s.nextAnswer.value.toNat % 256 ^ w.bytes ∧
    s.registerRead n w pa =
      (v, ({ s.takeAnswer with out := .devRead n w pa v :: s.out } : State).deviceOps s.nextAnswer.ops) ∧
    (s.registerRead n w pa).2.out = l ++ .devRead n w pa v :: s.out ∧ NoAccessRecord l) ∧
  (∀ s : State,
    (∀ a as, s.env = a :: as → s.nextAnswer = a ∧ s.takeAnswer = { s with env := as }) ∧
    (s.env = [] → s.nextAnswer = Config.freeAnswer s.draws ∧ s.takeAnswer = { s with draws := s.draws + 1 }))

/-- Stores to a REGISTER device (R78, R181, R65): one access with the full physical address and the register's value.
The access itself (R78): one `(Write, dev, w, pa, v)` record, then the port operations of the environment's answer in
order, and no further access record. -/
def Obligations.StoresToRegisterDevices : Prop :=
  (∀ (s : State) (rt base : Reg) (imm : Half) (pa : Word) (d : Device), s.fatal = false →
    pa = s.physWord base imm → route pa.toNat = some d → d.kind = .register →
    DeviceStore s (.sb rt base imm) d.name .w8 pa (((s.x rt).extractLsb' 0 8).zeroExtend 128) ∧
    (pa.toNat % 2 = 0 →
      DeviceStore s (.sh rt base imm) d.name .w16 pa (((s.x rt).extractLsb' 0 16).zeroExtend 128)) ∧
    (pa.toNat % 4 = 0 →
      DeviceStore s (.sw rt base imm) d.name .w32 pa (((s.x rt).extractLsb' 0 32).zeroExtend 128)) ∧
    (pa.toNat % 8 = 0 → DeviceStore s (.sd rt base imm) d.name .w64 pa ((s.x rt).zeroExtend 128)) ∧
    (pa.toNat % 16 = 0 → DeviceStore s (.sq rt base imm) d.name .w128 pa (s.xq rt))) ∧
  (∀ (s : State) (n : DeviceName) (w : Width) (pa : Word) (x : Quad), ∃ (v : Quad) (l : List OutEvent),
    v.toNat = x.toNat % 256 ^ w.bytes ∧
    s.registerWrite n w pa x =
      ({ s.takeAnswer with out := .devWrite n w pa v :: s.out } : State).writeOps n s.nextAnswer.ops ∧
    (s.registerWrite n w pa x).out = l ++ .devWrite n w pa v :: s.out ∧ NoAccessRecord l)

/-- R195, R66: a load or store whose effective address is not a multiple of its size is fatal whatever is behind the
address, before any device is called; nothing is written and `pc` does not advance. -/
def Obligations.MisalignedAccessesAreFatal : Prop :=
  ∀ (s : State) (rt base : Reg) (imm : Half) (ea : Nat), s.fatal = false → ea = (s.effAddr base imm).toNat →
    (ea % 2 ≠ 0 → Latches (exec (.lh rt base imm) s) s .misalignedAccess ∧
      Latches (exec (.lhu rt base imm) s) s .misalignedAccess ∧
      Latches (exec (.sh rt base imm) s) s .misalignedAccess) ∧
    (ea % 4 ≠ 0 → Latches (exec (.lw rt base imm) s) s .misalignedAccess ∧
      Latches (exec (.lwu rt base imm) s) s .misalignedAccess ∧
      Latches (exec (.sw rt base imm) s) s .misalignedAccess) ∧
    (ea % 8 ≠ 0 → Latches (exec (.ld rt base imm) s) s .misalignedAccess ∧
      Latches (exec (.sd rt base imm) s) s .misalignedAccess) ∧
    (ea % 16 ≠ 0 → Latches (exec (.lq rt base imm) s) s .misalignedAccess ∧
      Latches (exec (.sq rt base imm) s) s .misalignedAccess)

/-- The effective address (R180): the 32-bit base plus the signed displacement, wrapping; TRANSLATE keeps its low 4
bits, and CFG_REF meets the other constraints a configuration must meet (R9); `exec` and `step` are the meanings and the
move of the machine at CFG_REF (R8). The values of the table of R8 in CFG_REF (R128, R271; log entry 1), besides the
route table, which RouteTable states; `INIT_IMAGE` and the components' resets are the model's (log entries 10, 17). -/
def Obligations.EffectiveAddressAndConfiguration : Prop :=
  (∀ (s : State) (base : Reg) (imm : Half),
    ((s.effAddr base imm).toNat : Int) = ((s.x base).toNat + imm.toInt) % 2 ^ 32) ∧
  cfg.translateKeepsLow4 ∧ cfg.wf = true ∧
  (∀ (i : Instr) (s : State), exec i s = meaning i s cfg ∧ step s = move s cfg) ∧
  (∀ v : Word, (cfg.translate v).toNat = v.toNat % 2 ^ 29) ∧
  (cfg.excVector = 0x80000180 ∧ cfg.resetPc = 0xBFC00000 ∧ cfg.irqCheck = .perSlice ∧ cfg.nIrq = 8 ∧
    cfg.ieStackDepth = 3) ∧
  (∀ k : ExcKind, cfg.causeCode k =
    match k with | .interrupt => 0 | .syscall => 8 | .breakpoint => 9 | .trap => 13) ∧
  (∀ k : PipeClass, (cfg.latency k, cfg.throughput k) =
    match k with
    | .mult => (4, 2) | .div => (37, 37) | .int => (1, 1) | .branch => (1, 1) | .ldst => (1, 1) | .copctl => (1, 1)) ∧
  (cfg.stepCost = 1 ∧ cfg.minRunCycles = 1 ∧ cfg.idleBudget = 32 ∧ cfg.busDiv = 2 ∧ cfg.iopDiv = 8 ∧
    cfg.frameCycles = none) ∧
  (cfg.icacheLines = 0 ∧ cfg.icacheEnabled = false ∧ cfg.decodeTable = decodeTable ∧
    cfg.unmappedReadValue = 0) ∧
  ((∀ a, cfg.initImage a = 0) ∧ (∀ u, cfg.unitReset u = []) ∧ ∀ n, cfg.deviceReset n = [])

/-! ### The bus -/

/-- The route table of CFG_REF (R71, R72, R73; log entry 1), ordered by address: which device answers at every physical
address, its kind (read-write memory, read-only memory, register file) and the widths it has delegates for, and that
every other address is unmapped. -/
def Obligations.RouteTable : Prop :=
  ∀ (all : List Width) (ram rom reg : DeviceName → Device), all = [.w8, .w16, .w32, .w64, .w128] →
    (∀ n, ram n = { name := n, kind := .memory false, rdWidths := all, wrWidths := all }) →
    (∀ n, rom n = { name := n, kind := .memory true, rdWidths := all, wrWidths := [] }) →
    (∀ n, reg n = { name := n, kind := .register, rdWidths := all, wrWidths := all }) →
    ∀ pa : Nat, route pa =
      if pa < 0x02000000 then some (ram .mainRam)
      else if 0x10000000 ≤ pa ∧ pa < 0x10002000 then some (reg .timers)
      else if 0x10008000 ≤ pa ∧ pa < 0x1000F000 then some (reg .dmac)
      else if pa = 0x1000F000 then some (reg .intcStat)
      else if pa = 0x1000F010 then some (reg .intcMask)
      else if 0x11000000 ≤ pa ∧ pa < 0x11001000 then some (ram .vu0Code)
      else if 0x11004000 ≤ pa ∧ pa < 0x11005000 then some (ram .vu0Data)
      else if 0x11008000 ≤ pa ∧ pa < 0x1100C000 then some (ram .vu1Code)
      else if 0x1100C000 ≤ pa ∧ pa < 0x11010000 then some (ram .vu1Data)
      else if 0x12000000 ≤ pa ∧ pa < 0x12002000 then some (reg .gsPriv)
      else if 0x1C000000 ≤ pa ∧ pa < 0x1C200000 then some (ram .iopRam)
      else if 0x1FC00000 ≤ pa ∧ pa < 0x20000000 then some (rom .bootRom)
      else none

/-- R62, R77: an aligned bus write of n bytes to writable memory stores byte j of the value at `a + j` and changes no
other byte; an aligned bus read of n bytes returns byte `a + j` as bits 8j+7:8j, zero above, and changes nothing. -/
def Obligations.BusIsLittleEndian : Prop :=
  ∀ (s : State) (w : Width) (pa : Word), s.fatal = false → pa.toNat % w.bytes = 0 →
    (inWritableMemory pa.toNat = true → ∀ v : Quad, ∃ t, s.busWrite w pa v = .ok t ∧
      (∀ j, j < w.bytes → t.byteAt (pa.toNat + j) = v.extractLsb' (8 * j) 8) ∧
      SameMemoryOutside s t pa.toNat w.bytes) ∧
    (inMemory pa.toNat = true → ∃ v : Quad, s.busRead w pa = .ok (v, s) ∧
      (∀ j, j < w.bytes → v.extractLsb' (8 * j) 8 = s.byteAt (pa.toNat + j)) ∧
      v.toNat < 256 ^ w.bytes)

/-- R66, R75, R76: a misaligned access is refused before routing; an unmapped read is logged and answers the sentinel, 0
under CFG_REF; an unmapped write and a write to read-only memory do nothing at all. Under every configuration the
sentinel is `UNMAPPED_READ_VALUE` cut to the width of the access (R65; that the parameter is held in 128 bits and cut is
the model's choice, log entry 29), for an address without a route and for a device without a read delegate for the
width. -/
def Obligations.BusFaults : Prop :=
  ∀ (s : State) (w : Width) (pa : Word) (v : Quad), s.fatal = false →
    (pa.toNat % w.bytes ≠ 0 → s.busRead w pa = .error .misalignedAccess ∧
      s.busWrite w pa v = .error .misalignedAccess) ∧
    (pa.toNat % w.bytes = 0 → route pa.toNat = none →
      s.busRead w pa = .ok (0, { s with out := .unmappedRead pa w :: s.out }) ∧
      s.busWrite w pa v = .ok s) ∧
    (pa.toNat % w.bytes = 0 → inMemory pa.toNat = true → inWritableMemory pa.toNat = false →
      s.busWrite w pa v = .ok s) ∧
    ∀ c : Config, pa.toNat % w.bytes = 0 →
      ((∀ d, route pa.toNat c = some d → w ∉ d.rdWidths) → ∃ x : Quad,
        x.toNat = c.unmappedReadValue.toNat % 256 ^ w.bytes ∧
        s.busRead w pa c = .ok (x, { s with out := .unmappedRead pa w :: s.out })) ∧
      ((∀ d, route pa.toNat c = some d → w ∉ d.wrWidths) → s.busWrite w pa v c = .ok s)

/-- R78: what a REGISTER device can do in a side effect, and a fired handler in its action: nothing to the CORE, the
interlock flags or the run loop, and memory only where it is writable. The graphics worker is woken only by a write
routed to the privileged graphics window (R83, R258). `irq_set` (R257) sets one line to the level and nothing else.
What each of its port operations does, and that they are done in order: registrations and lines as the ports do, an
access of a MEMORY device as the bus does, under every configuration (R65, R75, R76), where the sentinel is
`UNMAPPED_READ_VALUE` cut to the width (that the parameter is held in 128 bits and cut is the model's choice, log entry
29); an access elsewhere is the model's choice (log entry 19). -/
def Obligations.DeviceSideEffectsAreLimited : Prop :=
  (∀ (s t : State) (ops : List PortOp), (t = s.deviceOps ops ∨ ∃ n, t = s.writeOps n ops) →
    SameOutsideDevices s t ∧ SameCop0 s t ∧ SameLoHi s t ∧ t.gpr = s.gpr ∧ t.pc = s.pc ∧
    t.branchPending = s.branchPending ∧ t.branchTarget = s.branchTarget ∧
    (∀ a, inWritableMemory a = false → t.byteAt a = s.byteAt a)) ∧
  (∀ (s t : State) (ops : List PortOp), (t = s.deviceOps ops ∨ ∃ n, n ≠ .gsPriv ∧ t = s.writeOps n ops) →
    ∃ l, t.out = l ++ s.out ∧ .wakeGraphics ∉ l) ∧
  (∀ s : State, s.fatal = false →
    s.writeOps .gsPriv [.wakeGraphics] = { s with out := .wakeGraphics :: s.out }) ∧
  (∀ (s : State) (i j : Nat) (level : Bool),
    (s.irqSet i level).irqLine.getLsbD j = (if j = i ∧ i < cfg.nIrq then level else s.irqLine.getLsbD j) ∧
    { s.irqSet i level with irqLine := s.irqLine } = s) ∧
  (∀ s : State, s.deviceOps [] = s ∧ ∀ op ops, s.deviceOps (op :: ops) = (s.deviceCall op).2.deviceOps ops) ∧
  (∀ (s : State) (n : DeviceName), s.writeOps n [] = s ∧ ∀ op ops, s.writeOps n (op :: ops) =
    (if n = .gsPriv ∧ op = .wakeGraphics ∧ s.fatal = false then { s with out := .wakeGraphics :: s.out }
     else (s.deviceCall op).2).writeOps n ops) ∧
  (∀ s : State, s.fatal = false →
    s.deviceCall .registerFunction = (.id s.registerFunction.1, s.registerFunction.2) ∧
    (∀ h d p, s.deviceCall (.addEvent h d p) = (.id (s.addEvent h d p).1, (s.addEvent h d p).2)) ∧
    (∀ h n, s.deviceCall (.addTimer h n) = (.id (s.addTimer h n).1, (s.addTimer h n).2)) ∧
    (∀ i level, s.deviceCall (.irqSet i level) = (.none, s.irqSet i level)) ∧
    s.deviceCall .interlockRequest = (.none, s) ∧ s.deviceCall .wakeGraphics = (.none, s) ∧
    ∀ (w : Width) (pa : Word) (v : Quad),
      (pa.toNat % w.bytes ≠ 0 → LatchedOnly s (s.deviceCall (.busRead w pa)).2 .misalignedAccess ∧
        LatchedOnly s (s.deviceCall (.busWrite w pa v)).2 .misalignedAccess) ∧
      (pa.toNat % w.bytes = 0 → inMemory pa.toNat = true →
        (∃ x, s.busRead w pa = .ok (x, s) ∧ s.deviceCall (.busRead w pa) = (.value x, s)) ∧
        ∃ t, s.busWrite w pa v = .ok t ∧ s.deviceCall (.busWrite w pa v) = (.none, t)) ∧
      (pa.toNat % w.bytes = 0 → inMemory pa.toNat = false →
        s.deviceCall (.busRead w pa) = (.value 0, s) ∧
        s.deviceCall (.busWrite w pa v) = (.none, s))) ∧
  (∀ (c : Config) (s : State) (w : Width) (pa : Word) (v : Quad) (d : Device), s.fatal = false →
    pa.toNat % w.bytes = 0 → route pa.toNat c = some d → d.kind ≠ .register →
    (∃ r, s.busRead w pa c = .ok r ∧ s.deviceCall (.busRead w pa) c = (.value r.1, r.2)) ∧
    (∃ t, s.busWrite w pa v c = .ok t ∧ s.deviceCall (.busWrite w pa v) c = (.none, t)) ∧
    (w ∉ d.rdWidths → ∃ x : Quad, x.toNat = c.unmappedReadValue.toNat % 256 ^ w.bytes ∧
      s.deviceCall (.busRead w pa) c = (.value x, { s with out := .unmappedRead pa w :: s.out })) ∧
    (w ∉ d.wrWidths → s.deviceCall (.busWrite w pa v) c = (.none, s)))

/-- No step of any agent changes a byte that is not in a writable MEMORY device: the boot ROM keeps its image, and
nothing is stored behind an unmapped address or a register device (R73, R76, R77, R9). -/
def Obligations.OnlyWritableMemoryChanges : Prop :=
  ∀ (s t : State) (a : Nat), step s = .next t → inWritableMemory a = false → t.byteAt a = s.byteAt a

/-- The interlock (R85) and its symmetry (R87): the three answers of a request, and from clear flags, in either order of
the two sides, first `MUST_WAIT`, then `SATISFIED` with both flags set, then `SATISFIED` with both clear. -/
def Obligations.InterlockRendezvous : Prop :=
  (∀ (s : State) (x : IlockSide), s.fatal = false →
    (s.ilockFlag x.other = false → s.interlockRequest x = (.mustWait, s.setIlock x)) ∧
    (s.ilockFlag x.other = true → s.ilockFlag x = false → s.interlockRequest x = (.satisfied, s.setIlock x)) ∧
    (s.ilockFlag x.other = true → s.ilockFlag x = true →
      s.interlockRequest x = (.satisfied, { s with ilockCop2 := false, ilockVu := false }))) ∧
  (∀ (s a b c : State) (x : IlockSide) (p q r : IlockAnswer), s.fatal = false → s.ilockCop2 = false →
    s.ilockVu = false → s.interlockRequest x = (p, a) → a.interlockRequest x.other = (q, b) →
    b.interlockRequest x = (r, c) →
    p = .mustWait ∧ q = .satisfied ∧ b.ilockCop2 = true ∧ b.ilockVu = true ∧ r = .satisfied ∧ c = s)

/-! ### Traps, system instructions, exceptions -/

/-- TGE, TGEU, TLT, TLTU, TEQ, TNE (R201 to R206): the exception `Trap` exactly when the condition holds in bits 63:0,
with the entry of R281; otherwise the instruction only advances. -/
def Obligations.TrapsOnCondition : Prop :=
  ∀ (s : State) (rs rt : Reg) (code : Nat),
    Completes (exec (.tge rs rt code) s) (fun t =>
      ((s.x rt).toInt ≤ (s.x rs).toInt → Entered s t (cfg.causeCode .trap)) ∧
      ((s.x rs).toInt < (s.x rt).toInt → SameGprs s t ∧ DoneFrame (.tge rs rt code) s t)) ∧
    Completes (exec (.tgeu rs rt code) s) (fun t =>
      ((s.x rt).toNat ≤ (s.x rs).toNat → Entered s t (cfg.causeCode .trap)) ∧
      ((s.x rs).toNat < (s.x rt).toNat → SameGprs s t ∧ DoneFrame (.tgeu rs rt code) s t)) ∧
    Completes (exec (.tlt rs rt code) s) (fun t =>
      ((s.x rs).toInt < (s.x rt).toInt → Entered s t (cfg.causeCode .trap)) ∧
      ((s.x rt).toInt ≤ (s.x rs).toInt → SameGprs s t ∧ DoneFrame (.tlt rs rt code) s t)) ∧
    Completes (exec (.tltu rs rt code) s) (fun t =>
      ((s.x rs).toNat < (s.x rt).toNat → Entered s t (cfg.causeCode .trap)) ∧
      ((s.x rt).toNat ≤ (s.x rs).toNat → SameGprs s t ∧ DoneFrame (.tltu rs rt code) s t)) ∧
    Completes (exec (.teq rs rt code) s) (fun t =>
      (s.x rs = s.x rt → Entered s t (cfg.causeCode .trap)) ∧
      (s.x rs ≠ s.x rt → SameGprs s t ∧ DoneFrame (.teq rs rt code) s t)) ∧
    Completes (exec (.tne rs rt code) s) (fun t =>
      (s.x rs ≠ s.x rt → Entered s t (cfg.causeCode .trap)) ∧
      (s.x rs = s.x rt → SameGprs s t ∧ DoneFrame (.tne rs rt code) s t))

/-- SYSCALL and BREAK (R207, R213): always the exception, entered as R281 says: saved pc and slot bit, cause code, the
pushed enable stack, control at `EXC_VECTOR`, nothing else changed. -/
def Obligations.SyscallAndBreakEnter : Prop :=
  ∀ (s : State) (code : Nat),
    Completes (exec (.syscall code) s) (fun t => Entered s t (cfg.causeCode .syscall)) ∧
    Completes (exec (.breakpoint code) s) (fun t => Entered s t (cfg.causeCode .breakpoint))

/-- ERET (R208, R290): control to `EPC` at once with no delay slot and the enable stack popped; fatal on a misaligned
`EPC`. `CAUSE`, `EPC`, every general register and memory are unchanged. Last clause: a push (R282) followed by the pop
gives back every bit of STATUS but the deepest entry of the stack. -/
def Obligations.ReturnFromException : Prop :=
  (∀ s : State, s.branchPending = false →
    (s.epc.toNat % 4 = 0 → Completes (exec .eret s) fun t =>
      t.pc = s.epc ∧ t.branchPending = false ∧ t.branchTarget = s.branchTarget ∧ Popped s.status t.status ∧
      t.excCode = s.excCode ∧ t.bd = s.bd ∧ t.epc = s.epc ∧ t.waitForIrq = s.waitForIrq ∧ t.lastDesc = none ∧
      t.mdReadyCycle = s.mdReadyCycle ∧ t.out = s.out ∧
      SameGprs s t ∧ SameLoHi s t ∧ SameMemory s t ∧ SameRest s t) ∧
    (s.epc.toNat % 4 ≠ 0 → Latches (exec .eret s) s .misalignedBranchTarget)) ∧
  (∀ (st : Word) (i : Nat), i + 1 ≠ cfg.ieStackDepth → (popIE (pushIE st)).getLsbD i = st.getLsbD i)

/-- MFC0 (R209, R35): STATUS, CAUSE with the lines as they are now, or EPC, sign-extended; any other number is fatal,
also into register 0. -/
def Obligations.MoveFromCop0 : Prop :=
  ∀ (s : State) (rt : Reg),
    Completes (exec (.mfc0 rt 12) s) (fun t => WroteX s t rt (s.status.signExtend 64) ∧ DoneFrame (.mfc0 rt 12) s t) ∧
    (∃ cause : Word, cause.extractLsb' 0 2 = 0 ∧ cause.extractLsb' 2 5 = s.excCode ∧ cause.getLsbD 7 = false ∧
      cause.extractLsb' 8 8 = s.irqLine ∧ cause.extractLsb' 16 15 = 0 ∧ cause.getLsbD 31 = s.bd ∧
      Completes (exec (.mfc0 rt 13) s) (fun t => WroteX s t rt (cause.signExtend 64) ∧ DoneFrame (.mfc0 rt 13) s t)) ∧
    Completes (exec (.mfc0 rt 14) s) (fun t => WroteX s t rt (s.epc.signExtend 64) ∧ DoneFrame (.mfc0 rt 14) s t) ∧
    (∀ n : Nat, n ≠ 12 → n ≠ 13 → n ≠ 14 → Latches (exec (.mfc0 rt n) s) s .unknownCop0Register)

/-- MTC0 (R210, R34, R36): STATUS through its write mask, CAUSE not at all, EPC whole; any other number is fatal. -/
def Obligations.MoveToCop0 : Prop :=
  ∀ (s : State) (rt : Reg),
    Completes (exec (.mtc0 rt 12) s) (fun t =>
      (∀ i : Nat, t.status.getLsbD i =
        ((decide (i < cfg.ieStackDepth) || (decide (8 ≤ i) && decide (i < 8 + cfg.nIrq))) && (s.x rt).getLsbD i)) ∧
      t.excCode = s.excCode ∧ t.bd = s.bd ∧ t.epc = s.epc ∧ t.waitForIrq = s.waitForIrq ∧
      Tracked (.mtc0 rt 12) s t s.out ∧ AdvancedDone s t ∧ SameGprs s t ∧ SameLoHi s t ∧ SameMemory s t ∧
      SameRest s t) ∧
    Completes (exec (.mtc0 rt 13) s) (fun t => SameGprs s t ∧ DoneFrame (.mtc0 rt 13) s t) ∧
    Completes (exec (.mtc0 rt 14) s) (fun t =>
      t.epc = (s.x rt).extractLsb' 0 32 ∧
      t.status = s.status ∧ t.excCode = s.excCode ∧ t.bd = s.bd ∧ t.waitForIrq = s.waitForIrq ∧
      Tracked (.mtc0 rt 14) s t s.out ∧ AdvancedDone s t ∧ SameGprs s t ∧ SameLoHi s t ∧ SameMemory s t ∧
      SameRest s t) ∧
    (∀ n : Nat, n ≠ 12 → n ≠ 13 → n ≠ 14 → Latches (exec (.mtc0 rt n) s) s .unknownCop0Register)

/-- WAIT (R211): the flag is set and the instruction completes; while the flag is set the CORE makes no step: the slice
ends (R139). -/
def Obligations.WaitHaltsUntilWoken : Prop :=
  (∀ s : State, Completes (exec .wait s) fun t =>
    t.waitForIrq = true ∧ Tracked .wait s t s.out ∧ AdvancedDone s t ∧ SameGprs s t ∧ SameLoHi s t ∧
    t.status = s.status ∧
    t.excCode = s.excCode ∧ t.bd = s.bd ∧ t.epc = s.epc ∧ SameMemory s t ∧ SameRest s t) ∧
  (∀ (s : State) (r : Nat), s.fatal = false → s.waitForIrq = true → s.phase = .core r →
    step s = .next { s with phase := .units [.iop, .dma, .vu0, .vu1, .vif] })

/-- CFC2.I (R212, R85, R133): held, with the CORE's flag set and nothing else changed, while the vector unit's flag is
clear; otherwise it completes, with both flags set if the vector unit came first, both clear if the CORE did. -/
def Obligations.InterlockInstruction : Prop :=
  ∀ s : State, s.fatal = false →
    (s.ilockVu = false → exec .cfc2i s = .next { s with ilockCop2 := true }) ∧
    (s.ilockVu = true → Completes (exec .cfc2i s) fun t =>
      t.ilockVu = !s.ilockCop2 ∧ t.ilockCop2 = !s.ilockCop2 ∧ SameGprs s t ∧
      DoneFrame .cfc2i { s with ilockCop2 := t.ilockCop2, ilockVu := t.ilockVu } t)

/-- The interrupt check (R275, R276): nothing when no enabled line is asserted; otherwise the wait ends, and the
interrupt is taken exactly when `IE0` allows, saving the pc of the instruction that has not executed. Under a
configuration with `PER_STEP` the same check runs before the fetch of every step, under `PER_SLICE` nothing does. -/
def Obligations.InterruptCheck : Prop :=
  (∀ s : State,
    ((∀ i, i < 8 → (s.irqLine.getLsbD i && s.status.getLsbD (8 + i)) = false) → s.interruptCheck = s) ∧
    (∀ i, i < 8 → (s.irqLine.getLsbD i && s.status.getLsbD (8 + i)) = true →
      (s.status.getLsbD 0 = false → s.interruptCheck = { s with waitForIrq := false }) ∧
      (s.status.getLsbD 0 = true → Entered s s.interruptCheck (cfg.causeCode .interrupt)))) ∧
  (∀ (c : Config) (s : State),
    (c.irqCheck = .perStep → chargedStep s c = charged (coreStep (s.interruptCheck c) c) c) ∧
    (c.irqCheck = .perSlice → chargedStep s c = charged (coreStep s c) c))

/-- An iteration begins (R251, R139): the budget is computed and committed before any unit executes (R231: `run_cycles`
moves by exactly the budget, the remainders are carried), the interrupt check is made once, and the slice has the
budget's cycles. -/
def Obligations.IterationBegins : Prop :=
  (∀ s : State, s.fatal = false → s.phase = .frame →
    Completes (step s) fun t =>
      t.sched = s.sched.calculateRunCycles.updateCycleCounts ∧ t.phase = .core s.sched.calculateRunCycles.cpuBudget ∧
      t.sched.runCycles = s.sched.runCycles + s.sched.calculateRunCycles.cpuBudget ∧
      { t with sched := s.sched, phase := s.phase } = s.interruptCheck) ∧
  (∀ c : Sched, c.updateCycleCounts =
    { c with
      runCycles := c.runCycles + c.cpuBudget
      busRem := (c.busRem + c.cpuBudget) % cfg.busDiv
      iopRem := (c.iopRem + c.cpuBudget) % cfg.iopDiv })

/-- The list of exceptions is closed (R271, R272): an instruction step changes `CAUSE.ExcCode` or `CAUSE.BD` only if the
instruction is SYSCALL, BREAK or one of the six traps, and no other move of the machine changes them but the interrupt
check that begins a slice. -/
def Obligations.OnlyTheListedExceptions : Prop :=
  (∀ (i : Instr) (s t : State), exec i s = .next t → (t.excCode, t.bd) ≠ (s.excCode, s.bd) →
    (∃ c, i = .syscall c ∨ i = .breakpoint c) ∨
    (∃ rs rt c, i = .tge rs rt c ∨ i = .tgeu rs rt c ∨ i = .tlt rs rt c ∨ i = .tltu rs rt c ∨ i = .teq rs rt c ∨
      i = .tne rs rt c)) ∧
  (∀ s t : State, step s = .next t → s.sliceOn = false → s.phase ≠ .frame → (t.excCode, t.bd) = (s.excCode, s.bd))

/-- While the latch `fatal` is set every port but `reset` and `serialize` does nothing (R295): reads and the
operations of the SCHED return 0 (R238), the interlock answers `MUST_WAIT`, `restore` answers `FAILED`, `run_frame`
answers `FATAL`. -/
def Obligations.FatalStopsEveryPort : Prop :=
  ∀ s : State, s.fatal = true →
    (∀ n, coreRun n s = .next s) ∧ runIteration s = .next s ∧ (∀ n, runFrame n s = .next (.fatal, s)) ∧
    (∀ w pa, s.busRead w pa = .ok (0, s)) ∧ (∀ w pa v, s.busWrite w pa v = .ok s) ∧
    s.registerFunction = (0, s) ∧ (∀ h d p, s.addEvent h d p = (0, s)) ∧ (∀ h n, s.addTimer h n = (0, s)) ∧
    s.calculateRunCycles = (0, s) ∧ s.getBusRunCycles = 0 ∧ s.getIopRunCycles = 0 ∧ s.updateCycleCounts = s ∧
    (∀ op, s.deviceOp op = s) ∧ (∀ u op, s.unitOp u op = s) ∧
    (∀ u, State.unitCall u s .registerFunction = (.id 0, s)) ∧
    (∀ u h d p, State.unitCall u s (.addEvent h d p) = (.id 0, s)) ∧
    (∀ u h n, State.unitCall u s (.addTimer h n) = (.id 0, s)) ∧
    (∀ u w pa, State.unitCall u s (.busRead w pa) = (.value 0, s)) ∧
    (∀ x, s.interlockRequest x = (.mustWait, s)) ∧ processEvents s = s ∧ s.coreHalt = s ∧
    (∀ b, s.restore b = (.failed, s)) ∧ s.serialize.saved = s.saved ∧
    hostCall .reset s = .next (.none, s.hostReset) ∧ s.hostReset.fatal = false ∧ s.hostReset.fatalCode = none

/-! ### The scheduler -/

/-- `register_function`, `add_event`, `add_timer` (R224, R226, R228): the id handed out, the entry appended, the counter
advanced and nothing else changed; the port answers that id and changes the scheduler alone. An id that is not in
`handlers` is refused and, from a port, fatal. An event added with a negative or zero offset is in the very next
snapshot (R227). -/
def Obligations.SchedulerRegistration : Prop :=
  ∀ (c : Sched) (h : Nat) (d p n : Dword),
    c.registerFunction =
      (c.nextHandlerId, { c with nextHandlerId := c.nextHandlerId + 1, handlers := c.handlers ++ [c.nextHandlerId] }) ∧
    (∀ s : State, s.sched = c → s.fatal = false → s.registerFunction = (c.nextHandlerId, { s with sched :=
      { c with nextHandlerId := c.nextHandlerId + 1, handlers := c.handlers ++ [c.nextHandlerId] } })) ∧
    (h ∈ c.handlers → ∃ a : Nat, (a : Int) = max 0 ((c.runCycles : Int) + d.toInt) ∧
      c.addEvent h d p = some (c.seq,
        { c with events := c.events ++ [⟨a, h, p, c.seq⟩], seq := c.seq + 1 }) ∧
      (∀ s : State, s.sched = c → s.fatal = false → s.addEvent h d p = (c.seq, { s with sched :=
        { c with events := c.events ++ [⟨a, h, p, c.seq⟩], seq := c.seq + 1 } })) ∧
      (d.toInt ≤ 0 → Due.event ⟨a, h, p, c.seq⟩ ∈
        ({ c with events := c.events ++ [⟨a, h, p, c.seq⟩], seq := c.seq + 1 } : Sched).dueNow)) ∧
    (h ∈ c.handlers → c.addTimer h n = some (c.seq,
      { c with timers := c.timers ++ [⟨n, c.runCycles + n.toNat, h, c.seq, c.seq⟩], seq := c.seq + 1 }) ∧
      ∀ s : State, s.sched = c → s.fatal = false → s.addTimer h n = (c.seq, { s with sched :=
        { c with timers := c.timers ++ [⟨n, c.runCycles + n.toNat, h, c.seq, c.seq⟩], seq := c.seq + 1 } })) ∧
    (h ∉ c.handlers → c.addEvent h d p = none ∧ c.addTimer h n = none ∧
      ∀ s : State, s.sched = c → s.fatal = false →
        LatchedOnly s (s.addEvent h d p).2 .unregisteredHandler ∧
        LatchedOnly s (s.addTimer h n).2 .unregisteredHandler ∧
        LatchedOnly s (s.deviceOp (.addEvent h d p)) .unregisteredHandler ∧
        LatchedOnly s (s.deviceOp (.addTimer h n)) .unregisteredHandler)

/-- `calculate_run_cycles` (R229): `IDLE_BUDGET` with nothing pending, otherwise the distance to the earliest pending
cycle, at least `MIN_RUN_CYCLES`; the companion budgets from the carried remainders; nothing else changes. -/
def Obligations.BudgetReachesTheEarliestEntry : Prop :=
  ∀ c : Sched,
    (c.events = [] → c.timers = [] → c.calculateRunCycles.cpuBudget = cfg.idleBudget) ∧
    (∀ e : Nat, (e ∈ c.events.map (·.absoluteCycle) ∨ e ∈ c.timers.map (·.nextFireCycle)) →
      (∀ f ∈ c.events, e ≤ f.absoluteCycle) → (∀ t ∈ c.timers, e ≤ t.nextFireCycle) →
      c.calculateRunCycles.cpuBudget =
        if e ≤ c.runCycles then cfg.minRunCycles else max cfg.minRunCycles (e - c.runCycles)) ∧
    cfg.minRunCycles ≤ c.calculateRunCycles.cpuBudget ∧
    c.calculateRunCycles.busBudget = (c.busRem + c.calculateRunCycles.cpuBudget) / cfg.busDiv ∧
    c.calculateRunCycles.iopBudget = (c.iopRem + c.calculateRunCycles.cpuBudget) / cfg.iopDiv ∧
    { c.calculateRunCycles with
      cpuBudget := c.cpuBudget, busBudget := c.busBudget, iopBudget := c.iopBudget } = c

/-- R232: over any sequence of iterations, whatever else happens between them, the companion units receive exactly the
quotient of the total and carry exactly its remainder. -/
def Obligations.ClockRatiosCarry : Prop :=
  ∀ (c : Nat → Sched) (k : Nat), (c 0).busRem = 0 → (c 0).iopRem = 0 →
    (∀ j, j < k → (c (j + 1)).busRem = (c j).calculateRunCycles.updateCycleCounts.busRem ∧
      (c (j + 1)).iopRem = (c j).calculateRunCycles.updateCycleCounts.iopRem) →
    ((List.range k).map (fun j => (c j).calculateRunCycles.busBudget)).sum =
      ((List.range k).map (fun j => (c j).calculateRunCycles.cpuBudget)).sum / cfg.busDiv ∧
    (c k).busRem = ((List.range k).map (fun j => (c j).calculateRunCycles.cpuBudget)).sum % cfg.busDiv ∧
    ((List.range k).map (fun j => (c j).calculateRunCycles.iopBudget)).sum =
      ((List.range k).map (fun j => (c j).calculateRunCycles.cpuBudget)).sum / cfg.iopDiv ∧
    (c k).iopRem = ((List.range k).map (fun j => (c j).calculateRunCycles.cpuBudget)).sum % cfg.iopDiv

/-- The snapshot of `process_events` (R233, R234, R237): exactly the due entries, each once, in non-decreasing cycle
order, ties by insertion order. -/
def Obligations.SnapshotIsDueEntriesInOrder : Prop :=
  ∀ c : Sched,
    c.dueNow.Pairwise (fun a b => a.cycle < b.cycle ∨ (a.cycle = b.cycle ∧ a.seq ≤ b.seq)) ∧
    c.dueNow.Perm
      ((c.events.filter (fun e => decide (e.absoluteCycle ≤ c.runCycles))).map Due.event ++
        (c.timers.filter (fun t => decide (t.nextFireCycle ≤ c.runCycles))).map Due.timer)

/-- Firing (R233, R234, R235): each entry of the snapshot fires once, in turn, with one `Fire` record; an event is
gone and a timer is one interval later with a fresh sequence number before its handler acts; what the handler adds,
events and timers, is appended with later sequence numbers and is not in the snapshot. The handler's action (R222): the
port operations of the environment's next answer in order, or for the LOOP's frame-end handler `frame_complete` and
nothing else (R254). -/
def Obligations.FiringConsumesTheSnapshot : Prop :=
  ∀ (s t : State) (ds : List Due), s.fatal = false → step s = .next t →
    (∀ e : ScheduledEvent, s.phase = .firing (.event e :: ds) →
      t.phase = .firing ds ∧
      (∃ new, t.sched.events = s.sched.events.erase e ++ new ∧ ∀ x ∈ new, s.sched.seq ≤ x.seq) ∧
      (∃ new, t.sched.timers = s.sched.timers ++ new ∧ ∀ x ∈ new, s.sched.seq ≤ x.seq) ∧
      (∃ l, t.out = l ++ .fire e.handlerId e.payload e.absoluteCycle :: s.out ∧ ∀ h p k, .fire h p k ∉ l) ∧
      ∀ fired : State → State,
        (∀ u, fired u = { u with
          phase := .firing ds, sched := { s.sched with events := s.sched.events.erase e }
          out := .fire e.handlerId e.payload e.absoluteCycle :: s.out }) →
        (s.frameHandler ≠ some e.handlerId → t = (fired s.takeAnswer).deviceOps s.nextAnswer.ops) ∧
        (s.frameHandler = some e.handlerId → t = { fired s with frameComplete := true })) ∧
    (∀ (m : PeriodicTimer) (before after : List PeriodicTimer),
      s.phase = .firing (.timer m :: ds) → s.sched.timers = before ++ m :: after → m ∉ before →
      t.phase = .firing ds ∧
      (∃ new, t.sched.timers =
        before ++
          { m with nextFireCycle := m.nextFireCycle + m.intervalCycles.toNat, seq := s.sched.seq } :: after ++ new ∧
        ∀ x ∈ new, s.sched.seq < x.seq) ∧
      (∃ new, t.sched.events = s.sched.events ++ new ∧ ∀ x ∈ new, s.sched.seq < x.seq) ∧
      (∃ l, t.out = l ++ .fire m.handlerId 0 m.nextFireCycle :: s.out ∧ ∀ h p k, .fire h p k ∉ l) ∧
      ∀ fired : State → State,
        (∀ u, fired u = { u with
          phase := .firing ds
          sched := { s.sched with
            timers := before ++
              { m with nextFireCycle := m.nextFireCycle + m.intervalCycles.toNat, seq := s.sched.seq } :: after
            seq := s.sched.seq + 1 }
          out := .fire m.handlerId 0 m.nextFireCycle :: s.out }) →
        (s.frameHandler ≠ some m.handlerId → t = (fired s.takeAnswer).deviceOps s.nextAnswer.ops) ∧
        (s.frameHandler = some m.handlerId → t = { fired s with frameComplete := true }))

/-- Simulated time (R45, R239): only the beginning of an iteration moves `run_cycles`, it moves it forward, and no step
moves it back. -/
def Obligations.TimeMovesForwardOnly : Prop :=
  ∀ s t : State, step s = .next t →
    (s.phase ≠ .frame → t.sched.runCycles = s.sched.runCycles) ∧
    (s.phase = .frame → s.sched.runCycles < t.sched.runCycles)

/-! ### The run loop, the host, reset -/

/-- One iteration (R251, R252, R139): the spec's `run_iteration` always answers, and the machine's own steps from the
top of the loop reach exactly its result. `run_frame` (R250): `frame_complete` is cleared first, then `run_iteration` is
repeated while neither the latch nor `frame_complete` is set; the answer is FATAL when the latch is set after an
iteration, FRAME_DONE when `frame_complete` is, and `running` only when the model's bound on the iterations is used up
(log entry 23). -/
def Obligations.StepsRunAnIteration : Prop :=
  (∀ s : State, s.fatal = false → s.phase = .frame →
    ∃ (t : State) (k : Nat), runIteration s = .next t ∧ Host.Core.run Sys2Proof.core k s = .next t) ∧
  (∀ (k : Nat) (s : State), s.fatal = false → ∃ (n : Nat) (x : Nat → State) (r : FrameResult),
    runFrame k s = .next (r, x n) ∧ n ≤ k ∧ x 0 = { s with frameComplete := false, phase := .frame } ∧
    (∀ j, j < n →
      (x j).fatal = false ∧ (x j).frameComplete = false ∧ runIteration (x j) = .next (x (j + 1))) ∧
    ((r = .fatal ∧ (x n).fatal = true) ∨
      (r = .frameDone ∧ (x n).fatal = false ∧ (x n).frameComplete = true) ∨
      (r = .running ∧ n = k ∧ (x n).fatal = false ∧ (x n).frameComplete = false)))

/-- No agent but the CORE writes the CORE's registers, the branch state, coprocessor 0 or the wait flag (R258): a step
that is not the CORE's slice nor the interrupt check before it leaves them all; and the interlock flags move only by
the CORE or in vector unit 0's turn (R42). The budget each external unit receives in its turn, that a turn makes one
record and is the environment's port operations in order, and that a unit given 0 cycles does nothing (R253, R255).
What each of a unit's ports does (R258): bus accesses of any device, the scheduler's registrations, the interrupt
lines, and for vector unit 0 alone the interlock request of the vector unit's side; a request by another unit, and a
wake without a write, do nothing (log entry 19). `frame_complete` is cleared where `run_frame` begins and set by the
firing of the frame-end handler, and by nothing else (R254, R51). -/
def Obligations.OtherAgentsLeaveTheCore : Prop :=
  (∀ s t : State, step s = .next t → s.sliceOn = false → s.phase ≠ .frame →
    t.gpr = s.gpr ∧ SameLoHi s t ∧ SameCop0 s t ∧ t.pc = s.pc ∧ t.nextPc = s.nextPc ∧
    t.branchPending = s.branchPending ∧ t.branchTarget = s.branchTarget ∧ t.lastDesc = s.lastDesc ∧
    t.mdReadyCycle = s.mdReadyCycle ∧
    ((∀ us, s.phase ≠ .units (.vu0 :: us)) → t.ilockCop2 = s.ilockCop2 ∧ t.ilockVu = s.ilockVu)) ∧
  (∀ (s : State) (u : ExtUnit) (us : List ExtUnit) (b : Nat), s.fatal = false → s.phase = .units (u :: us) →
    (u = .iop → b = s.sched.iopBudget) → (u = .dma ∨ u = .vif → b = s.sched.busBudget) →
    (u = .vu0 ∨ u = .vu1 → b = s.sched.cpuBudget) →
    Completes (step s) fun t =>
      t.phase = .units us ∧ (∃ l, t.out = l ++ .unitTurn u b :: s.out ∧ ∀ v n, .unitTurn v n ∉ l) ∧
      (b = 0 → t = { s with phase := .units us, out := .unitTurn u 0 :: s.out }) ∧
      (b ≠ 0 → t = State.unitOps u
        ({ s.takeAnswer with phase := .units us, out := .unitTurn u b :: s.out } : State) s.nextAnswer.ops)) ∧
  (∀ (u : ExtUnit) (s : State), State.unitOps u s [] = s ∧
    ∀ op ops, State.unitOps u s (op :: ops) = State.unitOps u (State.unitCall u s op).2 ops) ∧
  (∀ (u : ExtUnit) (s : State), s.fatal = false →
    (∀ w pa v t, s.busRead w pa = .ok (v, t) → State.unitCall u s (.busRead w pa) = (.value v, t)) ∧
    (∀ w pa f, s.busRead w pa = .error f → LatchedOnly s (State.unitCall u s (.busRead w pa)).2 f) ∧
    (∀ w pa v t, s.busWrite w pa v = .ok t → State.unitCall u s (.busWrite w pa v) = (.none, t)) ∧
    (∀ w pa v f, s.busWrite w pa v = .error f → LatchedOnly s (State.unitCall u s (.busWrite w pa v)).2 f) ∧
    State.unitCall u s .registerFunction = (.id s.registerFunction.1, s.registerFunction.2) ∧
    (∀ h d p, State.unitCall u s (.addEvent h d p) = (.id (s.addEvent h d p).1, (s.addEvent h d p).2)) ∧
    (∀ h n, State.unitCall u s (.addTimer h n) = (.id (s.addTimer h n).1, (s.addTimer h n).2)) ∧
    (∀ i level, State.unitCall u s (.irqSet i level) = (.none, s.irqSet i level)) ∧
    State.unitCall u s .interlockRequest =
      (if u = .vu0 then (.interlock (s.interlockRequest .vu).1, (s.interlockRequest .vu).2) else (.none, s)) ∧
    State.unitCall u s .wakeGraphics = (.none, s)) ∧
  (∀ s t : State, step s = .next t →
    (s.phase = .idle → t.frameComplete = false) ∧
    (∀ e ds, s.phase = .firing (.event e :: ds) → s.frameHandler = some e.handlerId → t.frameComplete = true) ∧
    (∀ m ds, s.phase = .firing (.timer m :: ds) → s.frameHandler = some m.handlerId → t.frameComplete = true) ∧
    (t.frameComplete ≠ s.frameComplete →
      s.phase = .idle ∨ (∃ e ds, s.phase = .firing (.event e :: ds) ∧ s.frameHandler = some e.handlerId) ∨
      ∃ m ds, s.phase = .firing (.timer m :: ds) ∧ s.frameHandler = some m.handlerId))

/-- State that no rule ever writes after reset (R27, R28, R39, R41): bits 127:64 of LO and HI, SA, the floating-point
file and flag, and the instruction-cache table keep their values in every step; and LQ is the only instruction that
writes bits 127:64 of a general register (R23, R189). -/
def Obligations.InertStateNeverChanges : Prop :=
  (∀ s t : State, step s = .next t →
    t.lo.extractLsb' 64 64 = s.lo.extractLsb' 64 64 ∧ t.hi.extractLsb' 64 64 = s.hi.extractLsb' 64 64 ∧
    t.sa = s.sa ∧ t.fpr = s.fpr ∧ t.fcond = s.fcond ∧ t.icache = s.icache) ∧
  (∀ (i : Instr) (s t : State) (r : Reg), (∀ rt base imm, i ≠ .lq rt base imm) → exec i s = .next t →
    (t.xq r).extractLsb' 64 64 = (s.xq r).extractLsb' 64 64)

/-- R316: the hazard tracker and its stream change nothing else: states that differ only in them step to states that
differ only in them. -/
def Obligations.TrackerChangesNothingElse : Prop :=
  ∀ s u t : State, s.withoutTracker = u.withoutTracker → step s = .next t →
    ∃ v, step u = .next v ∧ v.withoutTracker = t.withoutTracker

/-- The descriptor of every instruction (R129), with the latency and throughput of its class (R128). The tracker's
update (R312): a record and the new last descriptor on `Done` and `Branch`, and the multiply/divide ready time, where
`now` is `run_cycles - remaining`; cleared on a return and on an exception; untouched by a hold or a fatal. Every
instruction retires with its own descriptor: whenever it leaves the latch clear, it ended `Done` or `Branch` and is
tracked as itself, or is one that returned or entered an exception, or is CFC2.I held. `md_busy` (R315). The hazard
sets (R313, R314): the registers with the two kinds of record, general register 0 dropped; all three empty with no
previous descriptor. -/
def Obligations.HazardTracker : Prop :=
  (∀ (rd rs rt : Reg) (imm : Half) (k : Nat),
    HasDescriptor (.sll rd rt k) .sll .int .plain [⟨.read, .gpr, rt⟩, ⟨.write, .gpr, rd⟩] ∧
    HasDescriptor (.add rd rs rt) .add .int .plain [⟨.read, .gpr, rs⟩, ⟨.read, .gpr, rt⟩, ⟨.write, .gpr, rd⟩] ∧
    HasDescriptor (.addi rt rs imm) .addi .int .plain [⟨.read, .gpr, rs⟩, ⟨.write, .gpr, rt⟩] ∧
    HasDescriptor (.daddu rd rs rt) .daddu .int .plain [⟨.read, .gpr, rs⟩, ⟨.read, .gpr, rt⟩, ⟨.write, .gpr, rd⟩] ∧
    HasDescriptor (.mult rs rt) .mult .mult .mult
      [⟨.read, .gpr, rs⟩, ⟨.read, .gpr, rt⟩, ⟨.write, .special, 0⟩, ⟨.write, .special, 1⟩] ∧
    HasDescriptor (.div rs rt) .div .div .div
      [⟨.read, .gpr, rs⟩, ⟨.read, .gpr, rt⟩, ⟨.write, .special, 0⟩, ⟨.write, .special, 1⟩] ∧
    HasDescriptor (.mfhi rd) .mfhi .int .plain [⟨.read, .special, 1⟩, ⟨.write, .gpr, rd⟩] ∧
    HasDescriptor (.mflo rd) .mflo .int .plain [⟨.read, .special, 0⟩, ⟨.write, .gpr, rd⟩] ∧
    HasDescriptor (.beq rs rt imm) .beq .branch .plain [⟨.read, .gpr, rs⟩, ⟨.read, .gpr, rt⟩] ∧
    HasDescriptor (.bne rs rt imm) .bne .branch .plain [⟨.read, .gpr, rs⟩, ⟨.read, .gpr, rt⟩] ∧
    (∀ index, HasDescriptor (.j index) .j .branch .plain [] ∧
      HasDescriptor (.jal index) .jal .branch .plain [⟨.write, .gpr, 31⟩]) ∧
    HasDescriptor (.jr rs) .jr .branch .plain [⟨.read, .gpr, rs⟩] ∧
    (∀ (i : Instr) (h : Handler), (i, h) ∈ [(.lb rt rs imm, .lb), (.lbu rt rs imm, .lbu), (.lh rt rs imm, .lh),
        (.lhu rt rs imm, .lhu), (.lw rt rs imm, .lw), (.lwu rt rs imm, .lwu), (.ld rt rs imm, .ld),
        (.lq rt rs imm, .lq)] →
      HasDescriptor i h .ldst .plain [⟨.read, .gpr, rs⟩, ⟨.write, .gpr, rt⟩]) ∧
    (∀ (i : Instr) (h : Handler), (i, h) ∈ [(.sb rt rs imm, .sb), (.sh rt rs imm, .sh), (.sw rt rs imm, .sw),
        (.sd rt rs imm, .sd), (.sq rt rs imm, .sq)] →
      HasDescriptor i h .ldst .plain [⟨.read, .gpr, rs⟩, ⟨.read, .gpr, rt⟩]) ∧
    (∀ (i : Instr) (h : Handler), (i, h) ∈ [(.tge rs rt k, .tge), (.tgeu rs rt k, .tgeu), (.tlt rs rt k, .tlt),
        (.tltu rs rt k, .tltu), (.teq rs rt k, .teq), (.tne rs rt k, .tne)] →
      HasDescriptor i h .int .plain [⟨.read, .gpr, rs⟩, ⟨.read, .gpr, rt⟩]) ∧
    HasDescriptor (.syscall k) .syscall .copctl .plain [] ∧
    HasDescriptor (.breakpoint k) .breakpoint .copctl .plain [] ∧
    HasDescriptor .eret .eret .copctl .plain [⟨.read, .cop0, 14⟩, ⟨.read, .cop0, 12⟩, ⟨.write, .cop0, 12⟩] ∧
    HasDescriptor (.mfc0 rt k) .mfc0 .copctl .plain [⟨.read, .cop0, k⟩, ⟨.write, .gpr, rt⟩] ∧
    HasDescriptor (.mtc0 rt k) .mtc0 .copctl .plain [⟨.read, .gpr, rt⟩, ⟨.write, .cop0, k⟩] ∧
    HasDescriptor .wait .wait .copctl .plain [] ∧
    HasDescriptor .cfc2i .cfc2i .copctl .plain [⟨.write, .gpr, 0⟩]) ∧
  (∀ (s : State) (r : Nat), s.phase = .core r → s.now = s.sched.runCycles - r) ∧
  (∀ (d : Descriptor) (now ready : Nat), mdBusy d now ready = true ↔
    now < ready ∧ ∃ r ∈ d.deps, r.file = .special ∧ (r.index = 0 ∨ r.index = 1)) ∧
  (∀ (s : State) (d : Descriptor),
    (∀ o : Completion, (o = .done ∨ ∃ a, o = .branch a) →
      (s.retire d o).lastDesc = some d ∧
      (s.retire d o).mdReadyCycle =
        (if d.kind = .mult ∨ d.kind = .div then s.now + d.latency else s.mdReadyCycle) ∧
      (s.retire d o).out = .hazard s.pc (raw s.lastDesc d) (war s.lastDesc d) (waw s.lastDesc d)
        (mdBusy d s.now s.mdReadyCycle) :: s.out) ∧
    (∀ a : Word, (s.retire d (.ret a)).lastDesc = none ∧ (s.retire d (.ret a)).out = s.out ∧
      (s.retire d (.ret a)).mdReadyCycle = s.mdReadyCycle) ∧
    (∀ c, (s.retire d (.exception c)).lastDesc = none ∧ (s.retire d (.exception c)).out = s.out ∧
      (s.retire d (.exception c)).mdReadyCycle = s.mdReadyCycle) ∧
    s.retire d .hold = s ∧
    (∀ c a, (s.retire d (.fatal c a)).lastDesc = s.lastDesc ∧
      (s.retire d (.fatal c a)).mdReadyCycle = s.mdReadyCycle ∧
      (s.retire d (.fatal c a)).out = .diag c s.pc a :: s.out)) ∧
  (∀ (i : Instr) (s t : State), exec i s = .next t → t.fatal = false →
    (∃ l, Tracked i s t (l ++ s.out)) ∨
    (((∃ k, i = .syscall k ∨ i = .breakpoint k) ∨
        (∃ rs rt k, i = .tge rs rt k ∨ i = .tgeu rs rt k ∨ i = .tlt rs rt k ∨ i = .tltu rs rt k ∨ i = .teq rs rt k ∨
          i = .tne rs rt k) ∨ i = .eret) ∧
      t.lastDesc = none ∧ t.mdReadyCycle = s.mdReadyCycle ∧ t.out = s.out) ∨
    (i = .cfc2i ∧ s.ilockVu = false ∧ t = { s with ilockCop2 := true })) ∧
  (∀ (p d : Descriptor) (f : RegFile) (n : Nat),
    ((f, n) ∈ raw (some p) d ↔
      ⟨.write, f, n⟩ ∈ p.deps ∧ ⟨.read, f, n⟩ ∈ d.deps ∧ ¬(f = .gpr ∧ n = 0)) ∧
    ((f, n) ∈ war (some p) d ↔
      ⟨.read, f, n⟩ ∈ p.deps ∧ ⟨.write, f, n⟩ ∈ d.deps ∧ ¬(f = .gpr ∧ n = 0)) ∧
    ((f, n) ∈ waw (some p) d ↔
      ⟨.write, f, n⟩ ∈ p.deps ∧ ⟨.write, f, n⟩ ∈ d.deps ∧ ¬(f = .gpr ∧ n = 0)) ∧
    raw none d = [] ∧ war none d = [] ∧ waw none d = [])

/-- `restore` (R263): validation happens before any state is overwritten; it answers `OK` exactly for a blob of the
right signature and version that is well formed, R264's list written out; `FAILED` changes nothing; after `OK` every
persisted element (R56) is the blob's, the derived state is rebuilt, every other element of the state is unchanged,
and `serialize` gives the same blob. A state that meets the invariants serializes to a blob that is accepted (R262).
A state's own reserved bits of CAUSE are 0 by their type (R35; log entry 24), a blob's need not be. -/
def Obligations.RestoreIsAllOrNothing : Prop :=
  (∀ (s : State) (b : Blob) (k : Saved), k = b.saved →
    ((s.restore b).1 = .ok ↔ s.fatal = false ∧ b.signature = Config.saveSignature ∧ b.version = Config.saveVersion ∧
      k.pc.toNat % 4 = 0 ∧ (k.branchPending = true → k.branchTarget.toNat % 4 = 0) ∧
      k.busRem < cfg.busDiv ∧ k.iopRem < cfg.iopDiv ∧
      (∀ i, cfg.ieStackDepth ≤ i → (i < 8 ∨ 8 + cfg.nIrq ≤ i) → k.status.getLsbD i = false) ∧
      (k.cause.reserved30to16 = 0 ∧ k.cause.reserved7 = false ∧ k.cause.reserved1to0 = 0) ∧
      (∀ e ∈ k.events, e.handlerId ∈ s.sched.handlers) ∧ (∀ t ∈ k.timers, t.handlerId ∈ s.sched.handlers) ∧
      (∀ e ∈ k.events, e.seq < k.seq) ∧ (∀ t ∈ k.timers, t.seq < k.seq) ∧
      (k.events.map (·.seq) ++ k.timers.map (·.seq)).Nodup ∧ k.gpr[0] = 0) ∧
    ((s.restore b).1 = .failed → (s.restore b).2 = s) ∧
    ((s.restore b).1 = .ok →
      (s.restore b).2.serialize = b ∧
      (s.restore b).2 =
        { s with
          gpr := k.gpr, lo := k.lo, hi := k.hi, sa := k.sa, fpr := k.fpr, fcond := k.fcond, status := k.status
          excCode := k.cause.excCode, bd := k.cause.bd, epc := k.epc, pc := k.pc, nextPc := k.pc + 4
          branchPending := k.branchPending, branchTarget := k.branchTarget, waitForIrq := k.waitForIrq
          ilockCop2 := k.ilockCop2, ilockVu := k.ilockVu, lastDesc := none, mdReadyCycle := 0
          frameComplete := false
          sched :=
            { runCycles := k.runCycles, seq := k.seq, events := k.events, timers := k.timers
              busRem := k.busRem, iopRem := k.iopRem, cpuBudget := 0, busBudget := 0, iopBudget := 0
              handlers := s.sched.handlers, nextHandlerId := s.sched.nextHandlerId } })) ∧
  (∀ s : State, s.Inv → s.sched.Inv → s.fatal = false → (s.restore s.serialize).1 = .ok)

/-- The host's ports (R260): between iterations `reset` from any state leaves the reset state (R300, R303), but for the
environment's answers and the output streams, which are not the block's state (log entry 17); `core_halt` sets the wait
flag (R261); `run_frame` and `run_iteration` are R250's and R251's; `serialize` answers the blob and changes nothing
(R262); `restore` is R263's. In the middle of an iteration the caller must not call and every port is refused (log
entry 15). Under any configuration `reset` gives every element outside the scheduler, the lines, the latch and the
streams its reset value, whatever the components' own `reset()` do, and leaves every line deasserted (R305, R258); and
the components register in the order of R303: the LOOP, the external units in run order, the REGISTER devices in
route-table order (shown by a configuration of the route table of CFG_REF in which each registers one handler with one
timer). -/
def Obligations.HostCalls : Prop :=
  (∀ (c : Config) (s : State),
    { s.hostReset c with
      sched := Sched.reset, irqLine := 0, fatal := false, fatalCode := none, frameHandler := none, out := s.out } =
        { State.resetOf c with env := s.env, draws := s.draws, out := s.out } ∧
    ((s.hostReset c).fatal = false → (s.hostReset c).irqLine = 0)) ∧
  (∀ (s : State) (c : Config) (f : Nat → Dword) (u : ExtUnit → Nat) (d : DeviceName → Nat),
    u = (fun x => 1 + [ExtUnit.iop, .dma, .vu0, .vu1, .vif].idxOf x) →
    d = (fun x => 6 + [DeviceName.timers, .gsPriv, .dmac, .intcStat, .intcMask].idxOf x) →
    c = { cfg with
      frameCycles := some (f 0)
      unitReset := fun x => [.registerFunction, .addTimer (u x) (f (u x)), .irqSet (u x) true]
      deviceReset := fun x => [.registerFunction, .addTimer (d x) (f (d x))] } →
    (s.hostReset c).sched =
      { Sched.reset with
        seq := 11, handlers := List.range 11, nextHandlerId := 11
        timers := (List.range 11).map fun i => ⟨f i, (f i).toNat, i, i, i⟩ } ∧
    (s.hostReset c).frameHandler = some 0 ∧ (s.hostReset c).fatal = false) ∧
  ∀ s : State,
    (s.betweenIterations = true ↔ s.fatal = true ∨ s.phase = .idle ∨ s.phase = .frame) ∧
    (s.betweenIterations = true →
      hostCall .reset s = .next (.none, { State.reset with env := s.env, draws := s.draws, out := s.out }) ∧
      (s.fatal = false → hostCall .coreHalt s = .next (.none, { s with waitForIrq := true })) ∧
      (∀ t, runIteration s = .next t → hostCall .runIteration s = .next (.none, t)) ∧
      (∀ k r t, runFrame k s = .next (r, t) → hostCall (.runFrame k) s = .next (.frame r, t)) ∧
      hostCall .serialize s = .next (.blob ⟨Config.saveSignature, Config.saveVersion, s.saved⟩, s) ∧
      (∀ b, hostCall (.restore b) s = .next (.restored (s.restore b).1, (s.restore b).2))) ∧
    (s.betweenIterations = false → ∀ h, hostCall h s = .refused .hostCallMidIteration)

/-- The state after reset (R302, R300, R301): 0, empty or none in every element of the state but `pc` and `next_pc`. -/
def Obligations.ResetState : Prop :=
  (∀ r : Reg, State.reset.xq r = 0) ∧ State.reset.lo = 0 ∧ State.reset.hi = 0 ∧ State.reset.sa = 0 ∧
  (∀ r : Fin 32, State.reset.fpr[r] = 0) ∧ State.reset.fcond = false ∧
  State.reset.pc = cfg.resetPc ∧ State.reset.nextPc = cfg.resetPc + 4 ∧
  State.reset.branchPending = false ∧ State.reset.branchTarget = 0 ∧
  State.reset.status = 0 ∧ State.reset.cause = 0 ∧ State.reset.epc = 0 ∧ State.reset.waitForIrq = false ∧
  (∀ l ∈ State.reset.icache, l.valid = false ∧ l.tag = 0) ∧
  State.reset.lastDesc = none ∧ State.reset.mdReadyCycle = 0 ∧
  State.reset.ilockCop2 = false ∧ State.reset.ilockVu = false ∧
  (∀ a, State.reset.byteAt a = cfg.initImage a) ∧
  State.reset.sched.runCycles = 0 ∧ State.reset.sched.seq = 0 ∧ State.reset.sched.events = [] ∧
  State.reset.sched.timers = [] ∧ State.reset.sched.handlers = [] ∧ State.reset.sched.nextHandlerId = 0 ∧
  State.reset.sched.cpuBudget = 0 ∧ State.reset.sched.busBudget = 0 ∧ State.reset.sched.iopBudget = 0 ∧
  State.reset.sched.busRem = 0 ∧ State.reset.sched.iopRem = 0 ∧
  State.reset.frameComplete = false ∧ State.reset.fatal = false ∧ State.reset.fatalCode = none

/-! ### Invariants -/

/-- The state after reset meets the invariants of the machine and of the scheduler. -/
def Obligations.ResetMeetsTheInvariants : Prop := State.reset.Inv ∧ State.reset.sched.Inv

/-- Every step keeps the invariant of the machine, whatever instruction runs and whatever the environment does:
register 0 is 0 (R22), `pc` and a pending target are aligned (R29), STATUS's reserved bits are 0 (R34), memory is in
its canonical form, the remainders stay below the divisors (R45), a fatal code is present exactly with the latch
(R43). -/
def Obligations.StepKeepsTheMachineInvariant : Prop :=
  ∀ s t : State, s.Inv → step s = .next t → t.Inv

/-- Every step keeps the invariant of the scheduler (R238, R224, R234). -/
def Obligations.StepKeepsTheSchedulerInvariant : Prop :=
  ∀ s t : State, s.sched.Inv → step s = .next t → t.sched.Inv
end

