-- ==== Sys2Proof/Laws/Memory.lean ====
section
/-! SUPPORT. The laws of memory: reading after writing, and that every operation keeps the canonical form. -/

namespace Sys2Proof.Machine.Memory

open Sys2Proof

theorem read_erase_other (m : Memory) {a k : Nat} (h : k ≠ a) : read (erase m a) k = read m k := by
  induction m with
  | nil => rfl
  | cons c m ih =>
    obtain ⟨j, b⟩ := c
    by_cases hj : a = j
    · subst hj; simp [erase, read, h, ih]
    · simp [erase, read, hj, ih]

theorem read_erase_same (m : Memory) (a : Nat) : read (erase m a) a = initByte a := by
  induction m with
  | nil => rfl
  | cons c m ih =>
    obtain ⟨j, b⟩ := c
    by_cases hj : a = j
    · subst hj; simpa [erase] using ih
    · simp [erase, read, hj, ih]

theorem read_insert_other (m : Memory) {a k : Nat} (b : Byte) (h : k ≠ a) :
    read (insert m a b) k = read m k := by
  induction m with
  | nil => simp [insert, read, h]
  | cons c m ih =>
    obtain ⟨j, d⟩ := c
    by_cases hj : a < j
    · simp [insert, read, hj, h]
    · simp [insert, read, hj, ih]

/-- No entry for `a`. -/
def free (m : Memory) (a : Nat) : Prop := ∀ c ∈ m, c.1 ≠ a

theorem free_erase (m : Memory) (a : Nat) : free (erase m a) a := by
  induction m with
  | nil => simp [erase, free]
  | cons c m ih =>
    obtain ⟨j, b⟩ := c
    by_cases hj : a = j
    · simpa [erase, hj] using hj ▸ ih
    · simp only [erase, hj, if_false]
      intro d hd
      rcases List.mem_cons.1 hd with rfl | hd
      · exact fun e => hj e.symm
      · exact ih d hd

theorem read_insert_same (m : Memory) (a : Nat) (b : Byte) (h : free m a) : read (insert m a b) a = b := by
  induction m with
  | nil => simp [insert, read]
  | cons c m ih =>
    obtain ⟨j, d⟩ := c
    have hj : a ≠ j := fun e => h (j, d) (by simp) e.symm
    by_cases hl : a < j
    · simp [insert, read, hl]
    · simpa [insert, read, hl, hj] using ih (fun c hc => h c (by simp [hc]))

/-- A read after a write to the same address gives the value written. -/
theorem read_write_same (m : Memory) (a : Nat) (b : Byte) : read (write m a b) a = b := by
  by_cases h : b = initByte a
  · simp [write, h, read_erase_same]
  · simp [write, h, read_insert_same _ _ _ (free_erase m a)]

/-- A write leaves every other address alone. -/
theorem read_write_other (m : Memory) {a k : Nat} (b : Byte) (h : k ≠ a) : read (write m a b) k = read m k := by
  by_cases hb : b = initByte a
  · simp [write, hb, read_erase_other m h]
  · simp [write, hb, read_insert_other _ _ h, read_erase_other m h]

theorem read_writeBytes_outside (bs : List Byte) :
    ∀ (m : Memory) (a k : Nat), (k < a ∨ a + bs.length ≤ k) → read (writeBytes m a bs) k = read m k := by
  induction bs with
  | nil => intros; rfl
  | cons b bs ih =>
    intro m a k h
    simp only [List.length_cons] at h
    rw [writeBytes, ih _ _ _ (by omega), read_write_other _ _ (by omega)]

theorem read_writeBytes_inside (bs : List Byte) :
    ∀ (m : Memory) (a j : Nat) (h : j < bs.length), read (writeBytes m a bs) (a + j) = bs[j] := by
  induction bs with
  | nil => intro m a j h; simp at h
  | cons b bs ih =>
    intro m a j h
    rw [writeBytes]
    cases j with
    | zero => rw [read_writeBytes_outside _ _ _ _ (by omega)]; simpa using read_write_same m a b
    | succ j =>
      have := ih (write m a b) (a + 1) j (by simpa using h)
      rw [show a + (j + 1) = a + 1 + j by omega, this]; simp

@[simp] theorem readBytes_length (m : Memory) : ∀ (n a : Nat), (readBytes m a n).length = n
  | 0, _ => rfl
  | n + 1, a => by simp [readBytes, readBytes_length m n]

theorem readBytes_get (m : Memory) :
    ∀ (n a j : Nat) (h : j < (readBytes m a n).length), (readBytes m a n)[j] = read m (a + j)
  | 0, _, _, h => by simp [readBytes] at h
  | n + 1, a, 0, _ => by simp [readBytes]
  | n + 1, a, j + 1, h => by
    have := readBytes_get m n (a + 1) j (by simpa [readBytes] using h)
    simp only [readBytes, List.getElem_cons_succ, this]
    congr 1; omega

/-- What was stored is read back. -/
theorem readBytes_writeBytes (m : Memory) (a : Nat) (bs : List Byte) :
    readBytes (writeBytes m a bs) a bs.length = bs := by
  apply List.ext_getElem (by simp)
  intro j h1 h2
  rw [readBytes_get, read_writeBytes_inside bs m a j h2]

/-! ### The canonical form -/

theorem wf_cons {k : Nat} {b : Byte} {m : Memory} :
    wf ((k, b) :: m) = true ↔ b ≠ initByte k ∧ (∀ c ∈ m, k < c.1) ∧ wf m = true := by
  simp [wf, and_assoc]

theorem mem_erase {m : Memory} {a : Nat} {c : Host.Cell} (h : c ∈ erase m a) : c ∈ m := by
  induction m with
  | nil => simp [erase] at h
  | cons d m ih =>
    obtain ⟨j, b⟩ := d
    by_cases hj : a = j
    · exact List.mem_cons_of_mem _ (ih (by simpa [erase, hj] using h))
    · rcases List.mem_cons.1 (by simpa [erase, hj] using h) with e | h
      · simp [e]
      · exact List.mem_cons_of_mem _ (ih h)

theorem mem_insert {m : Memory} {a : Nat} {b : Byte} {c : Host.Cell} (h : c ∈ insert m a b) :
    c = (a, b) ∨ c ∈ m := by
  induction m with
  | nil => simpa [insert] using h
  | cons d m ih =>
    obtain ⟨j, e⟩ := d
    by_cases hj : a < j
    · simpa [insert, hj] using h
    · rcases List.mem_cons.1 (by simpa [insert, hj] using h) with rfl | h
      · simp
      · rcases ih h with h | h
        · exact .inl h
        · exact .inr (List.mem_cons_of_mem _ h)

theorem wf_erase {m : Memory} (a : Nat) (h : wf m = true) : wf (erase m a) = true := by
  induction m with
  | nil => rfl
  | cons c m ih =>
    obtain ⟨j, b⟩ := c
    obtain ⟨h1, h2, h3⟩ := wf_cons.1 h
    by_cases hj : a = j
    · simpa [erase, hj] using hj ▸ ih h3
    · simp only [erase, hj, if_false]
      exact wf_cons.2 ⟨h1, fun c hc => h2 c (mem_erase hc), ih h3⟩

theorem wf_insert {m : Memory} {a : Nat} {b : Byte} (h : wf m = true) (hf : free m a) (hb : b ≠ initByte a) :
    wf (insert m a b) = true := by
  induction m with
  | nil => simp [insert, wf, hb]
  | cons c m ih =>
    obtain ⟨j, d⟩ := c
    obtain ⟨h1, h2, h3⟩ := wf_cons.1 h
    by_cases hj : a < j
    · simp only [insert, hj, if_true]
      refine wf_cons.2 ⟨hb, ?_, h⟩
      intro c hc
      rcases List.mem_cons.1 hc with rfl | hc
      · exact hj
      · exact Nat.lt_trans hj (h2 c hc)
    · simp only [insert, hj, if_false]
      have hne : j ≠ a := hf (j, d) (by simp)
      refine wf_cons.2 ⟨h1, ?_, ih h3 (fun c hc => hf c (by simp [hc]))⟩
      intro c hc
      rcases mem_insert hc with rfl | hc
      · show j < a; omega
      · exact h2 c hc

/-- A write keeps the canonical form. -/
theorem wf_write {m : Memory} (a : Nat) (b : Byte) (h : wf m = true) : wf (write m a b) = true := by
  by_cases hb : b = initByte a
  · simp [write, hb, wf_erase a h]
  · simp only [write, hb, if_false]
    exact wf_insert (wf_erase a h) (free_erase m a) hb

/-- A store of any number of bytes keeps the canonical form. -/
theorem wf_writeBytes (bs : List Byte) : ∀ (m : Memory) (a : Nat), wf m = true → wf (writeBytes m a bs) = true := by
  induction bs with
  | nil => intro m a h; exact h
  | cons b bs ih => intro m a h; exact ih _ _ (wf_write a b h)

/-- The memory after reset is in the canonical form. -/
theorem wf_reset : wf State.reset.mem = true := rfl

end Sys2Proof.Machine.Memory
end

