-- ==== Sys2Proof/Laws/Bytes.lean ====
section
/-! SUPPORT. Little-endian bytes (`20_memory.md` R62): numbers, bytes and memory as values. -/

namespace Sys2Proof

theorem ofNat_append {n k : Nat} (x : BitVec n) (y : BitVec k) :
    (x ++ y).toNat = y.toNat + 2 ^ k * x.toNat := by
  rw [BitVec.toNat_append, ← Nat.shiftLeft_add_eq_or_of_lt y.isLt, Nat.shiftLeft_eq]
  ring

@[simp] theorem leBytes_length : ∀ (n v : Nat), (leBytes n v).length = n
  | 0, _ => rfl
  | n + 1, v => by simp [leBytes, leBytes_length n]

theorem leBytes_get : ∀ (n v j : Nat) (h : j < (leBytes n v).length),
    (leBytes n v)[j] = BitVec.ofNat 8 (v / 256 ^ j)
  | 0, _, _, h => by simp [leBytes] at h
  | n + 1, v, 0, _ => by simp [leBytes]
  | n + 1, v, j + 1, h => by
    have := leBytes_get n (v / 256) j (by simpa [leBytes] using h)
    simp only [leBytes, List.getElem_cons_succ, this]
    rw [Nat.div_div_eq_div_mul, Nat.pow_succ, Nat.mul_comm]

theorem leNat_lt : ∀ bs : List Byte, leNat bs < 256 ^ bs.length
  | [] => by simp [leNat]
  | b :: bs => by
    have := leNat_lt bs
    have := b.isLt
    simp only [leNat, List.length_cons, Nat.pow_succ]
    omega

theorem leNat_append : ∀ a b : List Byte, leNat (a ++ b) = leNat a + 256 ^ a.length * leNat b
  | [], b => by simp [leNat]
  | x :: a, b => by
    simp only [List.cons_append, leNat, leNat_append a b, List.length_cons, Nat.pow_succ]
    ring

theorem leNat_leBytes : ∀ n v : Nat, leNat (leBytes n v) = v % 256 ^ n
  | 0, v => by simp [leBytes, leNat, Nat.mod_one]
  | n + 1, v => by
    simp only [leBytes, leNat, leNat_leBytes n, BitVec.toNat_ofNat]
    rw [show (256 : Nat) ^ (n + 1) = 256 * 256 ^ n by ring, Nat.mod_mul]

/-- The number of a byte list divided down to its j-th byte. -/
theorem leNat_div : ∀ (bs : List Byte) (j : Nat) (h : j < bs.length),
    leNat bs / 256 ^ j % 256 = bs[j].toNat
  | [], _, h => by simp at h
  | b :: bs, 0, _ => by
    have := b.isLt
    simp only [leNat, Nat.pow_zero, Nat.div_one, List.getElem_cons_zero]
    omega
  | b :: bs, j + 1, h => by
    have := leNat_div bs j (by simpa using h)
    have hb := b.isLt
    rw [Nat.pow_succ, Nat.mul_comm, ← Nat.div_div_eq_div_mul]
    rw [show leNat (b :: bs) / 256 = leNat bs by simp only [leNat]; omega]
    simpa using this

/-- Bits 8j+7:8j of a number held in a bit vector wide enough are its j-th byte. -/
theorem extract_ofNat (w v j : Nat) (h : 8 * j + 8 ≤ w) :
    (BitVec.ofNat w v).extractLsb' (8 * j) 8 = BitVec.ofNat 8 (v / 256 ^ j) := by
  apply BitVec.eq_of_toNat_eq
  simp only [BitVec.extractLsb'_toNat, BitVec.toNat_ofNat, Nat.shiftRight_eq_div_pow]
  have e : (2 : Nat) ^ w = 2 ^ (8 * j) * (2 ^ 8 * 2 ^ (w - (8 * j + 8))) := by
    rw [← Nat.pow_add, ← Nat.pow_add]; congr 1; omega
  rw [show (256 : Nat) ^ j = 2 ^ (8 * j) by rw [Nat.pow_mul]]
  rw [e, Nat.mod_mul_right_div_self, Nat.mod_mul_right_mod]

theorem extract_leNat (w : Nat) (bs : List Byte) (j : Nat) (h : j < bs.length) (hw : 8 * j + 8 ≤ w) :
    (BitVec.ofNat w (leNat bs)).extractLsb' (8 * j) 8 = bs[j] := by
  rw [extract_ofNat w _ j hw]
  apply BitVec.eq_of_toNat_eq
  simpa using leNat_div bs j h

/-- The low `k` bits of a number below 2^k in a wider bit vector. -/
theorem extract_low {w k : Nat} (v : Nat) (h : v < 2 ^ k) (hk : k ≤ w) :
    (BitVec.ofNat w v).extractLsb' 0 k = BitVec.ofNat k v := by
  apply BitVec.eq_of_toNat_eq
  have : 2 ^ k ≤ 2 ^ w := Nat.pow_le_pow_right (by omega) hk
  simp [Nat.mod_eq_of_lt (show v < 2 ^ w by omega)]

theorem pow256 (n : Nat) : (256 : Nat) ^ n = 2 ^ (8 * n) := by rw [Nat.pow_mul]

namespace Machine

theorem Memory.readBytes_append (m : Memory) :
    ∀ a n k : Nat, Memory.readBytes m a (n + k) = Memory.readBytes m a n ++ Memory.readBytes m (a + n) k
  | a, 0, k => by simp [Memory.readBytes]
  | a, n + 1, k => by
    rw [show n + 1 + k = (n + k) + 1 by omega]
    simp only [Memory.readBytes, List.cons_append, readBytes_append m (a + 1) n k]
    rw [show a + 1 + n = a + (n + 1) by omega]

theorem leNat_byte (s : State) (a : Nat) : leNat (Memory.readBytes s.mem a 1) = (s.byteAt a).toNat := by
  simp [Memory.readBytes, leNat, State.byteAt]

theorem leNat_half (s : State) (a : Nat) : leNat (Memory.readBytes s.mem a 2) = (s.halfAt a).toNat := by
  rw [show (2 : Nat) = 1 + 1 from rfl, Memory.readBytes_append, leNat_append, leNat_byte, leNat_byte,
    State.halfAt, ofNat_append]
  simp

theorem leNat_word (s : State) (a : Nat) : leNat (Memory.readBytes s.mem a 4) = (s.wordAt a).toNat := by
  rw [show (4 : Nat) = 2 + 2 from rfl, Memory.readBytes_append, leNat_append, leNat_half, leNat_half,
    State.wordAt, ofNat_append]
  simp

theorem leNat_dword (s : State) (a : Nat) : leNat (Memory.readBytes s.mem a 8) = (s.dwordAt a).toNat := by
  rw [show (8 : Nat) = 4 + 4 from rfl, Memory.readBytes_append, leNat_append, leNat_word, leNat_word,
    State.dwordAt, ofNat_append]
  simp

theorem leNat_quad (s : State) (a : Nat) : leNat (Memory.readBytes s.mem a 16) = (s.quadAt a).toNat := by
  rw [show (16 : Nat) = 8 + 8 from rfl, Memory.readBytes_append, leNat_append, leNat_dword, leNat_dword,
    State.quadAt, ofNat_append]
  simp

/-! The value of a memory access as the little-endian value of its width. -/

theorem memValue_byte (s : State) (a : Nat) : (s.memValue .w8 a).extractLsb' 0 8 = s.byteAt a := by
  simp only [State.memValue, Width.bytes, leNat_byte]
  rw [extract_low _ (s.byteAt a).isLt (by omega)]; simp

theorem memValue_half (s : State) (a : Nat) : (s.memValue .w16 a).extractLsb' 0 16 = s.halfAt a := by
  simp only [State.memValue, Width.bytes, leNat_half]
  rw [extract_low _ (s.halfAt a).isLt (by omega)]; simp

theorem memValue_word (s : State) (a : Nat) : (s.memValue .w32 a).extractLsb' 0 32 = s.wordAt a := by
  simp only [State.memValue, Width.bytes, leNat_word]
  rw [extract_low _ (s.wordAt a).isLt (by omega)]; simp

theorem memValue_dword (s : State) (a : Nat) : (s.memValue .w64 a).extractLsb' 0 64 = s.dwordAt a := by
  simp only [State.memValue, Width.bytes, leNat_dword]
  rw [extract_low _ (s.dwordAt a).isLt (by omega)]; simp

theorem memValue_quad (s : State) (a : Nat) : s.memValue .w128 a = s.quadAt a := by
  simp only [State.memValue, Width.bytes, leNat_quad]; simp

/-! What a store of each width leaves in memory. -/

theorem readBytes_memStore (s : State) (w : Width) (a : Nat) (v : Quad) :
    Memory.readBytes (s.memStore w a v).mem a w.bytes = leBytes w.bytes v.toNat := by
  have := Memory.readBytes_writeBytes s.mem a (leBytes w.bytes v.toNat)
  simpa [State.memStore] using this

/-- A store changes no byte outside its own. -/
theorem memStore_outside (s : State) (w : Width) (a : Nat) (v : Quad) :
    SameMemoryOutside s (s.memStore w a v) a w.bytes := by
  intro k h
  exact Memory.read_writeBytes_outside _ _ _ _ (by simpa using h)

/-- Byte j of a store. -/
theorem memStore_byte (s : State) (w : Width) (a : Nat) (v : Quad) (j : Nat) (h : j < w.bytes) :
    (s.memStore w a v).byteAt (a + j) = v.extractLsb' (8 * j) 8 := by
  have hl : j < (leBytes w.bytes v.toNat).length := by simpa using h
  have hw : w.bytes ≤ 16 := by cases w <;> decide
  show Memory.read (Memory.writeBytes s.mem a (leBytes w.bytes v.toNat)) (a + j) = _
  rw [Memory.read_writeBytes_inside _ _ _ _ hl, leBytes_get, ← extract_ofNat 128 _ j (by omega)]
  simp

theorem memStore_value (s : State) (w : Width) (a : Nat) (v : Quad) :
    leNat (Memory.readBytes (s.memStore w a v).mem a w.bytes) = v.toNat % 2 ^ (8 * w.bytes) := by
  rw [readBytes_memStore, leNat_leBytes, pow256]

theorem memStore_wf {s : State} (w : Width) (a : Nat) (v : Quad) (h : Memory.wf s.mem = true) :
    Memory.wf (s.memStore w a v).mem = true := Memory.wf_writeBytes _ _ _ h

end Machine

end Sys2Proof
end

