-- ==== Sys2Proof/Laws/Config.lean ====
section
/-! SUPPORT. The fields of CFG_REF, each by its name. -/

namespace Sys2Proof

theorem cfg_translate (v : Word) : cfg.translate v = v &&& 0x1FFFFFFF#32 := rfl
theorem cfg_windows : cfg.windows = refWindows := rfl
theorem cfg_exact : cfg.exact = refExact := rfl
theorem cfg_unmappedReadValue : cfg.unmappedReadValue = 0 := rfl
theorem cfg_ieStackDepth : cfg.ieStackDepth = 3 := rfl
theorem cfg_causeCode (e : ExcKind) : cfg.causeCode e = refCauseCode e := rfl
theorem cfg_excVector : cfg.excVector = 0x80000180#32 := rfl
theorem cfg_resetPc : cfg.resetPc = 0xBFC00000#32 := rfl
theorem cfg_nIrq : cfg.nIrq = 8 := rfl
theorem cfg_stepCost : cfg.stepCost = 1 := rfl
theorem cfg_latency (c : PipeClass) : cfg.latency c = refLatency c := rfl
theorem cfg_minRunCycles : cfg.minRunCycles = 1 := rfl
theorem cfg_idleBudget : cfg.idleBudget = 32 := rfl
theorem cfg_busDiv : cfg.busDiv = 2 := rfl
theorem cfg_iopDiv : cfg.iopDiv = 8 := rfl
theorem cfg_frameCycles : cfg.frameCycles = none := rfl
theorem cfg_initImage (a : Nat) : cfg.initImage a = 0 := rfl
theorem cfg_unitReset (u : ExtUnit) : cfg.unitReset u = [] := rfl
theorem cfg_deviceReset (n : DeviceName) : cfg.deviceReset n = [] := rfl

/-- A mask of the low 29 bits, as a remainder. -/
theorem translate_toNat (v : Word) : (cfg.translate v).toNat = v.toNat % 2 ^ 29 := by
  rw [cfg_translate, BitVec.toNat_and]
  exact Nat.and_two_pow_sub_one_eq_mod v.toNat 29

/-- An address and its translation agree modulo every power of two up to 2^29 (R9). -/
theorem translate_mod (v : Word) {n : Nat} (h : n ∣ 2 ^ 29) : (cfg.translate v).toNat % n = v.toNat % n := by
  rw [translate_toNat, Nat.mod_mod_of_dvd _ h]

/-- A translated address is below 2^29. -/
theorem translate_lt (v : Word) : (cfg.translate v).toNat < 2 ^ 29 := by
  rw [translate_toNat]; exact Nat.mod_lt _ (by decide)

end Sys2Proof
end

