-- ==== Sys2Proof/Laws/State.lean ====
section
/-! SUPPORT. One lemma per field per update of the state, so that no later proof unfolds a record update. -/

namespace Sys2Proof.Machine

/-! ### `setXq` -/

@[simp] theorem setXq_gpr (s : State) (r : Reg) (v : Quad) : (s.setXq r v).gpr = if r = 0 then s.gpr else s.gpr.set r v := rfl
@[simp] theorem setXq_lo (s : State) (r : Reg) (v : Quad) : (s.setXq r v).lo = s.lo := rfl
@[simp] theorem setXq_hi (s : State) (r : Reg) (v : Quad) : (s.setXq r v).hi = s.hi := rfl
@[simp] theorem setXq_sa (s : State) (r : Reg) (v : Quad) : (s.setXq r v).sa = s.sa := rfl
@[simp] theorem setXq_pc (s : State) (r : Reg) (v : Quad) : (s.setXq r v).pc = s.pc := rfl
@[simp] theorem setXq_nextPc (s : State) (r : Reg) (v : Quad) : (s.setXq r v).nextPc = s.nextPc := rfl
@[simp] theorem setXq_branchPending (s : State) (r : Reg) (v : Quad) : (s.setXq r v).branchPending = s.branchPending := rfl
@[simp] theorem setXq_branchTarget (s : State) (r : Reg) (v : Quad) : (s.setXq r v).branchTarget = s.branchTarget := rfl
@[simp] theorem setXq_status (s : State) (r : Reg) (v : Quad) : (s.setXq r v).status = s.status := rfl
@[simp] theorem setXq_excCode (s : State) (r : Reg) (v : Quad) : (s.setXq r v).excCode = s.excCode := rfl
@[simp] theorem setXq_bd (s : State) (r : Reg) (v : Quad) : (s.setXq r v).bd = s.bd := rfl
@[simp] theorem setXq_epc (s : State) (r : Reg) (v : Quad) : (s.setXq r v).epc = s.epc := rfl
@[simp] theorem setXq_waitForIrq (s : State) (r : Reg) (v : Quad) : (s.setXq r v).waitForIrq = s.waitForIrq := rfl
@[simp] theorem setXq_fpr (s : State) (r : Reg) (v : Quad) : (s.setXq r v).fpr = s.fpr := rfl
@[simp] theorem setXq_fcond (s : State) (r : Reg) (v : Quad) : (s.setXq r v).fcond = s.fcond := rfl
@[simp] theorem setXq_icache (s : State) (r : Reg) (v : Quad) : (s.setXq r v).icache = s.icache := rfl
@[simp] theorem setXq_lastDesc (s : State) (r : Reg) (v : Quad) : (s.setXq r v).lastDesc = s.lastDesc := rfl
@[simp] theorem setXq_mdReadyCycle (s : State) (r : Reg) (v : Quad) : (s.setXq r v).mdReadyCycle = s.mdReadyCycle := rfl
@[simp] theorem setXq_ilockCop2 (s : State) (r : Reg) (v : Quad) : (s.setXq r v).ilockCop2 = s.ilockCop2 := rfl
@[simp] theorem setXq_ilockVu (s : State) (r : Reg) (v : Quad) : (s.setXq r v).ilockVu = s.ilockVu := rfl
@[simp] theorem setXq_mem (s : State) (r : Reg) (v : Quad) : (s.setXq r v).mem = s.mem := rfl
@[simp] theorem setXq_sched (s : State) (r : Reg) (v : Quad) : (s.setXq r v).sched = s.sched := rfl
@[simp] theorem setXq_frameComplete (s : State) (r : Reg) (v : Quad) : (s.setXq r v).frameComplete = s.frameComplete := rfl
@[simp] theorem setXq_fatal (s : State) (r : Reg) (v : Quad) : (s.setXq r v).fatal = s.fatal := rfl
@[simp] theorem setXq_fatalCode (s : State) (r : Reg) (v : Quad) : (s.setXq r v).fatalCode = s.fatalCode := rfl
@[simp] theorem setXq_irqLine (s : State) (r : Reg) (v : Quad) : (s.setXq r v).irqLine = s.irqLine := rfl
@[simp] theorem setXq_phase (s : State) (r : Reg) (v : Quad) : (s.setXq r v).phase = s.phase := rfl
@[simp] theorem setXq_frameHandler (s : State) (r : Reg) (v : Quad) : (s.setXq r v).frameHandler = s.frameHandler := rfl
@[simp] theorem setXq_env (s : State) (r : Reg) (v : Quad) : (s.setXq r v).env = s.env := rfl
@[simp] theorem setXq_draws (s : State) (r : Reg) (v : Quad) : (s.setXq r v).draws = s.draws := rfl
@[simp] theorem setXq_out (s : State) (r : Reg) (v : Quad) : (s.setXq r v).out = s.out := rfl

/-! ### `setX` -/

@[simp] theorem setX_gpr (s : State) (r : Reg) (v : Dword) : (s.setX r v).gpr = if r = 0 then s.gpr else s.gpr.set r (withLow64 s.gpr[r] v) := rfl
@[simp] theorem setX_lo (s : State) (r : Reg) (v : Dword) : (s.setX r v).lo = s.lo := rfl
@[simp] theorem setX_hi (s : State) (r : Reg) (v : Dword) : (s.setX r v).hi = s.hi := rfl
@[simp] theorem setX_sa (s : State) (r : Reg) (v : Dword) : (s.setX r v).sa = s.sa := rfl
@[simp] theorem setX_pc (s : State) (r : Reg) (v : Dword) : (s.setX r v).pc = s.pc := rfl
@[simp] theorem setX_nextPc (s : State) (r : Reg) (v : Dword) : (s.setX r v).nextPc = s.nextPc := rfl
@[simp] theorem setX_branchPending (s : State) (r : Reg) (v : Dword) : (s.setX r v).branchPending = s.branchPending := rfl
@[simp] theorem setX_branchTarget (s : State) (r : Reg) (v : Dword) : (s.setX r v).branchTarget = s.branchTarget := rfl
@[simp] theorem setX_status (s : State) (r : Reg) (v : Dword) : (s.setX r v).status = s.status := rfl
@[simp] theorem setX_excCode (s : State) (r : Reg) (v : Dword) : (s.setX r v).excCode = s.excCode := rfl
@[simp] theorem setX_bd (s : State) (r : Reg) (v : Dword) : (s.setX r v).bd = s.bd := rfl
@[simp] theorem setX_epc (s : State) (r : Reg) (v : Dword) : (s.setX r v).epc = s.epc := rfl
@[simp] theorem setX_waitForIrq (s : State) (r : Reg) (v : Dword) : (s.setX r v).waitForIrq = s.waitForIrq := rfl
@[simp] theorem setX_fpr (s : State) (r : Reg) (v : Dword) : (s.setX r v).fpr = s.fpr := rfl
@[simp] theorem setX_fcond (s : State) (r : Reg) (v : Dword) : (s.setX r v).fcond = s.fcond := rfl
@[simp] theorem setX_icache (s : State) (r : Reg) (v : Dword) : (s.setX r v).icache = s.icache := rfl
@[simp] theorem setX_lastDesc (s : State) (r : Reg) (v : Dword) : (s.setX r v).lastDesc = s.lastDesc := rfl
@[simp] theorem setX_mdReadyCycle (s : State) (r : Reg) (v : Dword) : (s.setX r v).mdReadyCycle = s.mdReadyCycle := rfl
@[simp] theorem setX_ilockCop2 (s : State) (r : Reg) (v : Dword) : (s.setX r v).ilockCop2 = s.ilockCop2 := rfl
@[simp] theorem setX_ilockVu (s : State) (r : Reg) (v : Dword) : (s.setX r v).ilockVu = s.ilockVu := rfl
@[simp] theorem setX_mem (s : State) (r : Reg) (v : Dword) : (s.setX r v).mem = s.mem := rfl
@[simp] theorem setX_sched (s : State) (r : Reg) (v : Dword) : (s.setX r v).sched = s.sched := rfl
@[simp] theorem setX_frameComplete (s : State) (r : Reg) (v : Dword) : (s.setX r v).frameComplete = s.frameComplete := rfl
@[simp] theorem setX_fatal (s : State) (r : Reg) (v : Dword) : (s.setX r v).fatal = s.fatal := rfl
@[simp] theorem setX_fatalCode (s : State) (r : Reg) (v : Dword) : (s.setX r v).fatalCode = s.fatalCode := rfl
@[simp] theorem setX_irqLine (s : State) (r : Reg) (v : Dword) : (s.setX r v).irqLine = s.irqLine := rfl
@[simp] theorem setX_phase (s : State) (r : Reg) (v : Dword) : (s.setX r v).phase = s.phase := rfl
@[simp] theorem setX_frameHandler (s : State) (r : Reg) (v : Dword) : (s.setX r v).frameHandler = s.frameHandler := rfl
@[simp] theorem setX_env (s : State) (r : Reg) (v : Dword) : (s.setX r v).env = s.env := rfl
@[simp] theorem setX_draws (s : State) (r : Reg) (v : Dword) : (s.setX r v).draws = s.draws := rfl
@[simp] theorem setX_out (s : State) (r : Reg) (v : Dword) : (s.setX r v).out = s.out := rfl

/-! ### `setLoHi` -/

@[simp] theorem setLoHi_gpr (s : State) (l h : Word) : (s.setLoHi l h).gpr = s.gpr := rfl
@[simp] theorem setLoHi_lo (s : State) (l h : Word) : (s.setLoHi l h).lo = withLow64 s.lo (sext64 l) := rfl
@[simp] theorem setLoHi_hi (s : State) (l h : Word) : (s.setLoHi l h).hi = withLow64 s.hi (sext64 h) := rfl
@[simp] theorem setLoHi_sa (s : State) (l h : Word) : (s.setLoHi l h).sa = s.sa := rfl
@[simp] theorem setLoHi_pc (s : State) (l h : Word) : (s.setLoHi l h).pc = s.pc := rfl
@[simp] theorem setLoHi_nextPc (s : State) (l h : Word) : (s.setLoHi l h).nextPc = s.nextPc := rfl
@[simp] theorem setLoHi_branchPending (s : State) (l h : Word) : (s.setLoHi l h).branchPending = s.branchPending := rfl
@[simp] theorem setLoHi_branchTarget (s : State) (l h : Word) : (s.setLoHi l h).branchTarget = s.branchTarget := rfl
@[simp] theorem setLoHi_status (s : State) (l h : Word) : (s.setLoHi l h).status = s.status := rfl
@[simp] theorem setLoHi_excCode (s : State) (l h : Word) : (s.setLoHi l h).excCode = s.excCode := rfl
@[simp] theorem setLoHi_bd (s : State) (l h : Word) : (s.setLoHi l h).bd = s.bd := rfl
@[simp] theorem setLoHi_epc (s : State) (l h : Word) : (s.setLoHi l h).epc = s.epc := rfl
@[simp] theorem setLoHi_waitForIrq (s : State) (l h : Word) : (s.setLoHi l h).waitForIrq = s.waitForIrq := rfl
@[simp] theorem setLoHi_fpr (s : State) (l h : Word) : (s.setLoHi l h).fpr = s.fpr := rfl
@[simp] theorem setLoHi_fcond (s : State) (l h : Word) : (s.setLoHi l h).fcond = s.fcond := rfl
@[simp] theorem setLoHi_icache (s : State) (l h : Word) : (s.setLoHi l h).icache = s.icache := rfl
@[simp] theorem setLoHi_lastDesc (s : State) (l h : Word) : (s.setLoHi l h).lastDesc = s.lastDesc := rfl
@[simp] theorem setLoHi_mdReadyCycle (s : State) (l h : Word) : (s.setLoHi l h).mdReadyCycle = s.mdReadyCycle := rfl
@[simp] theorem setLoHi_ilockCop2 (s : State) (l h : Word) : (s.setLoHi l h).ilockCop2 = s.ilockCop2 := rfl
@[simp] theorem setLoHi_ilockVu (s : State) (l h : Word) : (s.setLoHi l h).ilockVu = s.ilockVu := rfl
@[simp] theorem setLoHi_mem (s : State) (l h : Word) : (s.setLoHi l h).mem = s.mem := rfl
@[simp] theorem setLoHi_sched (s : State) (l h : Word) : (s.setLoHi l h).sched = s.sched := rfl
@[simp] theorem setLoHi_frameComplete (s : State) (l h : Word) : (s.setLoHi l h).frameComplete = s.frameComplete := rfl
@[simp] theorem setLoHi_fatal (s : State) (l h : Word) : (s.setLoHi l h).fatal = s.fatal := rfl
@[simp] theorem setLoHi_fatalCode (s : State) (l h : Word) : (s.setLoHi l h).fatalCode = s.fatalCode := rfl
@[simp] theorem setLoHi_irqLine (s : State) (l h : Word) : (s.setLoHi l h).irqLine = s.irqLine := rfl
@[simp] theorem setLoHi_phase (s : State) (l h : Word) : (s.setLoHi l h).phase = s.phase := rfl
@[simp] theorem setLoHi_frameHandler (s : State) (l h : Word) : (s.setLoHi l h).frameHandler = s.frameHandler := rfl
@[simp] theorem setLoHi_env (s : State) (l h : Word) : (s.setLoHi l h).env = s.env := rfl
@[simp] theorem setLoHi_draws (s : State) (l h : Word) : (s.setLoHi l h).draws = s.draws := rfl
@[simp] theorem setLoHi_out (s : State) (l h : Word) : (s.setLoHi l h).out = s.out := rfl

/-! ### `emit` -/

@[simp] theorem emit_gpr (s : State) (e : OutEvent) : (s.emit e).gpr = s.gpr := rfl
@[simp] theorem emit_lo (s : State) (e : OutEvent) : (s.emit e).lo = s.lo := rfl
@[simp] theorem emit_hi (s : State) (e : OutEvent) : (s.emit e).hi = s.hi := rfl
@[simp] theorem emit_sa (s : State) (e : OutEvent) : (s.emit e).sa = s.sa := rfl
@[simp] theorem emit_pc (s : State) (e : OutEvent) : (s.emit e).pc = s.pc := rfl
@[simp] theorem emit_nextPc (s : State) (e : OutEvent) : (s.emit e).nextPc = s.nextPc := rfl
@[simp] theorem emit_branchPending (s : State) (e : OutEvent) : (s.emit e).branchPending = s.branchPending := rfl
@[simp] theorem emit_branchTarget (s : State) (e : OutEvent) : (s.emit e).branchTarget = s.branchTarget := rfl
@[simp] theorem emit_status (s : State) (e : OutEvent) : (s.emit e).status = s.status := rfl
@[simp] theorem emit_excCode (s : State) (e : OutEvent) : (s.emit e).excCode = s.excCode := rfl
@[simp] theorem emit_bd (s : State) (e : OutEvent) : (s.emit e).bd = s.bd := rfl
@[simp] theorem emit_epc (s : State) (e : OutEvent) : (s.emit e).epc = s.epc := rfl
@[simp] theorem emit_waitForIrq (s : State) (e : OutEvent) : (s.emit e).waitForIrq = s.waitForIrq := rfl
@[simp] theorem emit_fpr (s : State) (e : OutEvent) : (s.emit e).fpr = s.fpr := rfl
@[simp] theorem emit_fcond (s : State) (e : OutEvent) : (s.emit e).fcond = s.fcond := rfl
@[simp] theorem emit_icache (s : State) (e : OutEvent) : (s.emit e).icache = s.icache := rfl
@[simp] theorem emit_lastDesc (s : State) (e : OutEvent) : (s.emit e).lastDesc = s.lastDesc := rfl
@[simp] theorem emit_mdReadyCycle (s : State) (e : OutEvent) : (s.emit e).mdReadyCycle = s.mdReadyCycle := rfl
@[simp] theorem emit_ilockCop2 (s : State) (e : OutEvent) : (s.emit e).ilockCop2 = s.ilockCop2 := rfl
@[simp] theorem emit_ilockVu (s : State) (e : OutEvent) : (s.emit e).ilockVu = s.ilockVu := rfl
@[simp] theorem emit_mem (s : State) (e : OutEvent) : (s.emit e).mem = s.mem := rfl
@[simp] theorem emit_sched (s : State) (e : OutEvent) : (s.emit e).sched = s.sched := rfl
@[simp] theorem emit_frameComplete (s : State) (e : OutEvent) : (s.emit e).frameComplete = s.frameComplete := rfl
@[simp] theorem emit_fatal (s : State) (e : OutEvent) : (s.emit e).fatal = s.fatal := rfl
@[simp] theorem emit_fatalCode (s : State) (e : OutEvent) : (s.emit e).fatalCode = s.fatalCode := rfl
@[simp] theorem emit_irqLine (s : State) (e : OutEvent) : (s.emit e).irqLine = s.irqLine := rfl
@[simp] theorem emit_phase (s : State) (e : OutEvent) : (s.emit e).phase = s.phase := rfl
@[simp] theorem emit_frameHandler (s : State) (e : OutEvent) : (s.emit e).frameHandler = s.frameHandler := rfl
@[simp] theorem emit_env (s : State) (e : OutEvent) : (s.emit e).env = s.env := rfl
@[simp] theorem emit_draws (s : State) (e : OutEvent) : (s.emit e).draws = s.draws := rfl
@[simp] theorem emit_out (s : State) (e : OutEvent) : (s.emit e).out = e :: s.out := rfl

/-! ### `latchFatal` -/

@[simp] theorem latchFatal_gpr (s : State) (c : FatalCode) (i : Word) : (s.latchFatal c i).gpr = s.gpr := rfl
@[simp] theorem latchFatal_lo (s : State) (c : FatalCode) (i : Word) : (s.latchFatal c i).lo = s.lo := rfl
@[simp] theorem latchFatal_hi (s : State) (c : FatalCode) (i : Word) : (s.latchFatal c i).hi = s.hi := rfl
@[simp] theorem latchFatal_sa (s : State) (c : FatalCode) (i : Word) : (s.latchFatal c i).sa = s.sa := rfl
@[simp] theorem latchFatal_pc (s : State) (c : FatalCode) (i : Word) : (s.latchFatal c i).pc = s.pc := rfl
@[simp] theorem latchFatal_nextPc (s : State) (c : FatalCode) (i : Word) : (s.latchFatal c i).nextPc = s.nextPc := rfl
@[simp] theorem latchFatal_branchPending (s : State) (c : FatalCode) (i : Word) : (s.latchFatal c i).branchPending = s.branchPending := rfl
@[simp] theorem latchFatal_branchTarget (s : State) (c : FatalCode) (i : Word) : (s.latchFatal c i).branchTarget = s.branchTarget := rfl
@[simp] theorem latchFatal_status (s : State) (c : FatalCode) (i : Word) : (s.latchFatal c i).status = s.status := rfl
@[simp] theorem latchFatal_excCode (s : State) (c : FatalCode) (i : Word) : (s.latchFatal c i).excCode = s.excCode := rfl
@[simp] theorem latchFatal_bd (s : State) (c : FatalCode) (i : Word) : (s.latchFatal c i).bd = s.bd := rfl
@[simp] theorem latchFatal_epc (s : State) (c : FatalCode) (i : Word) : (s.latchFatal c i).epc = s.epc := rfl
@[simp] theorem latchFatal_waitForIrq (s : State) (c : FatalCode) (i : Word) : (s.latchFatal c i).waitForIrq = s.waitForIrq := rfl
@[simp] theorem latchFatal_fpr (s : State) (c : FatalCode) (i : Word) : (s.latchFatal c i).fpr = s.fpr := rfl
@[simp] theorem latchFatal_fcond (s : State) (c : FatalCode) (i : Word) : (s.latchFatal c i).fcond = s.fcond := rfl
@[simp] theorem latchFatal_icache (s : State) (c : FatalCode) (i : Word) : (s.latchFatal c i).icache = s.icache := rfl
@[simp] theorem latchFatal_lastDesc (s : State) (c : FatalCode) (i : Word) : (s.latchFatal c i).lastDesc = s.lastDesc := rfl
@[simp] theorem latchFatal_mdReadyCycle (s : State) (c : FatalCode) (i : Word) : (s.latchFatal c i).mdReadyCycle = s.mdReadyCycle := rfl
@[simp] theorem latchFatal_ilockCop2 (s : State) (c : FatalCode) (i : Word) : (s.latchFatal c i).ilockCop2 = s.ilockCop2 := rfl
@[simp] theorem latchFatal_ilockVu (s : State) (c : FatalCode) (i : Word) : (s.latchFatal c i).ilockVu = s.ilockVu := rfl
@[simp] theorem latchFatal_mem (s : State) (c : FatalCode) (i : Word) : (s.latchFatal c i).mem = s.mem := rfl
@[simp] theorem latchFatal_sched (s : State) (c : FatalCode) (i : Word) : (s.latchFatal c i).sched = s.sched := rfl
@[simp] theorem latchFatal_frameComplete (s : State) (c : FatalCode) (i : Word) : (s.latchFatal c i).frameComplete = s.frameComplete := rfl
@[simp] theorem latchFatal_fatal (s : State) (c : FatalCode) (i : Word) : (s.latchFatal c i).fatal = true := rfl
@[simp] theorem latchFatal_fatalCode (s : State) (c : FatalCode) (i : Word) : (s.latchFatal c i).fatalCode = some c := rfl
@[simp] theorem latchFatal_irqLine (s : State) (c : FatalCode) (i : Word) : (s.latchFatal c i).irqLine = s.irqLine := rfl
@[simp] theorem latchFatal_phase (s : State) (c : FatalCode) (i : Word) : (s.latchFatal c i).phase = s.phase := rfl
@[simp] theorem latchFatal_frameHandler (s : State) (c : FatalCode) (i : Word) : (s.latchFatal c i).frameHandler = s.frameHandler := rfl
@[simp] theorem latchFatal_env (s : State) (c : FatalCode) (i : Word) : (s.latchFatal c i).env = s.env := rfl
@[simp] theorem latchFatal_draws (s : State) (c : FatalCode) (i : Word) : (s.latchFatal c i).draws = s.draws := rfl
@[simp] theorem latchFatal_out (s : State) (c : FatalCode) (i : Word) : (s.latchFatal c i).out = .diag c s.pc i :: s.out := rfl

/-! ### `trapEntry` -/

@[simp] theorem trapEntry_gpr (s : State) (c : BitVec 5) (a : Word) (b : Bool) : (s.trapEntry c a b).gpr = s.gpr := rfl
@[simp] theorem trapEntry_lo (s : State) (c : BitVec 5) (a : Word) (b : Bool) : (s.trapEntry c a b).lo = s.lo := rfl
@[simp] theorem trapEntry_hi (s : State) (c : BitVec 5) (a : Word) (b : Bool) : (s.trapEntry c a b).hi = s.hi := rfl
@[simp] theorem trapEntry_sa (s : State) (c : BitVec 5) (a : Word) (b : Bool) : (s.trapEntry c a b).sa = s.sa := rfl
@[simp] theorem trapEntry_pc (s : State) (c : BitVec 5) (a : Word) (b : Bool) : (s.trapEntry c a b).pc = cfg.excVector := rfl
@[simp] theorem trapEntry_nextPc (s : State) (c : BitVec 5) (a : Word) (b : Bool) : (s.trapEntry c a b).nextPc = s.nextPc := rfl
@[simp] theorem trapEntry_branchPending (s : State) (c : BitVec 5) (a : Word) (b : Bool) : (s.trapEntry c a b).branchPending = false := rfl
@[simp] theorem trapEntry_branchTarget (s : State) (c : BitVec 5) (a : Word) (b : Bool) : (s.trapEntry c a b).branchTarget = s.branchTarget := rfl
@[simp] theorem trapEntry_status (s : State) (c : BitVec 5) (a : Word) (b : Bool) : (s.trapEntry c a b).status = pushIE s.status := rfl
@[simp] theorem trapEntry_excCode (s : State) (c : BitVec 5) (a : Word) (b : Bool) : (s.trapEntry c a b).excCode = c := rfl
@[simp] theorem trapEntry_bd (s : State) (c : BitVec 5) (a : Word) (b : Bool) : (s.trapEntry c a b).bd = b := rfl
@[simp] theorem trapEntry_epc (s : State) (c : BitVec 5) (a : Word) (b : Bool) : (s.trapEntry c a b).epc = savedPc a b := rfl
@[simp] theorem trapEntry_waitForIrq (s : State) (c : BitVec 5) (a : Word) (b : Bool) : (s.trapEntry c a b).waitForIrq = false := rfl
@[simp] theorem trapEntry_fpr (s : State) (c : BitVec 5) (a : Word) (b : Bool) : (s.trapEntry c a b).fpr = s.fpr := rfl
@[simp] theorem trapEntry_fcond (s : State) (c : BitVec 5) (a : Word) (b : Bool) : (s.trapEntry c a b).fcond = s.fcond := rfl
@[simp] theorem trapEntry_icache (s : State) (c : BitVec 5) (a : Word) (b : Bool) : (s.trapEntry c a b).icache = s.icache := rfl
@[simp] theorem trapEntry_lastDesc (s : State) (c : BitVec 5) (a : Word) (b : Bool) : (s.trapEntry c a b).lastDesc = none := rfl
@[simp] theorem trapEntry_mdReadyCycle (s : State) (c : BitVec 5) (a : Word) (b : Bool) : (s.trapEntry c a b).mdReadyCycle = s.mdReadyCycle := rfl
@[simp] theorem trapEntry_ilockCop2 (s : State) (c : BitVec 5) (a : Word) (b : Bool) : (s.trapEntry c a b).ilockCop2 = s.ilockCop2 := rfl
@[simp] theorem trapEntry_ilockVu (s : State) (c : BitVec 5) (a : Word) (b : Bool) : (s.trapEntry c a b).ilockVu = s.ilockVu := rfl
@[simp] theorem trapEntry_mem (s : State) (c : BitVec 5) (a : Word) (b : Bool) : (s.trapEntry c a b).mem = s.mem := rfl
@[simp] theorem trapEntry_sched (s : State) (c : BitVec 5) (a : Word) (b : Bool) : (s.trapEntry c a b).sched = s.sched := rfl
@[simp] theorem trapEntry_frameComplete (s : State) (c : BitVec 5) (a : Word) (b : Bool) : (s.trapEntry c a b).frameComplete = s.frameComplete := rfl
@[simp] theorem trapEntry_fatal (s : State) (c : BitVec 5) (a : Word) (b : Bool) : (s.trapEntry c a b).fatal = s.fatal := rfl
@[simp] theorem trapEntry_fatalCode (s : State) (c : BitVec 5) (a : Word) (b : Bool) : (s.trapEntry c a b).fatalCode = s.fatalCode := rfl
@[simp] theorem trapEntry_irqLine (s : State) (c : BitVec 5) (a : Word) (b : Bool) : (s.trapEntry c a b).irqLine = s.irqLine := rfl
@[simp] theorem trapEntry_phase (s : State) (c : BitVec 5) (a : Word) (b : Bool) : (s.trapEntry c a b).phase = s.phase := rfl
@[simp] theorem trapEntry_frameHandler (s : State) (c : BitVec 5) (a : Word) (b : Bool) : (s.trapEntry c a b).frameHandler = s.frameHandler := rfl
@[simp] theorem trapEntry_env (s : State) (c : BitVec 5) (a : Word) (b : Bool) : (s.trapEntry c a b).env = s.env := rfl
@[simp] theorem trapEntry_draws (s : State) (c : BitVec 5) (a : Word) (b : Bool) : (s.trapEntry c a b).draws = s.draws := rfl
@[simp] theorem trapEntry_out (s : State) (c : BitVec 5) (a : Word) (b : Bool) : (s.trapEntry c a b).out = s.out := rfl

/-! ### `popStatus` -/

@[simp] theorem popStatus_gpr (s : State) : s.popStatus.gpr = s.gpr := rfl
@[simp] theorem popStatus_lo (s : State) : s.popStatus.lo = s.lo := rfl
@[simp] theorem popStatus_hi (s : State) : s.popStatus.hi = s.hi := rfl
@[simp] theorem popStatus_sa (s : State) : s.popStatus.sa = s.sa := rfl
@[simp] theorem popStatus_pc (s : State) : s.popStatus.pc = s.pc := rfl
@[simp] theorem popStatus_nextPc (s : State) : s.popStatus.nextPc = s.nextPc := rfl
@[simp] theorem popStatus_branchPending (s : State) : s.popStatus.branchPending = s.branchPending := rfl
@[simp] theorem popStatus_branchTarget (s : State) : s.popStatus.branchTarget = s.branchTarget := rfl
@[simp] theorem popStatus_status (s : State) : s.popStatus.status = popIE s.status := rfl
@[simp] theorem popStatus_excCode (s : State) : s.popStatus.excCode = s.excCode := rfl
@[simp] theorem popStatus_bd (s : State) : s.popStatus.bd = s.bd := rfl
@[simp] theorem popStatus_epc (s : State) : s.popStatus.epc = s.epc := rfl
@[simp] theorem popStatus_waitForIrq (s : State) : s.popStatus.waitForIrq = s.waitForIrq := rfl
@[simp] theorem popStatus_fpr (s : State) : s.popStatus.fpr = s.fpr := rfl
@[simp] theorem popStatus_fcond (s : State) : s.popStatus.fcond = s.fcond := rfl
@[simp] theorem popStatus_icache (s : State) : s.popStatus.icache = s.icache := rfl
@[simp] theorem popStatus_lastDesc (s : State) : s.popStatus.lastDesc = s.lastDesc := rfl
@[simp] theorem popStatus_mdReadyCycle (s : State) : s.popStatus.mdReadyCycle = s.mdReadyCycle := rfl
@[simp] theorem popStatus_ilockCop2 (s : State) : s.popStatus.ilockCop2 = s.ilockCop2 := rfl
@[simp] theorem popStatus_ilockVu (s : State) : s.popStatus.ilockVu = s.ilockVu := rfl
@[simp] theorem popStatus_mem (s : State) : s.popStatus.mem = s.mem := rfl
@[simp] theorem popStatus_sched (s : State) : s.popStatus.sched = s.sched := rfl
@[simp] theorem popStatus_frameComplete (s : State) : s.popStatus.frameComplete = s.frameComplete := rfl
@[simp] theorem popStatus_fatal (s : State) : s.popStatus.fatal = s.fatal := rfl
@[simp] theorem popStatus_fatalCode (s : State) : s.popStatus.fatalCode = s.fatalCode := rfl
@[simp] theorem popStatus_irqLine (s : State) : s.popStatus.irqLine = s.irqLine := rfl
@[simp] theorem popStatus_phase (s : State) : s.popStatus.phase = s.phase := rfl
@[simp] theorem popStatus_frameHandler (s : State) : s.popStatus.frameHandler = s.frameHandler := rfl
@[simp] theorem popStatus_env (s : State) : s.popStatus.env = s.env := rfl
@[simp] theorem popStatus_draws (s : State) : s.popStatus.draws = s.draws := rfl
@[simp] theorem popStatus_out (s : State) : s.popStatus.out = s.out := rfl

/-! ### `memStore` -/

@[simp] theorem memStore_gpr (s : State) (w : Width) (a : Nat) (v : Quad) : (s.memStore w a v).gpr = s.gpr := rfl
@[simp] theorem memStore_lo (s : State) (w : Width) (a : Nat) (v : Quad) : (s.memStore w a v).lo = s.lo := rfl
@[simp] theorem memStore_hi (s : State) (w : Width) (a : Nat) (v : Quad) : (s.memStore w a v).hi = s.hi := rfl
@[simp] theorem memStore_sa (s : State) (w : Width) (a : Nat) (v : Quad) : (s.memStore w a v).sa = s.sa := rfl
@[simp] theorem memStore_pc (s : State) (w : Width) (a : Nat) (v : Quad) : (s.memStore w a v).pc = s.pc := rfl
@[simp] theorem memStore_nextPc (s : State) (w : Width) (a : Nat) (v : Quad) : (s.memStore w a v).nextPc = s.nextPc := rfl
@[simp] theorem memStore_branchPending (s : State) (w : Width) (a : Nat) (v : Quad) : (s.memStore w a v).branchPending = s.branchPending := rfl
@[simp] theorem memStore_branchTarget (s : State) (w : Width) (a : Nat) (v : Quad) : (s.memStore w a v).branchTarget = s.branchTarget := rfl
@[simp] theorem memStore_status (s : State) (w : Width) (a : Nat) (v : Quad) : (s.memStore w a v).status = s.status := rfl
@[simp] theorem memStore_excCode (s : State) (w : Width) (a : Nat) (v : Quad) : (s.memStore w a v).excCode = s.excCode := rfl
@[simp] theorem memStore_bd (s : State) (w : Width) (a : Nat) (v : Quad) : (s.memStore w a v).bd = s.bd := rfl
@[simp] theorem memStore_epc (s : State) (w : Width) (a : Nat) (v : Quad) : (s.memStore w a v).epc = s.epc := rfl
@[simp] theorem memStore_waitForIrq (s : State) (w : Width) (a : Nat) (v : Quad) : (s.memStore w a v).waitForIrq = s.waitForIrq := rfl
@[simp] theorem memStore_fpr (s : State) (w : Width) (a : Nat) (v : Quad) : (s.memStore w a v).fpr = s.fpr := rfl
@[simp] theorem memStore_fcond (s : State) (w : Width) (a : Nat) (v : Quad) : (s.memStore w a v).fcond = s.fcond := rfl
@[simp] theorem memStore_icache (s : State) (w : Width) (a : Nat) (v : Quad) : (s.memStore w a v).icache = s.icache := rfl
@[simp] theorem memStore_lastDesc (s : State) (w : Width) (a : Nat) (v : Quad) : (s.memStore w a v).lastDesc = s.lastDesc := rfl
@[simp] theorem memStore_mdReadyCycle (s : State) (w : Width) (a : Nat) (v : Quad) : (s.memStore w a v).mdReadyCycle = s.mdReadyCycle := rfl
@[simp] theorem memStore_ilockCop2 (s : State) (w : Width) (a : Nat) (v : Quad) : (s.memStore w a v).ilockCop2 = s.ilockCop2 := rfl
@[simp] theorem memStore_ilockVu (s : State) (w : Width) (a : Nat) (v : Quad) : (s.memStore w a v).ilockVu = s.ilockVu := rfl
@[simp] theorem memStore_mem (s : State) (w : Width) (a : Nat) (v : Quad) : (s.memStore w a v).mem = Memory.writeBytes s.mem a (leBytes w.bytes v.toNat) := rfl
@[simp] theorem memStore_sched (s : State) (w : Width) (a : Nat) (v : Quad) : (s.memStore w a v).sched = s.sched := rfl
@[simp] theorem memStore_frameComplete (s : State) (w : Width) (a : Nat) (v : Quad) : (s.memStore w a v).frameComplete = s.frameComplete := rfl
@[simp] theorem memStore_fatal (s : State) (w : Width) (a : Nat) (v : Quad) : (s.memStore w a v).fatal = s.fatal := rfl
@[simp] theorem memStore_fatalCode (s : State) (w : Width) (a : Nat) (v : Quad) : (s.memStore w a v).fatalCode = s.fatalCode := rfl
@[simp] theorem memStore_irqLine (s : State) (w : Width) (a : Nat) (v : Quad) : (s.memStore w a v).irqLine = s.irqLine := rfl
@[simp] theorem memStore_phase (s : State) (w : Width) (a : Nat) (v : Quad) : (s.memStore w a v).phase = s.phase := rfl
@[simp] theorem memStore_frameHandler (s : State) (w : Width) (a : Nat) (v : Quad) : (s.memStore w a v).frameHandler = s.frameHandler := rfl
@[simp] theorem memStore_env (s : State) (w : Width) (a : Nat) (v : Quad) : (s.memStore w a v).env = s.env := rfl
@[simp] theorem memStore_draws (s : State) (w : Width) (a : Nat) (v : Quad) : (s.memStore w a v).draws = s.draws := rfl
@[simp] theorem memStore_out (s : State) (w : Width) (a : Nat) (v : Quad) : (s.memStore w a v).out = s.out := rfl

/-! ### `latchNextPc` -/

@[simp] theorem latchNextPc_gpr (s : State) : s.latchNextPc.gpr = s.gpr := rfl
@[simp] theorem latchNextPc_lo (s : State) : s.latchNextPc.lo = s.lo := rfl
@[simp] theorem latchNextPc_hi (s : State) : s.latchNextPc.hi = s.hi := rfl
@[simp] theorem latchNextPc_sa (s : State) : s.latchNextPc.sa = s.sa := rfl
@[simp] theorem latchNextPc_pc (s : State) : s.latchNextPc.pc = s.pc := rfl
@[simp] theorem latchNextPc_nextPc (s : State) : s.latchNextPc.nextPc = s.pc + 4 := rfl
@[simp] theorem latchNextPc_branchPending (s : State) : s.latchNextPc.branchPending = s.branchPending := rfl
@[simp] theorem latchNextPc_branchTarget (s : State) : s.latchNextPc.branchTarget = s.branchTarget := rfl
@[simp] theorem latchNextPc_status (s : State) : s.latchNextPc.status = s.status := rfl
@[simp] theorem latchNextPc_excCode (s : State) : s.latchNextPc.excCode = s.excCode := rfl
@[simp] theorem latchNextPc_bd (s : State) : s.latchNextPc.bd = s.bd := rfl
@[simp] theorem latchNextPc_epc (s : State) : s.latchNextPc.epc = s.epc := rfl
@[simp] theorem latchNextPc_waitForIrq (s : State) : s.latchNextPc.waitForIrq = s.waitForIrq := rfl
@[simp] theorem latchNextPc_fpr (s : State) : s.latchNextPc.fpr = s.fpr := rfl
@[simp] theorem latchNextPc_fcond (s : State) : s.latchNextPc.fcond = s.fcond := rfl
@[simp] theorem latchNextPc_icache (s : State) : s.latchNextPc.icache = s.icache := rfl
@[simp] theorem latchNextPc_lastDesc (s : State) : s.latchNextPc.lastDesc = s.lastDesc := rfl
@[simp] theorem latchNextPc_mdReadyCycle (s : State) : s.latchNextPc.mdReadyCycle = s.mdReadyCycle := rfl
@[simp] theorem latchNextPc_ilockCop2 (s : State) : s.latchNextPc.ilockCop2 = s.ilockCop2 := rfl
@[simp] theorem latchNextPc_ilockVu (s : State) : s.latchNextPc.ilockVu = s.ilockVu := rfl
@[simp] theorem latchNextPc_mem (s : State) : s.latchNextPc.mem = s.mem := rfl
@[simp] theorem latchNextPc_sched (s : State) : s.latchNextPc.sched = s.sched := rfl
@[simp] theorem latchNextPc_frameComplete (s : State) : s.latchNextPc.frameComplete = s.frameComplete := rfl
@[simp] theorem latchNextPc_fatal (s : State) : s.latchNextPc.fatal = s.fatal := rfl
@[simp] theorem latchNextPc_fatalCode (s : State) : s.latchNextPc.fatalCode = s.fatalCode := rfl
@[simp] theorem latchNextPc_irqLine (s : State) : s.latchNextPc.irqLine = s.irqLine := rfl
@[simp] theorem latchNextPc_phase (s : State) : s.latchNextPc.phase = s.phase := rfl
@[simp] theorem latchNextPc_frameHandler (s : State) : s.latchNextPc.frameHandler = s.frameHandler := rfl
@[simp] theorem latchNextPc_env (s : State) : s.latchNextPc.env = s.env := rfl
@[simp] theorem latchNextPc_draws (s : State) : s.latchNextPc.draws = s.draws := rfl
@[simp] theorem latchNextPc_out (s : State) : s.latchNextPc.out = s.out := rfl

/-! ### `track` -/

@[simp] theorem track_gpr (s : State) (d : Descriptor) (p : Word) : (s.track d p).gpr = s.gpr := rfl
@[simp] theorem track_lo (s : State) (d : Descriptor) (p : Word) : (s.track d p).lo = s.lo := rfl
@[simp] theorem track_hi (s : State) (d : Descriptor) (p : Word) : (s.track d p).hi = s.hi := rfl
@[simp] theorem track_sa (s : State) (d : Descriptor) (p : Word) : (s.track d p).sa = s.sa := rfl
@[simp] theorem track_pc (s : State) (d : Descriptor) (p : Word) : (s.track d p).pc = s.pc := rfl
@[simp] theorem track_nextPc (s : State) (d : Descriptor) (p : Word) : (s.track d p).nextPc = s.nextPc := rfl
@[simp] theorem track_branchPending (s : State) (d : Descriptor) (p : Word) : (s.track d p).branchPending = s.branchPending := rfl
@[simp] theorem track_branchTarget (s : State) (d : Descriptor) (p : Word) : (s.track d p).branchTarget = s.branchTarget := rfl
@[simp] theorem track_status (s : State) (d : Descriptor) (p : Word) : (s.track d p).status = s.status := rfl
@[simp] theorem track_excCode (s : State) (d : Descriptor) (p : Word) : (s.track d p).excCode = s.excCode := rfl
@[simp] theorem track_bd (s : State) (d : Descriptor) (p : Word) : (s.track d p).bd = s.bd := rfl
@[simp] theorem track_epc (s : State) (d : Descriptor) (p : Word) : (s.track d p).epc = s.epc := rfl
@[simp] theorem track_waitForIrq (s : State) (d : Descriptor) (p : Word) : (s.track d p).waitForIrq = s.waitForIrq := rfl
@[simp] theorem track_fpr (s : State) (d : Descriptor) (p : Word) : (s.track d p).fpr = s.fpr := rfl
@[simp] theorem track_fcond (s : State) (d : Descriptor) (p : Word) : (s.track d p).fcond = s.fcond := rfl
@[simp] theorem track_icache (s : State) (d : Descriptor) (p : Word) : (s.track d p).icache = s.icache := rfl
@[simp] theorem track_lastDesc (s : State) (d : Descriptor) (p : Word) : (s.track d p).lastDesc = some d := rfl
@[simp] theorem track_mdReadyCycle (s : State) (d : Descriptor) (p : Word) : (s.track d p).mdReadyCycle = if d.kind = .plain then s.mdReadyCycle else s.now + d.latency := rfl
@[simp] theorem track_ilockCop2 (s : State) (d : Descriptor) (p : Word) : (s.track d p).ilockCop2 = s.ilockCop2 := rfl
@[simp] theorem track_ilockVu (s : State) (d : Descriptor) (p : Word) : (s.track d p).ilockVu = s.ilockVu := rfl
@[simp] theorem track_mem (s : State) (d : Descriptor) (p : Word) : (s.track d p).mem = s.mem := rfl
@[simp] theorem track_sched (s : State) (d : Descriptor) (p : Word) : (s.track d p).sched = s.sched := rfl
@[simp] theorem track_frameComplete (s : State) (d : Descriptor) (p : Word) : (s.track d p).frameComplete = s.frameComplete := rfl
@[simp] theorem track_fatal (s : State) (d : Descriptor) (p : Word) : (s.track d p).fatal = s.fatal := rfl
@[simp] theorem track_fatalCode (s : State) (d : Descriptor) (p : Word) : (s.track d p).fatalCode = s.fatalCode := rfl
@[simp] theorem track_irqLine (s : State) (d : Descriptor) (p : Word) : (s.track d p).irqLine = s.irqLine := rfl
@[simp] theorem track_phase (s : State) (d : Descriptor) (p : Word) : (s.track d p).phase = s.phase := rfl
@[simp] theorem track_frameHandler (s : State) (d : Descriptor) (p : Word) : (s.track d p).frameHandler = s.frameHandler := rfl
@[simp] theorem track_env (s : State) (d : Descriptor) (p : Word) : (s.track d p).env = s.env := rfl
@[simp] theorem track_draws (s : State) (d : Descriptor) (p : Word) : (s.track d p).draws = s.draws := rfl
@[simp] theorem track_out (s : State) (d : Descriptor) (p : Word) : (s.track d p).out = s.hazardRecord d p :: s.out := rfl

/-! ### `startFrame` -/

@[simp] theorem startFrame_gpr (s : State) : s.startFrame.gpr = s.gpr := rfl
@[simp] theorem startFrame_lo (s : State) : s.startFrame.lo = s.lo := rfl
@[simp] theorem startFrame_hi (s : State) : s.startFrame.hi = s.hi := rfl
@[simp] theorem startFrame_sa (s : State) : s.startFrame.sa = s.sa := rfl
@[simp] theorem startFrame_pc (s : State) : s.startFrame.pc = s.pc := rfl
@[simp] theorem startFrame_nextPc (s : State) : s.startFrame.nextPc = s.nextPc := rfl
@[simp] theorem startFrame_branchPending (s : State) : s.startFrame.branchPending = s.branchPending := rfl
@[simp] theorem startFrame_branchTarget (s : State) : s.startFrame.branchTarget = s.branchTarget := rfl
@[simp] theorem startFrame_status (s : State) : s.startFrame.status = s.status := rfl
@[simp] theorem startFrame_excCode (s : State) : s.startFrame.excCode = s.excCode := rfl
@[simp] theorem startFrame_bd (s : State) : s.startFrame.bd = s.bd := rfl
@[simp] theorem startFrame_epc (s : State) : s.startFrame.epc = s.epc := rfl
@[simp] theorem startFrame_waitForIrq (s : State) : s.startFrame.waitForIrq = s.waitForIrq := rfl
@[simp] theorem startFrame_fpr (s : State) : s.startFrame.fpr = s.fpr := rfl
@[simp] theorem startFrame_fcond (s : State) : s.startFrame.fcond = s.fcond := rfl
@[simp] theorem startFrame_icache (s : State) : s.startFrame.icache = s.icache := rfl
@[simp] theorem startFrame_lastDesc (s : State) : s.startFrame.lastDesc = s.lastDesc := rfl
@[simp] theorem startFrame_mdReadyCycle (s : State) : s.startFrame.mdReadyCycle = s.mdReadyCycle := rfl
@[simp] theorem startFrame_ilockCop2 (s : State) : s.startFrame.ilockCop2 = s.ilockCop2 := rfl
@[simp] theorem startFrame_ilockVu (s : State) : s.startFrame.ilockVu = s.ilockVu := rfl
@[simp] theorem startFrame_mem (s : State) : s.startFrame.mem = s.mem := rfl
@[simp] theorem startFrame_sched (s : State) : s.startFrame.sched = s.sched := rfl
@[simp] theorem startFrame_frameComplete (s : State) : s.startFrame.frameComplete = false := rfl
@[simp] theorem startFrame_fatal (s : State) : s.startFrame.fatal = s.fatal := rfl
@[simp] theorem startFrame_fatalCode (s : State) : s.startFrame.fatalCode = s.fatalCode := rfl
@[simp] theorem startFrame_irqLine (s : State) : s.startFrame.irqLine = s.irqLine := rfl
@[simp] theorem startFrame_phase (s : State) : s.startFrame.phase = .frame := rfl
@[simp] theorem startFrame_frameHandler (s : State) : s.startFrame.frameHandler = s.frameHandler := rfl
@[simp] theorem startFrame_env (s : State) : s.startFrame.env = s.env := rfl
@[simp] theorem startFrame_draws (s : State) : s.startFrame.draws = s.draws := rfl
@[simp] theorem startFrame_out (s : State) : s.startFrame.out = s.out := rfl

/-! ### `endSlice` -/

@[simp] theorem endSlice_gpr (s : State) : s.endSlice.gpr = s.gpr := rfl
@[simp] theorem endSlice_lo (s : State) : s.endSlice.lo = s.lo := rfl
@[simp] theorem endSlice_hi (s : State) : s.endSlice.hi = s.hi := rfl
@[simp] theorem endSlice_sa (s : State) : s.endSlice.sa = s.sa := rfl
@[simp] theorem endSlice_pc (s : State) : s.endSlice.pc = s.pc := rfl
@[simp] theorem endSlice_nextPc (s : State) : s.endSlice.nextPc = s.nextPc := rfl
@[simp] theorem endSlice_branchPending (s : State) : s.endSlice.branchPending = s.branchPending := rfl
@[simp] theorem endSlice_branchTarget (s : State) : s.endSlice.branchTarget = s.branchTarget := rfl
@[simp] theorem endSlice_status (s : State) : s.endSlice.status = s.status := rfl
@[simp] theorem endSlice_excCode (s : State) : s.endSlice.excCode = s.excCode := rfl
@[simp] theorem endSlice_bd (s : State) : s.endSlice.bd = s.bd := rfl
@[simp] theorem endSlice_epc (s : State) : s.endSlice.epc = s.epc := rfl
@[simp] theorem endSlice_waitForIrq (s : State) : s.endSlice.waitForIrq = s.waitForIrq := rfl
@[simp] theorem endSlice_fpr (s : State) : s.endSlice.fpr = s.fpr := rfl
@[simp] theorem endSlice_fcond (s : State) : s.endSlice.fcond = s.fcond := rfl
@[simp] theorem endSlice_icache (s : State) : s.endSlice.icache = s.icache := rfl
@[simp] theorem endSlice_lastDesc (s : State) : s.endSlice.lastDesc = s.lastDesc := rfl
@[simp] theorem endSlice_mdReadyCycle (s : State) : s.endSlice.mdReadyCycle = s.mdReadyCycle := rfl
@[simp] theorem endSlice_ilockCop2 (s : State) : s.endSlice.ilockCop2 = s.ilockCop2 := rfl
@[simp] theorem endSlice_ilockVu (s : State) : s.endSlice.ilockVu = s.ilockVu := rfl
@[simp] theorem endSlice_mem (s : State) : s.endSlice.mem = s.mem := rfl
@[simp] theorem endSlice_sched (s : State) : s.endSlice.sched = s.sched := rfl
@[simp] theorem endSlice_frameComplete (s : State) : s.endSlice.frameComplete = s.frameComplete := rfl
@[simp] theorem endSlice_fatal (s : State) : s.endSlice.fatal = s.fatal := rfl
@[simp] theorem endSlice_fatalCode (s : State) : s.endSlice.fatalCode = s.fatalCode := rfl
@[simp] theorem endSlice_irqLine (s : State) : s.endSlice.irqLine = s.irqLine := rfl
@[simp] theorem endSlice_phase (s : State) : s.endSlice.phase = .units unitOrder := rfl
@[simp] theorem endSlice_frameHandler (s : State) : s.endSlice.frameHandler = s.frameHandler := rfl
@[simp] theorem endSlice_env (s : State) : s.endSlice.env = s.env := rfl
@[simp] theorem endSlice_draws (s : State) : s.endSlice.draws = s.draws := rfl
@[simp] theorem endSlice_out (s : State) : s.endSlice.out = s.out := rfl

/-! ### `snapshot` -/

@[simp] theorem snapshot_gpr (s : State) : s.snapshot.gpr = s.gpr := rfl
@[simp] theorem snapshot_lo (s : State) : s.snapshot.lo = s.lo := rfl
@[simp] theorem snapshot_hi (s : State) : s.snapshot.hi = s.hi := rfl
@[simp] theorem snapshot_sa (s : State) : s.snapshot.sa = s.sa := rfl
@[simp] theorem snapshot_pc (s : State) : s.snapshot.pc = s.pc := rfl
@[simp] theorem snapshot_nextPc (s : State) : s.snapshot.nextPc = s.nextPc := rfl
@[simp] theorem snapshot_branchPending (s : State) : s.snapshot.branchPending = s.branchPending := rfl
@[simp] theorem snapshot_branchTarget (s : State) : s.snapshot.branchTarget = s.branchTarget := rfl
@[simp] theorem snapshot_status (s : State) : s.snapshot.status = s.status := rfl
@[simp] theorem snapshot_excCode (s : State) : s.snapshot.excCode = s.excCode := rfl
@[simp] theorem snapshot_bd (s : State) : s.snapshot.bd = s.bd := rfl
@[simp] theorem snapshot_epc (s : State) : s.snapshot.epc = s.epc := rfl
@[simp] theorem snapshot_waitForIrq (s : State) : s.snapshot.waitForIrq = s.waitForIrq := rfl
@[simp] theorem snapshot_fpr (s : State) : s.snapshot.fpr = s.fpr := rfl
@[simp] theorem snapshot_fcond (s : State) : s.snapshot.fcond = s.fcond := rfl
@[simp] theorem snapshot_icache (s : State) : s.snapshot.icache = s.icache := rfl
@[simp] theorem snapshot_lastDesc (s : State) : s.snapshot.lastDesc = s.lastDesc := rfl
@[simp] theorem snapshot_mdReadyCycle (s : State) : s.snapshot.mdReadyCycle = s.mdReadyCycle := rfl
@[simp] theorem snapshot_ilockCop2 (s : State) : s.snapshot.ilockCop2 = s.ilockCop2 := rfl
@[simp] theorem snapshot_ilockVu (s : State) : s.snapshot.ilockVu = s.ilockVu := rfl
@[simp] theorem snapshot_mem (s : State) : s.snapshot.mem = s.mem := rfl
@[simp] theorem snapshot_sched (s : State) : s.snapshot.sched = s.sched := rfl
@[simp] theorem snapshot_frameComplete (s : State) : s.snapshot.frameComplete = s.frameComplete := rfl
@[simp] theorem snapshot_fatal (s : State) : s.snapshot.fatal = s.fatal := rfl
@[simp] theorem snapshot_fatalCode (s : State) : s.snapshot.fatalCode = s.fatalCode := rfl
@[simp] theorem snapshot_irqLine (s : State) : s.snapshot.irqLine = s.irqLine := rfl
@[simp] theorem snapshot_phase (s : State) : s.snapshot.phase = .firing s.sched.dueNow := rfl
@[simp] theorem snapshot_frameHandler (s : State) : s.snapshot.frameHandler = s.frameHandler := rfl
@[simp] theorem snapshot_env (s : State) : s.snapshot.env = s.env := rfl
@[simp] theorem snapshot_draws (s : State) : s.snapshot.draws = s.draws := rfl
@[simp] theorem snapshot_out (s : State) : s.snapshot.out = s.out := rfl

/-! ### `endIteration` -/

@[simp] theorem endIteration_gpr (s : State) : s.endIteration.gpr = s.gpr := rfl
@[simp] theorem endIteration_lo (s : State) : s.endIteration.lo = s.lo := rfl
@[simp] theorem endIteration_hi (s : State) : s.endIteration.hi = s.hi := rfl
@[simp] theorem endIteration_sa (s : State) : s.endIteration.sa = s.sa := rfl
@[simp] theorem endIteration_pc (s : State) : s.endIteration.pc = s.pc := rfl
@[simp] theorem endIteration_nextPc (s : State) : s.endIteration.nextPc = s.nextPc := rfl
@[simp] theorem endIteration_branchPending (s : State) : s.endIteration.branchPending = s.branchPending := rfl
@[simp] theorem endIteration_branchTarget (s : State) : s.endIteration.branchTarget = s.branchTarget := rfl
@[simp] theorem endIteration_status (s : State) : s.endIteration.status = s.status := rfl
@[simp] theorem endIteration_excCode (s : State) : s.endIteration.excCode = s.excCode := rfl
@[simp] theorem endIteration_bd (s : State) : s.endIteration.bd = s.bd := rfl
@[simp] theorem endIteration_epc (s : State) : s.endIteration.epc = s.epc := rfl
@[simp] theorem endIteration_waitForIrq (s : State) : s.endIteration.waitForIrq = s.waitForIrq := rfl
@[simp] theorem endIteration_fpr (s : State) : s.endIteration.fpr = s.fpr := rfl
@[simp] theorem endIteration_fcond (s : State) : s.endIteration.fcond = s.fcond := rfl
@[simp] theorem endIteration_icache (s : State) : s.endIteration.icache = s.icache := rfl
@[simp] theorem endIteration_lastDesc (s : State) : s.endIteration.lastDesc = s.lastDesc := rfl
@[simp] theorem endIteration_mdReadyCycle (s : State) : s.endIteration.mdReadyCycle = s.mdReadyCycle := rfl
@[simp] theorem endIteration_ilockCop2 (s : State) : s.endIteration.ilockCop2 = s.ilockCop2 := rfl
@[simp] theorem endIteration_ilockVu (s : State) : s.endIteration.ilockVu = s.ilockVu := rfl
@[simp] theorem endIteration_mem (s : State) : s.endIteration.mem = s.mem := rfl
@[simp] theorem endIteration_sched (s : State) : s.endIteration.sched = s.sched := rfl
@[simp] theorem endIteration_frameComplete (s : State) : s.endIteration.frameComplete = s.frameComplete := rfl
@[simp] theorem endIteration_fatal (s : State) : s.endIteration.fatal = s.fatal := rfl
@[simp] theorem endIteration_fatalCode (s : State) : s.endIteration.fatalCode = s.fatalCode := rfl
@[simp] theorem endIteration_irqLine (s : State) : s.endIteration.irqLine = s.irqLine := rfl
@[simp] theorem endIteration_phase (s : State) : s.endIteration.phase = if s.frameComplete then .idle else .frame := rfl
@[simp] theorem endIteration_frameHandler (s : State) : s.endIteration.frameHandler = s.frameHandler := rfl
@[simp] theorem endIteration_env (s : State) : s.endIteration.env = s.env := rfl
@[simp] theorem endIteration_draws (s : State) : s.endIteration.draws = s.draws := rfl
@[simp] theorem endIteration_out (s : State) : s.endIteration.out = s.out := rfl

/-! ### `charge` -/

@[simp] theorem charge_gpr (s : State) : s.charge.gpr = s.gpr := by
  unfold State.charge; split <;> rfl
@[simp] theorem charge_lo (s : State) : s.charge.lo = s.lo := by
  unfold State.charge; split <;> rfl
@[simp] theorem charge_hi (s : State) : s.charge.hi = s.hi := by
  unfold State.charge; split <;> rfl
@[simp] theorem charge_sa (s : State) : s.charge.sa = s.sa := by
  unfold State.charge; split <;> rfl
@[simp] theorem charge_pc (s : State) : s.charge.pc = s.pc := by
  unfold State.charge; split <;> rfl
@[simp] theorem charge_nextPc (s : State) : s.charge.nextPc = s.nextPc := by
  unfold State.charge; split <;> rfl
@[simp] theorem charge_branchPending (s : State) : s.charge.branchPending = s.branchPending := by
  unfold State.charge; split <;> rfl
@[simp] theorem charge_branchTarget (s : State) : s.charge.branchTarget = s.branchTarget := by
  unfold State.charge; split <;> rfl
@[simp] theorem charge_status (s : State) : s.charge.status = s.status := by
  unfold State.charge; split <;> rfl
@[simp] theorem charge_excCode (s : State) : s.charge.excCode = s.excCode := by
  unfold State.charge; split <;> rfl
@[simp] theorem charge_bd (s : State) : s.charge.bd = s.bd := by
  unfold State.charge; split <;> rfl
@[simp] theorem charge_epc (s : State) : s.charge.epc = s.epc := by
  unfold State.charge; split <;> rfl
@[simp] theorem charge_waitForIrq (s : State) : s.charge.waitForIrq = s.waitForIrq := by
  unfold State.charge; split <;> rfl
@[simp] theorem charge_fpr (s : State) : s.charge.fpr = s.fpr := by
  unfold State.charge; split <;> rfl
@[simp] theorem charge_fcond (s : State) : s.charge.fcond = s.fcond := by
  unfold State.charge; split <;> rfl
@[simp] theorem charge_icache (s : State) : s.charge.icache = s.icache := by
  unfold State.charge; split <;> rfl
@[simp] theorem charge_lastDesc (s : State) : s.charge.lastDesc = s.lastDesc := by
  unfold State.charge; split <;> rfl
@[simp] theorem charge_mdReadyCycle (s : State) : s.charge.mdReadyCycle = s.mdReadyCycle := by
  unfold State.charge; split <;> rfl
@[simp] theorem charge_ilockCop2 (s : State) : s.charge.ilockCop2 = s.ilockCop2 := by
  unfold State.charge; split <;> rfl
@[simp] theorem charge_ilockVu (s : State) : s.charge.ilockVu = s.ilockVu := by
  unfold State.charge; split <;> rfl
@[simp] theorem charge_mem (s : State) : s.charge.mem = s.mem := by
  unfold State.charge; split <;> rfl
@[simp] theorem charge_sched (s : State) : s.charge.sched = s.sched := by
  unfold State.charge; split <;> rfl
@[simp] theorem charge_frameComplete (s : State) : s.charge.frameComplete = s.frameComplete := by
  unfold State.charge; split <;> rfl
@[simp] theorem charge_fatal (s : State) : s.charge.fatal = s.fatal := by
  unfold State.charge; split <;> rfl
@[simp] theorem charge_fatalCode (s : State) : s.charge.fatalCode = s.fatalCode := by
  unfold State.charge; split <;> rfl
@[simp] theorem charge_irqLine (s : State) : s.charge.irqLine = s.irqLine := by
  unfold State.charge; split <;> rfl
@[simp] theorem charge_frameHandler (s : State) : s.charge.frameHandler = s.frameHandler := by
  unfold State.charge; split <;> rfl
@[simp] theorem charge_env (s : State) : s.charge.env = s.env := by
  unfold State.charge; split <;> rfl
@[simp] theorem charge_draws (s : State) : s.charge.draws = s.draws := by
  unfold State.charge; split <;> rfl
@[simp] theorem charge_out (s : State) : s.charge.out = s.out := by
  unfold State.charge; split <;> rfl

/-! ### `irqSet` -/

@[simp] theorem irqSet_gpr (s : State) (i : Nat) (l : Bool) : (s.irqSet i l).gpr = s.gpr := by
  unfold State.irqSet; split <;> rfl
@[simp] theorem irqSet_lo (s : State) (i : Nat) (l : Bool) : (s.irqSet i l).lo = s.lo := by
  unfold State.irqSet; split <;> rfl
@[simp] theorem irqSet_hi (s : State) (i : Nat) (l : Bool) : (s.irqSet i l).hi = s.hi := by
  unfold State.irqSet; split <;> rfl
@[simp] theorem irqSet_sa (s : State) (i : Nat) (l : Bool) : (s.irqSet i l).sa = s.sa := by
  unfold State.irqSet; split <;> rfl
@[simp] theorem irqSet_pc (s : State) (i : Nat) (l : Bool) : (s.irqSet i l).pc = s.pc := by
  unfold State.irqSet; split <;> rfl
@[simp] theorem irqSet_nextPc (s : State) (i : Nat) (l : Bool) : (s.irqSet i l).nextPc = s.nextPc := by
  unfold State.irqSet; split <;> rfl
@[simp] theorem irqSet_branchPending (s : State) (i : Nat) (l : Bool) : (s.irqSet i l).branchPending = s.branchPending := by
  unfold State.irqSet; split <;> rfl
@[simp] theorem irqSet_branchTarget (s : State) (i : Nat) (l : Bool) : (s.irqSet i l).branchTarget = s.branchTarget := by
  unfold State.irqSet; split <;> rfl
@[simp] theorem irqSet_status (s : State) (i : Nat) (l : Bool) : (s.irqSet i l).status = s.status := by
  unfold State.irqSet; split <;> rfl
@[simp] theorem irqSet_excCode (s : State) (i : Nat) (l : Bool) : (s.irqSet i l).excCode = s.excCode := by
  unfold State.irqSet; split <;> rfl
@[simp] theorem irqSet_bd (s : State) (i : Nat) (l : Bool) : (s.irqSet i l).bd = s.bd := by
  unfold State.irqSet; split <;> rfl
@[simp] theorem irqSet_epc (s : State) (i : Nat) (l : Bool) : (s.irqSet i l).epc = s.epc := by
  unfold State.irqSet; split <;> rfl
@[simp] theorem irqSet_waitForIrq (s : State) (i : Nat) (l : Bool) : (s.irqSet i l).waitForIrq = s.waitForIrq := by
  unfold State.irqSet; split <;> rfl
@[simp] theorem irqSet_fpr (s : State) (i : Nat) (l : Bool) : (s.irqSet i l).fpr = s.fpr := by
  unfold State.irqSet; split <;> rfl
@[simp] theorem irqSet_fcond (s : State) (i : Nat) (l : Bool) : (s.irqSet i l).fcond = s.fcond := by
  unfold State.irqSet; split <;> rfl
@[simp] theorem irqSet_icache (s : State) (i : Nat) (l : Bool) : (s.irqSet i l).icache = s.icache := by
  unfold State.irqSet; split <;> rfl
@[simp] theorem irqSet_lastDesc (s : State) (i : Nat) (l : Bool) : (s.irqSet i l).lastDesc = s.lastDesc := by
  unfold State.irqSet; split <;> rfl
@[simp] theorem irqSet_mdReadyCycle (s : State) (i : Nat) (l : Bool) : (s.irqSet i l).mdReadyCycle = s.mdReadyCycle := by
  unfold State.irqSet; split <;> rfl
@[simp] theorem irqSet_ilockCop2 (s : State) (i : Nat) (l : Bool) : (s.irqSet i l).ilockCop2 = s.ilockCop2 := by
  unfold State.irqSet; split <;> rfl
@[simp] theorem irqSet_ilockVu (s : State) (i : Nat) (l : Bool) : (s.irqSet i l).ilockVu = s.ilockVu := by
  unfold State.irqSet; split <;> rfl
@[simp] theorem irqSet_mem (s : State) (i : Nat) (l : Bool) : (s.irqSet i l).mem = s.mem := by
  unfold State.irqSet; split <;> rfl
@[simp] theorem irqSet_sched (s : State) (i : Nat) (l : Bool) : (s.irqSet i l).sched = s.sched := by
  unfold State.irqSet; split <;> rfl
@[simp] theorem irqSet_frameComplete (s : State) (i : Nat) (l : Bool) : (s.irqSet i l).frameComplete = s.frameComplete := by
  unfold State.irqSet; split <;> rfl
@[simp] theorem irqSet_fatal (s : State) (i : Nat) (l : Bool) : (s.irqSet i l).fatal = s.fatal := by
  unfold State.irqSet; split <;> rfl
@[simp] theorem irqSet_fatalCode (s : State) (i : Nat) (l : Bool) : (s.irqSet i l).fatalCode = s.fatalCode := by
  unfold State.irqSet; split <;> rfl
@[simp] theorem irqSet_phase (s : State) (i : Nat) (l : Bool) : (s.irqSet i l).phase = s.phase := by
  unfold State.irqSet; split <;> rfl
@[simp] theorem irqSet_frameHandler (s : State) (i : Nat) (l : Bool) : (s.irqSet i l).frameHandler = s.frameHandler := by
  unfold State.irqSet; split <;> rfl
@[simp] theorem irqSet_env (s : State) (i : Nat) (l : Bool) : (s.irqSet i l).env = s.env := by
  unfold State.irqSet; split <;> rfl
@[simp] theorem irqSet_draws (s : State) (i : Nat) (l : Bool) : (s.irqSet i l).draws = s.draws := by
  unfold State.irqSet; split <;> rfl
@[simp] theorem irqSet_out (s : State) (i : Nat) (l : Bool) : (s.irqSet i l).out = s.out := by
  unfold State.irqSet; split <;> rfl

/-! ### `takeAnswer` -/

@[simp] theorem takeAnswer_gpr (s : State) : s.takeAnswer.gpr = s.gpr := by
  unfold State.takeAnswer; split <;> rfl
@[simp] theorem takeAnswer_lo (s : State) : s.takeAnswer.lo = s.lo := by
  unfold State.takeAnswer; split <;> rfl
@[simp] theorem takeAnswer_hi (s : State) : s.takeAnswer.hi = s.hi := by
  unfold State.takeAnswer; split <;> rfl
@[simp] theorem takeAnswer_sa (s : State) : s.takeAnswer.sa = s.sa := by
  unfold State.takeAnswer; split <;> rfl
@[simp] theorem takeAnswer_pc (s : State) : s.takeAnswer.pc = s.pc := by
  unfold State.takeAnswer; split <;> rfl
@[simp] theorem takeAnswer_nextPc (s : State) : s.takeAnswer.nextPc = s.nextPc := by
  unfold State.takeAnswer; split <;> rfl
@[simp] theorem takeAnswer_branchPending (s : State) : s.takeAnswer.branchPending = s.branchPending := by
  unfold State.takeAnswer; split <;> rfl
@[simp] theorem takeAnswer_branchTarget (s : State) : s.takeAnswer.branchTarget = s.branchTarget := by
  unfold State.takeAnswer; split <;> rfl
@[simp] theorem takeAnswer_status (s : State) : s.takeAnswer.status = s.status := by
  unfold State.takeAnswer; split <;> rfl
@[simp] theorem takeAnswer_excCode (s : State) : s.takeAnswer.excCode = s.excCode := by
  unfold State.takeAnswer; split <;> rfl
@[simp] theorem takeAnswer_bd (s : State) : s.takeAnswer.bd = s.bd := by
  unfold State.takeAnswer; split <;> rfl
@[simp] theorem takeAnswer_epc (s : State) : s.takeAnswer.epc = s.epc := by
  unfold State.takeAnswer; split <;> rfl
@[simp] theorem takeAnswer_waitForIrq (s : State) : s.takeAnswer.waitForIrq = s.waitForIrq := by
  unfold State.takeAnswer; split <;> rfl
@[simp] theorem takeAnswer_fpr (s : State) : s.takeAnswer.fpr = s.fpr := by
  unfold State.takeAnswer; split <;> rfl
@[simp] theorem takeAnswer_fcond (s : State) : s.takeAnswer.fcond = s.fcond := by
  unfold State.takeAnswer; split <;> rfl
@[simp] theorem takeAnswer_icache (s : State) : s.takeAnswer.icache = s.icache := by
  unfold State.takeAnswer; split <;> rfl
@[simp] theorem takeAnswer_lastDesc (s : State) : s.takeAnswer.lastDesc = s.lastDesc := by
  unfold State.takeAnswer; split <;> rfl
@[simp] theorem takeAnswer_mdReadyCycle (s : State) : s.takeAnswer.mdReadyCycle = s.mdReadyCycle := by
  unfold State.takeAnswer; split <;> rfl
@[simp] theorem takeAnswer_ilockCop2 (s : State) : s.takeAnswer.ilockCop2 = s.ilockCop2 := by
  unfold State.takeAnswer; split <;> rfl
@[simp] theorem takeAnswer_ilockVu (s : State) : s.takeAnswer.ilockVu = s.ilockVu := by
  unfold State.takeAnswer; split <;> rfl
@[simp] theorem takeAnswer_mem (s : State) : s.takeAnswer.mem = s.mem := by
  unfold State.takeAnswer; split <;> rfl
@[simp] theorem takeAnswer_sched (s : State) : s.takeAnswer.sched = s.sched := by
  unfold State.takeAnswer; split <;> rfl
@[simp] theorem takeAnswer_frameComplete (s : State) : s.takeAnswer.frameComplete = s.frameComplete := by
  unfold State.takeAnswer; split <;> rfl
@[simp] theorem takeAnswer_fatal (s : State) : s.takeAnswer.fatal = s.fatal := by
  unfold State.takeAnswer; split <;> rfl
@[simp] theorem takeAnswer_fatalCode (s : State) : s.takeAnswer.fatalCode = s.fatalCode := by
  unfold State.takeAnswer; split <;> rfl
@[simp] theorem takeAnswer_irqLine (s : State) : s.takeAnswer.irqLine = s.irqLine := by
  unfold State.takeAnswer; split <;> rfl
@[simp] theorem takeAnswer_phase (s : State) : s.takeAnswer.phase = s.phase := by
  unfold State.takeAnswer; split <;> rfl
@[simp] theorem takeAnswer_frameHandler (s : State) : s.takeAnswer.frameHandler = s.frameHandler := by
  unfold State.takeAnswer; split <;> rfl
@[simp] theorem takeAnswer_out (s : State) : s.takeAnswer.out = s.out := by
  unfold State.takeAnswer; split <;> rfl

/-! ### `setIlock` -/

@[simp] theorem setIlock_gpr (s : State) (x : IlockSide) : (s.setIlock x).gpr = s.gpr := by
  cases x <;> rfl
@[simp] theorem setIlock_lo (s : State) (x : IlockSide) : (s.setIlock x).lo = s.lo := by
  cases x <;> rfl
@[simp] theorem setIlock_hi (s : State) (x : IlockSide) : (s.setIlock x).hi = s.hi := by
  cases x <;> rfl
@[simp] theorem setIlock_sa (s : State) (x : IlockSide) : (s.setIlock x).sa = s.sa := by
  cases x <;> rfl
@[simp] theorem setIlock_pc (s : State) (x : IlockSide) : (s.setIlock x).pc = s.pc := by
  cases x <;> rfl
@[simp] theorem setIlock_nextPc (s : State) (x : IlockSide) : (s.setIlock x).nextPc = s.nextPc := by
  cases x <;> rfl
@[simp] theorem setIlock_branchPending (s : State) (x : IlockSide) : (s.setIlock x).branchPending = s.branchPending := by
  cases x <;> rfl
@[simp] theorem setIlock_branchTarget (s : State) (x : IlockSide) : (s.setIlock x).branchTarget = s.branchTarget := by
  cases x <;> rfl
@[simp] theorem setIlock_status (s : State) (x : IlockSide) : (s.setIlock x).status = s.status := by
  cases x <;> rfl
@[simp] theorem setIlock_excCode (s : State) (x : IlockSide) : (s.setIlock x).excCode = s.excCode := by
  cases x <;> rfl
@[simp] theorem setIlock_bd (s : State) (x : IlockSide) : (s.setIlock x).bd = s.bd := by
  cases x <;> rfl
@[simp] theorem setIlock_epc (s : State) (x : IlockSide) : (s.setIlock x).epc = s.epc := by
  cases x <;> rfl
@[simp] theorem setIlock_waitForIrq (s : State) (x : IlockSide) : (s.setIlock x).waitForIrq = s.waitForIrq := by
  cases x <;> rfl
@[simp] theorem setIlock_fpr (s : State) (x : IlockSide) : (s.setIlock x).fpr = s.fpr := by
  cases x <;> rfl
@[simp] theorem setIlock_fcond (s : State) (x : IlockSide) : (s.setIlock x).fcond = s.fcond := by
  cases x <;> rfl
@[simp] theorem setIlock_icache (s : State) (x : IlockSide) : (s.setIlock x).icache = s.icache := by
  cases x <;> rfl
@[simp] theorem setIlock_lastDesc (s : State) (x : IlockSide) : (s.setIlock x).lastDesc = s.lastDesc := by
  cases x <;> rfl
@[simp] theorem setIlock_mdReadyCycle (s : State) (x : IlockSide) : (s.setIlock x).mdReadyCycle = s.mdReadyCycle := by
  cases x <;> rfl
@[simp] theorem setIlock_mem (s : State) (x : IlockSide) : (s.setIlock x).mem = s.mem := by
  cases x <;> rfl
@[simp] theorem setIlock_sched (s : State) (x : IlockSide) : (s.setIlock x).sched = s.sched := by
  cases x <;> rfl
@[simp] theorem setIlock_frameComplete (s : State) (x : IlockSide) : (s.setIlock x).frameComplete = s.frameComplete := by
  cases x <;> rfl
@[simp] theorem setIlock_fatal (s : State) (x : IlockSide) : (s.setIlock x).fatal = s.fatal := by
  cases x <;> rfl
@[simp] theorem setIlock_fatalCode (s : State) (x : IlockSide) : (s.setIlock x).fatalCode = s.fatalCode := by
  cases x <;> rfl
@[simp] theorem setIlock_irqLine (s : State) (x : IlockSide) : (s.setIlock x).irqLine = s.irqLine := by
  cases x <;> rfl
@[simp] theorem setIlock_phase (s : State) (x : IlockSide) : (s.setIlock x).phase = s.phase := by
  cases x <;> rfl
@[simp] theorem setIlock_frameHandler (s : State) (x : IlockSide) : (s.setIlock x).frameHandler = s.frameHandler := by
  cases x <;> rfl
@[simp] theorem setIlock_env (s : State) (x : IlockSide) : (s.setIlock x).env = s.env := by
  cases x <;> rfl
@[simp] theorem setIlock_draws (s : State) (x : IlockSide) : (s.setIlock x).draws = s.draws := by
  cases x <;> rfl
@[simp] theorem setIlock_out (s : State) (x : IlockSide) : (s.setIlock x).out = s.out := by
  cases x <;> rfl

/-! ### `advance` -/

@[simp] theorem advance_gpr (s : State) (o : Completion) : (s.advance o).gpr = s.gpr := by
  cases o <;> first | rfl | (simp only [State.advance]; split <;> rfl)
@[simp] theorem advance_lo (s : State) (o : Completion) : (s.advance o).lo = s.lo := by
  cases o <;> first | rfl | (simp only [State.advance]; split <;> rfl)
@[simp] theorem advance_hi (s : State) (o : Completion) : (s.advance o).hi = s.hi := by
  cases o <;> first | rfl | (simp only [State.advance]; split <;> rfl)
@[simp] theorem advance_sa (s : State) (o : Completion) : (s.advance o).sa = s.sa := by
  cases o <;> first | rfl | (simp only [State.advance]; split <;> rfl)
@[simp] theorem advance_nextPc (s : State) (o : Completion) : (s.advance o).nextPc = s.nextPc := by
  cases o <;> first | rfl | (simp only [State.advance]; split <;> rfl)
@[simp] theorem advance_fpr (s : State) (o : Completion) : (s.advance o).fpr = s.fpr := by
  cases o <;> first | rfl | (simp only [State.advance]; split <;> rfl)
@[simp] theorem advance_fcond (s : State) (o : Completion) : (s.advance o).fcond = s.fcond := by
  cases o <;> first | rfl | (simp only [State.advance]; split <;> rfl)
@[simp] theorem advance_icache (s : State) (o : Completion) : (s.advance o).icache = s.icache := by
  cases o <;> first | rfl | (simp only [State.advance]; split <;> rfl)
@[simp] theorem advance_mdReadyCycle (s : State) (o : Completion) : (s.advance o).mdReadyCycle = s.mdReadyCycle := by
  cases o <;> first | rfl | (simp only [State.advance]; split <;> rfl)
@[simp] theorem advance_ilockCop2 (s : State) (o : Completion) : (s.advance o).ilockCop2 = s.ilockCop2 := by
  cases o <;> first | rfl | (simp only [State.advance]; split <;> rfl)
@[simp] theorem advance_ilockVu (s : State) (o : Completion) : (s.advance o).ilockVu = s.ilockVu := by
  cases o <;> first | rfl | (simp only [State.advance]; split <;> rfl)
@[simp] theorem advance_mem (s : State) (o : Completion) : (s.advance o).mem = s.mem := by
  cases o <;> first | rfl | (simp only [State.advance]; split <;> rfl)
@[simp] theorem advance_sched (s : State) (o : Completion) : (s.advance o).sched = s.sched := by
  cases o <;> first | rfl | (simp only [State.advance]; split <;> rfl)
@[simp] theorem advance_frameComplete (s : State) (o : Completion) : (s.advance o).frameComplete = s.frameComplete := by
  cases o <;> first | rfl | (simp only [State.advance]; split <;> rfl)
@[simp] theorem advance_irqLine (s : State) (o : Completion) : (s.advance o).irqLine = s.irqLine := by
  cases o <;> first | rfl | (simp only [State.advance]; split <;> rfl)
@[simp] theorem advance_phase (s : State) (o : Completion) : (s.advance o).phase = s.phase := by
  cases o <;> first | rfl | (simp only [State.advance]; split <;> rfl)
@[simp] theorem advance_frameHandler (s : State) (o : Completion) : (s.advance o).frameHandler = s.frameHandler := by
  cases o <;> first | rfl | (simp only [State.advance]; split <;> rfl)
@[simp] theorem advance_env (s : State) (o : Completion) : (s.advance o).env = s.env := by
  cases o <;> first | rfl | (simp only [State.advance]; split <;> rfl)
@[simp] theorem advance_draws (s : State) (o : Completion) : (s.advance o).draws = s.draws := by
  cases o <;> first | rfl | (simp only [State.advance]; split <;> rfl)

/-! ### `hazardTrack` -/

@[simp] theorem hazardTrack_gpr (s : State) (d : Descriptor) (o : Completion) (p : Word) : (s.hazardTrack d o p).gpr = s.gpr := by
  cases o <;> rfl
@[simp] theorem hazardTrack_lo (s : State) (d : Descriptor) (o : Completion) (p : Word) : (s.hazardTrack d o p).lo = s.lo := by
  cases o <;> rfl
@[simp] theorem hazardTrack_hi (s : State) (d : Descriptor) (o : Completion) (p : Word) : (s.hazardTrack d o p).hi = s.hi := by
  cases o <;> rfl
@[simp] theorem hazardTrack_sa (s : State) (d : Descriptor) (o : Completion) (p : Word) : (s.hazardTrack d o p).sa = s.sa := by
  cases o <;> rfl
@[simp] theorem hazardTrack_pc (s : State) (d : Descriptor) (o : Completion) (p : Word) : (s.hazardTrack d o p).pc = s.pc := by
  cases o <;> rfl
@[simp] theorem hazardTrack_nextPc (s : State) (d : Descriptor) (o : Completion) (p : Word) : (s.hazardTrack d o p).nextPc = s.nextPc := by
  cases o <;> rfl
@[simp] theorem hazardTrack_branchPending (s : State) (d : Descriptor) (o : Completion) (p : Word) : (s.hazardTrack d o p).branchPending = s.branchPending := by
  cases o <;> rfl
@[simp] theorem hazardTrack_branchTarget (s : State) (d : Descriptor) (o : Completion) (p : Word) : (s.hazardTrack d o p).branchTarget = s.branchTarget := by
  cases o <;> rfl
@[simp] theorem hazardTrack_status (s : State) (d : Descriptor) (o : Completion) (p : Word) : (s.hazardTrack d o p).status = s.status := by
  cases o <;> rfl
@[simp] theorem hazardTrack_excCode (s : State) (d : Descriptor) (o : Completion) (p : Word) : (s.hazardTrack d o p).excCode = s.excCode := by
  cases o <;> rfl
@[simp] theorem hazardTrack_bd (s : State) (d : Descriptor) (o : Completion) (p : Word) : (s.hazardTrack d o p).bd = s.bd := by
  cases o <;> rfl
@[simp] theorem hazardTrack_epc (s : State) (d : Descriptor) (o : Completion) (p : Word) : (s.hazardTrack d o p).epc = s.epc := by
  cases o <;> rfl
@[simp] theorem hazardTrack_waitForIrq (s : State) (d : Descriptor) (o : Completion) (p : Word) : (s.hazardTrack d o p).waitForIrq = s.waitForIrq := by
  cases o <;> rfl
@[simp] theorem hazardTrack_fpr (s : State) (d : Descriptor) (o : Completion) (p : Word) : (s.hazardTrack d o p).fpr = s.fpr := by
  cases o <;> rfl
@[simp] theorem hazardTrack_fcond (s : State) (d : Descriptor) (o : Completion) (p : Word) : (s.hazardTrack d o p).fcond = s.fcond := by
  cases o <;> rfl
@[simp] theorem hazardTrack_icache (s : State) (d : Descriptor) (o : Completion) (p : Word) : (s.hazardTrack d o p).icache = s.icache := by
  cases o <;> rfl
@[simp] theorem hazardTrack_ilockCop2 (s : State) (d : Descriptor) (o : Completion) (p : Word) : (s.hazardTrack d o p).ilockCop2 = s.ilockCop2 := by
  cases o <;> rfl
@[simp] theorem hazardTrack_ilockVu (s : State) (d : Descriptor) (o : Completion) (p : Word) : (s.hazardTrack d o p).ilockVu = s.ilockVu := by
  cases o <;> rfl
@[simp] theorem hazardTrack_mem (s : State) (d : Descriptor) (o : Completion) (p : Word) : (s.hazardTrack d o p).mem = s.mem := by
  cases o <;> rfl
@[simp] theorem hazardTrack_sched (s : State) (d : Descriptor) (o : Completion) (p : Word) : (s.hazardTrack d o p).sched = s.sched := by
  cases o <;> rfl
@[simp] theorem hazardTrack_frameComplete (s : State) (d : Descriptor) (o : Completion) (p : Word) : (s.hazardTrack d o p).frameComplete = s.frameComplete := by
  cases o <;> rfl
@[simp] theorem hazardTrack_fatal (s : State) (d : Descriptor) (o : Completion) (p : Word) : (s.hazardTrack d o p).fatal = s.fatal := by
  cases o <;> rfl
@[simp] theorem hazardTrack_fatalCode (s : State) (d : Descriptor) (o : Completion) (p : Word) : (s.hazardTrack d o p).fatalCode = s.fatalCode := by
  cases o <;> rfl
@[simp] theorem hazardTrack_irqLine (s : State) (d : Descriptor) (o : Completion) (p : Word) : (s.hazardTrack d o p).irqLine = s.irqLine := by
  cases o <;> rfl
@[simp] theorem hazardTrack_phase (s : State) (d : Descriptor) (o : Completion) (p : Word) : (s.hazardTrack d o p).phase = s.phase := by
  cases o <;> rfl
@[simp] theorem hazardTrack_frameHandler (s : State) (d : Descriptor) (o : Completion) (p : Word) : (s.hazardTrack d o p).frameHandler = s.frameHandler := by
  cases o <;> rfl
@[simp] theorem hazardTrack_env (s : State) (d : Descriptor) (o : Completion) (p : Word) : (s.hazardTrack d o p).env = s.env := by
  cases o <;> rfl
@[simp] theorem hazardTrack_draws (s : State) (d : Descriptor) (o : Completion) (p : Word) : (s.hazardTrack d o p).draws = s.draws := by
  cases o <;> rfl

/-! ### `retire` -/

@[simp] theorem retire_gpr (s : State) (d : Descriptor) (o : Completion) : (s.retire d o).gpr = s.gpr := by
  simp [State.retire]
@[simp] theorem retire_lo (s : State) (d : Descriptor) (o : Completion) : (s.retire d o).lo = s.lo := by
  simp [State.retire]
@[simp] theorem retire_hi (s : State) (d : Descriptor) (o : Completion) : (s.retire d o).hi = s.hi := by
  simp [State.retire]
@[simp] theorem retire_sa (s : State) (d : Descriptor) (o : Completion) : (s.retire d o).sa = s.sa := by
  simp [State.retire]
@[simp] theorem retire_nextPc (s : State) (d : Descriptor) (o : Completion) : (s.retire d o).nextPc = s.nextPc := by
  simp [State.retire]
@[simp] theorem retire_fpr (s : State) (d : Descriptor) (o : Completion) : (s.retire d o).fpr = s.fpr := by
  simp [State.retire]
@[simp] theorem retire_fcond (s : State) (d : Descriptor) (o : Completion) : (s.retire d o).fcond = s.fcond := by
  simp [State.retire]
@[simp] theorem retire_icache (s : State) (d : Descriptor) (o : Completion) : (s.retire d o).icache = s.icache := by
  simp [State.retire]
@[simp] theorem retire_ilockCop2 (s : State) (d : Descriptor) (o : Completion) : (s.retire d o).ilockCop2 = s.ilockCop2 := by
  simp [State.retire]
@[simp] theorem retire_ilockVu (s : State) (d : Descriptor) (o : Completion) : (s.retire d o).ilockVu = s.ilockVu := by
  simp [State.retire]
@[simp] theorem retire_mem (s : State) (d : Descriptor) (o : Completion) : (s.retire d o).mem = s.mem := by
  simp [State.retire]
@[simp] theorem retire_sched (s : State) (d : Descriptor) (o : Completion) : (s.retire d o).sched = s.sched := by
  simp [State.retire]
@[simp] theorem retire_frameComplete (s : State) (d : Descriptor) (o : Completion) : (s.retire d o).frameComplete = s.frameComplete := by
  simp [State.retire]
@[simp] theorem retire_irqLine (s : State) (d : Descriptor) (o : Completion) : (s.retire d o).irqLine = s.irqLine := by
  simp [State.retire]
@[simp] theorem retire_phase (s : State) (d : Descriptor) (o : Completion) : (s.retire d o).phase = s.phase := by
  simp [State.retire]
@[simp] theorem retire_frameHandler (s : State) (d : Descriptor) (o : Completion) : (s.retire d o).frameHandler = s.frameHandler := by
  simp [State.retire]
@[simp] theorem retire_env (s : State) (d : Descriptor) (o : Completion) : (s.retire d o).env = s.env := by
  simp [State.retire]
@[simp] theorem retire_draws (s : State) (d : Descriptor) (o : Completion) : (s.retire d o).draws = s.draws := by
  simp [State.retire]

end Sys2Proof.Machine
end

