-- ==== Sys2Proof/Laws/Registers.lean ====
section
/-! SUPPORT. Reading a register after a register write: each write lemma says once everything the write does. -/

namespace Sys2Proof.Machine

theorem withLow64_low (q : Quad) (v : Dword) : (withLow64 q v).extractLsb' 0 64 = v :=
  BitVec.extractLsb'_append_eq_right

theorem withLow64_high (q : Quad) (v : Dword) :
    (withLow64 q v).extractLsb' 64 64 = q.extractLsb' 64 64 :=
  BitVec.extractLsb'_append_eq_left

/-- Registers read the same when the register file is the same. -/
theorem xq_congr {s t : State} (h : t.gpr = s.gpr) (r : Reg) : t.xq r = s.xq r := by
  simp [State.xq, h]

theorem x_congr {s t : State} (h : t.gpr = s.gpr) (r : Reg) : t.x r = s.x r := by
  simp [State.x, xq_congr h]

theorem sameGprs_of_gpr {s t : State} (h : t.gpr = s.gpr) : SameGprs s t := xq_congr h

/-- Register 0 reads 0 (R22). -/
@[simp] theorem xq_zero (s : State) : s.xq 0 = 0 := by simp [State.xq]

@[simp] theorem x_zero (s : State) : s.x 0 = 0 := by simp [State.x]

theorem xq_setX_other (s : State) {r k : Reg} (v : Dword) (h : k ≠ r) : (s.setX r v).xq k = s.xq k := by
  have hv : r.val ≠ k.val := fun e => h (Fin.ext e.symm)
  by_cases hr : r = 0
  · simp [State.xq, hr]
  · simp [State.xq, hr, Vector.getElem_set_ne _ _ hv]

theorem xq_setX_same (s : State) {r : Reg} (v : Dword) (h : r ≠ 0) :
    (s.setX r v).xq r = withLow64 (s.xq r) v := by
  simp [State.xq, h]

theorem xq_setXq_other (s : State) {r k : Reg} (v : Quad) (h : k ≠ r) : (s.setXq r v).xq k = s.xq k := by
  have hv : r.val ≠ k.val := fun e => h (Fin.ext e.symm)
  by_cases hr : r = 0
  · simp [State.xq, hr]
  · simp [State.xq, hr, Vector.getElem_set_ne _ _ hv]

theorem xq_setXq_same (s : State) {r : Reg} (v : Quad) (h : r ≠ 0) : (s.setXq r v).xq r = v := by
  simp [State.xq, h]

/-- Everything `setX` does to the registers. -/
theorem wroteX_setX (s : State) (r : Reg) (v : Dword) : WroteX s (s.setX r v) r v where
  value h := by simp [State.x, xq_setX_same s v h, withLow64_low]
  upper := by
    by_cases h : r = 0
    · simp [h]
    · rw [xq_setX_same s v h, withLow64_high]
  zero h := by simp [h]
  others k h := xq_setX_other s v h

/-- Everything `setXq` does to the registers. -/
theorem wroteXq_setXq (s : State) (r : Reg) (v : Quad) : WroteXq s (s.setXq r v) r v where
  value h := xq_setXq_same s v h
  zero h := by simp [h]
  others k h := xq_setXq_other s v h

/-- `WroteX` speaks of the register file alone. -/
theorem WroteX.congr {s t u v : State} {r : Reg} {w : Dword} (h : WroteX s t r w) (hs : u.gpr = s.gpr)
    (ht : v.gpr = t.gpr) : WroteX u v r w where
  value hr := by rw [x_congr ht]; exact h.value hr
  upper := by rw [xq_congr ht, xq_congr hs]; exact h.upper
  zero hr := by rw [ht, hs]; exact h.zero hr
  others k hk := by rw [xq_congr ht, xq_congr hs]; exact h.others k hk

theorem WroteXq.congr {s t u v : State} {r : Reg} {w : Quad} (h : WroteXq s t r w) (hs : u.gpr = s.gpr)
    (ht : v.gpr = t.gpr) : WroteXq u v r w where
  value hr := by rw [xq_congr ht]; exact h.value hr
  zero hr := by rw [ht, hs]; exact h.zero hr
  others k hk := by rw [xq_congr ht, xq_congr hs]; exact h.others k hk

/-- The register write of a 64-bit value keeps register 0. -/
theorem gpr_zero_setX (s : State) (r : Reg) (v : Dword) (h : s.gpr[0] = 0) : (s.setX r v).gpr[0] = 0 := by
  by_cases hr : r = 0
  · simp [hr, h]
  · have hv : r.val ≠ 0 := fun e => hr (Fin.ext e)
    simp [hr, Vector.getElem_set_ne _ _ hv, h]

theorem gpr_zero_setXq (s : State) (r : Reg) (v : Quad) (h : s.gpr[0] = 0) : (s.setXq r v).gpr[0] = 0 := by
  by_cases hr : r = 0
  · simp [hr, h]
  · have hv : r.val ≠ 0 := fun e => hr (Fin.ext e)
    simp [hr, Vector.getElem_set_ne _ _ hv, h]

/-- The low half written by MULT and DIV. -/
theorem setLoHi_low (s : State) (l h : Word) :
    (s.setLoHi l h).lo.extractLsb' 0 64 = sext64 l ∧ (s.setLoHi l h).hi.extractLsb' 0 64 = sext64 h :=
  ⟨withLow64_low _ _, withLow64_low _ _⟩

/-- The upper halves MULT and DIV keep (R27). -/
theorem setLoHi_high (s : State) (l h : Word) :
    (s.setLoHi l h).lo.extractLsb' 64 64 = s.lo.extractLsb' 64 64 ∧
    (s.setLoHi l h).hi.extractLsb' 64 64 = s.hi.extractLsb' 64 64 :=
  ⟨withLow64_high _ _, withLow64_high _ _⟩

end Sys2Proof.Machine
end

