-- ==== Sys2Proof/Laws/Bus.lean ====
section
/-! SUPPORT. The bus: routing, accesses, and everything a side effect of a device or a fired handler can do. -/

namespace Sys2Proof.Machine

/-! ### Values -/

/-- The value of an access as a number (R61). -/
theorem cutTo_toNat (w : Width) (v : Quad) : (cutTo w v).toNat = v.toNat % 256 ^ w.bytes := by
  unfold cutTo
  rw [BitVec.toNat_ofNat]
  have := v.isLt
  cases w <;> simp only [Width.bytes] <;> omega

/-- The sentinel as a number (R65). -/
theorem unmappedValue_toNat (w : Width) (c : Config) :
    (unmappedValue w c).toNat = c.unmappedReadValue.toNat % 256 ^ w.bytes := cutTo_toNat w _

/-- The sentinel of CFG_REF (R75). -/
theorem unmappedValue_cfg (w : Width) : unmappedValue w = 0 := by
  apply BitVec.eq_of_toNat_eq
  simp [unmappedValue_toNat, cfg_unmappedReadValue]

/-! ### Routing -/

/-- One window of the table, tried before the rest. -/
theorem firstWindow (w : Window) (ws : List Window) (pa : Nat) (e : Option Device) :
    ((w :: ws).find? (fun w => decide (w.base ≤ pa) && decide (pa < w.base + w.size))).elim e
      (fun w => some w.dev) =
    if w.base ≤ pa ∧ pa < w.base + w.size then some w.dev
    else (ws.find? (fun w => decide (w.base ≤ pa) && decide (pa < w.base + w.size))).elim e
      (fun w => some w.dev) := by
  by_cases h : w.base ≤ pa ∧ pa < w.base + w.size
  · simp [h]
  · rw [if_neg h, List.find?_cons_of_neg (by simpa using h)]

/-- One exact entry of the table, tried before the rest. -/
theorem firstExact (x : ExactEntry) (xs : List ExactEntry) (pa : Nat) :
    ((x :: xs).find? (fun e => e.addr == pa)).map (·.dev) =
    if pa = x.addr then some x.dev else (xs.find? (fun e => e.addr == pa)).map (·.dev) := by
  by_cases h : pa = x.addr
  · simp [h]
  · rw [if_neg h, List.find?_cons_of_neg (by simpa using fun e => h e.symm)]

theorem route_elim (pa : Nat) : route pa =
    (cfg.windows.find? (fun w => decide (w.base ≤ pa) && decide (pa < w.base + w.size))).elim
      ((cfg.exact.find? (fun e => e.addr == pa)).map (·.dev)) (fun w => some w.dev) := by
  unfold route
  split <;> simp [*]

/-- The route table as a chain of range tests, in the table's order (R72, R73). -/
theorem route_eq (pa : Nat) : route pa =
    if 0x1C000000 ≤ pa ∧ pa < 0x1C200000 then some (ramDevice .iopRam)
    else if 0x10000000 ≤ pa ∧ pa < 0x10002000 then some (registerDevice .timers)
    else if 0x12000000 ≤ pa ∧ pa < 0x12002000 then some (registerDevice .gsPriv)
    else if 0x10008000 ≤ pa ∧ pa < 0x1000F000 then some (registerDevice .dmac)
    else if 0x11000000 ≤ pa ∧ pa < 0x11001000 then some (ramDevice .vu0Code)
    else if 0x11004000 ≤ pa ∧ pa < 0x11005000 then some (ramDevice .vu0Data)
    else if 0x11008000 ≤ pa ∧ pa < 0x1100C000 then some (ramDevice .vu1Code)
    else if 0x1100C000 ≤ pa ∧ pa < 0x11010000 then some (ramDevice .vu1Data)
    else if 0 ≤ pa ∧ pa < 0x02000000 then some (ramDevice .mainRam)
    else if 0x1FC00000 ≤ pa ∧ pa < 0x20000000 then some (romDevice .bootRom)
    else if pa = 0x1000F000 then some (registerDevice .intcStat)
    else if pa = 0x1000F010 then some (registerDevice .intcMask)
    else none := by
  rw [route_elim, cfg_windows, cfg_exact, refWindows, refExact]
  repeat rw [firstWindow]
  repeat rw [firstExact]
  rfl

/-- The entry of the table that answers. -/
theorem route_some {pa : Nat} {d : Device} (h : route pa = some d) :
    (∃ w ∈ cfg.windows, w.dev = d ∧ w.base ≤ pa ∧ pa < w.base + w.size) ∨
    (∃ e ∈ cfg.exact, e.dev = d ∧ e.addr = pa) := by
  unfold route at h
  split at h
  · rename_i w hw
    refine .inl ⟨w, List.mem_of_find?_eq_some hw, Option.some.inj h, ?_⟩
    simpa using List.find?_some hw
  · obtain ⟨e, he, hd⟩ := Option.map_eq_some_iff.1 h
    exact .inr ⟨e, List.mem_of_find?_eq_some he, hd, by simpa using List.find?_some he⟩

/-- A property of the devices in the table holds of every device that answers. -/
theorem route_all {p : Device → Prop} (hw : ∀ w ∈ cfg.windows, p w.dev) (he : ∀ e ∈ cfg.exact, p e.dev)
    {pa : Nat} {d : Device} (h : route pa = some d) : p d := by
  rcases route_some h with ⟨w, hm, rfl, _⟩ | ⟨e, hm, rfl, _⟩
  · exact hw w hm
  · exact he e hm

/-- All five read widths behind every mapped address (R71). -/
theorem rdWidths_all {pa : Nat} {d : Device} (h : route pa = some d) (w : Width) : w ∈ d.rdWidths := by
  refine route_all (p := fun d => w ∈ d.rdWidths) ?_ ?_ h <;> cases w <;> decide

/-- All five write widths behind every mapped address but read-only memory, which has none (R71). -/
theorem wrWidths_all {pa : Nat} {d : Device} (h : route pa = some d) (w : Width) :
    w ∈ d.wrWidths ↔ d.kind ≠ .memory true := by
  refine route_all (p := fun d => w ∈ d.wrWidths ↔ d.kind ≠ .memory true) ?_ ?_ h <;> cases w <;> decide

/-- Read-write memory, by address. -/
theorem writable_iff (pa : Nat) : inWritableMemory pa = true ↔
    (0x1C000000 ≤ pa ∧ pa < 0x1C200000) ∨ (0x11000000 ≤ pa ∧ pa < 0x11001000) ∨
    (0x11004000 ≤ pa ∧ pa < 0x11005000) ∨ (0x11008000 ≤ pa ∧ pa < 0x1100C000) ∨
    (0x1100C000 ≤ pa ∧ pa < 0x11010000) ∨ pa < 0x02000000 := by
  constructor
  · intro h
    unfold inWritableMemory at h
    split at h
    · rename_i d hd
      have hk : d.kind = .memory false := by simpa using h
      rcases route_some hd with ⟨w, hm, rfl, h1, h2⟩ | ⟨e, hm, rfl, _⟩
      · rw [cfg_windows, refWindows] at hm
        simp only [List.mem_cons, List.not_mem_nil, or_false] at hm
        rcases hm with rfl | rfl | rfl | rfl | rfl | rfl | rfl | rfl | rfl | rfl <;>
          first | (cases hk; done) | (simp only at h1 h2; omega)
      · rw [cfg_exact, refExact] at hm
        simp only [List.mem_cons, List.not_mem_nil, or_false] at hm
        rcases hm with rfl | rfl <;> cases hk
    · cases h
  · intro h
    have k : ∀ n, route pa = some (ramDevice n) → inWritableMemory pa = true := by
      intro n e; unfold inWritableMemory; rw [e]; rfl
    rcases h with h | h | h | h | h | h
    on_goal 1 => refine k .iopRam ?_
    on_goal 2 => refine k .vu0Code ?_
    on_goal 3 => refine k .vu0Data ?_
    on_goal 4 => refine k .vu1Code ?_
    on_goal 5 => refine k .vu1Data ?_
    on_goal 6 => refine k .mainRam ?_
    all_goals
      rw [route_eq]
      repeat (first | rw [if_pos (by omega)] | rw [if_neg (by omega)])

/-- An aligned access of writable memory stays in writable memory (R73). -/
theorem writable_aligned {w : Width} {pa : Nat} (ha : pa % w.bytes = 0) (h : inWritableMemory pa = true)
    {j : Nat} (hj : j < w.bytes) : inWritableMemory (pa + j) = true := by
  have hm : pa % 16 + j < 16 := by
    cases w <;> simp only [Width.bytes] at ha hj <;> omega
  rw [writable_iff] at h ⊢
  omega

end Sys2Proof.Machine
end

