-- ==== Sys2Proof/Laws/Scheduler.lean ====
section
/-! SUPPORT. Everything a registration can do to the scheduler, and that its invariant is kept by every operation. -/

namespace Sys2Proof.Machine

/-- What registrations do (R224, R226, R228): entries and ids are appended, counters advance, nothing else changes. -/
structure SchedGrows (c k : Sched) : Prop where
  rest : k = { c with
    events := k.events, timers := k.timers, handlers := k.handlers, nextHandlerId := k.nextHandlerId, seq := k.seq }
  events : ∃ es, k.events = c.events ++ es ∧ ∀ e ∈ es, c.seq ≤ e.seq
  timers : ∃ ts, k.timers = c.timers ++ ts ∧ ∀ t ∈ ts, c.seq ≤ t.seq
  seq : c.seq ≤ k.seq
  inv : c.Inv → k.Inv

theorem SchedGrows.refl (c : Sched) : SchedGrows c c :=
  ⟨rfl, ⟨[], by simp⟩, ⟨[], by simp⟩, Nat.le_refl _, id⟩

theorem SchedGrows.trans {c k l : Sched} (h : SchedGrows c k) (g : SchedGrows k l) : SchedGrows c l where
  rest := by rw [g.rest, h.rest]
  events := by
    obtain ⟨a, ha, pa⟩ := h.events
    obtain ⟨b, hb, pb⟩ := g.events
    refine ⟨a ++ b, by rw [hb, ha, List.append_assoc], fun e he => ?_⟩
    rcases List.mem_append.1 he with he | he
    · exact pa e he
    · exact Nat.le_trans h.seq (pb e he)
  timers := by
    obtain ⟨a, ha, pa⟩ := h.timers
    obtain ⟨b, hb, pb⟩ := g.timers
    refine ⟨a ++ b, by rw [hb, ha, List.append_assoc], fun t ht => ?_⟩
    rcases List.mem_append.1 ht with ht | ht
    · exact pa t ht
    · exact Nat.le_trans h.seq (pb t ht)
  seq := Nat.le_trans h.seq g.seq
  inv i := g.inv (h.inv i)

theorem registerFunction_grows (c : Sched) : SchedGrows c c.registerFunction.2 where
  rest := rfl
  events := ⟨[], by simp [Sched.registerFunction]⟩
  timers := ⟨[], by simp [Sched.registerFunction]⟩
  seq := Nat.le_refl _
  inv i :=
    { eventHandlers := fun e he => List.mem_append_left _ (i.eventHandlers e he)
      timerHandlers := fun t ht => List.mem_append_left _ (i.timerHandlers t ht)
      handlerIds := fun h hh => by
        rcases List.mem_append.1 hh with hh | hh
        · exact Nat.lt_succ_of_lt (i.handlerIds h hh)
        · rw [List.mem_singleton.1 hh]; exact Nat.lt_succ_self _
      seqs := i.seqs
      seqsOnce := i.seqsOnce
      timerIds := i.timerIds
      timerIdsOnce := i.timerIdsOnce }

/-- `add_event` succeeds exactly for a registered handler. -/
theorem addEvent_eq (c : Sched) (h : Nat) (d p : Dword) : c.addEvent h d p =
    if h ∈ c.handlers then
      some (c.seq, { c with
        events := c.events ++
          [{ absoluteCycle := ((c.runCycles : Int) + d.toInt).toNat, handlerId := h, payload := p, seq := c.seq }]
        seq := c.seq + 1 })
    else none := by
  simp [Sched.addEvent]

/-- `add_timer` succeeds exactly for a registered handler. -/
theorem addTimer_eq (c : Sched) (h : Nat) (n : Dword) : c.addTimer h n =
    if h ∈ c.handlers then
      some (c.seq, { c with
        timers := c.timers ++
          [{ intervalCycles := n, nextFireCycle := c.runCycles + n.toNat, handlerId := h, seq := c.seq
             timerId := c.seq }]
        seq := c.seq + 1 })
    else none := by
  simp [Sched.addTimer]

theorem addEvent_grows {c k : Sched} {h i : Nat} {d p : Dword} (e : c.addEvent h d p = some (i, k)) :
    SchedGrows c k := by
  rw [addEvent_eq] at e
  split at e
  · rename_i hm
    cases e
    refine ⟨rfl, ⟨_, rfl, by simp⟩, ⟨[], by simp⟩, Nat.le_succ _, fun v => ?_⟩
    refine ⟨?_, v.timerHandlers, v.handlerIds, ?_, ?_, fun t ht => Nat.lt_succ_of_lt (v.timerIds t ht),
      v.timerIdsOnce⟩
    · intro x hx
      rcases List.mem_append.1 hx with hx | hx
      · exact v.eventHandlers x hx
      · rw [List.mem_singleton.1 hx]; exact hm
    · intro q hq
      simp only [List.map_append, List.map_cons, List.map_nil, List.append_assoc, List.singleton_append,
        List.mem_append, List.mem_cons] at hq
      rcases hq with hq | rfl | hq
      · exact Nat.lt_succ_of_lt (v.seqs q (List.mem_append_left _ hq))
      · exact Nat.lt_succ_self _
      · exact Nat.lt_succ_of_lt (v.seqs q (List.mem_append_right _ hq))
    · simp only [List.map_append, List.map_cons, List.map_nil, List.append_assoc, List.singleton_append]
      rw [List.nodup_middle, List.nodup_cons]
      exact ⟨fun hq => Nat.lt_irrefl _ (v.seqs _ hq), v.seqsOnce⟩
  · cases e

theorem addTimer_grows {c k : Sched} {h i : Nat} {n : Dword} (e : c.addTimer h n = some (i, k)) : SchedGrows c k := by
  rw [addTimer_eq] at e
  split at e
  · rename_i hm
    cases e
    refine ⟨rfl, ⟨[], by simp⟩, ⟨_, rfl, by simp⟩, Nat.le_succ _, fun v => ?_⟩
    refine ⟨v.eventHandlers, ?_, v.handlerIds, ?_, ?_, ?_, ?_⟩
    · intro x hx
      rcases List.mem_append.1 hx with hx | hx
      · exact v.timerHandlers x hx
      · rw [List.mem_singleton.1 hx]; exact hm
    · intro q hq
      simp only [List.map_append, List.map_cons, List.map_nil, ← List.append_assoc] at hq
      rcases List.mem_append.1 hq with hq | hq
      · exact Nat.lt_succ_of_lt (v.seqs q hq)
      · rw [List.mem_singleton.1 hq]; exact Nat.lt_succ_self _
    · simp only [List.map_append, List.map_cons, List.map_nil, ← List.append_assoc]
      rw [List.nodup_append_comm, List.singleton_append, List.nodup_cons]
      exact ⟨fun hq => Nat.lt_irrefl _ (v.seqs _ hq), v.seqsOnce⟩
    · intro x hx
      rcases List.mem_append.1 hx with hx | hx
      · exact Nat.lt_succ_of_lt (v.timerIds x hx)
      · rw [List.mem_singleton.1 hx]; exact Nat.lt_succ_self _
    · simp only [List.map_append, List.map_cons, List.map_nil]
      rw [List.nodup_append_comm, List.singleton_append, List.nodup_cons]
      refine ⟨fun hq => ?_, v.timerIdsOnce⟩
      obtain ⟨x, hx, hxe⟩ := List.mem_map.1 hq
      exact Nat.lt_irrefl _ (hxe ▸ v.timerIds x hx)
  · cases e

/-- The invariant does not speak of the clock, the budgets or the remainders. -/
theorem Sched.Inv.congr {c k : Sched} (h : c.Inv) (he : k.events = c.events) (ht : k.timers = c.timers)
    (hh : k.handlers = c.handlers) (hn : k.nextHandlerId = c.nextHandlerId) (hs : k.seq = c.seq) : k.Inv where
  eventHandlers := by rw [he, hh]; exact h.eventHandlers
  timerHandlers := by rw [ht, hh]; exact h.timerHandlers
  handlerIds := by rw [hh, hn]; exact h.handlerIds
  seqs := by rw [he, ht, hs]; exact h.seqs
  seqsOnce := by rw [he, ht]; exact h.seqsOnce
  timerIds := by rw [ht, hs]; exact h.timerIds
  timerIdsOnce := by rw [ht]; exact h.timerIdsOnce

/-- Removing a fired event keeps the invariant. -/
theorem removeEvent_inv {c : Sched} (e : ScheduledEvent) (h : c.Inv) : (c.removeEvent e).Inv where
  eventHandlers x hx := h.eventHandlers x (List.mem_of_mem_erase hx)
  timerHandlers := h.timerHandlers
  handlerIds := h.handlerIds
  seqs q hq := by
    refine h.seqs q ?_
    rcases List.mem_append.1 hq with hq | hq
    · exact List.mem_append_left _ ((List.Sublist.map _ (List.erase_sublist)).subset hq)
    · exact List.mem_append_right _ hq
  seqsOnce := h.seqsOnce.sublist ((List.Sublist.map _ List.erase_sublist).append (List.Sublist.refl _))
  timerIds := h.timerIds
  timerIdsOnce := h.timerIdsOnce

/-- The elements after a replacement are those before it and, if the replaced one was there, the new one. -/
theorem mem_replace {x y t : PeriodicTimer} : ∀ {l : List PeriodicTimer}, t ∈ l.replace x y →
    t ∈ l ∨ (t = y ∧ x ∈ l)
  | [], h => by simp at h
  | u :: l, h => by
    by_cases e : x = u
    · subst e
      rw [List.replace_cons_self, List.mem_cons] at h
      rcases h with h | h
      · exact .inr ⟨h, List.mem_cons_self ..⟩
      · exact .inl (List.mem_cons_of_mem _ h)
    · rw [List.replace_cons, show (x == u) = false by simpa using e, List.mem_cons] at h
      rcases h with h | h
      · exact .inl (h ▸ List.mem_cons_self ..)
      · exact (mem_replace h).imp (List.mem_cons_of_mem _) (.imp_right (List.mem_cons_of_mem _))

/-- A timer of the list is replaced at its place. -/
theorem replace_append {x y : PeriodicTimer} : ∀ {before after : List PeriodicTimer}, x ∉ before →
    (before ++ x :: after).replace x y = before ++ y :: after
  | [], _, _ => by simp
  | u :: before, after, h => by
    have hu : (x == u) = false := by simpa using fun e : x = u => h (e ▸ List.mem_cons_self ..)
    rw [List.cons_append, List.replace_cons, hu]
    simp only [List.cons_append]
    rw [replace_append (fun hx => h (List.mem_cons_of_mem _ hx))]

/-- Replacing an element by one with the same image leaves the images as they are. -/
theorem map_replace_same (x y : PeriodicTimer) (f : PeriodicTimer → Nat) (e : f y = f x) :
    ∀ l : List PeriodicTimer, (l.replace x y).map f = l.map f
  | [] => rfl
  | u :: l => by
    rw [List.replace_cons]
    split
    · rename_i h
      have h : x = u := by simpa using h
      subst h; simp [e]
    · simp [map_replace_same x y f e l]

/-- Replacing an element by one with a fresh image keeps the images different. -/
theorem nodup_replace_fresh {x y : PeriodicTimer} {f : PeriodicTimer → Nat} : ∀ {l : List PeriodicTimer},
    (l.map f).Nodup → f y ∉ l.map f → ((l.replace x y).map f).Nodup
  | [], h, _ => h
  | u :: l, h, hy => by
    rw [List.map_cons, List.nodup_cons] at h
    rw [List.map_cons, List.mem_cons, not_or] at hy
    rw [List.replace_cons]
    split
    · rw [List.map_cons, List.nodup_cons]; exact ⟨hy.2, h.2⟩
    · rw [List.map_cons, List.nodup_cons]
      refine ⟨fun hm => ?_, nodup_replace_fresh h.2 hy.2⟩
      obtain ⟨t, ht, e⟩ := List.mem_map.1 hm
      rcases mem_replace ht with ht | ⟨rfl, _⟩
      · exact h.1 (List.mem_map.2 ⟨t, ht, e⟩)
      · exact hy.1 e

/-- Re-arming a timer keeps the invariant. -/
theorem rearm_inv {c : Sched} (x : PeriodicTimer) (h : c.Inv) : (c.rearm x).Inv where
  eventHandlers := h.eventHandlers
  timerHandlers t ht := by
    rcases mem_replace ht with ht | ⟨rfl, hx⟩
    · exact h.timerHandlers t ht
    · exact h.timerHandlers x hx
  handlerIds := h.handlerIds
  seqs q hq := by
    show q < c.seq + 1
    rcases List.mem_append.1 hq with hq | hq
    · exact Nat.lt_succ_of_lt (h.seqs q (List.mem_append_left _ hq))
    · obtain ⟨t, ht, rfl⟩ := List.mem_map.1 hq
      rcases mem_replace ht with ht | ⟨rfl, _⟩
      · exact Nat.lt_succ_of_lt (h.seqs _ (List.mem_append_right _ (List.mem_map_of_mem ht)))
      · exact Nat.lt_succ_self _
  seqsOnce := by
    have hs := List.nodup_append.1 h.seqsOnce
    refine List.nodup_append.2 ⟨hs.1, nodup_replace_fresh hs.2.1 fun hm => ?_, fun a ha b hb => ?_⟩
    · exact Nat.lt_irrefl _ (h.seqs _ (List.mem_append_right _ hm))
    · obtain ⟨t, ht, rfl⟩ := List.mem_map.1 hb
      rcases mem_replace ht with ht | ⟨rfl, _⟩
      · exact hs.2.2 a ha t.seq (List.mem_map_of_mem ht)
      · exact Nat.ne_of_lt (h.seqs a (List.mem_append_left _ ha))
  timerIds t ht := by
    rcases mem_replace ht with ht | ⟨rfl, hx⟩
    · exact Nat.lt_succ_of_lt (h.timerIds t ht)
    · exact Nat.lt_succ_of_lt (h.timerIds x hx)
  timerIdsOnce := by
    have e : (c.timers.replace x (x.rearmed c.seq)).map (·.timerId) = c.timers.map (·.timerId) :=
      map_replace_same x (x.rearmed c.seq) (·.timerId) rfl _
    show ((c.timers.replace x (x.rearmed c.seq)).map (·.timerId)).Nodup
    rw [e]; exact h.timerIdsOnce

/-- The budget is at least `MIN_RUN_CYCLES` (R239). -/
theorem budget_pos (c : Sched) : cfg.minRunCycles ≤ c.budget := by
  unfold Sched.budget
  split
  · decide
  · split
    · exact Nat.le_refl _
    · exact Nat.le_max_left _ _

/-- `listMin` is a member and a lower bound. -/
theorem listMin_spec : ∀ l : List Nat, (listMin l = none ↔ l = []) ∧
    ∀ m, listMin l = some m → m ∈ l ∧ ∀ n ∈ l, m ≤ n
  | [] => by simp [listMin]
  | n :: ns => by
    have ih := listMin_spec ns
    cases h : listMin ns with
    | none =>
      have := ih.1.1 h
      subst this
      simp [listMin]
    | some m =>
      have := ih.2 m h
      simp only [listMin, h]
      refine ⟨by simp, fun k hk => ?_⟩
      cases hk
      refine ⟨?_, ?_⟩
      · rcases Nat.le_total n m with hl | hl
        · simp [Nat.min_eq_left hl]
        · rw [Nat.min_eq_right hl]; exact List.mem_cons_of_mem _ this.1
      · intro x hx
        rcases List.mem_cons.1 hx with rfl | hx
        · exact Nat.min_le_left _ _
        · exact Nat.le_trans (Nat.min_le_right _ _) (this.2 x hx)

end Sys2Proof.Machine
end

