-- ==== Sys2Proof/Laws/Effects.lean ====
section
/-! SUPPORT. Everything an agent outside the CORE can do to the state, said once: `DeviceEffect` for the side effects of
a REGISTER device and the action of a fired handler, `UnitEffect` for an external unit's turn. -/

namespace Sys2Proof.Machine

/-- All a REGISTER device or a fired handler can do (`20_memory.md` R78), the draws of its answer included. -/
structure DeviceEffect (s t : State) : Prop where
  rest : t = { s with
    mem := t.mem, sched := t.sched, irqLine := t.irqLine, env := t.env, draws := t.draws, fatal := t.fatal
    fatalCode := t.fatalCode, out := t.out }
  memory : Memory.wf s.mem = true → Memory.wf t.mem = true
  outside : ∀ a, inWritableMemory a = false → t.byteAt a = s.byteAt a
  sched : SchedGrows s.sched t.sched
  code : s.fatal = s.fatalCode.isSome → t.fatal = t.fatalCode.isSome
  out : ∃ l, t.out = l ++ s.out

theorem DeviceEffect.refl (s : State) : DeviceEffect s s :=
  ⟨rfl, id, fun _ _ => rfl, SchedGrows.refl _, id, ⟨[], rfl⟩⟩

theorem DeviceEffect.trans {s t u : State} (h : DeviceEffect s t) (g : DeviceEffect t u) : DeviceEffect s u where
  rest := by rw [g.rest, h.rest]
  memory m := g.memory (h.memory m)
  outside a ha := (g.outside a ha).trans (h.outside a ha)
  sched := h.sched.trans g.sched
  code c := g.code (h.code c)
  out := by
    obtain ⟨a, ha⟩ := h.out
    obtain ⟨b, hb⟩ := g.out
    exact ⟨b ++ a, by rw [hb, ha, List.append_assoc]⟩

theorem emit_effect (s : State) (e : OutEvent) : DeviceEffect s (s.emit e) :=
  ⟨rfl, id, fun _ _ => rfl, SchedGrows.refl _, id, ⟨[e], rfl⟩⟩

theorem latchFatal_effect (s : State) (c : FatalCode) (i : Word) : DeviceEffect s (s.latchFatal c i) :=
  ⟨rfl, id, fun _ _ => rfl, SchedGrows.refl _, fun _ => rfl, ⟨[_], rfl⟩⟩

theorem takeAnswer_effect (s : State) : DeviceEffect s s.takeAnswer := by
  refine ⟨?_, ?_, ?_, ?_, ?_, ?_⟩ <;> unfold State.takeAnswer <;> split <;>
    first | rfl | exact id | (intros; rfl) | exact SchedGrows.refl _ | exact ⟨[], rfl⟩

theorem irqSet_effect (s : State) (i : Nat) (l : Bool) : DeviceEffect s (s.irqSet i l) := by
  refine ⟨?_, ?_, ?_, ?_, ?_, ?_⟩ <;> unfold State.irqSet <;> split <;>
    first | rfl | exact id | (intros; rfl) | exact SchedGrows.refl _ | exact ⟨[], rfl⟩

theorem sched_effect (s : State) {k : Sched} (h : SchedGrows s.sched k) :
    DeviceEffect s { s with sched := k } :=
  ⟨rfl, id, fun _ _ => rfl, h, id, ⟨[], rfl⟩⟩

/-- An aligned store to writable memory. -/
theorem memStore_effect (s : State) {w : Width} {pa : Nat} (v : Quad) (ha : pa % w.bytes = 0)
    (h : inWritableMemory pa = true) : DeviceEffect s (s.memStore w pa v) := by
  refine ⟨rfl, memStore_wf w pa v, fun a hn => ?_, SchedGrows.refl _, id, ⟨[], rfl⟩⟩
  refine memStore_outside s w pa v a ?_
  by_contra hc
  have := writable_aligned ha h (j := a - pa) (by omega)
  rw [show pa + (a - pa) = a by omega, hn] at this
  cases this

theorem schedAnswer_effect (s : State) (h : Nat) (a : Option (Nat × Sched))
    (ha : ∀ i k, a = some (i, k) → SchedGrows s.sched k) : DeviceEffect s (s.schedAnswer h a).2 := by
  cases a with
  | none => exact latchFatal_effect _ _ _
  | some r => exact sched_effect s (ha r.1 r.2 rfl)

theorem registerFunction_effect (s : State) : DeviceEffect s s.registerFunction.2 := by
  unfold State.registerFunction
  split
  · exact DeviceEffect.refl s
  · exact sched_effect s (registerFunction_grows _)

theorem addEvent_effect (s : State) (h : Nat) (d p : Dword) : DeviceEffect s (s.addEvent h d p).2 := by
  unfold State.addEvent
  split
  · exact DeviceEffect.refl s
  · exact schedAnswer_effect s h _ fun _ _ e => addEvent_grows e

theorem addTimer_effect (s : State) (h : Nat) (n : Dword) : DeviceEffect s (s.addTimer h n).2 := by
  unfold State.addTimer
  split
  · exact DeviceEffect.refl s
  · exact schedAnswer_effect s h _ fun _ _ e => addTimer_grows e

/-- A device's store: to writable memory, or nothing. -/
theorem deviceStore_effect (s : State) {w : Width} {pa : Nat} (v : Quad) (ha : pa % w.bytes = 0) :
    DeviceEffect s (s.deviceStore w pa v) := by
  unfold State.deviceStore
  split
  · rename_i d hd
    split
    · rename_i hk
      refine memStore_effect s v ha ?_
      unfold inWritableMemory; rw [hd]; simp [hk.1]
    · exact DeviceEffect.refl s
  · exact DeviceEffect.refl s

/-- A device's read: nothing, or a record. -/
theorem deviceRead_effect (s : State) (w : Width) (pa : Word) : DeviceEffect s (s.deviceRead w pa).2 := by
  unfold State.deviceRead
  split
  · split
    · exact DeviceEffect.refl s
    · split
      · exact DeviceEffect.refl s
      · exact emit_effect s _
  · exact DeviceEffect.refl s

/-- Every port operation of a device. -/
theorem deviceOp_effect (s : State) (op : PortOp) : DeviceEffect s (s.deviceOp op) := by
  unfold State.deviceOp State.deviceCall
  split
  · exact DeviceEffect.refl s
  · cases op with
    | busRead w pa =>
      simp only
      split
      · exact latchFatal_effect _ _ _
      · exact deviceRead_effect s w pa
    | busWrite w pa v =>
      simp only
      split
      · exact latchFatal_effect _ _ _
      · rename_i ha
        exact deviceStore_effect s v (by simpa using ha)
    | registerFunction => exact registerFunction_effect s
    | addEvent h d p => exact addEvent_effect s h d p
    | addTimer h n => exact addTimer_effect s h n
    | irqSet i l => exact irqSet_effect s i l
    | interlockRequest => exact DeviceEffect.refl s
    | wakeGraphics => exact DeviceEffect.refl s

/-- A whole side effect. -/
theorem deviceOps_effect (ops : List PortOp) : ∀ s : State, DeviceEffect s (s.deviceOps ops) := by
  induction ops with
  | nil => exact DeviceEffect.refl
  | cons op ops ih => exact fun s => (deviceOp_effect s op).trans (ih _)

/-- Every port operation of a side effect of a write: a device's, or the wake of the graphics worker. -/
theorem writeOp_effect (n : DeviceName) (s : State) (op : PortOp) : DeviceEffect s (State.writeOp n s op) := by
  unfold State.writeOp
  split
  · exact emit_effect s _
  · exact deviceOp_effect s op

theorem writeOps_effect (n : DeviceName) (ops : List PortOp) : ∀ s : State, DeviceEffect s (s.writeOps n ops) := by
  induction ops with
  | nil => exact DeviceEffect.refl
  | cons op ops ih => exact fun s => (writeOp_effect n s op).trans (ih _)

theorem registerRead_effect (s : State) (n : DeviceName) (w : Width) (pa : Word) :
    DeviceEffect s (s.registerRead n w pa).2 :=
  ((takeAnswer_effect s).trans (emit_effect _ _)).trans (deviceOps_effect _ _)

theorem registerWrite_effect (s : State) (n : DeviceName) (w : Width) (pa : Word) (v : Quad) :
    DeviceEffect s (s.registerWrite n w pa v) :=
  ((takeAnswer_effect s).trans (emit_effect _ _)).trans (writeOps_effect _ _ _)

/-- Everything a bus read can do. -/
theorem busRead_effect {s t : State} {w : Width} {pa : Word} {v : Quad} (h : s.busRead w pa = .ok (v, t)) :
    DeviceEffect s t := by
  unfold State.busRead at h
  split at h
  · cases h; exact DeviceEffect.refl s
  · split at h
    · cases h
    · split at h
      · cases h; exact emit_effect s _
      · split at h
        · rename_i d _ _
          cases hk : d.kind with
          | memory r => simp only [State.devRead, hk] at h; cases h; exact DeviceEffect.refl s
          | register =>
            simp only [State.devRead, hk] at h
            have := registerRead_effect s d.name w pa
            rw [Except.ok.inj h] at this; exact this
        · cases h; exact emit_effect s _

/-- Everything a bus write can do. -/
theorem busWrite_effect {s t : State} {w : Width} {pa : Word} {v : Quad} (h : s.busWrite w pa v = .ok t) :
    DeviceEffect s t := by
  unfold State.busWrite at h
  split at h
  · cases h; exact DeviceEffect.refl s
  · split at h
    · cases h
    · rename_i ha
      split at h
      · cases h; exact DeviceEffect.refl s
      · rename_i d hd
        split at h
        · cases h
          cases hk : d.kind with
          | memory r =>
            cases r with
            | true => simp only [State.devWrite, hk]; exact DeviceEffect.refl s
            | false =>
              simp only [State.devWrite, hk]
              refine memStore_effect s v (by simpa using ha) ?_
              unfold inWritableMemory; rw [hd]; simp [hk]
          | register => simp only [State.devWrite, hk]; exact registerWrite_effect _ _ _ _ _
        · cases h; exact DeviceEffect.refl s

/-- All an external unit can do in a turn (`47_run_loop_host.md` R258): what a device can, and the interlock flags. -/
structure UnitEffect (s t : State) : Prop where
  rest : t = { s with
    mem := t.mem, sched := t.sched, irqLine := t.irqLine, env := t.env, draws := t.draws, fatal := t.fatal
    fatalCode := t.fatalCode, out := t.out, ilockCop2 := t.ilockCop2, ilockVu := t.ilockVu }
  memory : Memory.wf s.mem = true → Memory.wf t.mem = true
  outside : ∀ a, inWritableMemory a = false → t.byteAt a = s.byteAt a
  sched : SchedGrows s.sched t.sched
  code : s.fatal = s.fatalCode.isSome → t.fatal = t.fatalCode.isSome
  out : ∃ l, t.out = l ++ s.out

theorem DeviceEffect.unit {s t : State} (h : DeviceEffect s t) : UnitEffect s t where
  rest := by rw [h.rest]
  memory := h.memory
  outside := h.outside
  sched := h.sched
  code := h.code
  out := h.out

theorem UnitEffect.trans {s t u : State} (h : UnitEffect s t) (g : UnitEffect t u) : UnitEffect s u where
  rest := by rw [g.rest, h.rest]
  memory m := g.memory (h.memory m)
  outside a ha := (g.outside a ha).trans (h.outside a ha)
  sched := h.sched.trans g.sched
  code c := g.code (h.code c)
  out := by
    obtain ⟨a, ha⟩ := h.out
    obtain ⟨b, hb⟩ := g.out
    exact ⟨b ++ a, by rw [hb, ha, List.append_assoc]⟩

theorem interlockRequest_effect (s : State) (x : IlockSide) : UnitEffect s (s.interlockRequest x).2 := by
  have set : UnitEffect s (s.setIlock x) := by
    cases x <;> exact ⟨rfl, id, fun _ _ => rfl, SchedGrows.refl _, id, ⟨[], rfl⟩⟩
  unfold State.interlockRequest
  split
  · exact (DeviceEffect.refl s).unit
  · split
    · exact set
    · split
      · exact set
      · exact ⟨rfl, id, fun _ _ => rfl, SchedGrows.refl _, id, ⟨[], rfl⟩⟩

theorem unitRead_effect (s : State) (w : Width) (pa : Word) : DeviceEffect s (s.unitRead w pa).2 := by
  unfold State.unitRead
  split
  · rename_i h; exact busRead_effect h
  · exact latchFatal_effect _ _ _

theorem unitWrite_effect (s : State) (w : Width) (pa : Word) (v : Quad) : DeviceEffect s (s.unitWrite w pa v).2 := by
  unfold State.unitWrite
  split
  · rename_i h; exact busWrite_effect h
  · exact latchFatal_effect _ _ _

theorem unitInterlock_effect (u : ExtUnit) (s : State) : UnitEffect s (State.unitInterlock u s).2 := by
  unfold State.unitInterlock
  split
  · exact interlockRequest_effect s .vu
  · exact (DeviceEffect.refl s).unit

/-- Every port operation of an external unit but the interlock request. -/
theorem unitOp_device (u : ExtUnit) (s : State) (op : PortOp) (h : op ≠ .interlockRequest) :
    DeviceEffect s (s.unitOp u op) := by
  unfold State.unitOp State.unitCall
  split
  · exact DeviceEffect.refl s
  · cases op with
    | busRead w pa => exact unitRead_effect s w pa
    | busWrite w pa v => exact unitWrite_effect s w pa v
    | interlockRequest => exact absurd rfl h
    | registerFunction => exact deviceOp_effect s _
    | addEvent h d p => exact deviceOp_effect s _
    | addTimer h n => exact deviceOp_effect s _
    | irqSet i l => exact deviceOp_effect s _
    | wakeGraphics => exact deviceOp_effect s _

/-- Every port operation of an external unit. -/
theorem unitOp_effect (u : ExtUnit) (s : State) (op : PortOp) : UnitEffect s (s.unitOp u op) := by
  by_cases h : op = .interlockRequest
  · subst h
    unfold State.unitOp State.unitCall
    split
    · exact (DeviceEffect.refl s).unit
    · exact unitInterlock_effect u s
  · exact (unitOp_device u s op h).unit

theorem unitOps_effect (u : ExtUnit) (ops : List PortOp) : ∀ s : State, UnitEffect s (State.unitOps u s ops) := by
  induction ops with
  | nil => exact fun s => (DeviceEffect.refl s).unit
  | cons op ops ih => exact fun s => (unitOp_effect u s op).trans (ih _)

/-- A whole turn. -/
theorem unitTurn_effect (s : State) (u : ExtUnit) : UnitEffect s (s.unitTurn u) := by
  unfold State.unitTurn
  split
  · exact (emit_effect s _).unit
  · exact ((takeAnswer_effect s).trans (emit_effect _ _)).unit.trans (unitOps_effect u _ _)

/-- A unit other than vector unit 0 leaves the interlock flags alone. -/
theorem unitOps_ilock {u : ExtUnit} (hu : u ≠ .vu0) (ops : List PortOp) :
    ∀ s : State, DeviceEffect s (State.unitOps u s ops) := by
  induction ops with
  | nil => exact DeviceEffect.refl
  | cons op ops ih =>
    intro s
    refine DeviceEffect.trans ?_ (ih _)
    by_cases h : op = .interlockRequest
    · subst h
      unfold State.unitOp State.unitCall State.unitInterlock
      simp only [if_neg hu]
      split <;> exact DeviceEffect.refl s
    · exact unitOp_device u s op h

/-- The action of a fired handler that is not the frame-end handler. -/
theorem fire_effect (s : State) (h : Nat) (p : Dword) (c : Nat) (hf : s.frameHandler ≠ some h) :
    DeviceEffect s (s.fire h p c) := by
  unfold State.fire
  rw [if_neg hf]
  exact ((takeAnswer_effect s).trans (emit_effect _ _)).trans (deviceOps_effect _ _)

/-- While the latch is set a side effect does nothing (`60_exceptions.md` R295). -/
theorem deviceOps_fatal {s : State} (h : s.fatal = true) (ops : List PortOp) : s.deviceOps ops = s := by
  induction ops with
  | nil => rfl
  | cons op ops ih =>
    have e : s.deviceOp op = s := by unfold State.deviceOp State.deviceCall; rw [if_pos h]
    show (s.deviceOp op).deviceOps ops = s
    rw [e]; exact ih

end Sys2Proof.Machine
end

