-- ==== Sys2Proof/Laws/Exec.lean ====
section
/-! SUPPORT. Everything an instruction can do to the state, said once (`ExecEffect`), and that every instruction answers
a next state. -/

namespace Sys2Proof.Machine

/-! ### Bits -/

theorem statusWmask_eq : statusWmask = 0xFF07#32 := by decide
theorem ieMask_eq : ieMask = 7#32 := by decide
theorem ieDeepest_eq : ieDeepest = 4#32 := by decide

/-- The bits of the write mask of STATUS (R210). -/
theorem statusWmask_bit (i : Nat) (h : i < 32) :
    statusWmask.getLsbD i = (decide (i < 3) || (decide (8 ≤ i) && decide (i < 16))) := by
  rw [statusWmask_eq]
  interval_cases i <;> decide

/-- The push keeps the reserved bits of STATUS 0. -/
theorem pushIE_reserved {st : Word} (h : st &&& ~~~statusWmask = 0) : pushIE st &&& ~~~statusWmask = 0 := by
  rw [statusWmask_eq] at *
  unfold pushIE; rw [ieMask_eq]
  apply BitVec.eq_of_getLsbD_eq
  intro i hi
  have := congrArg (fun b : Word => b.getLsbD i) h
  simp only [BitVec.getLsbD_and, BitVec.getLsbD_or] at this ⊢
  interval_cases i <;> simp at this ⊢ <;> simp [this]

/-- The pop keeps the reserved bits of STATUS 0. -/
theorem popIE_reserved {st : Word} (h : st &&& ~~~statusWmask = 0) : popIE st &&& ~~~statusWmask = 0 := by
  rw [statusWmask_eq] at *
  unfold popIE; rw [ieMask_eq, ieDeepest_eq]
  apply BitVec.eq_of_getLsbD_eq
  intro i hi
  have := congrArg (fun b : Word => b.getLsbD i) h
  simp only [BitVec.getLsbD_and, BitVec.getLsbD_or] at this ⊢
  interval_cases i <;> simp at this ⊢ <;> simp [this]

/-- A masked write has no reserved bit. -/
theorem mask_reserved (v : Word) : (v &&& statusWmask) &&& ~~~statusWmask = 0 := by
  rw [BitVec.and_assoc]; simp

theorem add4_aligned {a : Word} (h : a.toNat % 4 = 0) : (a + 4).toNat % 4 = 0 := by
  rw [BitVec.toNat_add, show (4 : Word).toNat = 4 from rfl]
  omega

theorem branchDest_aligned {a : Word} (h : a.toNat % 4 = 0) (imm : Half) : (branchDest a imm).toNat % 4 = 0 := by
  unfold branchDest
  rw [BitVec.toNat_add, BitVec.toNat_shiftLeft, Nat.shiftLeft_eq]
  omega

theorem jumpDest_aligned (a : Word) (index : BitVec 26) : (jumpDest a index).toNat % 4 = 0 := by
  unfold jumpDest
  have := ofNat_append (a.extractLsb' 28 4 ++ index) 0#2
  simp only [BitVec.toNat_ofNat] at this
  show (BitVec.toNat (a.extractLsb' 28 4 ++ index ++ 0#2)) % 4 = 0
  omega

/-! ### The effect of an instruction -/

/-- Everything an instruction can do, from the state that Fetch leaves. -/
structure ExecEffect (s t : State) : Prop where
  rest : t = { s with
    gpr := t.gpr, lo := t.lo, hi := t.hi, pc := t.pc, branchPending := t.branchPending
    branchTarget := t.branchTarget, status := t.status, excCode := t.excCode, bd := t.bd, epc := t.epc
    waitForIrq := t.waitForIrq, lastDesc := t.lastDesc, mdReadyCycle := t.mdReadyCycle, ilockCop2 := t.ilockCop2
    ilockVu := t.ilockVu, mem := t.mem, sched := t.sched, irqLine := t.irqLine, env := t.env, draws := t.draws
    fatal := t.fatal, fatalCode := t.fatalCode, out := t.out }
  memory : Memory.wf s.mem = true → Memory.wf t.mem = true
  outside : ∀ a, inWritableMemory a = false → t.byteAt a = s.byteAt a
  sched : SchedGrows s.sched t.sched
  code : s.fatal = s.fatalCode.isSome → t.fatal = t.fatalCode.isSome
  zero : s.gpr[0] = 0 → t.gpr[0] = 0
  lo : t.lo.extractLsb' 64 64 = s.lo.extractLsb' 64 64
  hi : t.hi.extractLsb' 64 64 = s.hi.extractLsb' 64 64
  reserved : s.status &&& ~~~statusWmask = 0 → t.status &&& ~~~statusWmask = 0
  aligned : s.pc.toNat % 4 = 0 → s.nextPc.toNat % 4 = 0 →
    (s.branchPending = true → s.branchTarget.toNat % 4 = 0) →
    t.pc.toNat % 4 = 0 ∧ (t.branchPending = true → t.branchTarget.toNat % 4 = 0)

/-- What a device does is within what an instruction can do. -/
theorem DeviceEffect.exec {s t : State} (h : DeviceEffect s t) : ExecEffect s t := by
  have e := h.rest
  refine ⟨by rw [e], h.memory, h.outside, h.sched, h.code, fun z => by rw [e]; exact z, by rw [e], by rw [e],
    fun z => by rw [e]; exact z, fun a b c => by rw [e]; exact ⟨a, c⟩⟩

theorem ExecEffect.trans {s t u : State} (h : ExecEffect s t) (g : ExecEffect t u) : ExecEffect s u where
  rest := by rw [g.rest, h.rest]
  memory m := g.memory (h.memory m)
  outside a ha := (g.outside a ha).trans (h.outside a ha)
  sched := h.sched.trans g.sched
  code c := g.code (h.code c)
  zero z := g.zero (h.zero z)
  lo := g.lo.trans h.lo
  hi := g.hi.trans h.hi
  reserved z := g.reserved (h.reserved z)
  aligned a b c := by
    obtain ⟨p, q⟩ := h.aligned a b c
    exact g.aligned p (by rw [h.rest]; exact b) q

/-- An outcome whose target, if it has one, is aligned. -/
def Completion.alignedTarget : Completion → Prop
  | .branch t => t.toNat % 4 = 0
  | .ret t => t.toNat % 4 = 0
  | .done => True
  | .hold => True
  | .exception _ => True
  | .fatal _ _ => True

/-- Everything Advance and the tracker can do. -/
theorem retire_effect (s : State) (d : Descriptor) (o : Completion)
    (ho : s.nextPc.toNat % 4 = 0 → o.alignedTarget) : ExecEffect s (s.retire d o) where
  rest := by cases o <;> first | rfl | (simp only [State.retire, State.advance]; split <;> rfl)
  memory := by simp
  outside a _ := by simp [State.byteAt]
  sched := by simpa using SchedGrows.refl s.sched
  code := by
    cases o <;> simp only [State.retire, State.hazardTrack, State.advance] <;>
      first | exact id | (intro; rfl) | (split <;> exact id)
  zero := by simp
  lo := by simp
  hi := by simp
  reserved h := by
    cases o <;> simp only [State.retire, State.hazardTrack, State.advance] <;>
      first | exact h | exact pushIE_reserved h | (split <;> exact h)
  aligned a b c := by
    have ho := ho b
    cases o with
    | done =>
      simp only [State.retire, State.advance]
      split
      · rename_i hp; exact ⟨c hp, fun h => by cases h⟩
      · rename_i hp; exact ⟨b, fun h => absurd h hp⟩
    | branch t => exact ⟨b, fun _ => ho⟩
    | ret t => exact ⟨ho, fun h => by cases h⟩
    | hold => exact ⟨a, c⟩
    | exception k => exact ⟨show cfg.excVector.toNat % 4 = 0 by decide, fun h => by cases h⟩
    | fatal k i => exact ⟨a, c⟩

theorem setX_effect (s : State) (r : Reg) (v : Dword) : ExecEffect s (s.setX r v) :=
  ⟨rfl, id, fun _ _ => rfl, SchedGrows.refl _, id, gpr_zero_setX s r v, rfl, rfl, id, fun a _ c => ⟨a, c⟩⟩

theorem setXq_effect (s : State) (r : Reg) (v : Quad) : ExecEffect s (s.setXq r v) :=
  ⟨rfl, id, fun _ _ => rfl, SchedGrows.refl _, id, gpr_zero_setXq s r v, rfl, rfl, id, fun a _ c => ⟨a, c⟩⟩

theorem setLoHi_effect (s : State) (l h : Word) : ExecEffect s (s.setLoHi l h) :=
  ⟨rfl, id, fun _ _ => rfl, SchedGrows.refl _, id, id, (setLoHi_high s l h).1, (setLoHi_high s l h).2, id,
    fun a _ c => ⟨a, c⟩⟩

/-- An instruction that ends `Done` after a register write. -/
theorem writeDone_effect (d : Descriptor) (r : Reg) (v : Dword) (s : State) :
    ∃ t, writeDone d r v s = .next t ∧ ExecEffect s t :=
  ⟨_, rfl, (setX_effect s r v).trans (retire_effect _ _ _ fun _ => trivial)⟩

/-- Any instruction that only retires. -/
theorem retire_next (s : State) (d : Descriptor) (o : Completion) (ho : s.nextPc.toNat % 4 = 0 → o.alignedTarget) :
    ∃ t, (.next (s.retire d o) : Host.Outcome State Fault Refusal) = .next t ∧ ExecEffect s t :=
  ⟨_, rfl, retire_effect s d o ho⟩

theorem transfer_aligned (s : State) (o : Completion) (ho : s.nextPc.toNat % 4 = 0 → o.alignedTarget) :
    s.nextPc.toNat % 4 = 0 → (s.transfer o).alignedTarget := by
  intro h
  unfold State.transfer
  split
  · trivial
  · exact ho h

theorem branchIf_effect (d : Descriptor) (b : Bool) (imm : Half) (s : State) :
    ∃ t, branchIf d b imm s = .next t ∧ ExecEffect s t := by
  refine retire_next s d _ (transfer_aligned s _ fun h => ?_)
  show (BitVec.toNat (if b then branchDest s.nextPc imm else s.afterSlot)) % 4 = 0
  cases b
  · exact add4_aligned h
  · exact branchDest_aligned h imm

theorem trapIf_effect (d : Descriptor) (b : Bool) (s : State) : ∃ t, trapIf d b s = .next t ∧ ExecEffect s t := by
  refine retire_next s d _ fun _ => ?_
  cases b <;> trivial

/-- Everything a load can do, whatever its register write does within an instruction's effect. -/
theorem loadOp_effect (d : Descriptor) (w : Width) (base : Reg) (imm : Half) (wr : State → Quad → State)
    (hw : ∀ t v, ExecEffect t (wr t v)) (s : State) : ∃ t, loadOp d w base imm wr s = .next t ∧ ExecEffect s t := by
  unfold loadOp
  cases h : s.memRead w (s.effAddr base imm) with
  | error c => exact retire_next s d _ fun _ => trivial
  | ok r =>
    obtain ⟨v, t⟩ := r
    have e := (busRead_effect h).exec
    simp only
    split
    · exact ⟨_, rfl, e⟩
    · exact ⟨_, rfl, (e.trans (hw t v)).trans (retire_effect _ _ _ fun _ => trivial)⟩

/-- Everything a store can do. -/
theorem storeOp_effect (d : Descriptor) (w : Width) (base : Reg) (imm : Half) (v : Quad) (s : State) :
    ∃ t, storeOp d w base imm v s = .next t ∧ ExecEffect s t := by
  unfold storeOp
  cases h : s.memWrite w (s.effAddr base imm) v with
  | error c => exact retire_next s d _ fun _ => trivial
  | ok t =>
    have e := (busWrite_effect h).exec
    simp only
    split
    · exact ⟨_, rfl, e⟩
    · exact ⟨_, rfl, e.trans (retire_effect _ _ _ fun _ => trivial)⟩

theorem wrSigned_effect (n : Nat) (r : Reg) (t : State) (v : Quad) : ExecEffect t (wrSigned n r t v) :=
  setX_effect _ _ _

theorem wrUnsigned_effect (n : Nat) (r : Reg) (t : State) (v : Quad) : ExecEffect t (wrUnsigned n r t v) :=
  setX_effect _ _ _

theorem eret_effect (s : State) : ∃ t, execEret s = .next t ∧ ExecEffect s t := by
  unfold execEret
  split
  · exact retire_next s _ _ fun _ => trivial
  · split
    · exact retire_next s _ _ fun _ => trivial
    · rename_i h
      refine ⟨_, rfl, ExecEffect.trans (t := s.popStatus) ?_ (retire_effect _ _ _ fun _ => ?_)⟩
      · exact ⟨rfl, id, fun _ _ => rfl, SchedGrows.refl _, id, id, rfl, rfl, popIE_reserved, fun a _ c => ⟨a, c⟩⟩
      · show s.epc.toNat % 4 = 0
        omega

theorem mfc0_effect (rt : Reg) (n : Nat) (s : State) : ∃ t, execMfc0 rt n s = .next t ∧ ExecEffect s t := by
  unfold execMfc0
  split
  · exact writeDone_effect _ _ _ _
  · exact retire_next s _ _ fun _ => trivial

theorem setCop0_effect {s t : State} {n : Nat} {v : Word} (h : s.setCop0 n v = some t) : ExecEffect s t := by
  unfold State.setCop0 at h
  split at h
  · cases h
    exact ⟨rfl, id, fun _ _ => rfl, SchedGrows.refl _, id, id, rfl, rfl, fun _ => mask_reserved _,
      fun a _ c => ⟨a, c⟩⟩
  · split at h
    · cases h; exact (DeviceEffect.refl s).exec
    · split at h
      · cases h
        exact ⟨rfl, id, fun _ _ => rfl, SchedGrows.refl _, id, id, rfl, rfl, id, fun a _ c => ⟨a, c⟩⟩
      · cases h

theorem mtc0_effect (rt : Reg) (n : Nat) (s : State) : ∃ t, execMtc0 rt n s = .next t ∧ ExecEffect s t := by
  unfold execMtc0
  split
  · rename_i t h
    exact ⟨_, rfl, (setCop0_effect h).trans (retire_effect _ _ _ fun _ => trivial)⟩
  · exact retire_next s _ _ fun _ => trivial

theorem wait_effect (s : State) : ∃ t, execWait s = .next t ∧ ExecEffect s t :=
  ⟨_, rfl, ExecEffect.trans (t := { s with waitForIrq := true })
    ⟨rfl, id, fun _ _ => rfl, SchedGrows.refl _, id, id, rfl, rfl, id, fun a _ c => ⟨a, c⟩⟩
    (retire_effect _ _ _ fun _ => trivial)⟩

theorem interlock_exec (s : State) (x : IlockSide) : ExecEffect s (s.interlockRequest x).2 := by
  have h := interlockRequest_effect s x
  have e := h.rest
  refine ⟨by rw [e], h.memory, h.outside, h.sched, h.code, fun z => by rw [e]; exact z, by rw [e], by rw [e],
    fun z => by rw [e]; exact z, fun a b c => by rw [e]; exact ⟨a, c⟩⟩

theorem cfc2i_effect (s : State) : ∃ t, execCfc2i s = .next t ∧ ExecEffect s t := by
  unfold execCfc2i
  have h := interlock_exec s .cop2
  split
  · rename_i e
    rw [e] at h
    exact ⟨_, rfl, h.trans (retire_effect _ _ _ fun _ => trivial)⟩
  · rename_i e
    rw [e] at h
    exact ⟨_, rfl, (h.trans (setX_effect _ _ _)).trans (retire_effect _ _ _ fun _ => trivial)⟩

/-- Every instruction answers a next state, within the effect of an instruction. -/
theorem exec_effect (i : Instr) (s : State) : ∃ t, exec i s = .next t ∧ ExecEffect s t := by
  cases i with
  | sll rd rt sa => exact writeDone_effect _ _ _ _
  | add rd rs rt => exact writeDone_effect _ _ _ _
  | addi rt rs imm => exact writeDone_effect _ _ _ _
  | daddu rd rs rt => exact writeDone_effect _ _ _ _
  | mult rs rt => exact ⟨_, rfl, (setLoHi_effect _ _ _).trans (retire_effect _ _ _ fun _ => trivial)⟩
  | div rs rt => exact ⟨_, rfl, (setLoHi_effect _ _ _).trans (retire_effect _ _ _ fun _ => trivial)⟩
  | mfhi rd => exact writeDone_effect _ _ _ _
  | mflo rd => exact writeDone_effect _ _ _ _
  | beq rs rt imm => exact branchIf_effect _ _ _ _
  | bne rs rt imm => exact branchIf_effect _ _ _ _
  | j index => exact retire_next s _ _ (transfer_aligned s _ fun _ => jumpDest_aligned _ _)
  | jal index =>
    refine ⟨_, rfl, ?_⟩
    split
    · exact retire_effect _ _ _ (transfer_aligned s _ fun _ => jumpDest_aligned _ _)
    · exact (setX_effect s _ _).trans (retire_effect _ _ _ (transfer_aligned s _ fun _ => jumpDest_aligned _ _))
  | jr rs =>
    refine retire_next s _ _ (transfer_aligned s _ fun _ => ?_)
    split
    · rename_i h; exact h
    · trivial
  | lb rt base imm => exact loadOp_effect _ _ _ _ _ (wrSigned_effect _ _) s
  | lbu rt base imm => exact loadOp_effect _ _ _ _ _ (wrUnsigned_effect _ _) s
  | lh rt base imm => exact loadOp_effect _ _ _ _ _ (wrSigned_effect _ _) s
  | lhu rt base imm => exact loadOp_effect _ _ _ _ _ (wrUnsigned_effect _ _) s
  | lw rt base imm => exact loadOp_effect _ _ _ _ _ (wrSigned_effect _ _) s
  | lwu rt base imm => exact loadOp_effect _ _ _ _ _ (wrUnsigned_effect _ _) s
  | ld rt base imm => exact loadOp_effect _ _ _ _ _ (wrUnsigned_effect _ _) s
  | lq rt base imm => exact loadOp_effect _ _ _ _ _ (fun t v => setXq_effect t rt v) s
  | sb rt base imm => exact storeOp_effect _ _ _ _ _ s
  | sh rt base imm => exact storeOp_effect _ _ _ _ _ s
  | sw rt base imm => exact storeOp_effect _ _ _ _ _ s
  | sd rt base imm => exact storeOp_effect _ _ _ _ _ s
  | sq rt base imm => exact storeOp_effect _ _ _ _ _ s
  | tge rs rt code => exact trapIf_effect _ _ _
  | tgeu rs rt code => exact trapIf_effect _ _ _
  | tlt rs rt code => exact trapIf_effect _ _ _
  | tltu rs rt code => exact trapIf_effect _ _ _
  | teq rs rt code => exact trapIf_effect _ _ _
  | tne rs rt code => exact trapIf_effect _ _ _
  | syscall code => exact retire_next s _ _ fun _ => trivial
  | breakpoint code => exact retire_next s _ _ fun _ => trivial
  | eret => exact eret_effect s
  | mfc0 rt n => exact mfc0_effect rt n s
  | mtc0 rt n => exact mtc0_effect rt n s
  | wait => exact wait_effect s
  | cfc2i => exact cfc2i_effect s

end Sys2Proof.Machine
end

