-- ==== Sys2Proof/Laws/Frames.lean ====
section
/-! SUPPORT. How an instruction ends, one lemma per outcome: everything Advance and the tracker leave unchanged, in the
terms of Safety.lean. -/

namespace Sys2Proof.Machine

/-! ### `Done` -/

/-- Advance after `Done`, from a state whose branch state and `next_pc` are those of `s`. -/
theorem advancedDone {s u : State} (d : Descriptor) (hp : u.branchPending = s.branchPending)
    (ht : u.branchTarget = s.branchTarget) (hn : u.nextPc = s.nextPc) : AdvancedDone s (u.retire d .done) where
  pcInSlot h := by simp [State.retire, State.hazardTrack, State.advance, hp, h, ht]
  pcNext h := by simp [State.retire, State.hazardTrack, State.advance, hp, h, hn]
  pending := by
    by_cases h : u.branchPending <;> simp [State.retire, State.hazardTrack, State.advance, h]
  target := by
    by_cases h : u.branchPending <;> simp [State.retire, State.hazardTrack, State.advance, h, ht]

theorem retire_done_cop0 {s u : State} (d : Descriptor) (h : SameCop0 s u) : SameCop0 s (u.retire d .done) := by
  obtain ⟨a, b, c, e, f⟩ := h
  constructor <;> simp only [State.retire, State.hazardTrack, State.advance] <;> split <;> simpa

theorem retire_done_rest {s u : State} (d : Descriptor) (h : SameRest s u) : SameRest s (u.retire d .done) := by
  obtain ⟨h1, h2, h3, h4, h5, h6, h7, h8, h9, h10, h11, h12, h13, h14, h15, h16⟩ := h
  constructor <;> simp only [State.retire, State.hazardTrack, State.advance] <;> split <;> simpa

/-- `now` depends on the slice and the committed time alone. -/
theorem now_congr {s u : State} (hp : u.phase = s.phase) (hr : u.sched.runCycles = s.sched.runCycles) :
    u.now = s.now := by
  unfold State.now
  rw [hp, hr]

/-- The tracker's update, from a state whose tracker, pc, slice and committed time are those of `s`. -/
theorem tracked {s u v : State} (i : Instr) (hv : v.lastDesc = s.lastDesc) (hm : v.mdReadyCycle = s.mdReadyCycle)
    (hn : v.now = s.now) (hu : u.pc = s.pc) : Tracked i s (v.track (descriptor i) u.pc) v.out where
  lastDesc := rfl
  mdReadyCycle := by
    simp only [State.track, hm, hn]
    cases (descriptor i).kind <;> simp
  out := by simp only [State.track, State.hazardRecord, hv, hm, hn, hu]

/-- The tracker's part of an instruction that ends `Done` (R312). -/
theorem tracked_done {s u : State} (i : Instr) (hl : u.lastDesc = s.lastDesc) (hm : u.mdReadyCycle = s.mdReadyCycle)
    (hc : u.pc = s.pc) (hp : u.phase = s.phase) (hr : u.sched.runCycles = s.sched.runCycles) :
    Tracked i s (u.retire (descriptor i) .done) u.out := by
  have h := now_congr hp hr
  by_cases b : u.branchPending
  · have e : u.retire (descriptor i) .done =
        ({ u with pc := u.branchTarget, branchPending := false }).track (descriptor i) u.pc := by
      simp [State.retire, State.hazardTrack, State.advance, b]
    rw [e]; exact tracked i hl hm h hc
  · have e : u.retire (descriptor i) .done = ({ u with pc := u.nextPc }).track (descriptor i) u.pc := by
      simp [State.retire, State.hazardTrack, State.advance, b]
    rw [e]; exact tracked i hl hm h hc

/-- The tracker's part of a control transfer (R312). -/
theorem tracked_branch {s u : State} (i : Instr) (target : Word) (hl : u.lastDesc = s.lastDesc)
    (hm : u.mdReadyCycle = s.mdReadyCycle) (hc : u.pc = s.pc) (hp : u.phase = s.phase)
    (hr : u.sched.runCycles = s.sched.runCycles) :
    Tracked i s (u.retire (descriptor i) (.branch target)) u.out :=
  tracked i hl hm (now_congr (s := s) (u := { u with branchPending := true, branchTarget := target, pc := u.nextPc })
    hp hr) hc

theorem SameCop0.refl (s : State) : SameCop0 s s := ⟨rfl, rfl, rfl, rfl, rfl⟩

theorem SameRest.refl (s : State) : SameRest s s :=
  ⟨rfl, rfl, rfl, rfl, rfl, rfl, rfl, rfl, rfl, rfl, rfl, rfl, rfl, rfl, rfl, rfl⟩

/-- The frame of an instruction that ends `Done` after writing general registers only. -/
theorem doneFrame {s u : State} (i : Instr) (g : Vector Quad 32) (hu : u = { s with gpr := g }) :
    DoneFrame i s (u.retire (descriptor i) .done) := by
  subst hu
  refine ⟨tracked_done i rfl rfl rfl rfl rfl, advancedDone _ rfl rfl rfl, ⟨by simp, by simp⟩, ?_,
    fun a => by simp [State.byteAt], ?_⟩
  · exact retire_done_cop0 _ ⟨rfl, rfl, rfl, rfl, rfl⟩
  · exact retire_done_rest _ ⟨rfl, rfl, rfl, rfl, rfl, rfl, rfl, rfl, rfl, rfl, rfl, rfl, rfl, rfl, rfl, rfl⟩

/-- Everything an instruction that writes one register's bits 63:0 and ends `Done` does. -/
theorem writeDone_completes (i : Instr) (rd : Reg) (v : Dword) (s : State) :
    Completes (writeDone (descriptor i) rd v s) fun t => WroteX s t rd v ∧ DoneFrame i s t :=
  ⟨_, rfl, (wroteX_setX s rd v).congr rfl (by simp), doneFrame i _ rfl⟩

/-! ### The other outcomes -/

/-- `Branch(T)`, from a state that differs from `s` in general registers only. -/
theorem branchFrame {s u : State} (i : Instr) (target : Word) (g : Vector Quad 32) (hu : u = { s with gpr := g }) :
    BranchFrame i s (u.retire (descriptor i) (.branch target)) target := by
  subst hu
  exact ⟨tracked_branch i target rfl rfl rfl rfl rfl, ⟨rfl, rfl, rfl⟩, ⟨rfl, rfl⟩, ⟨rfl, rfl, rfl, rfl, rfl⟩, fun _ => rfl,
    ⟨rfl, rfl, rfl, rfl, rfl, rfl, rfl, rfl, rfl, rfl, rfl, rfl, rfl, rfl, rfl, rfl⟩⟩

/-- `Fatal(c)`: the latch, its code and one record. -/
theorem retire_fatal (s : State) (d : Descriptor) (c : FatalCode) (info : Word) :
    LatchedOnly s (s.retire d (.fatal c info)) c := ⟨info, rfl⟩

/-- A transfer in a delay slot. -/
theorem transfer_slot {s : State} (h : s.branchPending = true) (d : Descriptor) (o : Completion) :
    LatchedOnly s (s.retire d (s.transfer o)) .branchInDelaySlot := by
  unfold State.transfer; rw [if_pos h]; exact retire_fatal _ _ _ _

/-- The bits of a pushed enable stack (R282). -/
theorem pushIE_bit (st : Word) (i : Nat) (h : i < 32) :
    (pushIE st).getLsbD i =
      if i = 0 then false else if i < 3 then st.getLsbD (i - 1) else st.getLsbD i := by
  unfold pushIE
  rw [ieMask_eq]
  simp only [BitVec.getLsbD_and, BitVec.getLsbD_or]
  interval_cases i <;> simp

/-- The bits of a popped enable stack (R290). -/
theorem popIE_bit (st : Word) (i : Nat) (h : i < 32) :
    (popIE st).getLsbD i = if i < 2 then st.getLsbD (i + 1) else st.getLsbD i := by
  unfold popIE
  rw [ieMask_eq, ieDeepest_eq]
  simp only [BitVec.getLsbD_and, BitVec.getLsbD_or]
  interval_cases i <;> simp

/-- An exception entry whose saved pc is that of the instruction at `pc`. -/
theorem entered {s t : State} (c : BitVec 5) (h : t = s.trapEntry c s.pc s.branchPending) : Entered s t c := by
  subst h
  refine ⟨rfl, rfl, rfl, ?_, fun i hi => ?_, fun i hi => ?_, rfl, rfl, rfl, rfl, rfl, rfl, rfl, fun _ => rfl,
    ⟨rfl, rfl⟩, fun _ => rfl, ⟨rfl, rfl, rfl, rfl, rfl, rfl, rfl, rfl, rfl, rfl, rfl, rfl, rfl, rfl, rfl, rfl⟩⟩
  · exact pushIE_bit s.status 0 (by omega)
  · rw [cfg_ieStackDepth] at hi
    show (pushIE s.status).getLsbD (i + 1) = _
    rw [pushIE_bit _ _ (by omega)]; simp [hi]
  · rw [cfg_ieStackDepth] at hi
    by_cases h : i < 32
    · show (pushIE s.status).getLsbD i = _
      rw [pushIE_bit _ _ h, if_neg (by omega), if_neg (by omega)]
    · rw [BitVec.getLsbD_of_ge _ _ (by omega), BitVec.getLsbD_of_ge _ _ (by omega)]

end Sys2Proof.Machine
end

