-- ==== Sys2Proof/Laws/Access.lean ====
section
/-! SUPPORT. What one bus access does, by what is behind the address (`20_memory.md` R65), and the loads and stores over
it. -/

namespace Sys2Proof.Machine

/-! ### The bus -/

theorem inMemory_some {pa : Nat} (h : inMemory pa = true) : ∃ d, route pa = some d ∧ d.kind ≠ .register := by
  unfold inMemory at h
  split at h
  · exact ⟨_, ‹_›, by simpa using h⟩
  · cases h

theorem inWritableMemory_some {pa : Nat} (h : inWritableMemory pa = true) :
    ∃ d, route pa = some d ∧ d.kind = .memory false := by
  unfold inWritableMemory at h
  split at h
  · exact ⟨_, ‹_›, by simpa using h⟩
  · cases h

/-- Writable memory is memory. -/
theorem inMemory_of_writable {pa : Nat} (h : inWritableMemory pa = true) : inMemory pa = true := by
  obtain ⟨d, hd, hk⟩ := inWritableMemory_some h
  simp [inMemory, hd, hk]

theorem readOnly_some {pa : Nat} (h : inMemory pa = true) (hw : inWritableMemory pa = false) :
    ∃ d, route pa = some d ∧ d.kind = .memory true := by
  obtain ⟨d, hd, hk⟩ := inMemory_some h
  refine ⟨d, hd, ?_⟩
  cases e : d.kind with
  | register => exact absurd e hk
  | memory b =>
    cases b
    · simp [inWritableMemory, hd, e] at hw
    · rfl

theorem busRead_misaligned {s : State} {w : Width} {pa : Word} (hf : s.fatal = false)
    (ha : pa.toNat % w.bytes ≠ 0) : s.busRead w pa = .error .misalignedAccess := by
  unfold State.busRead; rw [if_neg (by simp [hf]), if_pos ha]

theorem busWrite_misaligned {s : State} {w : Width} {pa : Word} (v : Quad) (hf : s.fatal = false)
    (ha : pa.toNat % w.bytes ≠ 0) : s.busWrite w pa v = .error .misalignedAccess := by
  unfold State.busWrite; rw [if_neg (by simp [hf]), if_pos ha]

theorem busRead_unmapped {s : State} {w : Width} {pa : Word} (hf : s.fatal = false) (ha : pa.toNat % w.bytes = 0)
    (hr : route pa.toNat = none) : s.busRead w pa = .ok (s.unmappedRead w pa) := by
  unfold State.busRead; rw [if_neg (by simp [hf]), if_neg (by simp [ha]), hr]

theorem busWrite_unmapped {s : State} {w : Width} {pa : Word} (v : Quad) (hf : s.fatal = false)
    (ha : pa.toNat % w.bytes = 0) (hr : route pa.toNat = none) : s.busWrite w pa v = .ok s := by
  unfold State.busWrite; rw [if_neg (by simp [hf]), if_neg (by simp [ha]), hr]

theorem busRead_memory {s : State} {w : Width} {pa : Word} (hf : s.fatal = false) (ha : pa.toNat % w.bytes = 0)
    (hm : inMemory pa.toNat = true) : s.busRead w pa = .ok (s.memValue w pa.toNat, s) := by
  obtain ⟨d, hd, hk⟩ := inMemory_some hm
  unfold State.busRead
  rw [if_neg (by simp [hf]), if_neg (by simp [ha]), hd]
  simp only [if_pos (rdWidths_all hd w), State.devRead]
  split
  · rfl
  · exact absurd ‹_› hk

theorem busWrite_memory {s : State} {w : Width} {pa : Word} (v : Quad) (hf : s.fatal = false)
    (ha : pa.toNat % w.bytes = 0) (hm : inWritableMemory pa.toNat = true) :
    s.busWrite w pa v = .ok (s.memStore w pa.toNat v) := by
  obtain ⟨d, hd, hk⟩ := inWritableMemory_some hm
  unfold State.busWrite
  rw [if_neg (by simp [hf]), if_neg (by simp [ha]), hd]
  simp only [if_pos ((wrWidths_all hd w).2 (by simp [hk])), State.devWrite, hk]

theorem busWrite_readOnly {s : State} {w : Width} {pa : Word} (v : Quad) (hf : s.fatal = false)
    (ha : pa.toNat % w.bytes = 0) (hm : inMemory pa.toNat = true) (hw : inWritableMemory pa.toNat = false) :
    s.busWrite w pa v = .ok s := by
  obtain ⟨d, hd, hk⟩ := readOnly_some hm hw
  unfold State.busWrite
  rw [if_neg (by simp [hf]), if_neg (by simp [ha]), hd]
  simp only [if_neg (fun h => (wrWidths_all hd w).1 h hk)]

theorem busRead_register {s : State} {w : Width} {pa : Word} {d : Device} (hf : s.fatal = false)
    (ha : pa.toNat % w.bytes = 0) (hd : route pa.toNat = some d) (hk : d.kind = .register) :
    s.busRead w pa = .ok (s.registerRead d.name w pa) := by
  unfold State.busRead
  rw [if_neg (by simp [hf]), if_neg (by simp [ha]), hd]
  simp only [if_pos (rdWidths_all hd w), State.devRead, hk]

theorem busWrite_register {s : State} {w : Width} {pa : Word} {d : Device} (v : Quad) (hf : s.fatal = false)
    (ha : pa.toNat % w.bytes = 0) (hd : route pa.toNat = some d) (hk : d.kind = .register) :
    s.busWrite w pa v = .ok (s.registerWrite d.name w pa v) := by
  unfold State.busWrite
  rw [if_neg (by simp [hf]), if_neg (by simp [ha]), hd]
  simp only [if_pos ((wrWidths_all hd w).2 (by simp [hk])), State.devWrite, hk]

/-- A device's read of a MEMORY device is the bus's (`20_memory.md` R65, R78), under every configuration. -/
theorem deviceRead_memory {s : State} {w : Width} {pa : Word} {d : Device} (c : Config) (hf : s.fatal = false)
    (ha : pa.toNat % w.bytes = 0) (hd : route pa.toNat c = some d) (hk : d.kind ≠ .register) :
    s.busRead w pa c = .ok (s.deviceRead w pa c) := by
  unfold State.busRead State.deviceRead
  rw [if_neg (by simp [hf]), if_neg (by simp [ha]), hd]
  simp only [if_neg hk]
  split
  · unfold State.devRead
    split
    · rfl
    · exact absurd ‹_› hk
  · rfl

/-- A device's write of a MEMORY device is the bus's (R65, R76, R78), under every configuration. -/
theorem deviceStore_memory {s : State} {w : Width} {pa : Word} {d : Device} (v : Quad) (c : Config)
    (hf : s.fatal = false) (ha : pa.toNat % w.bytes = 0) (hd : route pa.toNat c = some d) (hk : d.kind ≠ .register) :
    s.busWrite w pa v c = .ok (s.deviceStore w pa.toNat v c) := by
  unfold State.busWrite State.deviceStore
  rw [if_neg (by simp [hf]), if_neg (by simp [ha]), hd]
  by_cases hw : w ∈ d.wrWidths
  · unfold State.devWrite
    simp only [if_pos hw]
    split <;> simp_all
  · simp [hw]

/-- A device's access elsewhere: the sentinel, and nothing stored (log entry 19). -/
theorem deviceAccess_elsewhere {s : State} (w : Width) {pa : Word} (v : Quad) (hm : inMemory pa.toNat = false) :
    s.deviceRead w pa = (unmappedValue w, s) ∧ s.deviceStore w pa.toNat v = s := by
  unfold inMemory at hm
  unfold State.deviceRead State.deviceStore
  cases hd : route pa.toNat with
  | none => exact ⟨rfl, rfl⟩
  | some d =>
    rw [hd] at hm
    have hk : d.kind = .register := by simpa using hm
    simp [hk]

/-- The alignment of the physical address is that of the effective address (R9). -/
theorem physWord_mod (s : State) (base : Reg) (imm : Half) (w : Width) :
    (s.physWord base imm).toNat % w.bytes = (s.effAddr base imm).toNat % w.bytes :=
  translate_mod _ (by cases w <;> decide)

/-! ### Loads and stores -/

/-- A load whose access succeeds and latches nothing. -/
theorem loadOp_ok {s t : State} {w : Width} {base : Reg} {imm : Half} {v : Quad} (d : Descriptor)
    (wr : State → Quad → State) (h : s.busRead w (s.physWord base imm) = .ok (v, t)) (hf : t.fatal = false) :
    loadOp d w base imm wr s = .next ((wr t v).retire d .done) := by
  unfold loadOp State.memRead
  rw [← State.physWord, h]
  simp [hf]

/-- A load whose access's side effects latched `fatal`. -/
theorem loadOp_fatal {s t : State} {w : Width} {base : Reg} {imm : Half} {v : Quad} (d : Descriptor)
    (wr : State → Quad → State) (h : s.busRead w (s.physWord base imm) = .ok (v, t)) (hf : t.fatal = true) :
    loadOp d w base imm wr s = .next t := by
  unfold loadOp State.memRead
  rw [← State.physWord, h]
  simp [hf]

theorem loadOp_misaligned {s : State} {w : Width} {base : Reg} {imm : Half} (d : Descriptor)
    (wr : State → Quad → State) (hf : s.fatal = false) (ha : (s.effAddr base imm).toNat % w.bytes ≠ 0) :
    Latches (loadOp d w base imm wr s) s .misalignedAccess := by
  refine ⟨s.retire d (.fatal .misalignedAccess (s.effAddr base imm)), ?_, retire_fatal _ _ _ _⟩
  unfold loadOp State.memRead
  rw [← State.physWord, busRead_misaligned hf (by rwa [physWord_mod])]

theorem storeOp_ok {s t : State} {w : Width} {base : Reg} {imm : Half} {v : Quad} (d : Descriptor)
    (h : s.busWrite w (s.physWord base imm) v = .ok t) (hf : t.fatal = false) :
    storeOp d w base imm v s = .next (t.retire d .done) := by
  unfold storeOp State.memWrite
  rw [← State.physWord, h]
  simp [hf]

theorem storeOp_fatal {s t : State} {w : Width} {base : Reg} {imm : Half} {v : Quad} (d : Descriptor)
    (h : s.busWrite w (s.physWord base imm) v = .ok t) (hf : t.fatal = true) :
    storeOp d w base imm v s = .next t := by
  unfold storeOp State.memWrite
  rw [← State.physWord, h]
  simp [hf]

theorem storeOp_misaligned {s : State} {w : Width} {base : Reg} {imm : Half} {v : Quad} (d : Descriptor)
    (hf : s.fatal = false) (ha : (s.effAddr base imm).toNat % w.bytes ≠ 0) :
    Latches (storeOp d w base imm v s) s .misalignedAccess := by
  refine ⟨s.retire d (.fatal .misalignedAccess (s.effAddr base imm)), ?_, retire_fatal _ _ _ _⟩
  unfold storeOp State.memWrite
  rw [← State.physWord, busWrite_misaligned v hf (by rwa [physWord_mod])]

/-- A store to writable memory: the frame. -/
theorem storeFrame (s : State) (i : Instr) (w : Width) (pa : Nat) (v : Quad) :
    StoreFrame i s ((s.memStore w pa v).retire (descriptor i) .done) pa w.bytes where
  tracker := tracked_done i rfl rfl rfl rfl rfl
  advanced := advancedDone _ rfl rfl rfl
  gprs := sameGprs_of_gpr (by simp)
  loHi := ⟨by simp, by simp⟩
  cop0 := retire_done_cop0 _ ⟨rfl, rfl, rfl, rfl, rfl⟩
  memory a h := by
    have := memStore_outside s w pa v a h
    simpa [State.byteAt] using this
  rest := retire_done_rest _ ⟨rfl, rfl, rfl, rfl, rfl, rfl, rfl, rfl, rfl, rfl, rfl, rfl, rfl, rfl, rfl, rfl⟩

end Sys2Proof.Machine
end

