-- ==== Sys2Proof/Laws/Encoding.lean ====
section
/-! SUPPORT. The formats of `30_encoding.md` R102 to R105: what the mask of a row keeps of a word built by a format,
and what each field function reads back from it. -/

namespace Sys2Proof

@[simp] theorem regBits_toFin (r : Reg) : (regBits r).toFin = r := by
  apply Fin.ext
  simp [regBits]

theorem regBits_zero_iff (r : Reg) : regBits r = 0 ↔ r = 0 :=
  ⟨fun h => by rw [← regBits_toFin r, h]; rfl, fun h => by rw [h]; rfl⟩

/-! ### Masks -/

theorem formatR_and_shift (rs rt rd : Reg) (sa : BitVec 5) (f : BitVec 6) :
    formatR rs rt rd sa f &&& 0xFFE0003F#32 = 0#6 ++ regBits rs ++ 0#15 ++ f := by
  apply BitVec.eq_of_getLsbD_eq
  intro i hi
  simp only [formatR, BitVec.getLsbD_and, BitVec.getLsbD_append]
  interval_cases i <;> simp

theorem formatR_and_rdRsRt (rs rt rd : Reg) (sa : BitVec 5) (f : BitVec 6) :
    formatR rs rt rd sa f &&& 0xFC0007FF#32 = 0#21 ++ sa ++ f := by
  apply BitVec.eq_of_getLsbD_eq
  intro i hi
  simp only [formatR, BitVec.getLsbD_and, BitVec.getLsbD_append]
  interval_cases i <;> simp

theorem formatR_and_rsRt (rs rt rd : Reg) (sa : BitVec 5) (f : BitVec 6) :
    formatR rs rt rd sa f &&& 0xFC00FFFF#32 = 0#16 ++ regBits rd ++ sa ++ f := by
  apply BitVec.eq_of_getLsbD_eq
  intro i hi
  simp only [formatR, BitVec.getLsbD_and, BitVec.getLsbD_append]
  interval_cases i <;> simp

theorem formatR_and_rd (rs rt rd : Reg) (sa : BitVec 5) (f : BitVec 6) :
    formatR rs rt rd sa f &&& 0xFFFF07FF#32 = 0#6 ++ regBits rs ++ regBits rt ++ 0#5 ++ sa ++ f := by
  apply BitVec.eq_of_getLsbD_eq
  intro i hi
  simp only [formatR, BitVec.getLsbD_and, BitVec.getLsbD_append]
  interval_cases i <;> simp

theorem formatR_and_rs (rs rt rd : Reg) (sa : BitVec 5) (f : BitVec 6) :
    formatR rs rt rd sa f &&& 0xFC1FFFFF#32 = 0#11 ++ regBits rt ++ regBits rd ++ sa ++ f := by
  apply BitVec.eq_of_getLsbD_eq
  intro i hi
  simp only [formatR, BitVec.getLsbD_and, BitVec.getLsbD_append]
  interval_cases i <;> simp

theorem formatR_and_funct (rs rt rd : Reg) (sa : BitVec 5) (f : BitVec 6) :
    formatR rs rt rd sa f &&& 0xFC00003F#32 = 0#26 ++ f := by
  apply BitVec.eq_of_getLsbD_eq
  intro i hi
  simp only [formatR, BitVec.getLsbD_and, BitVec.getLsbD_append]
  interval_cases i <;> simp

theorem formatTrap_and (rs rt : Reg) (code : Nat) (f : BitVec 6) :
    formatTrap rs rt code f &&& 0xFC00003F#32 = 0#26 ++ f := by
  apply BitVec.eq_of_getLsbD_eq
  intro i hi
  simp only [formatTrap, BitVec.getLsbD_and, BitVec.getLsbD_append]
  interval_cases i <;> simp

theorem formatCode_and (code : Nat) (f : BitVec 6) :
    formatCode code f &&& 0xFC00003F#32 = 0#26 ++ f := by
  apply BitVec.eq_of_getLsbD_eq
  intro i hi
  simp only [formatCode, BitVec.getLsbD_and, BitVec.getLsbD_append]
  interval_cases i <;> simp

theorem formatI_and (op : BitVec 6) (rs rt : Reg) (imm : Half) :
    formatI op rs rt imm &&& 0xFC000000#32 = op ++ 0#26 := by
  apply BitVec.eq_of_getLsbD_eq
  intro i hi
  simp only [formatI, BitVec.getLsbD_and, BitVec.getLsbD_append]
  interval_cases i <;> simp

theorem formatJ_and (op : BitVec 6) (index : BitVec 26) :
    formatJ op index &&& 0xFC000000#32 = op ++ 0#26 := by
  apply BitVec.eq_of_getLsbD_eq
  intro i hi
  simp only [formatJ, BitVec.getLsbD_and, BitVec.getLsbD_append]
  interval_cases i <;> simp

theorem formatC_and (sub : BitVec 5) (rt : Reg) (n : Nat) :
    formatC sub rt n &&& 0xFFE007FF#32 = 0x10#6 ++ sub ++ 0#21 := by
  apply BitVec.eq_of_getLsbD_eq
  intro i hi
  simp only [formatC, BitVec.getLsbD_and, BitVec.getLsbD_append]
  interval_cases i <;> simp

/-! ### Fields -/

theorem formatR_rs (rs rt rd : Reg) (sa : BitVec 5) (f : BitVec 6) : (formatR rs rt rd sa f).extractLsb' 21 5 = regBits rs := by
  ext i hi
  simp only [formatR, BitVec.getElem_extractLsb', BitVec.getLsbD_append]
  interval_cases i <;> simp [BitVec.getLsbD_eq_getElem]

theorem formatR_rt (rs rt rd : Reg) (sa : BitVec 5) (f : BitVec 6) : (formatR rs rt rd sa f).extractLsb' 16 5 = regBits rt := by
  ext i hi
  simp only [formatR, BitVec.getElem_extractLsb', BitVec.getLsbD_append]
  interval_cases i <;> simp [BitVec.getLsbD_eq_getElem]

theorem formatR_rd (rs rt rd : Reg) (sa : BitVec 5) (f : BitVec 6) : (formatR rs rt rd sa f).extractLsb' 11 5 = regBits rd := by
  ext i hi
  simp only [formatR, BitVec.getElem_extractLsb', BitVec.getLsbD_append]
  interval_cases i <;> simp [BitVec.getLsbD_eq_getElem]

theorem formatR_sa (rs rt rd : Reg) (sa : BitVec 5) (f : BitVec 6) : (formatR rs rt rd sa f).extractLsb' 6 5 = sa := by
  ext i hi
  simp only [formatR, BitVec.getElem_extractLsb', BitVec.getLsbD_append]
  interval_cases i <;> simp [BitVec.getLsbD_eq_getElem]

theorem formatTrap_rs (rs rt : Reg) (code : Nat) (f : BitVec 6) : (formatTrap rs rt code f).extractLsb' 21 5 = regBits rs := by
  ext i hi
  simp only [formatTrap, BitVec.getElem_extractLsb', BitVec.getLsbD_append]
  interval_cases i <;> simp [BitVec.getLsbD_eq_getElem]

theorem formatTrap_rt (rs rt : Reg) (code : Nat) (f : BitVec 6) : (formatTrap rs rt code f).extractLsb' 16 5 = regBits rt := by
  ext i hi
  simp only [formatTrap, BitVec.getElem_extractLsb', BitVec.getLsbD_append]
  interval_cases i <;> simp [BitVec.getLsbD_eq_getElem]

theorem formatTrap_code (rs rt : Reg) (code : Nat) (f : BitVec 6) : (formatTrap rs rt code f).extractLsb' 6 10 = BitVec.ofNat 10 code := by
  ext i hi
  simp only [formatTrap, BitVec.getElem_extractLsb', BitVec.getLsbD_append]
  interval_cases i <;> simp [BitVec.getLsbD_eq_getElem]

theorem formatCode_code (code : Nat) (f : BitVec 6) : (formatCode code f).extractLsb' 6 20 = BitVec.ofNat 20 code := by
  ext i hi
  simp only [formatCode, BitVec.getElem_extractLsb', BitVec.getLsbD_append]
  interval_cases i <;> simp [BitVec.getLsbD_eq_getElem]

theorem formatI_rs (op : BitVec 6) (rs rt : Reg) (imm : Half) : (formatI op rs rt imm).extractLsb' 21 5 = regBits rs := by
  ext i hi
  simp only [formatI, BitVec.getElem_extractLsb', BitVec.getLsbD_append]
  interval_cases i <;> simp [BitVec.getLsbD_eq_getElem]

theorem formatI_rt (op : BitVec 6) (rs rt : Reg) (imm : Half) : (formatI op rs rt imm).extractLsb' 16 5 = regBits rt := by
  ext i hi
  simp only [formatI, BitVec.getElem_extractLsb', BitVec.getLsbD_append]
  interval_cases i <;> simp [BitVec.getLsbD_eq_getElem]

theorem formatI_imm (op : BitVec 6) (rs rt : Reg) (imm : Half) : (formatI op rs rt imm).extractLsb' 0 16 = imm := by
  ext i hi
  simp only [formatI, BitVec.getElem_extractLsb', BitVec.getLsbD_append]
  interval_cases i <;> simp [BitVec.getLsbD_eq_getElem]

theorem formatJ_index (op : BitVec 6) (index : BitVec 26) : (formatJ op index).extractLsb' 0 26 = index := by
  ext i hi
  simp only [formatJ, BitVec.getElem_extractLsb', BitVec.getLsbD_append]
  interval_cases i <;> simp [BitVec.getLsbD_eq_getElem]

theorem formatC_rt (sub : BitVec 5) (rt : Reg) (n : Nat) : (formatC sub rt n).extractLsb' 16 5 = regBits rt := by
  ext i hi
  simp only [formatC, BitVec.getElem_extractLsb', BitVec.getLsbD_append]
  interval_cases i <;> simp [BitVec.getLsbD_eq_getElem]

theorem formatC_n (sub : BitVec 5) (rt : Reg) (n : Nat) : (formatC sub rt n).extractLsb' 11 5 = BitVec.ofNat 5 n := by
  ext i hi
  simp only [formatC, BitVec.getElem_extractLsb', BitVec.getLsbD_append]
  interval_cases i <;> simp [BitVec.getLsbD_eq_getElem]

end Sys2Proof
end

