-- ==== Sys2Proof/Laws/HostPorts.lean ====
section
/-! SUPPORT. What a component's `reset()` can do, under any configuration, and what the host's reset is under
CFG_REF. -/

namespace Sys2Proof.Machine

/-- All a component's `reset()` can touch (`47_run_loop_host.md` R258): the scheduler, the lines, the latch and the
streams. -/
def ResetEffect (s t : State) : Prop :=
  t = { s with
    sched := t.sched, irqLine := t.irqLine, fatal := t.fatal, fatalCode := t.fatalCode, out := t.out }

theorem ResetEffect.refl (s : State) : ResetEffect s s := rfl

theorem ResetEffect.trans {s t u : State} (h : ResetEffect s t) (g : ResetEffect t u) : ResetEffect s u := by
  unfold ResetEffect at *
  rw [g, h]

theorem schedAnswer_reset (s : State) (h : Nat) (a : Option (Nat × Sched)) : ResetEffect s (s.schedAnswer h a).2 := by
  cases a <;> rfl

/-- One port operation of a component's `reset()`. -/
theorem resetOp_effect (s : State) (op : PortOp) (c : Config) : ResetEffect s (s.resetOp op c) := by
  unfold State.resetOp State.deviceOp State.deviceCall
  cases op with
  | busRead w pa => rfl
  | busWrite w pa v => rfl
  | interlockRequest => rfl
  | wakeGraphics => rfl
  | registerFunction => simp only [State.registerFunction, idResult]; split <;> rfl
  | addEvent h d p =>
    simp only [State.addEvent, idResult]
    split
    · rfl
    · exact schedAnswer_reset s h _
  | addTimer h n =>
    simp only [State.addTimer, idResult]
    split
    · rfl
    · exact schedAnswer_reset s h _
  | irqSet i l => simp only [State.irqSet]; split <;> [rfl; (split <;> rfl)]

theorem resetOps_effect (ops : List PortOp) (c : Config) :
    ∀ s : State, ResetEffect s (ops.foldl (fun t op => t.resetOp op c) s) := by
  induction ops with
  | nil => exact ResetEffect.refl
  | cons op ops ih => exact fun s => (resetOp_effect s op c).trans (ih _)

/-- A component's whole `reset()`. -/
theorem componentReset_effect (s : State) (ops : List PortOp) (c : Config) :
    ResetEffect s (s.componentReset ops c) := by
  have h := resetOps_effect ops c s
  unfold State.componentReset
  simp only
  split
  · exact h
  · exact h.trans rfl

/-- A component's `reset()` that ends without a fatal leaves every line deasserted (`70_reset_and_hazards.md` R305). -/
theorem componentReset_lines {s : State} {ops : List PortOp} {c : Config}
    (h : (s.componentReset ops c).fatal = false) : (s.componentReset ops c).irqLine = 0 := by
  unfold State.componentReset at *
  simp only at *
  split
  · rename_i hf; rw [if_pos hf] at h; rw [hf] at h; cases h
  · rfl

/-- A component that registers a handler and a timer for it: what its next port operation finds. -/
theorem resetOps_register {s : State} (hf : s.fatal = false) (n : Dword) (ops : List PortOp) (c : Config) :
    (PortOp.registerFunction :: .addTimer s.sched.nextHandlerId n :: ops).foldl (fun t op => t.resetOp op c) s =
      ops.foldl (fun t op => t.resetOp op c)
        { s with
          sched :=
            { s.sched with
              handlers := s.sched.handlers ++ [s.sched.nextHandlerId], nextHandlerId := s.sched.nextHandlerId + 1
              timers := s.sched.timers ++
                [⟨n, s.sched.runCycles + n.toNat, s.sched.nextHandlerId, s.sched.seq, s.sched.seq⟩]
              seq := s.sched.seq + 1 } } := by
  simp [State.resetOp, State.deviceOp, State.deviceCall, State.registerFunction, State.addTimer, hf, idResult,
    Sched.registerFunction, Sched.addTimer, State.schedAnswer]

/-- The reserved bits that `WellFormed` asks to be zero (R264). -/
theorem SavedCause.wf_iff (k : SavedCause) :
    k.wf = true ↔ k.reserved30to16 = 0 ∧ k.reserved7 = false ∧ k.reserved1to0 = 0 := by
  simp [SavedCause.wf, and_assoc]

/-- A state's own `CAUSE` is accepted (R35). -/
@[simp] theorem savedCause_wf (s : State) : s.savedCause.wf = true := rfl

/-- What is saved of `CAUSE` after a load is what was loaded, if its reserved bits are zero (R263). -/
theorem savedCause_load (s : State) {b : Saved} (h : b.cause.wf = true) : (s.load b).savedCause = b.cause := by
  obtain ⟨h1, h2, h3⟩ := (SavedCause.wf_iff b.cause).1 h
  simp only [State.savedCause, State.load, ← h1, ← h2, ← h3]

/-- The LOOP's registration, the first after the reset state (R303): handler 0 and timer 0. -/
theorem registerFrame_reset (c : Config) (e : List EnvAnswer) (d : Nat) (o : List OutEvent) (n : Dword) :
    ({ State.resetOf c with env := e, draws := d, out := o } : State).registerFrame (some n) =
      { State.resetOf c with
        env := e, draws := d, out := o, frameHandler := some 0
        sched :=
          { Sched.reset with
            seq := 1, handlers := [0], nextHandlerId := 1
            timers := [⟨n, 0 + n.toNat, 0, 0, 0⟩] } } := rfl

/-- The host's reset under CFG_REF, where no component does anything (R303). -/
@[simp] theorem hostReset_cfg (s : State) :
    s.hostReset = { State.reset with env := s.env, draws := s.draws, out := s.out } := rfl

end Sys2Proof.Machine
end

