-- ==== Sys2Proof/Laws/PerInstr.lean ====
section
/-! SUPPORT. Statements about every instruction as syntax, one lemma per constructor (LAWS.json). -/

namespace Sys2Proof.Laws.Encoding

open Sys2Proof

/-- A row of the decode table matches the word of the instruction and builds the instruction back from it. -/
def Statement (i : Instr) : Prop :=
  i.wf = true → ∃ r ∈ decodeTable, r.matches (encode i) = true ∧ r.build (encode i) = i

theorem sll (rd rt : Reg) (sa : Nat) : Statement (.sll rd rt sa) := by
  intro h
  refine ⟨⟨0x00000000#32, 0xFFE0003F#32, fun w => .sll (regField w 11) (regField w 16) (numField w 6 5)⟩, by simp [decodeTable, integerRows, branchRows, loadRows, storeRows, systemRows], ?_, ?_⟩
  · simp only [Row.matches, encode, formatR_and_shift]; decide
  · simp only [Instr.wf, decide_eq_true_eq] at h
    simp [encode, regField, numField, formatR_rt, formatR_rd, formatR_sa, Nat.mod_eq_of_lt h]

theorem add (rd rs rt : Reg) : Statement (.add rd rs rt) := by
  intro h
  refine ⟨⟨0x00000020#32, 0xFC0007FF#32, buildRdRsRt .add⟩, by simp [decodeTable, integerRows, branchRows, loadRows, storeRows, systemRows], ?_, ?_⟩
  · simp only [Row.matches, encode, formatR_and_rdRsRt]; decide
  · simp [encode, buildRdRsRt, regField, formatR_rs, formatR_rt, formatR_rd]

theorem addi (rt rs : Reg) (imm : Half) : Statement (.addi rt rs imm) := by
  intro h
  refine ⟨⟨0x20000000#32, 0xFC000000#32, buildRtRsImm .addi⟩, by simp [decodeTable, integerRows, branchRows, loadRows, storeRows, systemRows], ?_, ?_⟩
  · simp only [Row.matches, encode, formatI_and]; decide
  · simp [encode, buildRtRsImm, regField, immField, formatI_rs, formatI_rt, formatI_imm]

theorem daddu (rd rs rt : Reg) : Statement (.daddu rd rs rt) := by
  intro h
  refine ⟨⟨0x0000002D#32, 0xFC0007FF#32, buildRdRsRt .daddu⟩, by simp [decodeTable, integerRows, branchRows, loadRows, storeRows, systemRows], ?_, ?_⟩
  · simp only [Row.matches, encode, formatR_and_rdRsRt]; decide
  · simp [encode, buildRdRsRt, regField, formatR_rs, formatR_rt, formatR_rd]

theorem mult (rs rt : Reg) : Statement (.mult rs rt) := by
  intro h
  refine ⟨⟨0x00000018#32, 0xFC00FFFF#32, buildRsRt .mult⟩, by simp [decodeTable, integerRows, branchRows, loadRows, storeRows, systemRows], ?_, ?_⟩
  · simp only [Row.matches, encode, formatR_and_rsRt]; decide
  · simp [encode, buildRsRt, regField, formatR_rs, formatR_rt]

theorem div (rs rt : Reg) : Statement (.div rs rt) := by
  intro h
  refine ⟨⟨0x0000001A#32, 0xFC00FFFF#32, buildRsRt .div⟩, by simp [decodeTable, integerRows, branchRows, loadRows, storeRows, systemRows], ?_, ?_⟩
  · simp only [Row.matches, encode, formatR_and_rsRt]; decide
  · simp [encode, buildRsRt, regField, formatR_rs, formatR_rt]

theorem mfhi (rd : Reg) : Statement (.mfhi rd) := by
  intro h
  refine ⟨⟨0x00000010#32, 0xFFFF07FF#32, fun w => .mfhi (regField w 11)⟩, by simp [decodeTable, integerRows, branchRows, loadRows, storeRows, systemRows], ?_, ?_⟩
  · simp only [Row.matches, encode, formatR_and_rd]; decide
  · simp [encode, regField, formatR_rd]

theorem mflo (rd : Reg) : Statement (.mflo rd) := by
  intro h
  refine ⟨⟨0x00000012#32, 0xFFFF07FF#32, fun w => .mflo (regField w 11)⟩, by simp [decodeTable, integerRows, branchRows, loadRows, storeRows, systemRows], ?_, ?_⟩
  · simp only [Row.matches, encode, formatR_and_rd]; decide
  · simp [encode, regField, formatR_rd]

theorem beq (rs rt : Reg) (imm : Half) : Statement (.beq rs rt imm) := by
  intro h
  refine ⟨⟨0x10000000#32, 0xFC000000#32, buildBranch .beq⟩, by simp [decodeTable, integerRows, branchRows, loadRows, storeRows, systemRows], ?_, ?_⟩
  · simp only [Row.matches, encode, formatI_and]; decide
  · simp [encode, buildBranch, regField, immField, formatI_rs, formatI_rt, formatI_imm]

theorem bne (rs rt : Reg) (imm : Half) : Statement (.bne rs rt imm) := by
  intro h
  refine ⟨⟨0x14000000#32, 0xFC000000#32, buildBranch .bne⟩, by simp [decodeTable, integerRows, branchRows, loadRows, storeRows, systemRows], ?_, ?_⟩
  · simp only [Row.matches, encode, formatI_and]; decide
  · simp [encode, buildBranch, regField, immField, formatI_rs, formatI_rt, formatI_imm]

theorem j (index : BitVec 26) : Statement (.j index) := by
  intro h
  refine ⟨⟨0x08000000#32, 0xFC000000#32, fun w => .j (indexField w)⟩, by simp [decodeTable, integerRows, branchRows, loadRows, storeRows, systemRows], ?_, ?_⟩
  · simp only [Row.matches, encode, formatJ_and]; decide
  · simp [encode, indexField, formatJ_index]

theorem jal (index : BitVec 26) : Statement (.jal index) := by
  intro h
  refine ⟨⟨0x0C000000#32, 0xFC000000#32, fun w => .jal (indexField w)⟩, by simp [decodeTable, integerRows, branchRows, loadRows, storeRows, systemRows], ?_, ?_⟩
  · simp only [Row.matches, encode, formatJ_and]; decide
  · simp [encode, indexField, formatJ_index]

theorem jr (rs : Reg) : Statement (.jr rs) := by
  intro h
  refine ⟨⟨0x00000008#32, 0xFC1FFFFF#32, fun w => .jr (regField w 21)⟩, by simp [decodeTable, integerRows, branchRows, loadRows, storeRows, systemRows], ?_, ?_⟩
  · simp only [Row.matches, encode, formatR_and_rs]; decide
  · simp [encode, regField, formatR_rs]

theorem lb (rt rs : Reg) (imm : Half) : Statement (.lb rt rs imm) := by
  intro h
  refine ⟨⟨0x80000000#32, 0xFC000000#32, buildRtRsImm .lb⟩, by simp [decodeTable, integerRows, branchRows, loadRows, storeRows, systemRows], ?_, ?_⟩
  · simp only [Row.matches, encode, formatI_and]; decide
  · simp [encode, buildRtRsImm, regField, immField, formatI_rs, formatI_rt, formatI_imm]

theorem lbu (rt rs : Reg) (imm : Half) : Statement (.lbu rt rs imm) := by
  intro h
  refine ⟨⟨0x90000000#32, 0xFC000000#32, buildRtRsImm .lbu⟩, by simp [decodeTable, integerRows, branchRows, loadRows, storeRows, systemRows], ?_, ?_⟩
  · simp only [Row.matches, encode, formatI_and]; decide
  · simp [encode, buildRtRsImm, regField, immField, formatI_rs, formatI_rt, formatI_imm]

theorem lh (rt rs : Reg) (imm : Half) : Statement (.lh rt rs imm) := by
  intro h
  refine ⟨⟨0x84000000#32, 0xFC000000#32, buildRtRsImm .lh⟩, by simp [decodeTable, integerRows, branchRows, loadRows, storeRows, systemRows], ?_, ?_⟩
  · simp only [Row.matches, encode, formatI_and]; decide
  · simp [encode, buildRtRsImm, regField, immField, formatI_rs, formatI_rt, formatI_imm]

theorem lhu (rt rs : Reg) (imm : Half) : Statement (.lhu rt rs imm) := by
  intro h
  refine ⟨⟨0x94000000#32, 0xFC000000#32, buildRtRsImm .lhu⟩, by simp [decodeTable, integerRows, branchRows, loadRows, storeRows, systemRows], ?_, ?_⟩
  · simp only [Row.matches, encode, formatI_and]; decide
  · simp [encode, buildRtRsImm, regField, immField, formatI_rs, formatI_rt, formatI_imm]

theorem lw (rt rs : Reg) (imm : Half) : Statement (.lw rt rs imm) := by
  intro h
  refine ⟨⟨0x8C000000#32, 0xFC000000#32, buildRtRsImm .lw⟩, by simp [decodeTable, integerRows, branchRows, loadRows, storeRows, systemRows], ?_, ?_⟩
  · simp only [Row.matches, encode, formatI_and]; decide
  · simp [encode, buildRtRsImm, regField, immField, formatI_rs, formatI_rt, formatI_imm]

theorem lwu (rt rs : Reg) (imm : Half) : Statement (.lwu rt rs imm) := by
  intro h
  refine ⟨⟨0x9C000000#32, 0xFC000000#32, buildRtRsImm .lwu⟩, by simp [decodeTable, integerRows, branchRows, loadRows, storeRows, systemRows], ?_, ?_⟩
  · simp only [Row.matches, encode, formatI_and]; decide
  · simp [encode, buildRtRsImm, regField, immField, formatI_rs, formatI_rt, formatI_imm]

theorem ld (rt rs : Reg) (imm : Half) : Statement (.ld rt rs imm) := by
  intro h
  refine ⟨⟨0xDC000000#32, 0xFC000000#32, buildRtRsImm .ld⟩, by simp [decodeTable, integerRows, branchRows, loadRows, storeRows, systemRows], ?_, ?_⟩
  · simp only [Row.matches, encode, formatI_and]; decide
  · simp [encode, buildRtRsImm, regField, immField, formatI_rs, formatI_rt, formatI_imm]

theorem lq (rt rs : Reg) (imm : Half) : Statement (.lq rt rs imm) := by
  intro h
  refine ⟨⟨0x78000000#32, 0xFC000000#32, buildRtRsImm .lq⟩, by simp [decodeTable, integerRows, branchRows, loadRows, storeRows, systemRows], ?_, ?_⟩
  · simp only [Row.matches, encode, formatI_and]; decide
  · simp [encode, buildRtRsImm, regField, immField, formatI_rs, formatI_rt, formatI_imm]

theorem sb (rt rs : Reg) (imm : Half) : Statement (.sb rt rs imm) := by
  intro h
  refine ⟨⟨0xA0000000#32, 0xFC000000#32, buildRtRsImm .sb⟩, by simp [decodeTable, integerRows, branchRows, loadRows, storeRows, systemRows], ?_, ?_⟩
  · simp only [Row.matches, encode, formatI_and]; decide
  · simp [encode, buildRtRsImm, regField, immField, formatI_rs, formatI_rt, formatI_imm]

theorem sh (rt rs : Reg) (imm : Half) : Statement (.sh rt rs imm) := by
  intro h
  refine ⟨⟨0xA4000000#32, 0xFC000000#32, buildRtRsImm .sh⟩, by simp [decodeTable, integerRows, branchRows, loadRows, storeRows, systemRows], ?_, ?_⟩
  · simp only [Row.matches, encode, formatI_and]; decide
  · simp [encode, buildRtRsImm, regField, immField, formatI_rs, formatI_rt, formatI_imm]

theorem sw (rt rs : Reg) (imm : Half) : Statement (.sw rt rs imm) := by
  intro h
  refine ⟨⟨0xAC000000#32, 0xFC000000#32, buildRtRsImm .sw⟩, by simp [decodeTable, integerRows, branchRows, loadRows, storeRows, systemRows], ?_, ?_⟩
  · simp only [Row.matches, encode, formatI_and]; decide
  · simp [encode, buildRtRsImm, regField, immField, formatI_rs, formatI_rt, formatI_imm]

theorem sd (rt rs : Reg) (imm : Half) : Statement (.sd rt rs imm) := by
  intro h
  refine ⟨⟨0xFC000000#32, 0xFC000000#32, buildRtRsImm .sd⟩, by simp [decodeTable, integerRows, branchRows, loadRows, storeRows, systemRows], ?_, ?_⟩
  · simp only [Row.matches, encode, formatI_and]; decide
  · simp [encode, buildRtRsImm, regField, immField, formatI_rs, formatI_rt, formatI_imm]

theorem sq (rt rs : Reg) (imm : Half) : Statement (.sq rt rs imm) := by
  intro h
  refine ⟨⟨0x7C000000#32, 0xFC000000#32, buildRtRsImm .sq⟩, by simp [decodeTable, integerRows, branchRows, loadRows, storeRows, systemRows], ?_, ?_⟩
  · simp only [Row.matches, encode, formatI_and]; decide
  · simp [encode, buildRtRsImm, regField, immField, formatI_rs, formatI_rt, formatI_imm]

theorem tge (rs rt : Reg) (code : Nat) : Statement (.tge rs rt code) := by
  intro h
  refine ⟨⟨0x00000030#32, 0xFC00003F#32, buildTrap .tge⟩, by simp [decodeTable, integerRows, branchRows, loadRows, storeRows, systemRows], ?_, ?_⟩
  · simp only [Row.matches, encode, formatTrap_and]; decide
  · simp only [Instr.wf, decide_eq_true_eq] at h
    simp [encode, buildTrap, regField, numField, formatTrap_rs, formatTrap_rt, formatTrap_code, Nat.mod_eq_of_lt h]

theorem tgeu (rs rt : Reg) (code : Nat) : Statement (.tgeu rs rt code) := by
  intro h
  refine ⟨⟨0x00000031#32, 0xFC00003F#32, buildTrap .tgeu⟩, by simp [decodeTable, integerRows, branchRows, loadRows, storeRows, systemRows], ?_, ?_⟩
  · simp only [Row.matches, encode, formatTrap_and]; decide
  · simp only [Instr.wf, decide_eq_true_eq] at h
    simp [encode, buildTrap, regField, numField, formatTrap_rs, formatTrap_rt, formatTrap_code, Nat.mod_eq_of_lt h]

theorem tlt (rs rt : Reg) (code : Nat) : Statement (.tlt rs rt code) := by
  intro h
  refine ⟨⟨0x00000032#32, 0xFC00003F#32, buildTrap .tlt⟩, by simp [decodeTable, integerRows, branchRows, loadRows, storeRows, systemRows], ?_, ?_⟩
  · simp only [Row.matches, encode, formatTrap_and]; decide
  · simp only [Instr.wf, decide_eq_true_eq] at h
    simp [encode, buildTrap, regField, numField, formatTrap_rs, formatTrap_rt, formatTrap_code, Nat.mod_eq_of_lt h]

theorem tltu (rs rt : Reg) (code : Nat) : Statement (.tltu rs rt code) := by
  intro h
  refine ⟨⟨0x00000033#32, 0xFC00003F#32, buildTrap .tltu⟩, by simp [decodeTable, integerRows, branchRows, loadRows, storeRows, systemRows], ?_, ?_⟩
  · simp only [Row.matches, encode, formatTrap_and]; decide
  · simp only [Instr.wf, decide_eq_true_eq] at h
    simp [encode, buildTrap, regField, numField, formatTrap_rs, formatTrap_rt, formatTrap_code, Nat.mod_eq_of_lt h]

theorem teq (rs rt : Reg) (code : Nat) : Statement (.teq rs rt code) := by
  intro h
  refine ⟨⟨0x00000034#32, 0xFC00003F#32, buildTrap .teq⟩, by simp [decodeTable, integerRows, branchRows, loadRows, storeRows, systemRows], ?_, ?_⟩
  · simp only [Row.matches, encode, formatTrap_and]; decide
  · simp only [Instr.wf, decide_eq_true_eq] at h
    simp [encode, buildTrap, regField, numField, formatTrap_rs, formatTrap_rt, formatTrap_code, Nat.mod_eq_of_lt h]

theorem tne (rs rt : Reg) (code : Nat) : Statement (.tne rs rt code) := by
  intro h
  refine ⟨⟨0x00000036#32, 0xFC00003F#32, buildTrap .tne⟩, by simp [decodeTable, integerRows, branchRows, loadRows, storeRows, systemRows], ?_, ?_⟩
  · simp only [Row.matches, encode, formatTrap_and]; decide
  · simp only [Instr.wf, decide_eq_true_eq] at h
    simp [encode, buildTrap, regField, numField, formatTrap_rs, formatTrap_rt, formatTrap_code, Nat.mod_eq_of_lt h]

theorem syscall (code : Nat) : Statement (.syscall code) := by
  intro h
  refine ⟨⟨0x0000000C#32, 0xFC00003F#32, fun w => .syscall (numField w 6 20)⟩, by simp [decodeTable, integerRows, branchRows, loadRows, storeRows, systemRows], ?_, ?_⟩
  · simp only [Row.matches, encode, formatCode_and]; decide
  · simp only [Instr.wf, decide_eq_true_eq] at h
    simp [encode, numField, formatCode_code, Nat.mod_eq_of_lt h]

theorem breakpoint (code : Nat) : Statement (.breakpoint code) := by
  intro h
  refine ⟨⟨0x0000000D#32, 0xFC00003F#32, fun w => .breakpoint (numField w 6 20)⟩, by simp [decodeTable, integerRows, branchRows, loadRows, storeRows, systemRows], ?_, ?_⟩
  · simp only [Row.matches, encode, formatCode_and]; decide
  · simp only [Instr.wf, decide_eq_true_eq] at h
    simp [encode, numField, formatCode_code, Nat.mod_eq_of_lt h]

theorem eret : Statement .eret := fun _ => ⟨⟨0x42000018#32, 0xFFFFFFFF#32, fun _ => .eret⟩, by simp [decodeTable, systemRows], by decide, rfl⟩

theorem mfc0 (rt : Reg) (n : Nat) : Statement (.mfc0 rt n) := by
  intro h
  refine ⟨⟨0x40000000#32, 0xFFE007FF#32, buildCop0 .mfc0⟩, by simp [decodeTable, integerRows, branchRows, loadRows, storeRows, systemRows], ?_, ?_⟩
  · simp only [Row.matches, encode, formatC_and]; decide
  · simp only [Instr.wf, decide_eq_true_eq] at h
    simp [encode, buildCop0, regField, numField, formatC_rt, formatC_n, Nat.mod_eq_of_lt h]

theorem mtc0 (rt : Reg) (n : Nat) : Statement (.mtc0 rt n) := by
  intro h
  refine ⟨⟨0x40800000#32, 0xFFE007FF#32, buildCop0 .mtc0⟩, by simp [decodeTable, integerRows, branchRows, loadRows, storeRows, systemRows], ?_, ?_⟩
  · simp only [Row.matches, encode, formatC_and]; decide
  · simp only [Instr.wf, decide_eq_true_eq] at h
    simp [encode, buildCop0, regField, numField, formatC_rt, formatC_n, Nat.mod_eq_of_lt h]

theorem wait : Statement .wait := fun _ => ⟨⟨0x42000020#32, 0xFFFFFFFF#32, fun _ => .wait⟩, by simp [decodeTable, systemRows], by decide, rfl⟩

theorem cfc2i : Statement .cfc2i := fun _ => ⟨⟨0x48400001#32, 0xFFFFFFFF#32, fun _ => .cfc2i⟩, by simp [decodeTable, systemRows], by decide, rfl⟩

end Sys2Proof.Laws.Encoding
end

