-- ==== Sys2Proof/Laws/Records.lean ====
section
/-! SUPPORT. Which records the port operations of an agent put on the output streams: accesses, diagnostics and wakes,
never a `Fire`, a unit's turn or the tracker's. -/

namespace Sys2Proof.Machine

/-- A record that a port operation can emit. -/
def OutEvent.ofPort : OutEvent → Bool
  | .unmappedRead _ _ => true
  | .diag _ _ _ => true
  | .devRead _ _ _ _ => true
  | .devWrite _ _ _ _ => true
  | .wakeGraphics => true
  | .hazard _ _ _ _ _ => false
  | .unitTurn _ _ => false
  | .fire _ _ _ => false

/-- A record that a port operation of a device or a fired handler can emit: its accesses reach memory only, which
records nothing but a read without a delegate (`20_memory.md` R75 to R78). -/
def OutEvent.ofDevice : OutEvent → Bool
  | .diag _ _ _ => true
  | .wakeGraphics => true
  | .unmappedRead _ _ => true
  | .devRead _ _ _ _ => false
  | .devWrite _ _ _ _ => false
  | .hazard _ _ _ _ _ => false
  | .unitTurn _ _ => false
  | .fire _ _ _ => false

/-- The streams grew by records with the property `p` alone. -/
def Emits (p : OutEvent → Bool) (s t : State) : Prop := ∃ l, t.out = l ++ s.out ∧ ∀ e ∈ l, p e = true

/-- The streams grew by records of port operations alone. -/
abbrev PortRecords : State → State → Prop := Emits OutEvent.ofPort

/-- The streams grew by records of a device's port operations alone. -/
abbrev DeviceRecords : State → State → Prop := Emits OutEvent.ofDevice

variable {p : OutEvent → Bool}

theorem Emits.same {s t : State} (h : t.out = s.out) : Emits p s t := ⟨[], h, by simp⟩

theorem Emits.refl (s : State) : Emits p s s := .same rfl

theorem Emits.emit (s : State) {e : OutEvent} (h : p e = true) : Emits p s (s.emit e) :=
  ⟨[e], rfl, by simpa using h⟩

theorem Emits.fatal (hp : ∀ c w i, p (.diag c w i) = true) (s : State) (c : FatalCode) (i : Word) :
    Emits p s (s.latchFatal c i) := ⟨[_], rfl, by simp [hp]⟩

theorem Emits.trans {s t u : State} (h : Emits p s t) (g : Emits p t u) : Emits p s u := by
  obtain ⟨a, ha, pa⟩ := h
  obtain ⟨b, hb, pb⟩ := g
  refine ⟨b ++ a, by rw [hb, ha, List.append_assoc], fun e he => ?_⟩
  rcases List.mem_append.1 he with he | he
  · exact pb e he
  · exact pa e he

theorem PortRecords.fatal (s : State) (c : FatalCode) (i : Word) : PortRecords s (s.latchFatal c i) :=
  Emits.fatal (fun _ _ _ => rfl) s c i

theorem DeviceRecords.fatal (s : State) (c : FatalCode) (i : Word) : DeviceRecords s (s.latchFatal c i) :=
  Emits.fatal (fun _ _ _ => rfl) s c i

/-- A device's port operations are port operations. -/
theorem DeviceRecords.port {s t : State} (h : DeviceRecords s t) : PortRecords s t := by
  obtain ⟨l, hl, pl⟩ := h
  refine ⟨l, hl, fun e he => ?_⟩
  have := pl e he
  cases e <;> first | rfl | cases this

/-- A device's port operations make no access record. -/
theorem DeviceRecords.noAccess {s t : State} (h : DeviceRecords s t) :
    ∃ l, t.out = l ++ s.out ∧ NoAccessRecord l := by
  obtain ⟨l, hl, pl⟩ := h
  exact ⟨l, hl, fun n w pa v => ⟨fun h => (by cases pl _ h), fun h => (by cases pl _ h)⟩⟩

theorem schedAnswer_records (s : State) (h : Nat) (a : Option (Nat × Sched)) :
    DeviceRecords s (s.schedAnswer h a).2 := by
  cases a with
  | none => exact DeviceRecords.fatal s _ _
  | some r => exact .same rfl

/-- A device's read. -/
theorem deviceRead_records (s : State) (w : Width) (pa : Word) : DeviceRecords s (s.deviceRead w pa).2 := by
  unfold State.deviceRead
  split
  · split
    · exact Emits.refl s
    · split
      · exact Emits.refl s
      · exact Emits.emit s rfl
  · exact Emits.refl s

/-- Every port operation of a device or a fired handler. -/
theorem deviceOp_records (s : State) (op : PortOp) : DeviceRecords s (s.deviceOp op) := by
  unfold State.deviceOp State.deviceCall
  split
  · exact .refl s
  · cases op with
    | busRead w pa =>
      simp only
      split
      · exact DeviceRecords.fatal s _ _
      · exact deviceRead_records s w pa
    | busWrite w pa v =>
      simp only
      split
      · exact DeviceRecords.fatal s _ _
      · unfold State.deviceStore
        split
        · split <;> exact .same rfl
        · exact .refl s
    | registerFunction => simp only [State.registerFunction, idResult]; split <;> exact .same rfl
    | addEvent h d p =>
      simp only [State.addEvent, idResult]
      split
      · exact .refl s
      · exact schedAnswer_records s h _
    | addTimer h n =>
      simp only [State.addTimer, idResult]
      split
      · exact .refl s
      · exact schedAnswer_records s h _
    | irqSet i l => simp only [State.irqSet]; split <;> exact .same rfl
    | interlockRequest => exact .refl s
    | wakeGraphics => exact .refl s

theorem deviceOps_records (ops : List PortOp) : ∀ s : State, DeviceRecords s (s.deviceOps ops) := by
  induction ops with
  | nil => exact Emits.refl
  | cons op ops ih => exact fun s => (deviceOp_records s op).trans (ih _)

theorem writeOp_records (n : DeviceName) (s : State) (op : PortOp) : DeviceRecords s (State.writeOp n s op) := by
  unfold State.writeOp
  split
  · exact .emit s rfl
  · exact deviceOp_records s op

theorem writeOps_records (n : DeviceName) (ops : List PortOp) : ∀ s : State, DeviceRecords s (s.writeOps n ops) := by
  induction ops with
  | nil => exact Emits.refl
  | cons op ops ih => exact fun s => (writeOp_records n s op).trans (ih _)

theorem takeAnswer_records (s : State) : PortRecords s s.takeAnswer := .same (by simp)

/-- A read of a REGISTER device (R78): the record stands on the old streams, the side effects follow. -/
theorem registerRead_eq (s : State) (n : DeviceName) (w : Width) (pa : Word) :
    s.registerRead n w pa = (cutTo w s.nextAnswer.value,
      ({ s.takeAnswer with
        out := .devRead n w pa (cutTo w s.nextAnswer.value) :: s.out } : State).deviceOps s.nextAnswer.ops) := by
  simp [State.registerRead, State.emit]

/-- A write of a REGISTER device (R78). -/
theorem registerWrite_eq (s : State) (n : DeviceName) (w : Width) (pa : Word) (v : Quad) :
    s.registerWrite n w pa v =
      ({ s.takeAnswer with out := .devWrite n w pa (cutTo w v) :: s.out } : State).writeOps n s.nextAnswer.ops := by
  simp [State.registerWrite, State.emit]

/-- A bus read. -/
theorem busRead_records {s t : State} {w : Width} {pa : Word} {v : Quad} (h : s.busRead w pa = .ok (v, t)) :
    PortRecords s t := by
  unfold State.busRead at h
  split at h
  · cases h; exact .refl s
  · split at h
    · cases h
    · split at h
      · cases h; exact .emit s rfl
      · split at h
        · rename_i d _ _
          have e := congrArg Prod.snd (Except.ok.inj h)
          rw [← show _ = t from e]
          unfold State.devRead
          split
          · exact .refl s
          · exact ((takeAnswer_records s).trans (.emit _ rfl)).trans (deviceOps_records _ _).port
        · cases h; exact .emit s rfl

/-- A bus write. -/
theorem busWrite_records {s t : State} {w : Width} {pa : Word} {v : Quad} (h : s.busWrite w pa v = .ok t) :
    PortRecords s t := by
  unfold State.busWrite at h
  split at h
  · cases h; exact .refl s
  · split at h
    · cases h
    · split at h
      · cases h; exact .refl s
      · split at h
        · rw [← Except.ok.inj h]
          unfold State.devWrite
          split
          · exact .refl s
          · exact .same rfl
          · exact ((takeAnswer_records s).trans (.emit _ rfl)).trans (writeOps_records _ _ _).port
        · cases h; exact .refl s

theorem interlockRequest_records (s : State) (x : IlockSide) : PortRecords s (s.interlockRequest x).2 := by
  unfold State.interlockRequest
  split
  · exact .refl s
  · split
    · cases x <;> exact .same rfl
    · split
      · cases x <;> exact .same rfl
      · exact .same rfl

/-- Every port operation of an external unit. -/
theorem unitOp_records (u : ExtUnit) (s : State) (op : PortOp) : PortRecords s (s.unitOp u op) := by
  unfold State.unitOp State.unitCall
  split
  · exact .refl s
  · cases op with
    | busRead w pa =>
      simp only [State.unitRead]
      split
      · rename_i h; exact busRead_records h
      · exact PortRecords.fatal s _ _
    | busWrite w pa v =>
      simp only [State.unitWrite]
      split
      · rename_i h; exact busWrite_records h
      · exact PortRecords.fatal s _ _
    | interlockRequest =>
      simp only [State.unitInterlock]
      split
      · exact interlockRequest_records s .vu
      · exact .refl s
    | registerFunction => exact (deviceOp_records s _).port
    | addEvent h d p => exact (deviceOp_records s _).port
    | addTimer h n => exact (deviceOp_records s _).port
    | irqSet i l => exact (deviceOp_records s _).port
    | wakeGraphics => exact (deviceOp_records s _).port

theorem unitOps_records (u : ExtUnit) (ops : List PortOp) : ∀ s : State, PortRecords s (State.unitOps u s ops) := by
  induction ops with
  | nil => exact Emits.refl
  | cons op ops ih => exact fun s => (unitOp_records u s op).trans (ih _)

end Sys2Proof.Machine
end

