-- ==== Sys2Proof/Laws/Step.lean ====
section
/-! SUPPORT. Everything a step can do, said once: the instruction step and each move of the run loop. -/

namespace Sys2Proof.Machine

/-- The dispatch of any configuration is `exec` at CFG_REF. -/
@[simp] theorem meaning_cfg (i : Instr) (s : State) : meaning i s = exec i s := by cases i <;> rfl

/-- CFG_REF decodes by the table of R101. -/
@[simp] theorem decodeWith_cfg (w : Word) : decodeWith cfg.decodeTable w = decodeWord w := rfl

/-- Under CFG_REF nothing comes before a fetch (`60_exceptions.md` R275, PER_SLICE). -/
@[simp] theorem stepCheck_cfg (s : State) : s.stepCheck = s := rfl

/-- The charged step under CFG_REF. -/
theorem chargedStep_eq (s : State) : chargedStep s = charged (coreStep s) := rfl

/-- Dispatch of a fetched word under CFG_REF. -/
theorem runWord_eq (w : Word) (s : State) : runWord w s =
    match decodeWord w with
    | .ok i => exec i s
    | .error _ => .next (s.latchFatal .unknownInstruction w) := by
  unfold runWord
  rw [decodeWith_cfg]
  cases decodeWord w <;> simp

/-- What committing the budget of an iteration does while the latch is clear (R229, R231). -/
theorem commitBudget_eq {s : State} (h : s.fatal = false) :
    s.commitBudget = { s with sched := s.sched.calculateRunCycles.updateCycleCounts } := by
  simp [State.commitBudget, State.calculateRunCycles, State.updateCycleCounts, h]

/-- The beginning of an iteration while the latch is clear (R251, R139). -/
theorem beginIteration_eq {s : State} (h : s.fatal = false) :
    s.beginIteration =
      { ({ s with sched := s.sched.calculateRunCycles.updateCycleCounts } : State).interruptCheck with
        phase := .core
          ({ s with sched := s.sched.calculateRunCycles.updateCycleCounts } : State).interruptCheck.sched.cpuBudget } := by
  unfold State.beginIteration
  rw [commitBudget_eq h]

/-- Fetch: the device effect of one 32-bit read, from the state with `next_pc` latched. -/
theorem fetch_effect {s t : State} {w : Word} (h : s.fetch = .ok (w, t)) : DeviceEffect s.latchNextPc t := by
  unfold State.fetch at h
  split at h
  · rename_i hm
    cases h
    exact busRead_effect hm
  · cases h

/-- The interrupt check is within the effect of an instruction, and touches only coprocessor 0, the branch state, `pc`,
the wait flag and the tracker. -/
theorem interruptCheck_effect (s : State) : ExecEffect s s.interruptCheck := by
  have wake : ExecEffect s { s with waitForIrq := false } :=
    ⟨rfl, id, fun _ _ => rfl, SchedGrows.refl _, id, id, rfl, rfl, id, fun a _ c => ⟨a, c⟩⟩
  unfold State.interruptCheck
  split
  · exact (DeviceEffect.refl s).exec
  · split
    · refine wake.trans (t := { s with waitForIrq := false }) ?_
      exact ⟨rfl, id, fun _ _ => rfl, SchedGrows.refl _, id, id, rfl, rfl, pushIE_reserved,
        fun _ _ _ => ⟨show cfg.excVector.toNat % 4 = 0 by decide, fun h => by cases h⟩⟩
    · exact wake

@[simp] theorem interruptCheck_sched (s : State) : s.interruptCheck.sched = s.sched := by
  unfold State.interruptCheck; split <;> [rfl; (split <;> rfl)]

@[simp] theorem interruptCheck_mem (s : State) : s.interruptCheck.mem = s.mem := by
  unfold State.interruptCheck; split <;> [rfl; (split <;> rfl)]

@[simp] theorem interruptCheck_gpr (s : State) : s.interruptCheck.gpr = s.gpr := by
  unfold State.interruptCheck; split <;> [rfl; (split <;> rfl)]

@[simp] theorem interruptCheck_fatal (s : State) : s.interruptCheck.fatal = s.fatal := by
  unfold State.interruptCheck; split <;> [rfl; (split <;> rfl)]

/-- Every instruction step answers a next state, within the effect of an instruction from the state that Fetch
leaves. -/
theorem coreStep_effect (s : State) : ∃ t, coreStep s = .next t ∧ ExecEffect s.latchNextPc t := by
  unfold coreStep
  cases h : s.fetch with
  | error c => exact ⟨_, rfl, (latchFatal_effect _ _ _).exec⟩
  | ok r =>
    obtain ⟨w, t⟩ := r
    have e := (fetch_effect h).exec
    simp only
    split
    · exact ⟨_, rfl, e⟩
    · rw [runWord_eq]
      cases decodeWord w with
      | error _ => exact ⟨_, rfl, e.trans (latchFatal_effect _ _ _).exec⟩
      | ok i =>
        obtain ⟨u, hu, g⟩ := exec_effect i t
        exact ⟨u, hu, e.trans g⟩

/-- A charged step answers the charged state. -/
theorem chargedStep_effect (s : State) :
    ∃ t, chargedStep s = .next t.charge ∧ coreStep s = .next t ∧ ExecEffect s.latchNextPc t := by
  obtain ⟨t, h, e⟩ := coreStep_effect s
  exact ⟨t, by unfold chargedStep; rw [stepCheck_cfg, h]; rfl, h, e⟩

/-- The slice goes on only inside `CoreRun`, with a cycle left and no wait (R139). -/
theorem sliceOn_iff (s : State) : s.sliceOn = true ↔ ∃ r, s.phase = .core r ∧ 0 < r ∧ s.waitForIrq = false := by
  unfold State.sliceOn
  split
  · rename_i r h; simp [h]
  all_goals rename_i h; simp [h]

/-- A step of a slice that goes on is a charged instruction step. -/
theorem step_slice {s : State} (h : s.stepsNext) : step s = chargedStep s := by
  obtain ⟨r, hr, _⟩ := (sliceOn_iff s).1 h.2
  unfold step move
  rw [if_neg (by simp [h.1])]
  split <;> simp_all [State.stepsNext]

/-- With the latch set no step follows (R295). -/
theorem step_fatal {s : State} (h : s.fatal = true) : step s = .fault (.fatalLatched s.fatalCode) := by
  unfold step move; rw [if_pos h]

/-- Every step that has a next state, by what moved: an instruction, or one move of the run loop. -/
theorem step_cases {s t : State} (h : step s = .next t) : s.fatal = false ∧
    ((s.sliceOn = true ∧ ∃ u, coreStep s = .next u ∧ ExecEffect s.latchNextPc u ∧ t = u.charge) ∨
     (s.sliceOn = false ∧
      ((s.phase = .idle ∧ t = s.startFrame) ∨ (s.phase = .frame ∧ t = s.beginIteration) ∨
       ((∃ r, s.phase = .core r) ∧ t = s.endSlice) ∨ (s.phase = .units [] ∧ t = s.snapshot) ∨
       (∃ u us, s.phase = .units (u :: us) ∧ t = ({ s with phase := .units us }).unitTurn u) ∨
       (s.phase = .firing [] ∧ t = s.endIteration) ∨
       (∃ d ds, s.phase = .firing (d :: ds) ∧ t = ({ s with phase := .firing ds }).fireDue d)))) := by
  have hf : s.fatal = false := by
    by_contra hc
    rw [step_fatal (by simpa using hc)] at h; cases h
  refine ⟨hf, ?_⟩
  by_cases hs : s.sliceOn = true
  · refine .inl ⟨hs, ?_⟩
    rw [step_slice ⟨hf, hs⟩] at h
    obtain ⟨u, hu, hc, he⟩ := chargedStep_effect s
    rw [hu] at h
    exact ⟨u, hc, he, (Host.Outcome.next.inj h).symm⟩
  · have hs' : s.sliceOn = false := by simpa using hs
    refine .inr ⟨hs', ?_⟩
    unfold step move at h
    rw [if_neg (by simp [hf])] at h
    split at h
    · exact .inl ⟨‹_›, (Host.Outcome.next.inj h).symm⟩
    · exact .inr (.inl ⟨‹_›, (Host.Outcome.next.inj h).symm⟩)
    · rw [if_neg hs] at h
      exact .inr (.inr (.inl ⟨⟨_, ‹_›⟩, (Host.Outcome.next.inj h).symm⟩))
    · exact .inr (.inr (.inr (.inl ⟨‹_›, (Host.Outcome.next.inj h).symm⟩)))
    · exact .inr (.inr (.inr (.inr (.inl ⟨_, _, ‹_›, (Host.Outcome.next.inj h).symm⟩))))
    · exact .inr (.inr (.inr (.inr (.inr (.inl ⟨‹_›, (Host.Outcome.next.inj h).symm⟩)))))
    · exact .inr (.inr (.inr (.inr (.inr (.inr ⟨_, _, ‹_›, (Host.Outcome.next.inj h).symm⟩)))))

/-- One entry fires: everything it can do besides removing or re-arming the entry. -/
theorem fireDue_effect (s : State) (d : Due) :
    (∃ e, d = .event e ∧ ∃ u, DeviceEffect ({ s with sched := s.sched.removeEvent e }) u ∧
      s.fireDue d = { u with frameComplete := (s.fireDue d).frameComplete }) ∨
    (∃ m, d = .timer m ∧ ∃ u, DeviceEffect ({ s with sched := s.sched.rearm m }) u ∧
      s.fireDue d = { u with frameComplete := (s.fireDue d).frameComplete }) := by
  have fire : ∀ (v : State) (h : Nat) (p : Dword) (c : Nat), ∃ u, DeviceEffect v u ∧
      v.fire h p c = { u with frameComplete := (v.fire h p c).frameComplete } := by
    intro v h p c
    by_cases hf : v.frameHandler = some h
    · exact ⟨v.emit (.fire h p c), emit_effect _ _, by unfold State.fire; rw [if_pos hf]⟩
    · exact ⟨_, fire_effect v h p c hf, rfl⟩
  cases d with
  | event e => exact .inl ⟨e, rfl, fire _ _ _ _⟩
  | timer m => exact .inr ⟨m, rfl, fire _ _ _ _⟩

end Sys2Proof.Machine
end

