-- ==== Sys2Proof/Tests/Slice0.lean ====
section
/-! SUPPORT. The model's own tests: ill-formed terms refused; words written out from the spec's encodings; one step per
instruction with the values of the spec's examples (`41_integer.md` to `45_system.md`, `95_test_vectors.md`); and for
every statement with hypotheses a concrete state and operands that meet them. -/

namespace Sys2Proof.Tests

open Sys2Proof Sys2Proof.Machine

/-! ### Helpers -/

/-- The outcome is a next state of which `p` holds. -/
def aft (o : Host.Outcome State Fault Refusal) (p : State → Bool) : Bool :=
  match o with
  | .next t => p t
  | .fault _ => false
  | .refused _ => false

theorem next_of_aft {o : Host.Outcome State Fault Refusal} {p : State → Bool} (h : aft o p = true) :
    ∃ t, o = .next t ∧ p t = true := by
  cases o with
  | next t => exact ⟨t, rfl, h⟩
  | fault _ => cases h
  | refused _ => cases h

/-- The reset state with `pc`, `x[1]` and `x[2]` set: the start of most vectors. -/
def start (pc : Word) (a b : Dword) : State := (({ State.reset with pc := pc }).setX 1 a).setX 2 b

/-- One step from `s`, running the word `w` at `pc`. -/
def one (s : State) (w : Nat) (p : State → Bool) : Bool := aft (step (s.withFetchWord 32 w)) p

/-- A state with bytes stored at a physical address. -/
def withBytes (s : State) (a : Nat) (bs : List Byte) : State := { s with mem := Memory.writeBytes s.mem a bs }

/-- The reset state inside a slice of five cycles, `next_pc` as Fetch leaves it for `pc` = 0x20. -/
def slice : State := { State.reset with pc := 0x20#32, nextPc := 0x24#32, phase := .core 5 }

/-- `slice` with `x[1]` set. -/
def slice1 (a : Dword) : State := slice.setX 1 a

/-! ### Ill-formed terms are refused, one for each check -/

theorem test_wf_sll : (Instr.sll 1 2 32).wf = false ∧ (Instr.sll 1 2 31).wf = true := by decide
theorem test_wf_tge : (Instr.tge 1 2 1024).wf = false ∧ (Instr.tge 1 2 1023).wf = true := by decide
theorem test_wf_tgeu : (Instr.tgeu 1 2 1024).wf = false ∧ (Instr.tgeu 1 2 1023).wf = true := by decide
theorem test_wf_tlt : (Instr.tlt 1 2 1024).wf = false ∧ (Instr.tlt 1 2 1023).wf = true := by decide
theorem test_wf_tltu : (Instr.tltu 1 2 1024).wf = false ∧ (Instr.tltu 1 2 1023).wf = true := by decide
theorem test_wf_teq : (Instr.teq 1 2 1024).wf = false ∧ (Instr.teq 1 2 1023).wf = true := by decide
theorem test_wf_tne : (Instr.tne 1 2 1024).wf = false ∧ (Instr.tne 1 2 1023).wf = true := by decide
theorem test_wf_syscall : (Instr.syscall 1048576).wf = false ∧ (Instr.syscall 1048575).wf = true := by decide
theorem test_wf_break : (Instr.breakpoint 1048576).wf = false ∧ (Instr.breakpoint 1048575).wf = true := by decide
theorem test_wf_mfc0 : (Instr.mfc0 1 32).wf = false ∧ (Instr.mfc0 1 31).wf = true := by decide
theorem test_wf_mtc0 : (Instr.mtc0 1 32).wf = false ∧ (Instr.mtc0 1 31).wf = true := by decide

theorem test_cfg_excVector : ({ cfg with excVector := 0x80000182#32 } : Config).wf = false := by decide
theorem test_cfg_resetPc : ({ cfg with resetPc := 0xBFC00001#32 } : Config).wf = false := by decide
theorem test_cfg_window_base : ({ cfg with windows := [⟨8, 16, ramDevice .mainRam⟩] } : Config).wf = false := by decide
theorem test_cfg_window_size : ({ cfg with windows := [⟨16, 8, ramDevice .mainRam⟩] } : Config).wf = false := by decide
theorem test_cfg_window_wrap :
    ({ cfg with windows := [⟨0xFFFFFFF0, 32, ramDevice .mainRam⟩] } : Config).wf = false := by decide
theorem test_cfg_windows_overlap :
    ({ cfg with windows := [⟨0, 32, ramDevice .mainRam⟩, ⟨16, 16, ramDevice .iopRam⟩] } : Config).wf = false := by
  decide
/-- A window of size 0 shares no address with the window it lies in (log entry 13). -/
theorem test_cfg_window_empty :
    ({ cfg with windows := [⟨0, 32, ramDevice .mainRam⟩, ⟨16, 0, ramDevice .iopRam⟩] } : Config).wf = true := by decide
theorem test_cfg_exact : ({ cfg with exact := [⟨0x1000F008, registerDevice .intcStat⟩] } : Config).wf = false := by
  decide
theorem test_cfg_busDiv : ({ cfg with busDiv := 0 } : Config).wf = false := by decide
theorem test_cfg_iopDiv : ({ cfg with iopDiv := 0 } : Config).wf = false := by decide
theorem test_cfg_minRunCycles : ({ cfg with minRunCycles := 0 } : Config).wf = false := by decide
theorem test_cfg_idleBudget : ({ cfg with minRunCycles := 33 } : Config).wf = false := by decide
theorem test_cfg_ieStackDepth :
    ({ cfg with ieStackDepth := 0 } : Config).wf = false ∧ ({ cfg with ieStackDepth := 9 } : Config).wf = false := by
  decide
theorem test_cfg_nIrq : ({ cfg with nIrq := 0 } : Config).wf = false ∧ ({ cfg with nIrq := 9 } : Config).wf = false := by
  decide
theorem test_cfg_stepCost : ({ cfg with stepCost := 0 } : Config).wf = false := by decide
theorem test_cfg_icache : ({ cfg with icacheEnabled := true } : Config).wf = false := by decide
theorem test_cfg_irqCheck : ({ cfg with irqCheck := .perStep } : Config).wf = true := by decide
theorem test_cfg_ok : cfg.wf = true := by decide

/-! ### Decoding: the words of the examples, every constructor -/

theorem test_decode_integer :
    decodeWord 0x00011100#32 = .ok (.sll 2 1 4) ∧ decodeWord 0x00221820#32 = .ok (.add 3 1 2) ∧
    decodeWord 0x20630001#32 = .ok (.addi 3 3 1) ∧ decodeWord 0x0022182D#32 = .ok (.daddu 3 1 2) := by decide

theorem test_decode_muldiv :
    decodeWord 0x00220018#32 = .ok (.mult 1 2) ∧ decodeWord 0x0022001A#32 = .ok (.div 1 2) ∧
    decodeWord 0x00002010#32 = .ok (.mfhi 4) ∧ decodeWord 0x00002812#32 = .ok (.mflo 5) := by decide

theorem test_decode_branch :
    decodeWord 0x10220002#32 = .ok (.beq 1 2 2) ∧ decodeWord 0x1420FFFE#32 = .ok (.bne 1 0 0xFFFE) ∧
    decodeWord 0x08000040#32 = .ok (.j 0x40) ∧ decodeWord 0x0C000040#32 = .ok (.jal 0x40) ∧
    decodeWord 0x03E00008#32 = .ok (.jr 31) := by decide

theorem test_decode_loads :
    decodeWord 0x80220000#32 = .ok (.lb 2 1 0) ∧ decodeWord 0x90220000#32 = .ok (.lbu 2 1 0) ∧
    decodeWord 0x84220002#32 = .ok (.lh 2 1 2) ∧ decodeWord 0x94220002#32 = .ok (.lhu 2 1 2) ∧
    decodeWord 0x8C220004#32 = .ok (.lw 2 1 4) ∧ decodeWord 0x9C220004#32 = .ok (.lwu 2 1 4) ∧
    decodeWord 0xDC220008#32 = .ok (.ld 2 1 8) ∧ decodeWord 0x78220010#32 = .ok (.lq 2 1 16) := by decide

theorem test_decode_stores :
    decodeWord 0xA0220001#32 = .ok (.sb 2 1 1) ∧ decodeWord 0xA4220002#32 = .ok (.sh 2 1 2) ∧
    decodeWord 0xAC220008#32 = .ok (.sw 2 1 8) ∧ decodeWord 0xFC220008#32 = .ok (.sd 2 1 8) ∧
    decodeWord 0x7C220010#32 = .ok (.sq 2 1 16) := by decide

theorem test_decode_traps :
    decodeWord 0x00220030#32 = .ok (.tge 1 2 0) ∧ decodeWord 0x00220031#32 = .ok (.tgeu 1 2 0) ∧
    decodeWord 0x00220032#32 = .ok (.tlt 1 2 0) ∧ decodeWord 0x00220033#32 = .ok (.tltu 1 2 0) ∧
    decodeWord 0x00220034#32 = .ok (.teq 1 2 0) ∧ decodeWord 0x00220036#32 = .ok (.tne 1 2 0) ∧
    decodeWord 0x0022AD74#32 = .ok (.teq 1 2 0x2B5) := by decide

theorem test_decode_system :
    decodeWord 0x0000000C#32 = .ok (.syscall 0) ∧ decodeWord 0x0000000D#32 = .ok (.breakpoint 0) ∧
    decodeWord 0x42000018#32 = .ok .eret ∧ decodeWord 0x40026000#32 = .ok (.mfc0 2 12) ∧
    decodeWord 0x40826000#32 = .ok (.mtc0 2 12) ∧ decodeWord 0x42000020#32 = .ok .wait ∧
    decodeWord 0x48400001#32 = .ok .cfc2i := by decide

/-- Words of the real processor outside the admitted 39, and the bytes of a truncated instruction. -/
theorem test_decode_rejected :
    decodeWord 0x70000000#32 = .error .unknownInstruction ∧ decodeWord 0x0000000F#32 = .error .unknownInstruction ∧
    decodeWord 0x48400000#32 = .error .unknownInstruction ∧ decodeWord 0x42000019#32 = .error .unknownInstruction ∧
    decode [0, 0, 0] = .error .truncated := by decide

/-- The bytes of a word, lowest address first. -/
theorem test_decode_bytes : decode [0x02, 0x00, 0x22, 0x10, 0xFF] = .ok (.beq 1 2 2, [0xFF]) := by decide

/-! ### One step per instruction -/

theorem test_sll : one (start 0 0x0000000008000001 0) 0x00011100
    (fun t => t.x 2 == 0xFFFFFFFF80000010 && t.pc == 4) = true := by decide
theorem test_sll_zero_amount : one (start 0 0x1234567880000000 0) 0x00011000
    (fun t => t.x 2 == 0xFFFFFFFF80000000) = true := by decide
theorem test_add_wraps : one (start 0 0x7FFFFFFF 1) 0x00221820
    (fun t => t.x 3 == 0xFFFFFFFF80000000 && t.excCode == 0) = true := by decide
theorem test_add_ignores_upper : one (start 0 0xDEADBEEF00000005 0x1111111100000006) 0x00221820
    (fun t => t.x 3 == 0xB) = true := by decide
theorem test_addi : one (start 0 0xFFFFFFFF80000000 0) 0x20228000
    (fun t => t.x 2 == 0x000000007FFF8000) = true := by decide
theorem test_addi_register_zero : one (start 0 1 0) 0x20200005
    (fun t => t.xq 0 == 0 && t.pc == 4) = true := by decide
theorem test_daddu_wraps : one (start 0 0xFFFFFFFFFFFFFFFF 1) 0x0022182D (fun t => t.x 3 == 0) = true := by decide
theorem test_daddu_keeps_upper :
    one ((start 0 2 3).setXq 3 0x000000000000AAAA0000000000000007) 0x0022182D
      (fun t => t.xq 3 == 0x000000000000AAAA0000000000000005) = true := by decide
theorem test_mult : one (start 0 0x7FFFFFFF 0x7FFFFFFF) 0x00220018
    (fun t => t.lo == 1 && t.hi == 0x3FFFFFFF) = true := by decide
theorem test_mult_negative : one (start 0 0xFFFFFFFFFFFFFFFF 2) 0x00220018
    (fun t => t.lo == 0xFFFFFFFFFFFFFFFE && t.hi == 0xFFFFFFFFFFFFFFFF) = true := by decide
theorem test_div_zero : one (start 0 0xFFFFFFFFFFFFFFFB 0) 0x0022001A
    (fun t => t.lo == 1 && t.hi == 0xFFFFFFFFFFFFFFFB && t.pc == 4) = true := by decide
theorem test_div_overflow : one (start 0 0xFFFFFFFF80000000 0xFFFFFFFFFFFFFFFF) 0x0022001A
    (fun t => t.lo == 0xFFFFFFFF80000000 && t.hi == 0) = true := by decide
theorem test_mfhi : one ({ start 0 0 0 with hi := 0x3FFFFFFF }) 0x00002010
    (fun t => t.x 4 == 0x3FFFFFFF) = true := by decide
theorem test_mflo : one ({ start 0 0 0 with lo := 0xFFFFFFFFFFFFFFFF }) 0x00002812
    (fun t => t.xq 5 == 0xFFFFFFFFFFFFFFFF) = true := by decide

theorem test_beq_not_taken : one (start 0 1 2) 0x10220002
    (fun t => t.pc == 4 && t.branchPending && t.branchTarget == 8) = true := by decide
theorem test_beq_taken : one (start 0 7 7) 0x10220002
    (fun t => t.pc == 4 && t.branchPending && t.branchTarget == 0xC) = true := by decide
theorem test_bne_backwards : one (start 0x10 3 0) 0x1420FFFE
    (fun t => t.pc == 0x14 && t.branchPending && t.branchTarget == 0xC) = true := by decide
theorem test_j : one (start 0x20 0 0) 0x08000040
    (fun t => t.pc == 0x24 && t.branchPending && t.branchTarget == 0x100) = true := by decide
theorem test_jal : one (start 0x20 0 0) 0x0C000040
    (fun t => t.pc == 0x24 && t.branchTarget == 0x100 && t.x 31 == 0x28) = true := by decide
theorem test_jr : one ((start 0 0 0).setX 31 0x28) 0x03E00008
    (fun t => t.pc == 4 && t.branchPending && t.branchTarget == 0x28) = true := by decide
theorem test_jr_misaligned : one ((start 0 0 0).setX 31 0x2A) 0x03E00008
    (fun t => t.pc == 0 && t.fatal && t.fatalCode == some .misalignedBranchTarget) = true := by decide

theorem test_lb : one (withBytes (start 0 0x1000 0) 0x1000 [0xFE]) 0x80220000
    (fun t => t.x 2 == 0xFFFFFFFFFFFFFFFE) = true := by decide
theorem test_lbu : one (withBytes (start 0 0x1000 0) 0x1000 [0xFE]) 0x90220000
    (fun t => t.x 2 == 0xFE) = true := by decide
theorem test_lh : one (withBytes (start 0 0x1000 0) 0x1002 [0x34, 0x92]) 0x84220002
    (fun t => t.x 2 == 0xFFFFFFFFFFFF9234) = true := by decide
theorem test_lhu : one (withBytes (start 0 0x1000 0) 0x1002 [0x34, 0x92]) 0x94220002
    (fun t => t.x 2 == 0x9234) = true := by decide
theorem test_lw : one (withBytes (start 0 0x1000 0) 0x1004 [1, 0, 0, 0x80]) 0x8C220004
    (fun t => t.x 2 == 0xFFFFFFFF80000001) = true := by decide
theorem test_lw_unmapped : one (start 0 0x03000000 0x99) 0x8C220000
    (fun t => t.x 2 == 0 && t.pc == 4 && !t.fatal && decide (.unmappedRead 0x03000000 .w32 ∈ t.out)) = true := by decide
theorem test_lwu : one (withBytes (start 0 0x1000 0) 0x1004 [1, 0, 0, 0x80]) 0x9C220004
    (fun t => t.x 2 == 0x80000001) = true := by decide
theorem test_ld : one (withBytes (start 0 0x1000 0) 0x1008 [1, 2, 3, 4, 5, 6, 7, 8]) 0xDC220008
    (fun t => t.x 2 == 0x0807060504030201) = true := by decide
theorem test_lq : one
    (withBytes (start 0 0x1000 0) 0x1010 [0, 1, 2, 3, 4, 5, 6, 7, 8, 9, 0xA, 0xB, 0xC, 0xD, 0xE, 0xF]) 0x78220010
    (fun t => t.xq 2 == 0x0F0E0D0C0B0A09080706050403020100) = true := by decide
theorem test_lq_misaligned : one (start 0 0x1008 0) 0x78220010
    (fun t => t.fatal && t.fatalCode == some .misalignedAccess && t.pc == 0 && t.xq 2 == 0) = true := by decide
theorem test_sb : one (start 0 0x1000 0x1234) 0xA0220001
    (fun t => t.byteAt 0x1001 == 0x34 && t.byteAt 0x1002 == 0) = true := by decide
theorem test_sh : one (start 0 0x1000 0xABCD1234) 0xA4220002
    (fun t => t.byteAt 0x1002 == 0x34 && t.byteAt 0x1003 == 0x12 && t.byteAt 0x1004 == 0) = true := by decide
theorem test_sw : one (start 0 0x1000 0xFFFFFFFF80000001) 0xAC220008
    (fun t => Memory.readBytes t.mem 0x1008 5 == [1, 0, 0, 0x80, 0]) = true := by decide
theorem test_sw_rom : one (start 0 0xBFC00000 0x99) 0xAC220008
    (fun t => t.byteAt 0x1FC00008 == 0 && t.pc == 4 && !t.fatal) = true := by decide
theorem test_sd : one (start 0 0x1000 0x0807060504030201) 0xFC220008
    (fun t => Memory.readBytes t.mem 0x1008 8 == [1, 2, 3, 4, 5, 6, 7, 8]) = true := by decide
theorem test_sq : one ((start 0 0x1000 0).setXq 2 0x0F0E0D0C0B0A09080706050403020100) 0x7C220010
    (fun t => Memory.readBytes t.mem 0x1010 16 ==
      [0, 1, 2, 3, 4, 5, 6, 7, 8, 9, 0xA, 0xB, 0xC, 0xD, 0xE, 0xF]) = true := by decide

/-- The instruction entered the exception with this cause code. -/
def trapped (code : BitVec 5) (t : State) : Bool := t.pc == cfg.excVector && t.excCode == code && t.epc == 0 && !t.bd

theorem test_tge : one (start 0 5 5) 0x00220030 (trapped 13) = true ∧
    one (start 0 0xFFFFFFFFFFFFFFFF 0) 0x00220030 (fun t => t.pc == 4) = true := by decide
theorem test_tgeu : one (start 0 0xFFFFFFFFFFFFFFFF 0) 0x00220031 (trapped 13) = true ∧
    one (start 0 1 2) 0x00220031 (fun t => t.pc == 4) = true := by decide
theorem test_tlt : one (start 0 0xFFFFFFFFFFFFFFFF 0) 0x00220032 (trapped 13) = true ∧
    one (start 0 2 1) 0x00220032 (fun t => t.pc == 4) = true := by decide
theorem test_tltu : one (start 0 1 2) 0x00220033 (trapped 13) = true ∧
    one (start 0 0xFFFFFFFFFFFFFFFF 0) 0x00220033 (fun t => t.pc == 4) = true := by decide
theorem test_teq : one (start 0 7 7) 0x00220034 (trapped 13) = true ∧
    one (start 0 0xFFFFFFFF80000000 0x80000000) 0x00220034 (fun t => t.pc == 4) = true := by decide
theorem test_tne : one (start 0 1 2) 0x00220036 (trapped 13) = true ∧
    one (start 0 7 7) 0x00220036 (fun t => t.pc == 4) = true := by decide
theorem test_syscall : one ({ start 0x10 0 0 with status := 1 }) 0x0000000C
    (fun t => t.epc == 0x10 && t.excCode == 8 && !t.bd && t.status == 2 && t.pc == cfg.excVector) = true := by decide
theorem test_break_in_slot : one ({ start 0x24 0 0 with branchPending := true, branchTarget := 0x40 }) 0x0000000D
    (fun t => t.epc == 0x20 && t.bd && t.excCode == 9 && !t.branchPending) = true := by decide
theorem test_eret : one ({ start 0x200 0 0 with epc := 0x14, status := 0x406 }) 0x42000018
    (fun t => t.pc == 0x14 && t.status == 0x407 && !t.branchPending) = true := by decide
theorem test_eret_misaligned : one ({ start 0x200 0 0 with epc := 0x16 }) 0x42000018
    (fun t => t.fatal && t.pc == 0x200 && t.fatalCode == some .misalignedBranchTarget) = true := by decide
theorem test_mfc0_cause : one ({ start 0 0 0 with bd := true, excCode := 8, irqLine := 4 }) 0x40026800
    (fun t => t.x 2 == 0xFFFFFFFF80000420) = true := by decide
theorem test_mfc0_unknown : one (start 0 0 0) 0x40004800
    (fun t => t.fatal && t.fatalCode == some .unknownCop0Register) = true := by decide
theorem test_mtc0_status : one (start 0 0 0xFFFFFFFFFFFFFFFF) 0x40826000 (fun t => t.status == 0xFF07) = true := by decide
theorem test_mtc0_epc : one (start 0 0 0x14) 0x40827000 (fun t => t.epc == 0x14) = true := by decide
theorem test_wait : one (start 0x40 0 0) 0x42000020 (fun t => t.pc == 0x44 && t.waitForIrq) = true := by decide
theorem test_cfc2i_holds : one (start 0 0 0) 0x48400001
    (fun t => t.pc == 0 && t.ilockCop2 && !t.ilockVu) = true := by decide
theorem test_cfc2i_satisfied : one ({ start 0 0 0 with ilockCop2 := true, ilockVu := true }) 0x48400001
    (fun t => t.pc == 4 && !t.ilockCop2 && !t.ilockVu) = true := by decide

/-- A word outside the table: fatal, with its diagnostic record. -/
theorem test_unknown : one (start 0 0 0) 0x70000000
    (fun t => t.fatal && t.pc == 0 && t.out == [.diag .unknownInstruction 0 0x70000000]) = true := by decide

/-! ### The run loop, by the spec's scenarios -/

/-- How a program comes to run from reset (log entry 4): two steps of the loop, then the first fetch at RESET_PC. -/
theorem test_from_reset : aft (Host.Core.run Sys2Proof.core 3 State.reset)
    (fun t => t.pc == 0xBFC00004 && t.phase == .core 31 && t.sched.runCycles == 32) = true := by decide

/-- `70_reset_and_hazards.md` R314: ADDI r3, r3, 1 twice. -/
theorem test_hazard_addi :
    raw (some (descriptor (.addi 3 3 1))) (descriptor (.addi 3 3 1)) = [(.gpr, 3)] ∧
    war (some (descriptor (.addi 3 3 1))) (descriptor (.addi 3 3 1)) = [(.gpr, 3)] ∧
    waw (some (descriptor (.addi 3 3 1))) (descriptor (.addi 3 3 1)) = [(.gpr, 3)] := by decide

/-- R314: MULT r1, r2 then MFLO r5. -/
theorem test_hazard_mult :
    raw (some (descriptor (.mult 1 2))) (descriptor (.mflo 5)) = [(.special, 0)] ∧
    war (some (descriptor (.mult 1 2))) (descriptor (.mflo 5)) = [] ∧
    waw (some (descriptor (.mult 1 2))) (descriptor (.mflo 5)) = [] := by decide

/-- R315: DIV at 10 makes MFLO busy at 11 and not at 47. -/
theorem test_md_busy : mdBusy (descriptor (.mflo 5)) 11 (10 + (descriptor (.div 1 2)).latency) = true ∧
    mdBusy (descriptor (.mflo 5)) 47 (10 + (descriptor (.div 1 2)).latency) = false := by decide

/-- A descriptor busy on HI, inside a slice and at both ends of the ready time. -/
theorem test_wit_HazardTracker : slice.phase = .core 5 ∧ mdBusy (descriptor (.mfhi 5)) 3 4 = true ∧
    mdBusy (descriptor (.mfhi 5)) 4 4 = false ∧ mdBusy (descriptor (.add 1 2 3)) 3 4 = false ∧
    (descriptor (.mult 1 2)).kind = .mult ∧ (descriptor (.div 1 2)).kind = .div := by decide

/-- The three ends of the clause on every instruction: tracked, an exception entered, held. -/
theorem test_wit_HazardTracker_ends : (∃ t, exec (.add 1 2 3) slice = .next t ∧ t.fatal = false) ∧
    (∃ t, exec (.syscall 0) slice = .next t ∧ t.fatal = false) ∧
    ∃ t, exec .cfc2i slice = .next t ∧ t.fatal = false :=
  ⟨⟨_, rfl, by decide⟩, ⟨_, rfl, by decide⟩, ⟨_, rfl, by decide⟩⟩

/-- Two handlers, three events (`95_test_vectors.md` S6). -/
def s6 : Sched :=
  { Sched.reset with
    handlers := [0, 1], nextHandlerId := 2, seq := 3
    events := [⟨10, 0, 1, 0⟩, ⟨10, 1, 2, 1⟩, ⟨5, 0, 3, 2⟩] }

theorem test_s6_budgets : s6.calculateRunCycles.cpuBudget = 5 ∧ s6.calculateRunCycles.busBudget = 2 ∧
    s6.calculateRunCycles.iopBudget = 0 := by decide
theorem test_s6_order : ({ s6 with runCycles := 10 }).dueNow =
    [.event ⟨5, 0, 3, 2⟩, .event ⟨10, 0, 1, 0⟩, .event ⟨10, 1, 2, 1⟩] := by decide

/-- `60_exceptions.md` R275: with `PER_STEP` an interrupt asserted inside a slice is taken before the next fetch; with
`PER_SLICE` it is not. -/
theorem test_per_step :
    (let s := ({ start 0x20 0 0 with irqLine := 1, status := 0x101 }).withFetchWord 32 0
     aft (step s) (fun t => t.pc == 0x24) = true ∧
     aft (move s { cfg with irqCheck := .perStep }) (fun t => t.epc == 0x20 && t.pc == cfg.excVector + 4) = true) := by
  decide

/-- R8: another `STEP_COST` and another `N_IRQ` reach the machine through the configuration. -/
theorem test_other_configuration :
    aft (move { slice with phase := .core 5 } { cfg with stepCost := 3 }) (fun t => t.phase == .core 2) = true ∧
    (slice.irqSet 5 true { cfg with nIrq := 4 }).irqLine = 0 ∧ (slice.irqSet 5 true).irqLine = 0x20 := by decide

/-- `20_memory.md` R83: only a write to the privileged graphics window wakes the graphics worker. -/
theorem test_wake :
    one ({ start 0 0x12000000 0 with env := [⟨0, [.wakeGraphics]⟩] }) 0xAC220000
      (fun t => decide (.wakeGraphics ∈ t.out)) = true ∧
    one ({ start 0 0x12000000 0 with env := [⟨0, [.wakeGraphics]⟩] }) 0x8C220000
      (fun t => decide (.wakeGraphics ∉ t.out)) = true ∧
    one ({ start 0 0x10008000 0 with env := [⟨0, [.wakeGraphics]⟩] }) 0xAC220000
      (fun t => decide (.wakeGraphics ∉ t.out)) = true := by decide

/-- `46_scheduler.md` R233: of two timers with one `timer_id` (a blob may hold them) each fires for itself. -/
theorem test_timers_with_one_id :
    (let x : PeriodicTimer := ⟨10, 10, 0, 0, 7⟩
     let y : PeriodicTimer := ⟨20, 10, 1, 1, 7⟩
     let s := { slice with sched := { s6 with runCycles := 10, timers := [x, y], events := [], seq := 8 }
                           env := [⟨0, []⟩, ⟨0, []⟩] }
     (processEvents s).sched.timers = [⟨10, 20, 0, 8, 7⟩, ⟨20, 30, 1, 9, 7⟩] ∧
     (processEvents s).out = [.fire 1 0 10, .fire 0 0 10]) := by decide

/-- `70_reset_and_hazards.md` R303, R305: a device registers after the units, each line ends deasserted, a
bus write is no port of a component's `reset()`, and an unregistered handler is fatal. -/
theorem test_component_resets :
    (let c : Config := { cfg with
       unitReset := fun u => if u = .vif then [.registerFunction, .irqSet 2 true, .busWrite .w8 0 1] else []
       deviceReset := fun n => if n = .timers then [.registerFunction, .addTimer 1 9, .addEvent 0 3 7] else [] }
     (slice.hostReset c).sched.handlers = [0, 1] ∧ (slice.hostReset c).sched.timers = [⟨9, 9, 1, 0, 0⟩] ∧
     (slice.hostReset c).sched.events = [⟨3, 0, 7, 1⟩] ∧ (slice.hostReset c).irqLine = 0 ∧
     (slice.hostReset c).mem = []) ∧
    (slice.hostReset { cfg with unitReset := fun _ => [.addTimer 0 1] }).fatalCode = some .unregisteredHandler := by
  decide

/-- Two port operations of an external unit in its turn (R258): the DMA controller writes memory; vector unit 0 asks for
the vector unit's side of the interlock. -/
theorem test_unit_ports :
    (State.unitOp .dma slice (.busWrite .w8 5 0x77)).byteAt 5 = 0x77 ∧
    (State.unitOp .vu0 slice .interlockRequest).ilockVu = true ∧
    (State.unitOp .vu0 slice .interlockRequest).ilockCop2 = false := by decide

/-- R226: the offset is a signed 64-bit value. -/
theorem test_addEvent_offset : (match ({ s6 with runCycles := 9 }).addEvent 0 0xFFFFFFFFFFFFFFFF 5 with
    | some (i, c) => i == 3 && c.events.contains ⟨8, 0, 5, 3⟩
    | none => false) = true := by decide

/-! ### Witnesses: the hypotheses of the statements can be met, at the ends of their ranges -/

theorem test_wit_DecodeInvertsEncode : (Instr.sll 31 31 31).wf = true ∧ (Instr.sq 0 31 0xFFFF).wf = true ∧
    (Instr.breakpoint 1048575).wf = true := by decide

theorem test_wit_EncodeInvertsDecode : decodeWord 0xFFFFFFFF#32 = .ok (.sd 31 31 0xFFFF) ∧
    decodeWord 0#32 = .ok (.sll 0 0 0) := by decide

theorem test_wit_DecodeRowsAreDisjoint : (decodeTable[(⟨0, by decide⟩ : Fin decodeTable.length)]).matches 0#32 = true ∧
    (decodeTable[(⟨38, by decide⟩ : Fin decodeTable.length)]).matches 0x48400001#32 = true := by decide

theorem test_wit_UnusedFieldsMustBeZero : (31 : Reg) ≠ 0 ∧ (16#5 : BitVec 5) ≠ 0 ∧ (1#11 : BitVec 11) ≠ 0 := by decide

/-- A placed instruction meets the first two clauses. -/
theorem test_wit_StepRunsDecodedInstruction :
    let s := (start 0x20 5 0).withFetchWord 32 0x00011100
    s.stepsNext ∧ s.pc.toNat % 4 = 0 ∧ inMemory (cfg.translate s.pc).toNat = true ∧
    decode (Memory.readBytes s.mem (cfg.translate s.pc).toNat 4) = .ok (.sll 2 1 4, []) ∧
    ∃ t, s.fetch = .ok (0x00011100#32, t) ∧ t.fatal = false ∧ decodeWord 0x00011100#32 = .ok (.sll 2 1 4) :=
  ⟨⟨by decide, by decide⟩, by decide, by decide, by decide, _, rfl, by decide, by decide⟩

/-- A fetch from a register device whose side effect latches `fatal`. -/
theorem test_wit_StepRunsDecodedInstruction_fatal :
    let s := { start 0x10000000 0 0 with phase := .core 1, env := [⟨0, [.busRead .w16 1]⟩] }
    s.stepsNext ∧ ∃ w t, s.fetch = .ok (w, t) ∧ t.fatal = true :=
  ⟨⟨by decide, by decide⟩, _, _, rfl, by decide⟩

theorem test_wit_UnknownWordIsFatal :
    let s := (start 0x20 5 0).withFetchWord 32 0x70000000
    s.stepsNext ∧ s.pc.toNat % 4 = 0 ∧ inMemory (cfg.translate s.pc).toNat = true ∧
    decode (Memory.readBytes s.mem (cfg.translate s.pc).toNat 4) = .error .unknownInstruction :=
  ⟨⟨by decide, by decide⟩, by decide, by decide, by decide⟩

theorem test_wit_UnmappedFetchRunsNop (slot : Bool) :
    let s := { start 0x02000000 0 0 with phase := .core 1, branchPending := slot, branchTarget := 0x40 }
    s.stepsNext ∧ s.pc.toNat % 4 = 0 ∧ route (cfg.translate s.pc).toNat = none := by
  cases slot <;> exact ⟨⟨by decide, by decide⟩, by decide, by decide⟩

theorem test_wit_EveryInstructionStepIsCharged : ∃ t,
    slice.stepsNext ∧ slice.phase = .core 5 ∧ step slice = .next t := by
  obtain ⟨t, h, _⟩ := next_of_aft (o := step slice) (p := fun _ => true) (by decide)
  exact ⟨t, ⟨by decide, by decide⟩, rfl, h⟩

theorem test_wit_StepAnswersUnlessFatal : State.reset.fatal = false ∧
    ({ State.reset with fatal := true, fatalCode := some .misalignedAccess } : State).fatal = true := by decide

/-- The branch statements: not in a slot; in one. -/
theorem test_wit_branches : slice.branchPending = false ∧ ({ slice with branchPending := true }).branchPending = true := by
  decide

theorem test_wit_Jumps : (0x0FFFFFFC#32).toNat = slice.nextPc.toNat / 2 ^ 28 * 2 ^ 28 + 4 * (0x3FFFFFF#26).toNat := by
  decide

theorem test_wit_JumpRegister :
    (((slice1 0xFFFFFFFC).x 1).extractLsb' 0 32).toNat % 4 = 0 ∧
    (((slice1 0x2A).x 1).extractLsb' 0 32).toNat % 4 ≠ 0 := by decide

/-- The state with the word `w` next, in the delay slot of a branch to 0x40. -/
def inSlot (w : Nat) : State :=
  ({ start 0x24 0 0 with branchPending := true, branchTarget := 0x40 }).withFetchWord 32 w

/-- In a delay slot: an instruction that completes, one that is held, one that enters an exception. -/
theorem test_wit_DelaySlotExecutesOnce : ∀ w ∈ [0, 0x48400001, 0x0000000C],
    (inSlot w).stepsNext ∧ (inSlot w).branchPending = true ∧ ∃ t, step (inSlot w) = .next t ∧ t.fatal = false := by
  have run : ∀ w ∈ [0, 0x48400001, 0x0000000C], (inSlot w).fatal = false ∧ (inSlot w).sliceOn = true ∧
      (inSlot w).branchPending = true ∧ aft (step (inSlot w)) (fun t => !t.fatal) = true := by decide
  intro w hw
  obtain ⟨a, b, c, d⟩ := run w hw
  obtain ⟨t, h, p⟩ := next_of_aft d
  exact ⟨⟨a, b⟩, c, t, h, by simpa using p⟩

/-- The last 16 bytes of the main RAM, of the boot ROM and of a vector memory: aligned for every width. -/
theorem test_wit_LoadsFromMemory :
    (slice1 0x01FFFFF0).fatal = false ∧ (slice1 0x01FFFFF0).physAddr 1 0 = 0x01FFFFF0 ∧
    inMemory 0x01FFFFF0 = true ∧ 0x01FFFFF0 % 16 = 0 ∧ inMemory 0x01FFFFFF = true ∧
    (slice1 0xBFFFFFF0).physAddr 1 0 = 0x1FFFFFF0 ∧ inMemory 0x1FFFFFF0 = true ∧ inMemory 0x1100FFF0 = true := by decide

theorem test_wit_StoresToMemory :
    (slice1 0).physAddr 1 0 = 0 ∧ inWritableMemory 0 = true ∧
    (slice1 0x01FFFFF0).physAddr 1 0 = 0x01FFFFF0 ∧ inWritableMemory 0x01FFFFF0 = true ∧ 0x01FFFFF0 % 16 = 0 ∧
    (slice1 0x9FC00000).physAddr 1 0 = 0x1FC00000 ∧ inMemory 0x1FC00000 = true ∧
    inWritableMemory 0x1FC00000 = false ∧ 0x1FC00000 % 16 = 0 := by decide

theorem test_wit_UnmappedAccessesAreHarmless :
    (slice1 0x02000000).physWord 1 0 = 0x02000000#32 ∧ route 0x02000000 = none ∧ 0x02000000 % 16 = 0 ∧
    (slice1 0x1000EFF0).physWord 1 0x20 = 0x1000F010#32 ∧ route 0x1000F020 = none := by decide

/-- A register device by window and one by exact match, aligned for every width. -/
theorem test_wit_RegisterDevices :
    (slice1 0x10000000).physWord 1 0 = 0x10000000#32 ∧ route 0x10000000 = some (registerDevice .timers) ∧
    (slice1 0x1000F000).physWord 1 0x10 = 0x1000F010#32 ∧ route 0x1000F010 = some (registerDevice .intcMask) ∧
    (registerDevice .intcMask).kind = .register ∧ 0x1000F010 % 16 = 0 := by decide

/-- Both forms of the environment's answers. -/
theorem test_wit_RegisterDevices_answers : ({ slice with env := [⟨7, []⟩] }).env = ⟨7, []⟩ :: [] ∧ slice.env = [] := by
  decide

/-- `20_memory.md` R78: one access record under the records of its side effects, the value cut to the width. -/
theorem test_access_record :
    (({ slice with env := [⟨0x1234, [.busRead .w8 0, .addTimer 0 1]⟩] }).registerRead .dmac .w8 0x10008003).2.out =
      [.diag .unregisteredHandler 0x20 0, .devRead .dmac .w8 0x10008003 0x34] ∧
    (({ slice with env := [⟨0, [.wakeGraphics]⟩] }).registerWrite .gsPriv .w16 0x12000000 0x54321).out =
      [.wakeGraphics, .devWrite .gsPriv .w16 0x12000000 0x4321] := by decide

/-- A route table with devices that CFG_REF's does not have (R70): each answers, records and resets under its own name. -/
theorem test_other_devices :
    let c : Config := { cfg with
      windows := cfg.windows ++ [⟨0x14000000, 16, registerDevice (.other 0)⟩]
      exact := cfg.exact ++ [⟨0x15000000, registerDevice (.other 1)⟩] }
    c.wf = true ∧ route 0x14000004 c = some (registerDevice (.other 0)) ∧
    registerDevices c = [.timers, .gsPriv, .dmac, .other 0, .intcStat, .intcMask, .other 1] ∧
    (({ slice with env := [⟨0, []⟩] }).registerWrite (.other 1) .w8 0x15000000 9 c).out =
      [.devWrite (.other 1) .w8 0x15000000 9] := by decide

/-- Both ends of an access: with a side effect that latches `fatal`, and without one. -/
theorem test_wit_RegisterDevices_ends :
    (({ slice with env := [⟨7, []⟩] }).registerRead .timers .w32 0x10000000).2.fatal = false ∧
    (({ slice with env := [⟨7, [.addTimer 0 1]⟩] }).registerRead .timers .w32 0x10000000).2.fatal = true ∧
    (({ slice with env := [⟨7, []⟩] }).registerWrite .timers .w32 0x10000000 1).fatal = false ∧
    (({ slice with env := [⟨7, [.busWrite .w128 8 0]⟩] }).registerWrite .timers .w32 0x10000000 1).fatal = true := by
  decide

/-- The least misalignment of each size. -/
theorem test_wit_MisalignedAccessesAreFatal :
    ((slice1 1).effAddr 1 0).toNat % 2 ≠ 0 ∧ ((slice1 2).effAddr 1 0).toNat % 4 ≠ 0 ∧
    ((slice1 4).effAddr 1 0).toNat % 8 ≠ 0 ∧ ((slice1 8).effAddr 1 0).toNat % 16 ≠ 0 ∧ (slice1 8).fatal = false := by
  decide

/-- The four constructors of a device of the table, at both ends of a window of each kind. -/
theorem test_wit_RouteTable : Width.all = [.w8, .w16, .w32, .w64, .w128] ∧
    (∀ n, ramDevice n = { name := n, kind := .memory false, rdWidths := Width.all, wrWidths := Width.all }) ∧
    (∀ n, romDevice n = { name := n, kind := .memory true, rdWidths := Width.all, wrWidths := [] }) ∧
    (∀ n, registerDevice n = { name := n, kind := .register, rdWidths := Width.all, wrWidths := Width.all }) :=
  ⟨rfl, fun _ => rfl, fun _ => rfl, fun _ => rfl⟩

theorem test_wit_BusIsLittleEndian : slice.fatal = false ∧ (0x01FFFFF0#32).toNat % Width.w128.bytes = 0 ∧
    inWritableMemory (0x01FFFFF0#32).toNat = true ∧ inMemory (0x1FFFFFF0#32).toNat = true := by decide

theorem test_wit_BusFaults : (1#32).toNat % Width.w16.bytes ≠ 0 ∧ route (0x02000000#32).toNat = none ∧
    (0x02000000#32).toNat % Width.w128.bytes = 0 ∧ inMemory (0x1FC00000#32).toNat = true ∧
    inWritableMemory (0x1FC00000#32).toNat = false := by decide

/-- `20_memory.md` R65: `UNMAPPED_READ_VALUE as u(w)`, at an address without a route and at a device without delegates. -/
theorem test_wit_BusFaults_sentinel :
    let d : Device := ⟨.other 0, .register, [.w32], [.w32]⟩
    let c : Config := { cfg with unmappedReadValue := 0x1234, windows := ⟨0x14000000, 16, d⟩ :: cfg.windows }
    route (0x15000000#32).toNat c = none ∧ route (0x14000001#32).toNat c = some d ∧ .w8 ∉ d.rdWidths ∧
    .w8 ∉ d.wrWidths ∧ (0x14000001#32).toNat % Width.w8.bytes = 0 ∧
    (∃ t, slice.busRead .w8 0x14000001 c = .ok (0x34, t)) ∧ ∃ t, slice.busRead .w16 0x15000000 c = .ok (0x1234, t) :=
  ⟨by decide, by decide, by decide, by decide, by decide, ⟨_, rfl⟩, _, rfl⟩

/-- A MEMORY device by an exact entry (log entry 10): its bytes stand under their physical addresses. -/
theorem test_exact_memory :
    let c : Config := { cfg with exact := ⟨0x15000000, ramDevice (.other 0)⟩ :: cfg.exact }
    c.wf = true ∧ (match slice.busWrite .w16 0x15000000 0x1234 c with
      | .ok t => t.byteAt 0x15000001 c == 0x12 && t.memValue .w16 0x15000000 c == 0x1234
      | .error _ => false) = true := by decide

/-- A step that stores, and addresses outside writable memory. -/
theorem test_wit_OnlyWritableMemoryChanges : inWritableMemory 0x1FC00000 = false ∧ inWritableMemory 0x02000000 = false ∧
    ∃ t, step ((start 0 0x1000 0x1234).withFetchWord 32 0xA0220001) = .next t := by
  refine ⟨by decide, by decide, ?_⟩
  obtain ⟨t, h, _⟩ := next_of_aft (o := step ((start 0 0x1000 0x1234).withFetchWord 32 0xA0220001))
    (p := fun _ => true) (by decide)
  exact ⟨t, h⟩

theorem test_wit_DeviceSideEffectsAreLimited : inWritableMemory 0x10000000 = false ∧ DeviceName.dmac ≠ .gsPriv ∧
    slice.fatal = false ∧ 7 < cfg.nIrq := by decide

/-- A misaligned access; the last bytes of writable memory and the boot ROM; a register device and an unmapped address. -/
theorem test_wit_DeviceSideEffectsAreLimited_accesses : (1#32).toNat % Width.w16.bytes ≠ 0 ∧
    ((0x01FFFFF0#32).toNat % Width.w128.bytes = 0 ∧ inMemory (0x01FFFFF0#32).toNat = true) ∧
    ((0x1FC00000#32).toNat % Width.w128.bytes = 0 ∧ inMemory (0x1FC00000#32).toNat = true) ∧
    ((0x1000F010#32).toNat % Width.w128.bytes = 0 ∧ inMemory (0x1000F010#32).toNat = false) ∧
    ((0x02000000#32).toNat % Width.w128.bytes = 0 ∧ inMemory (0x02000000#32).toNat = false) := by decide

/-- Under a configuration with a MEMORY device of 32 bits only: a device's access of another width is an unmapped read,
logged (`20_memory.md` R75, R76), and a dropped write. -/
theorem test_wit_DeviceSideEffectsAreLimited_widths :
    let d : Device := ⟨.other 0, .memory false, [.w32], [.w32]⟩
    let c : Config := { cfg with windows := ⟨0x14000000, 16, d⟩ :: cfg.windows }
    c.wf = true ∧ route (0x14000000#32).toNat c = some d ∧ d.kind ≠ .register ∧
    (0x14000000#32).toNat % Width.w16.bytes = 0 ∧ .w16 ∉ d.rdWidths ∧ .w16 ∉ d.wrWidths ∧ .w32 ∈ d.rdWidths ∧
    (slice.deviceCall (.busRead .w16 0x14000000) c).1 = .value 0 ∧
    (slice.deviceCall (.busRead .w16 0x14000000) c).2.out = [.unmappedRead 0x14000000 .w16] ∧
    (slice.deviceCall (.busWrite .w16 0x14000000 7) c).2 = slice := by decide

/-- The three flag patterns, and the sequence from clear flags for both sides. -/
theorem test_wit_InterlockRendezvous : ∀ x : IlockSide, slice.fatal = false ∧ slice.ilockFlag x.other = false ∧
    (slice.setIlock x.other).ilockFlag x.other = true ∧ (slice.setIlock x.other).ilockFlag x = false ∧
    ((slice.setIlock x.other).setIlock x).ilockFlag x = true ∧
    ∃ a b c p q r, slice.interlockRequest x = (p, a) ∧ a.interlockRequest x.other = (q, b) ∧
      b.interlockRequest x = (r, c) := by
  intro x
  cases x <;> exact ⟨by decide, by decide, by decide, by decide, by decide, _, _, _, _, _, _, rfl, rfl, rfl⟩

theorem test_wit_ReturnFromException : ({ slice with epc := 0xFFFFFFFC }).epc.toNat % 4 = 0 ∧
    ({ slice with epc := 0xFFFFFFFE }).epc.toNat % 4 ≠ 0 ∧ 0 + 1 ≠ cfg.ieStackDepth ∧ 3 + 1 ≠ cfg.ieStackDepth := by
  decide

theorem test_wit_Cop0Moves : (11 ≠ 12 ∧ 11 ≠ 13 ∧ 11 ≠ 14) ∧ (15 ≠ 12 ∧ 15 ≠ 13 ∧ 15 ≠ 14) := by decide

theorem test_wit_WaitHaltsUntilWoken : slice.fatal = false ∧ ({ slice with waitForIrq := true }).waitForIrq = true ∧
    ({ slice with waitForIrq := true }).phase = .core 5 := by decide

theorem test_wit_InterlockInstruction : slice.fatal = false ∧ slice.ilockVu = false ∧
    ({ slice with ilockVu := true }).ilockVu = true := by decide

/-- No line; a line with `IE0` clear and set, at both ends of the lines. -/
theorem test_wit_InterruptCheck :
    (∀ i, i < 8 → (slice.irqLine.getLsbD i && slice.status.getLsbD (8 + i)) = false) ∧
    (let s := { slice with irqLine := 0x80, status := 0x8000 }
     (s.irqLine.getLsbD 7 && s.status.getLsbD (8 + 7)) = true ∧ s.status.getLsbD 0 = false) ∧
    (let s := { slice with irqLine := 1, status := 0x101 }
     (s.irqLine.getLsbD 0 && s.status.getLsbD (8 + 0)) = true ∧ s.status.getLsbD 0 = true) := by decide

/-- CFG_REF checks once per slice; the same configuration with `PER_STEP`. -/
theorem test_wit_InterruptCheck_granularity : cfg.irqCheck = .perSlice ∧
    ({ cfg with irqCheck := .perStep } : Config).irqCheck = .perStep := by decide

theorem test_wit_StepsRunAnIteration : State.reset.startFrame.fatal = false ∧ State.reset.startFrame.phase = .frame ∧
    State.reset.fatal = false := by decide

/-- `47_run_loop_host.md` R250: the answer `FRAME_DONE`, by a frame-end timer that is due after one iteration. -/
theorem test_run_frame :
    (match runFrame 3 ({ State.reset with
        frameHandler := some 0, env := List.replicate 4 ⟨0, []⟩
        sched := { Sched.reset with handlers := [0], nextHandlerId := 1, timers := [⟨2, 2, 0, 0, 0⟩], seq := 1 } }) with
     | .next (r, t) => r == .frameDone && t.frameComplete && t.sched.runCycles == 2
     | .fault _ => false
     | .refused _ => false) = true := by decide

theorem test_wit_IterationBegins : State.reset.startFrame.fatal = false ∧ State.reset.startFrame.phase = .frame := by decide

/-- SYSCALL changes the cause code; a step of another agent is not the slice. -/
theorem test_wit_OnlyTheListedExceptions :
    (∃ t, exec (.syscall 0) slice = .next t ∧ (t.excCode, t.bd) ≠ (slice.excCode, slice.bd)) ∧
    ∃ t, step ({ slice with phase := .units [] }) = .next t ∧
      ({ slice with phase := .units [] }).sliceOn = false ∧ ({ slice with phase := .units [] }).phase ≠ .frame :=
  ⟨⟨_, rfl, by decide⟩, _, rfl, by decide, by decide⟩

theorem test_wit_FatalStopsEveryPort : ({ slice with fatal := true }).fatal = true := by decide

theorem test_wit_SchedulerRegistration : 1 ∈ s6.handlers ∧ 2 ∉ s6.handlers ∧ (-5 : Int) ≤ 0 ∧ (0 : Int) ≤ 0 ∧
    ({ slice with sched := s6 }).sched = s6 ∧ ({ slice with sched := s6 }).fatal = false := by decide

/-- Nothing pending; the earliest entry in the future; the earliest entry due. -/
theorem test_wit_BudgetReachesTheEarliestEntry :
    (Sched.reset.events = [] ∧ Sched.reset.timers = []) ∧
    (5 ∈ s6.events.map (·.absoluteCycle) ∧ (∀ f ∈ s6.events, 5 ≤ f.absoluteCycle) ∧
      (∀ t ∈ s6.timers, 5 ≤ t.nextFireCycle)) ∧
    5 ≤ ({ s6 with runCycles := 5 }).runCycles ∧ ¬ 5 ≤ s6.runCycles := by decide

/-- Two iterations from the reset scheduler. -/
def rounds : Nat → Sched
  | 0 => Sched.reset
  | n + 1 => (rounds n).calculateRunCycles.updateCycleCounts

theorem test_wit_ClockRatiosCarry : (rounds 0).busRem = 0 ∧ (rounds 0).iopRem = 0 ∧ ∀ j, j < 2 →
    (rounds (j + 1)).busRem = (rounds j).calculateRunCycles.updateCycleCounts.busRem ∧
    (rounds (j + 1)).iopRem = (rounds j).calculateRunCycles.updateCycleCounts.iopRem :=
  ⟨rfl, rfl, fun _ _ => ⟨rfl, rfl⟩⟩

/-- An event that fires, with a handler that adds another; the same as the LOOP's frame-end handler. -/
theorem test_wit_FiringConsumesTheSnapshot_event : ∀ f ∈ [none, some 0],
    let s := { slice with sched := { s6 with runCycles := 5 }, phase := .firing [.event ⟨5, 0, 3, 2⟩]
                          env := [⟨0, [.addEvent 1 0 9]⟩], frameHandler := f }
    s.fatal = false ∧ (s.frameHandler = some 0 ∨ f = none) ∧ ∃ t, step s = .next t := by
  intro f hf
  simp only [List.mem_cons, List.not_mem_nil, or_false] at hf
  rcases hf with rfl | rfl <;> exact ⟨rfl, by decide, _, rfl⟩

/-- A timer that fires, between two others, with a handler that adds a timer and an event. -/
theorem test_wit_FiringConsumesTheSnapshot_timer :
    let m : PeriodicTimer := ⟨100, 100, 0, 3, 3⟩
    let before : List PeriodicTimer := [⟨150, 150, 1, 4, 4⟩]
    let after : List PeriodicTimer := [⟨100, 100, 1, 5, 5⟩]
    let s := { slice with sched := { s6 with runCycles := 100, timers := before ++ m :: after, seq := 6 }
                          phase := .firing [.timer m], env := [⟨0, [.addTimer 1 7, .addEvent 0 0 1]⟩] }
    s.fatal = false ∧ s.sched.timers = before ++ m :: after ∧ m ∉ before ∧ s.frameHandler ≠ some m.handlerId ∧
    ({ s with frameHandler := some 0 }).frameHandler = some m.handlerId ∧ ∃ t, step s = .next t :=
  ⟨rfl, rfl, by decide, by decide, rfl, _, rfl⟩

/-- `46_scheduler.md` R222: a fired handler acts, here by asserting a line; the frame-end handler does not. -/
theorem test_fired_handler_acts :
    (let s := { slice with phase := .firing [.event ⟨5, 0, 3, 2⟩], env := [⟨0, [.irqSet 2 true]⟩] }
     aft (step s) (fun t => t.irqLine == 4 && !t.frameComplete && t.env == []) &&
     aft (step { s with frameHandler := some 0 }) (fun t => t.irqLine == 0 && t.frameComplete)) = true := by decide

theorem test_wit_TimeMovesForwardOnly : (∃ t, step State.reset.startFrame = .next t) ∧ State.reset.startFrame.phase = .frame ∧
    (∃ t, step State.reset = .next t) ∧ State.reset.phase ≠ .frame := ⟨⟨_, rfl⟩, rfl, ⟨_, rfl⟩, by decide⟩

/-- The turn of a unit that is not vector unit 0; of each unit, with no cycles. -/
theorem test_wit_OtherAgentsLeaveTheCore :
    (let s := { slice with phase := .units [.dma, .vu0], env := [⟨0, [.interlockRequest, .irqSet 3 true]⟩] }
     s.sliceOn = false ∧ s.phase ≠ .frame ∧ (∀ us, s.phase ≠ .units (.vu0 :: us)) ∧ ∃ t, step s = .next t) ∧
    ∀ u : ExtUnit, ∃ b, (u = .iop → b = slice.sched.iopBudget) ∧ (u = .dma ∨ u = .vif → b = slice.sched.busBudget) ∧
      (u = .vu0 ∨ u = .vu1 → b = slice.sched.cpuBudget) ∧ b = 0 ∧ slice.fatal = false ∧
      ({ slice with phase := .units [u] }).phase = .units (u :: []) := by
  refine ⟨⟨rfl, by decide, fun us h => (by cases h), _, rfl⟩, fun u => ?_⟩
  cases u <;> exact ⟨0, by decide⟩

/-- A turn with cycles; a unit's bus access that succeeds and one that is misaligned. -/
theorem test_wit_OtherAgentsLeaveTheCore_ports :
    (let s := { slice with sched := { s6 with cpuBudget := 4 }, phase := .units [.vu1] }
     s.fatal = false ∧ s.sched.cpuBudget ≠ 0) ∧
    (∃ v t, slice.busRead .w8 5 = .ok (v, t)) ∧ (∃ t, slice.busWrite .w8 5 1 = .ok t) ∧
    slice.busRead .w16 1 = .error .misalignedAccess ∧ slice.busWrite .w16 1 0 = .error .misalignedAccess :=
  ⟨by decide, ⟨_, _, rfl⟩, ⟨_, rfl⟩, rfl, rfl⟩

/-- The firing of the frame-end handler, by an event and by a timer, and the beginning of a frame. -/
theorem test_wit_OtherAgentsLeaveTheCore_frame :
    (let s := { slice with sched := { s6 with runCycles := 5 }, frameHandler := some 0, phase := .firing [.event ⟨5, 0, 3, 2⟩] }
     s.frameHandler = some 0 ∧ aft (step s) (fun t => t.frameComplete != s.frameComplete) = true) ∧
    (let s := { slice with frameHandler := some 0, phase := .firing [.timer ⟨5, 5, 0, 1, 1⟩] }
     aft (step s) (fun t => t.frameComplete) = true) ∧
    ({ slice with phase := .idle, frameComplete := true }).phase = .idle := by decide

theorem test_wit_InertStateNeverChanges : (∃ t, step slice = .next t) ∧ (∀ rt base imm, Instr.add 1 2 3 ≠ .lq rt base imm) ∧
    ∃ t, exec (.add 1 2 3) slice = .next t := by
  obtain ⟨t, h, _⟩ := next_of_aft (o := step slice) (p := fun _ => true) (by decide)
  exact ⟨⟨t, h⟩, fun _ _ _ h => (by cases h), _, rfl⟩

/-- Two states that differ in the tracker only. -/
theorem test_wit_TrackerChangesNothingElse :
    let s := { slice with lastDesc := some (descriptor (.mult 1 2)), mdReadyCycle := 9,
                          out := [.hazard 0 [] [] [] false] }
    s ≠ slice ∧ s.withoutTracker = slice.withoutTracker ∧ ∃ t, step s = .next t := by
  refine ⟨by decide, rfl, ?_⟩
  obtain ⟨t, h, _⟩ := next_of_aft (p := fun _ => true)
    (o := step ({ slice with lastDesc := some (descriptor (.mult 1 2)), mdReadyCycle := 9,
                             out := [.hazard 0 [] [] [] false] })) (by decide)
  exact ⟨t, h⟩

/-- A blob that is accepted, and one that is not. -/
theorem test_wit_RestoreIsAllOrNothing : (slice.restore slice.serialize).1 = .ok ∧
    (slice.restore { slice.serialize with saved := { slice.saved with pc := 2 } }).1 = .failed := by
  have h : slice.saved.wf slice.sched.handlers = true := by decide
  have k : ({ slice.saved with pc := 2 }).wf slice.sched.handlers = false := by decide
  constructor
  · unfold State.restore
    rw [if_neg (by decide), if_neg (by simp [State.serialize]), if_neg (fun e => by cases h.symm.trans e)]
  · unfold State.restore
    rw [if_neg (by decide), if_neg (by simp [State.serialize]), if_pos k]

/-- A configuration whose components register, and one reset under it that ends without a fatal. -/
theorem test_wit_HostCalls_components : ∃ (c : Config) (f : Nat → Dword) (u : ExtUnit → Nat) (d : DeviceName → Nat),
    u = (fun x => 1 + [ExtUnit.iop, .dma, .vu0, .vu1, .vif].idxOf x) ∧
    d = (fun x => 6 + [DeviceName.timers, .gsPriv, .dmac, .intcStat, .intcMask].idxOf x) ∧
    c = { cfg with
      frameCycles := some (f 0)
      unitReset := fun x => [.registerFunction, .addTimer (u x) (f (u x)), .irqSet (u x) true]
      deviceReset := fun x => [.registerFunction, .addTimer (d x) (f (d x))] } ∧
    (slice.hostReset cfg).fatal = false :=
  ⟨_, fun _ => 5, _, _, rfl, rfl, rfl, by decide⟩

theorem test_wit_HostCalls : State.reset.betweenIterations = true ∧ State.reset.fatal = false ∧
    slice.betweenIterations = false ∧ (∃ t, runIteration State.reset = .next t) ∧
    ∃ r t, runFrame 0 State.reset = .next (r, t) := by
  obtain ⟨t, h, _⟩ := next_of_aft (o := runIteration State.reset) (p := fun _ => true) (by decide)
  exact ⟨by decide, by decide, by decide, ⟨t, h⟩, _, _, rfl⟩

/-- A state that meets both invariants; the limits of R264 at their ends. -/
theorem test_wit_RestoreIsAllOrNothing_limits : slice.Inv ∧ slice.sched.Inv ∧ slice.fatal = false ∧
    0 < cfg.busDiv ∧ cfg.busDiv - 1 < cfg.busDiv ∧ ¬ cfg.busDiv < cfg.busDiv ∧
    ({ slice.saved with branchPending := true, branchTarget := 2 }).wf slice.sched.handlers = false ∧
    ({ slice.saved with status := 8 }).wf slice.sched.handlers = false ∧
    ({ slice.saved with cause := ⟨true, 0, false, 8, 0⟩ }).wf slice.sched.handlers = true ∧
    (∀ k ∈ [(⟨false, 1, false, 0, 0⟩ : SavedCause), ⟨false, 0, true, 0, 0⟩, ⟨false, 0, false, 0, 2⟩],
      ({ slice.saved with cause := k }).wf slice.sched.handlers = false) ∧
    ({ slice.saved with seq := 3, events := s6.events }).wf [0, 1] = true ∧
    ({ slice.saved with seq := 2, events := s6.events }).wf [0, 1] = false ∧
    ({ slice.saved with seq := 3, events := s6.events }).wf [0] = false :=
  ⟨⟨by decide, by decide, by decide, by decide, by decide, by decide, by decide, by decide⟩,
   ⟨by decide, by decide, by decide, by decide, by decide, by decide, by decide⟩,
   by decide, by decide, by decide, by decide, by decide, by decide, by decide, by decide, by decide, by decide,
   by decide⟩

/-- A state inside a slice that meets the machine's invariant, and a step from it. -/
theorem test_wit_StepKeepsTheMachineInvariant : slice.Inv ∧ ∃ t, step slice = .next t := by
  refine ⟨⟨by decide, by decide, by decide, by decide, by decide, by decide, by decide, by decide⟩, ?_⟩
  obtain ⟨t, h, _⟩ := next_of_aft (o := step slice) (p := fun _ => true) (by decide)
  exact ⟨t, h⟩

/-- A scheduler with events that meets its invariant, and a step from it. -/
theorem test_wit_StepKeepsTheSchedulerInvariant :
    let s := { slice with sched := s6, phase := .frame }
    s.sched.Inv ∧ ∃ t, step s = .next t :=
  ⟨⟨by decide, by decide, by decide, by decide, by decide, by decide, by decide⟩, _, rfl⟩

end Sys2Proof.Tests
end

/-! ## The machine's state

The machine's invariant (`10_state.md` R22, R29, R34, R43, R45) and the state that no rule writes (R23, R27, R28, R39,
R41). Each is first shown of an instruction (`ExecEffect`) and of an agent outside the CORE (`UnitEffect`), then of every
move that `step_cases` lists. -/

namespace Sys2Proof.Machine

/-- A charge moves the slice's counter alone (`40_core_step.md` R139). -/
theorem charge_eq (s : State) : s.charge = { s with phase := s.charge.phase } := by
  unfold State.charge
  split <;> rfl

/-- Everything an external unit can do is within what an instruction can do. -/
theorem UnitEffect.exec {s t : State} (h : UnitEffect s t) : ExecEffect s t where
  rest := by rw [h.rest]
  memory := h.memory
  outside := h.outside
  sched := h.sched
  code := h.code
  zero := by rw [h.rest]; exact id
  lo := by rw [h.rest]
  hi := by rw [h.rest]
  reserved := by rw [h.rest]; exact id
  aligned a _ c := by rw [h.rest]; exact ⟨a, c⟩

/-! ### The machine's invariant -/

/-- Registrations leave the remainders alone (`46_scheduler.md` R224, R226, R228). -/
theorem SchedGrows.rems {c k : Sched} (h : SchedGrows c k) : k.busRem = c.busRem ∧ k.iopRem = c.iopRem := by
  rw [h.rest]
  exact ⟨rfl, rfl⟩

/-- Committing a budget leaves the remainders below their divisors (`46_scheduler.md` R231, `10_state.md` R45). -/
theorem updateCycleCounts_rems (c : Sched) :
    c.updateCycleCounts.busRem < cfg.busDiv ∧ c.updateCycleCounts.iopRem < cfg.iopDiv :=
  ⟨Nat.mod_lt _ (by decide), Nat.mod_lt _ (by decide)⟩

/-- `pc` and a pending target are aligned (R29). -/
def State.PcAligned (s : State) : Prop :=
  s.pc.toNat % 4 = 0 ∧ (s.branchPending = true → s.branchTarget.toNat % 4 = 0)

theorem State.Inv.pcs {s : State} (h : s.Inv) : s.PcAligned := ⟨h.pcAligned, h.targetAligned⟩

/-- The invariant speaks of these elements alone. -/
theorem State.Inv.congr {s t : State} (h : s.Inv) (gpr : t.gpr = s.gpr := by rfl) (pc : t.pc = s.pc := by rfl)
    (pending : t.branchPending = s.branchPending := by rfl) (target : t.branchTarget = s.branchTarget := by rfl)
    (status : t.status = s.status := by rfl) (mem : t.mem = s.mem := by rfl)
    (busRem : t.sched.busRem = s.sched.busRem := by rfl) (iopRem : t.sched.iopRem = s.sched.iopRem := by rfl)
    (fatal : t.fatal = s.fatal := by rfl) (code : t.fatalCode = s.fatalCode := by rfl) : t.Inv where
  gprZero := by rw [gpr]; exact h.gprZero
  pcAligned := by rw [pc]; exact h.pcAligned
  targetAligned := by rw [pending, target]; exact h.targetAligned
  statusReserved := by rw [status]; exact h.statusReserved
  memory := by rw [mem]; exact h.memory
  busRem := by rw [busRem]; exact h.busRem
  iopRem := by rw [iopRem]; exact h.iopRem
  fatalCode := by rw [fatal, code]; exact h.fatalCode

/-- The effect of an instruction keeps the invariant where it leaves `pc` and a pending target aligned. -/
theorem ExecEffect.inv {s t : State} (h : ExecEffect s t) (hi : s.Inv) (hp : t.PcAligned) : t.Inv where
  gprZero := h.zero hi.gprZero
  pcAligned := hp.1
  targetAligned := hp.2
  statusReserved := h.reserved hi.statusReserved
  memory := h.memory hi.memory
  busRem := by rw [h.sched.rems.1]; exact hi.busRem
  iopRem := by rw [h.sched.rems.2]; exact hi.iopRem
  fatalCode := h.code hi.fatalCode

/-- No agent outside the CORE breaks the invariant: none moves `pc` or a target. -/
theorem UnitEffect.inv {s t : State} (h : UnitEffect s t) (hi : s.Inv) : t.Inv :=
  h.exec.inv hi (by rw [h.rest]; exact hi.pcs)

/-- An instruction step keeps the invariant: Fetch makes `next_pc` the aligned `pc + 4` (`40_core_step.md` R121), and
every target an instruction computes is aligned. -/
theorem instructionStep_inv {s t : State} (h : ExecEffect s.latchNextPc t) (hi : s.Inv) : t.Inv :=
  h.inv hi.congr (h.aligned hi.pcAligned (add4_aligned hi.pcAligned) hi.targetAligned)

/-- The interrupt check leaves `pc` where it is or at the aligned `EXC_VECTOR` with nothing pending
(`60_exceptions.md` R275, R281). -/
theorem interruptCheck_aligned {s : State} (h : s.PcAligned) : s.interruptCheck.PcAligned := by
  unfold State.interruptCheck
  split
  · exact h
  · split
    · exact ⟨show cfg.excVector.toNat % 4 = 0 by decide, fun pending => by cases pending⟩
    · exact h

/-- The beginning of an iteration keeps the invariant: the budget's commit, then the interrupt check
(`47_run_loop_host.md` R251). -/
theorem beginIteration_inv {s : State} (hf : s.fatal = false) (hi : s.Inv) : s.beginIteration.Inv := by
  have committed : ({ s with sched := s.sched.calculateRunCycles.updateCycleCounts } : State).Inv :=
    { hi with
      busRem := (updateCycleCounts_rems _).1
      iopRem := (updateCycleCounts_rems _).2 }
  have checked := (interruptCheck_effect _).inv committed (interruptCheck_aligned committed.pcs)
  rw [beginIteration_eq hf]
  exact checked.congr

/-- The firing of an entry keeps the invariant, whatever its handler does (`46_scheduler.md` R222, R233). -/
theorem fireDue_inv {s : State} (d : Due) (hi : s.Inv) : (s.fireDue d).Inv := by
  rcases fireDue_effect s d with ⟨e, -, u, he, h⟩ | ⟨m, -, u, he, h⟩
  all_goals
    have fired : u.Inv := he.unit.inv hi.congr
    rw [h]
    exact fired.congr

/-- Settles O59: by the move that the step makes (`step_cases`), each of which keeps the invariant. -/
theorem stepKeepsTheMachineInvariant : Obligations.StepKeepsTheMachineInvariant := by
  unfold Obligations.StepKeepsTheMachineInvariant
  intro s t hi h
  obtain ⟨hf, ⟨-, u, -, he, rfl⟩ | ⟨-, loop⟩⟩ := step_cases h
  · rw [charge_eq]
    exact (instructionStep_inv he hi).congr
  · rcases loop with ⟨-, rfl⟩ | ⟨-, rfl⟩ | ⟨-, rfl⟩ | ⟨-, rfl⟩ | ⟨u, us, -, rfl⟩ | ⟨-, rfl⟩ | ⟨d, ds, -, rfl⟩
    · exact hi.congr
    · exact beginIteration_inv hf hi
    · exact hi.congr
    · exact hi.congr
    · exact (unitTurn_effect _ u).inv hi.congr
    · exact hi.congr
    · exact fireDue_inv d hi.congr

/-! ### The inert state -/

/-- The elements that no rule writes after reset are the same (`10_state.md` R27, R28, R39, R41). -/
structure SameInert (s t : State) : Prop where
  lo : t.lo.extractLsb' 64 64 = s.lo.extractLsb' 64 64 := by rfl
  hi : t.hi.extractLsb' 64 64 = s.hi.extractLsb' 64 64 := by rfl
  sa : t.sa = s.sa := by rfl
  fpr : t.fpr = s.fpr := by rfl
  fcond : t.fcond = s.fcond := by rfl
  icache : t.icache = s.icache := by rfl

theorem SameInert.trans {s t u : State} (h : SameInert s t) (g : SameInert t u) : SameInert s u where
  lo := g.lo.trans h.lo
  hi := g.hi.trans h.hi
  sa := g.sa.trans h.sa
  fpr := g.fpr.trans h.fpr
  fcond := g.fcond.trans h.fcond
  icache := g.icache.trans h.icache

theorem ExecEffect.inert {s t : State} (h : ExecEffect s t) : SameInert s t where
  lo := h.lo
  hi := h.hi
  sa := by rw [h.rest]
  fpr := by rw [h.rest]
  fcond := by rw [h.rest]
  icache := by rw [h.rest]

theorem beginIteration_inert {s : State} (hf : s.fatal = false) : SameInert s s.beginIteration := by
  have committed : SameInert s { s with sched := s.sched.calculateRunCycles.updateCycleCounts } := {}
  have checked := committed.trans (interruptCheck_effect _).inert
  rw [beginIteration_eq hf]
  exact checked.trans {}

theorem fireDue_inert (s : State) (d : Due) : SameInert s (s.fireDue d) := by
  rcases fireDue_effect s d with ⟨e, -, u, he, h⟩ | ⟨m, -, u, he, h⟩
  · have removed : SameInert s { s with sched := s.sched.removeEvent e } := {}
    rw [h]
    exact (removed.trans he.exec.inert).trans {}
  · have rearmed : SameInert s { s with sched := s.sched.rearm m } := {}
    rw [h]
    exact (rearmed.trans he.exec.inert).trans {}

/-- No step changes the inert state. -/
theorem step_inert {s t : State} (h : step s = .next t) : SameInert s t := by
  have moved : ∀ p : Phase, SameInert s { s with phase := p } := fun _ => {}
  obtain ⟨hf, ⟨-, u, -, he, rfl⟩ | ⟨-, loop⟩⟩ := step_cases h
  · have latched : SameInert s s.latchNextPc := {}
    rw [charge_eq]
    exact (latched.trans he.inert).trans {}
  · rcases loop with ⟨-, rfl⟩ | ⟨-, rfl⟩ | ⟨-, rfl⟩ | ⟨-, rfl⟩ | ⟨u, us, -, rfl⟩ | ⟨-, rfl⟩ | ⟨d, ds, -, rfl⟩
    · exact {}
    · exact beginIteration_inert hf
    · exact moved _
    · exact moved _
    · exact (moved _).trans (unitTurn_effect _ u).exec.inert
    · exact moved _
    · exact (moved _).trans (fireDue_inert _ d)

/-! ### The upper halves of the general registers -/

/-- Bits 127:64 of every general register are the same (R23). -/
def SameUpper (s t : State) : Prop := ∀ r : Reg, (t.xq r).extractLsb' 64 64 = (s.xq r).extractLsb' 64 64

theorem SameUpper.of_gpr {s t : State} (h : t.gpr = s.gpr) : SameUpper s t := fun r => by rw [xq_congr h]

theorem SameUpper.trans {s t u : State} (h : SameUpper s t) (g : SameUpper t u) : SameUpper s u :=
  fun r => (g r).trans (h r)

theorem setX_upper (s : State) (rd : Reg) (v : Dword) : SameUpper s (s.setX rd v) := by
  intro r
  by_cases hr : r = rd
  · subst hr; exact (wroteX_setX s r v).upper
  · rw [xq_setX_other s v hr]

theorem wrSigned_upper (n : Nat) (rt : Reg) (t : State) (v : Quad) : SameUpper t (wrSigned n rt t v) :=
  setX_upper t rt _

theorem wrUnsigned_upper (n : Nat) (rt : Reg) (t : State) (v : Quad) : SameUpper t (wrUnsigned n rt t v) :=
  setX_upper t rt _

/-- Retiring writes no general register. -/
theorem retire_upper {s t : State} (h : SameUpper s t) (d : Descriptor) (o : Completion) : SameUpper s (t.retire d o) :=
  h.trans (.of_gpr (retire_gpr t d o))

/-- An instruction that only retires. -/
theorem retire_completes_upper (s : State) (d : Descriptor) (o : Completion) :
    Completes (.next (s.retire d o)) (SameUpper s) :=
  ⟨_, rfl, .of_gpr (retire_gpr s d o)⟩

theorem writeDone_upper (d : Descriptor) (rd : Reg) (v : Dword) (s : State) :
    Completes (writeDone d rd v s) (SameUpper s) :=
  ⟨_, rfl, retire_upper (setX_upper s rd v) d .done⟩

theorem DeviceEffect.upper {s t : State} (h : DeviceEffect s t) : SameUpper s t :=
  .of_gpr (by rw [h.rest])

/-- A load whose register write keeps the upper halves. -/
theorem loadOp_upper (d : Descriptor) (w : Width) (base : Reg) (imm : Half) (wr : State → Quad → State)
    (hw : ∀ t v, SameUpper t (wr t v)) (s : State) : Completes (loadOp d w base imm wr s) (SameUpper s) := by
  unfold loadOp
  cases h : s.memRead w (s.effAddr base imm) with
  | error f => exact retire_completes_upper s d _
  | ok r =>
    obtain ⟨v, t⟩ := r
    have access : SameUpper s t := (busRead_effect h).upper
    simp only
    split
    · exact ⟨t, rfl, access⟩
    · exact ⟨_, rfl, retire_upper (access.trans (hw t v)) d .done⟩

theorem storeOp_upper (d : Descriptor) (w : Width) (base : Reg) (imm : Half) (v : Quad) (s : State) :
    Completes (storeOp d w base imm v s) (SameUpper s) := by
  unfold storeOp
  cases h : s.memWrite w (s.effAddr base imm) v with
  | error f => exact retire_completes_upper s d _
  | ok t =>
    have access : SameUpper s t := (busWrite_effect h).upper
    simp only
    split
    · exact ⟨t, rfl, access⟩
    · exact ⟨_, rfl, retire_upper access d .done⟩

theorem eret_upper (s : State) : Completes (execEret s) (SameUpper s) := by
  unfold execEret
  split
  · exact retire_completes_upper s _ _
  · split
    · exact retire_completes_upper s _ _
    · exact ⟨_, rfl, retire_upper (t := s.popStatus) (.of_gpr rfl) _ _⟩

theorem mfc0_upper (rt : Reg) (n : Nat) (s : State) : Completes (execMfc0 rt n s) (SameUpper s) := by
  unfold execMfc0
  split
  · exact writeDone_upper _ _ _ s
  · exact retire_completes_upper s _ _

/-- A write of a coprocessor-0 register writes no general register (`45_system.md` R210). -/
theorem setCop0_gpr {s t : State} {n : Nat} {v : Word} (h : s.setCop0 n v = some t) : t.gpr = s.gpr := by
  unfold State.setCop0 at h
  split at h
  · cases h; rfl
  · split at h
    · cases h; rfl
    · split at h
      · cases h; rfl
      · cases h

theorem mtc0_upper (rt : Reg) (n : Nat) (s : State) : Completes (execMtc0 rt n s) (SameUpper s) := by
  unfold execMtc0
  split
  · rename_i t h
    exact ⟨_, rfl, retire_upper (.of_gpr (setCop0_gpr h)) _ _⟩
  · exact retire_completes_upper s _ _

theorem cfc2i_upper (s : State) : Completes (execCfc2i s) (SameUpper s) := by
  have asked : SameUpper s (s.interlockRequest .cop2).2 := .of_gpr (by rw [(interlockRequest_effect s .cop2).rest])
  unfold execCfc2i
  split
  · rename_i t e
    rw [e] at asked
    exact ⟨_, rfl, retire_upper asked _ _⟩
  · rename_i t e
    rw [e] at asked
    exact ⟨_, rfl, retire_upper (asked.trans (setX_upper t 0 0)) _ _⟩

/-- The link of JAL is a write of bits 63:0 (`43_branch.md` R173). -/
theorem jal_upper (index : BitVec 26) (s : State) : Completes (execJal index s) (SameUpper s) := by
  refine ⟨_, rfl, retire_upper ?_ _ _⟩
  split
  · exact .of_gpr rfl
  · exact setX_upper s 31 _

/-- Every instruction but LQ keeps bits 127:64 of every general register (`44_loadstore.md` R189). -/
theorem exec_upper (i : Instr) (s : State) (hq : ∀ rt base imm, i ≠ .lq rt base imm) :
    Completes (exec i s) (SameUpper s) := by
  cases i with
  | sll _ _ _ | add _ _ _ | addi _ _ _ | daddu _ _ _ | mfhi _ | mflo _ => exact writeDone_upper _ _ _ s
  | mult _ _ | div _ _ => exact ⟨_, rfl, retire_upper (.of_gpr (setLoHi_gpr s _ _)) _ _⟩
  | beq _ _ _ | bne _ _ _ | j _ | jr _ => exact retire_completes_upper s _ _
  | jal index => exact jal_upper index s
  | lb rt _ _ | lh rt _ _ | lw rt _ _ => exact loadOp_upper _ _ _ _ _ (wrSigned_upper _ rt) s
  | lbu rt _ _ | lhu rt _ _ | lwu rt _ _ | ld rt _ _ => exact loadOp_upper _ _ _ _ _ (wrUnsigned_upper _ rt) s
  | lq rt base imm => exact absurd rfl (hq rt base imm)
  | sb _ _ _ | sh _ _ _ | sw _ _ _ | sd _ _ _ | sq _ _ _ => exact storeOp_upper _ _ _ _ _ s
  | tge _ _ _ | tgeu _ _ _ | tlt _ _ _ | tltu _ _ _ | teq _ _ _ | tne _ _ _ => exact retire_completes_upper s _ _
  | syscall _ | breakpoint _ => exact retire_completes_upper s _ _
  | eret => exact eret_upper s
  | mfc0 rt n => exact mfc0_upper rt n s
  | mtc0 rt n => exact mtc0_upper rt n s
  | wait => exact ⟨_, rfl, retire_upper (t := { s with waitForIrq := true }) (.of_gpr rfl) _ _⟩
  | cfc2i => exact cfc2i_upper s

/-- Settles O52: `step_inert` for every step, `exec_upper` for every instruction but LQ. -/
theorem inertStateNeverChanges : Obligations.InertStateNeverChanges := by
  unfold Obligations.InertStateNeverChanges
  refine ⟨fun s t h => ?_, fun i s t r hq h => ?_⟩
  · obtain ⟨lo, hi, sa, fpr, fcond, icache⟩ := step_inert h
    exact ⟨lo, hi, sa, fpr, fcond, icache⟩
  · obtain ⟨u, hu, upper⟩ := exec_upper i s hq
    rw [h] at hu
    cases hu
    exact upper r

end Sys2Proof.Machine

/-! ## The bus

What the bus does by what is behind the address (`20_memory.md` R62 to R78), what the agents behind it can do, and the
interlock (R85). -/

namespace Sys2Proof.Machine

/-! ### Routing and faults -/

/-- Settles O27: `route_eq` in the order of the addresses. No two of its ranges meet, so the order of the tests does not
matter; below and from 0x11000000 on, half of them fail at once. -/
theorem routeTable : Obligations.RouteTable := by
  unfold Obligations.RouteTable
  intro all ram rom reg hall hram hrom hreg pa
  obtain rfl : ram = ramDevice := funext fun n => by rw [hram, hall]; rfl
  obtain rfl : rom = romDevice := funext fun n => by rw [hrom, hall]; rfl
  obtain rfl : reg = registerDevice := funext fun n => by rw [hreg, hall]; rfl
  rw [route_eq]
  rcases Nat.lt_or_ge pa 0x11000000 with low | high
  · grind
  · grind

/-- A read without a route, or without a read delegate for the width, is an unmapped read, under every configuration
(R65, R75). -/
theorem busRead_noDelegate {s : State} {w : Width} {pa : Word} (c : Config) (hf : s.fatal = false)
    (ha : pa.toNat % w.bytes = 0) (hd : ∀ d, route pa.toNat c = some d → w ∉ d.rdWidths) :
    s.busRead w pa c = .ok (s.unmappedRead w pa c) := by
  unfold State.busRead
  rw [if_neg (by simp [hf]), if_neg (by simp [ha])]
  cases hr : route pa.toNat c with
  | none => rfl
  | some d => exact if_neg (hd d hr)

/-- A write without a route, or without a write delegate for the width, is dropped, under every configuration (R65,
R76). -/
theorem busWrite_noDelegate {s : State} {w : Width} {pa : Word} (v : Quad) (c : Config) (hf : s.fatal = false)
    (ha : pa.toNat % w.bytes = 0) (hd : ∀ d, route pa.toNat c = some d → w ∉ d.wrWidths) :
    s.busWrite w pa v c = .ok s := by
  unfold State.busWrite
  rw [if_neg (by simp [hf]), if_neg (by simp [ha])]
  cases hr : route pa.toNat c with
  | none => rfl
  | some d => exact if_neg (hd d hr)

/-- The sentinel's read under CFG_REF answers 0 (R75). -/
theorem unmappedRead_cfg (s : State) (w : Width) (pa : Word) :
    s.unmappedRead w pa = (0, { s with out := .unmappedRead pa w :: s.out }) := by
  rw [State.unmappedRead, unmappedValue_cfg]
  rfl

/-- Settles O29: by what is behind the address; under every configuration by the missing delegate. -/
theorem busFaults : Obligations.BusFaults := by
  unfold Obligations.BusFaults
  intro s w pa v hf
  refine ⟨fun ha => ⟨busRead_misaligned hf ha, busWrite_misaligned v hf ha⟩,
    fun ha hr => ⟨?_, busWrite_unmapped v hf ha hr⟩, busWrite_readOnly v hf,
    fun c ha => ⟨fun hd => ?_, busWrite_noDelegate v c hf ha⟩⟩
  · rw [busRead_unmapped hf ha hr, unmappedRead_cfg]
  · exact ⟨unmappedValue w c, unmappedValue_toNat w c, busRead_noDelegate c hf ha hd⟩

/-! ### Memory -/

/-- Byte `j` of a value read from memory is the byte at `a + j` (R62). -/
theorem memValue_extract (s : State) (w : Width) (a : Nat) {j : Nat} (hj : j < w.bytes) :
    (s.memValue w a).extractLsb' (8 * j) 8 = s.byteAt (a + j) := by
  have hw : w.bytes ≤ 16 := by cases w <;> decide
  unfold State.memValue
  rw [extract_leNat 128 _ j (by simpa using hj) (by omega), Memory.readBytes_get]
  rfl

/-- A value read from memory fits its width (R61). -/
theorem memValue_lt (s : State) (w : Width) (a : Nat) : (s.memValue w a).toNat < 256 ^ w.bytes := by
  have fits := leNat_lt (Memory.readBytes s.mem a w.bytes)
  rw [Memory.readBytes_length] at fits
  exact Nat.lt_of_le_of_lt (Nat.mod_le _ _) fits

/-- Settles O28: an aligned access of memory is `memStore` or `memValue`, whose bytes are known. -/
theorem busIsLittleEndian : Obligations.BusIsLittleEndian := by
  unfold Obligations.BusIsLittleEndian
  intro s w pa hf ha
  constructor
  · exact fun hm v => ⟨_, busWrite_memory v hf ha hm, memStore_byte s w _ v, memStore_outside s w _ v⟩
  · exact fun hm => ⟨_, busRead_memory hf ha hm, fun j hj => memValue_extract s w _ hj, memValue_lt s w _⟩

/-- A byte of memory depends on the memory alone. -/
theorem byteAt_congr {s t : State} (h : t.mem = s.mem) (a : Nat) : t.byteAt a = s.byteAt a := by
  unfold State.byteAt
  rw [h]

/-- The budget and the interrupt check store nothing (`47_run_loop_host.md` R251). -/
theorem beginIteration_mem {s : State} (hf : s.fatal = false) : s.beginIteration.mem = s.mem := by
  rw [beginIteration_eq hf]
  exact interruptCheck_mem _

/-- Whatever a fired handler does, bytes outside writable memory stay (`46_scheduler.md` R222). -/
theorem fireDue_outside (s : State) (d : Due) {a : Nat} (ha : inWritableMemory a = false) :
    (s.fireDue d).byteAt a = s.byteAt a := by
  rcases fireDue_effect s d with ⟨e, -, u, he, h⟩ | ⟨m, -, u, he, h⟩
  all_goals
    rw [h]
    exact he.outside a ha

/-- Settles O31: by the move that the step makes (`step_cases`); the CORE, an external unit and a fired handler each
keep the byte, and no other move stores. -/
theorem onlyWritableMemoryChanges : Obligations.OnlyWritableMemoryChanges := by
  unfold Obligations.OnlyWritableMemoryChanges
  intro s t a h ha
  obtain ⟨hf, ⟨-, u, -, he, rfl⟩ | ⟨-, loop⟩⟩ := step_cases h
  · exact (byteAt_congr (charge_mem u) a).trans (he.outside a ha)
  · rcases loop with ⟨-, rfl⟩ | ⟨-, rfl⟩ | ⟨-, rfl⟩ | ⟨-, rfl⟩ | ⟨u, us, -, rfl⟩ | ⟨-, rfl⟩ | ⟨d, ds, -, rfl⟩
    · rfl
    · exact byteAt_congr (beginIteration_mem hf) a
    · rfl
    · rfl
    · exact (unitTurn_effect _ u).outside a ha
    · rfl
    · exact fireDue_outside _ d ha

/-! ### The interlock -/

/-- The first side to ask waits (R85). -/
theorem interlockRequest_wait {s : State} {x : IlockSide} (hf : s.fatal = false) (ho : s.ilockFlag x.other = false) :
    s.interlockRequest x = (.mustWait, s.setIlock x) := by
  unfold State.interlockRequest
  rw [if_neg (by simp [hf]), if_pos ho]

/-- The second side to ask is satisfied, with both flags set (R85). -/
theorem interlockRequest_meet {s : State} {x : IlockSide} (hf : s.fatal = false) (ho : s.ilockFlag x.other = true)
    (hx : s.ilockFlag x = false) : s.interlockRequest x = (.satisfied, s.setIlock x) := by
  unfold State.interlockRequest
  rw [if_neg (by simp [hf]), if_neg (by simp [ho]), if_pos hx]

/-- With both flags set a request is satisfied and clears both (R85). -/
theorem interlockRequest_clear {s : State} {x : IlockSide} (hf : s.fatal = false) (ho : s.ilockFlag x.other = true)
    (hx : s.ilockFlag x = true) :
    s.interlockRequest x = (.satisfied, { s with ilockCop2 := false, ilockVu := false }) := by
  unfold State.interlockRequest
  rw [if_neg (by simp [hf]), if_neg (by simp [ho]), if_neg (by simp [hx])]

/-- Setting both flags and clearing them again changes nothing where both were clear. -/
theorem setIlock_both_clear {s : State} (x : IlockSide) (hcop2 : s.ilockCop2 = false) (hvu : s.ilockVu = false) :
    { (s.setIlock x).setIlock x.other with ilockCop2 := false, ilockVu := false } = s := by
  cases s
  cases hcop2
  cases hvu
  cases x <;> rfl

/-- Settles O32: the three answers one by one, then in sequence from clear flags. -/
theorem interlockRendezvous : Obligations.InterlockRendezvous := by
  unfold Obligations.InterlockRendezvous
  refine ⟨fun s x hf => ⟨interlockRequest_wait hf, interlockRequest_meet hf, interlockRequest_clear hf⟩, ?_⟩
  intro s a b c x p q r hf hcop2 hvu first second third
  have flags : ∀ y, s.ilockFlag y = false := by intro y; cases y <;> assumption
  rw [interlockRequest_wait hf (flags _)] at first
  cases first
  rw [interlockRequest_meet (by simpa using hf) (by cases x <;> rfl) (by cases x <;> assumption)] at second
  cases second
  rw [interlockRequest_clear (by simpa using hf) (by cases x <;> rfl) (by cases x <;> rfl)] at third
  cases third
  exact ⟨rfl, rfl, by cases x <;> rfl, by cases x <;> rfl, rfl, setIlock_both_clear x hcop2 hvu⟩

/-! ### A device's side effects -/

/-- A device touches no element of `SameOutsideDevices`. -/
theorem DeviceEffect.sameOutsideDevices {s t : State} (h : DeviceEffect s t) : SameOutsideDevices s t := by
  constructor <;> rw [h.rest]

/-- A device touches no coprocessor-0 field. -/
theorem DeviceEffect.sameCop0 {s t : State} (h : DeviceEffect s t) : SameCop0 s t := by
  constructor <;> rw [h.rest]

/-- A device touches neither LO nor HI. -/
theorem DeviceEffect.sameLoHi {s t : State} (h : DeviceEffect s t) : SameLoHi s t := by
  constructor <;> rw [h.rest]

/-- A device writes no general register. -/
theorem DeviceEffect.gpr {s t : State} (h : DeviceEffect s t) : t.gpr = s.gpr := by rw [h.rest]

/-- A side effect of a write elsewhere than the privileged graphics window is a side effect of any other kind (R83). -/
theorem writeOps_eq_deviceOps {n : DeviceName} (hn : n ≠ .gsPriv) (ops : List PortOp) :
    ∀ s : State, s.writeOps n ops = s.deviceOps ops := by
  induction ops with
  | nil => exact fun s => rfl
  | cons op ops ih =>
    intro s
    have one : State.writeOp n s op = s.deviceOp op := if_neg fun h => hn h.1
    show (State.writeOp n s op).writeOps n ops = (s.deviceOp op).deviceOps ops
    rw [one, ih]

/-- Any record but the wake of the graphics worker (R83). -/
def OutEvent.notWake (e : OutEvent) : Bool := decide (e ≠ .wakeGraphics)

theorem schedAnswer_notWake (s : State) (h : Nat) (a : Option (Nat × Sched)) :
    Emits OutEvent.notWake s (s.schedAnswer h a).2 := by
  cases a with
  | none => exact .fatal (fun _ _ _ => rfl) s _ _
  | some r => exact .same rfl

theorem deviceRead_notWake (s : State) (w : Width) (pa : Word) :
    Emits OutEvent.notWake s (s.deviceRead w pa).2 := by
  unfold State.deviceRead
  split
  · split
    · exact .refl s
    · split
      · exact .refl s
      · exact .emit s rfl
  · exact .refl s

/-- A device's store records nothing. -/
theorem deviceStore_out (s : State) (w : Width) (pa : Nat) (v : Quad) : (s.deviceStore w pa v).out = s.out := by
  unfold State.deviceStore
  split
  · split <;> rfl
  · rfl

/-- No port operation of a device wakes the graphics worker: the wake has no effect outside a write (R83). -/
theorem deviceOp_notWake (s : State) (op : PortOp) : Emits OutEvent.notWake s (s.deviceOp op) := by
  unfold State.deviceOp State.deviceCall
  split
  · exact .refl s
  · cases op with
    | busRead w pa =>
      simp only
      split
      · exact .fatal (fun _ _ _ => rfl) s _ _
      · exact deviceRead_notWake s w pa
    | busWrite w pa v =>
      simp only
      split
      · exact .fatal (fun _ _ _ => rfl) s _ _
      · exact .same (deviceStore_out s w pa.toNat v)
    | registerFunction => simp only [State.registerFunction, idResult]; split <;> exact .same rfl
    | addEvent h d p =>
      simp only [State.addEvent, idResult]
      split
      · exact .refl s
      · exact schedAnswer_notWake s h _
    | addTimer h n =>
      simp only [State.addTimer, idResult]
      split
      · exact .refl s
      · exact schedAnswer_notWake s h _
    | irqSet i l => exact .same (irqSet_out s i l)
    | interlockRequest => exact .refl s
    | wakeGraphics => exact .refl s

theorem deviceOps_notWake (ops : List PortOp) : ∀ s : State, Emits OutEvent.notWake s (s.deviceOps ops) := by
  induction ops with
  | nil => exact Emits.refl
  | cons op ops ih => exact fun s => (deviceOp_notWake s op).trans (ih _)

theorem Emits.no_wake {s t : State} (h : Emits OutEvent.notWake s t) :
    ∃ l, t.out = l ++ s.out ∧ .wakeGraphics ∉ l := by
  obtain ⟨l, hl, quiet⟩ := h
  exact ⟨l, hl, fun woke => by cases quiet _ woke⟩

/-- The lines after `irq_set` (`47_run_loop_host.md` R257). -/
theorem irqSet_line (s : State) (i j : Nat) (level : Bool) :
    (s.irqSet i level).irqLine.getLsbD j = if j = i ∧ i < cfg.nIrq then level else s.irqLine.getLsbD j := by
  unfold State.irqSet
  by_cases hi : i < cfg.nIrq
  · have hi8 : i < 8 := hi
    by_cases hj : j = i
    · subst hj
      cases level <;> simp [hi, hi8]
    · have other : ¬i = j := fun e => hj e.symm
      have inside : s.irqLine.getLsbD j = true → j < 8 := s.irqLine.lt_of_getLsbD
      cases level
      · simpa [hi, hj, other] using inside
      · simp [hi, hj, other]
  · simp [hi]

/-- `irq_set` touches the lines alone (R257). -/
theorem irqSet_rest (s : State) (i : Nat) (level : Bool) : { s.irqSet i level with irqLine := s.irqLine } = s := by
  unfold State.irqSet
  split <;> rfl

/-! ### A device's port operations, one by one -/

section
variable {s : State} {w : Width} {pa : Word} (c : Config) (hf : s.fatal = false)
include hf

theorem deviceCall_read (ha : pa.toNat % w.bytes = 0) :
    s.deviceCall (.busRead w pa) c = (.value (s.deviceRead w pa c).1, (s.deviceRead w pa c).2) := by
  simp [State.deviceCall, hf, ha]

theorem deviceCall_write (v : Quad) (ha : pa.toNat % w.bytes = 0) :
    s.deviceCall (.busWrite w pa v) c = (.none, s.deviceStore w pa.toNat v c) := by
  simp [State.deviceCall, hf, ha]

theorem deviceCall_read_misaligned (ha : pa.toNat % w.bytes ≠ 0) :
    s.deviceCall (.busRead w pa) c = (.none, s.latchFatal .misalignedAccess pa) := by
  simp [State.deviceCall, hf, ha]

theorem deviceCall_write_misaligned (v : Quad) (ha : pa.toNat % w.bytes ≠ 0) :
    s.deviceCall (.busWrite w pa v) c = (.none, s.latchFatal .misalignedAccess pa) := by
  simp [State.deviceCall, hf, ha]

theorem deviceCall_registerFunction :
    s.deviceCall .registerFunction c = (.id s.registerFunction.1, s.registerFunction.2) := by
  simp [State.deviceCall, hf, idResult]

theorem deviceCall_addEvent (h : Nat) (d p : Dword) :
    s.deviceCall (.addEvent h d p) c = (.id (s.addEvent h d p).1, (s.addEvent h d p).2) := by
  simp [State.deviceCall, hf, idResult]

theorem deviceCall_addTimer (h : Nat) (n : Dword) :
    s.deviceCall (.addTimer h n) c = (.id (s.addTimer h n).1, (s.addTimer h n).2) := by
  simp [State.deviceCall, hf, idResult]

theorem deviceCall_irqSet (i : Nat) (level : Bool) :
    s.deviceCall (.irqSet i level) c = (.none, s.irqSet i level c) := by
  simp [State.deviceCall, hf]

/-- The interlock is no port of a device (`47_run_loop_host.md` R258; log entry 19). -/
theorem deviceCall_interlockRequest : s.deviceCall .interlockRequest c = (.none, s) := by
  simp [State.deviceCall, hf]

/-- Nor is the wake, but in a write (R83, R258; log entry 19). -/
theorem deviceCall_wakeGraphics : s.deviceCall .wakeGraphics c = (.none, s) := by
  simp [State.deviceCall, hf]

/-- An aligned access of a MEMORY device by a device is the bus's, under every configuration (R65, R78). -/
theorem deviceCall_memory (v : Quad) {d : Device} (ha : pa.toNat % w.bytes = 0) (hd : route pa.toNat c = some d)
    (hk : d.kind ≠ .register) :
    (∃ r, s.busRead w pa c = .ok r ∧ s.deviceCall (.busRead w pa) c = (.value r.1, r.2)) ∧
    ∃ t, s.busWrite w pa v c = .ok t ∧ s.deviceCall (.busWrite w pa v) c = (.none, t) :=
  ⟨⟨_, deviceRead_memory c hf ha hd hk, deviceCall_read c hf ha⟩,
    _, deviceStore_memory v c hf ha hd hk, deviceCall_write c hf v ha⟩

/-- Without a delegate for the width a device's read of a MEMORY device is logged and answers the sentinel, and its
write is dropped (R75, R76). -/
theorem deviceCall_noDelegate (v : Quad) {d : Device} (ha : pa.toNat % w.bytes = 0) (hd : route pa.toNat c = some d)
    (hk : d.kind ≠ .register) :
    (w ∉ d.rdWidths → s.deviceCall (.busRead w pa) c =
      (.value (unmappedValue w c), { s with out := .unmappedRead pa w :: s.out })) ∧
    (w ∉ d.wrWidths → s.deviceCall (.busWrite w pa v) c = (.none, s)) := by
  obtain ⟨⟨r, hr, read⟩, t, ht, write⟩ := deviceCall_memory c hf v ha hd hk
  constructor
  · intro hw
    rw [busRead_noDelegate c hf ha (by simpa [hd] using hw)] at hr
    cases hr
    exact read
  · intro hw
    rw [busWrite_noDelegate v c hf ha (by simpa [hd] using hw)] at ht
    cases ht
    exact write

end

/-- Under CFG_REF a device's aligned access of memory is the bus's, and one elsewhere answers 0 or is dropped (R78; log
entry 19). -/
theorem deviceCall_cfg {s : State} {w : Width} {pa : Word} (v : Quad) (hf : s.fatal = false)
    (ha : pa.toNat % w.bytes = 0) :
    (inMemory pa.toNat = true →
      (∃ x, s.busRead w pa = .ok (x, s) ∧ s.deviceCall (.busRead w pa) = (.value x, s)) ∧
      ∃ t, s.busWrite w pa v = .ok t ∧ s.deviceCall (.busWrite w pa v) = (.none, t)) ∧
    (inMemory pa.toNat = false →
      s.deviceCall (.busRead w pa) = (.value 0, s) ∧ s.deviceCall (.busWrite w pa v) = (.none, s)) := by
  constructor
  · intro hm
    obtain ⟨d, hd, hk⟩ := inMemory_some hm
    obtain ⟨⟨r, hr, read⟩, write⟩ := deviceCall_memory cfg hf v ha hd hk
    have memory := busRead_memory hf ha hm
    rw [memory] at hr
    cases hr
    exact ⟨⟨_, memory, read⟩, write⟩
  · intro hm
    obtain ⟨read, write⟩ := deviceAccess_elsewhere (s := s) w v hm
    rw [deviceCall_read cfg hf ha, deviceCall_write cfg hf v ha, read, write, unmappedValue_cfg]
    exact ⟨rfl, rfl⟩

/-- Settles O30: the frame is `DeviceEffect`, the wake `deviceOps_notWake`; then the operations one by one. -/
theorem deviceSideEffectsAreLimited : Obligations.DeviceSideEffectsAreLimited := by
  unfold Obligations.DeviceSideEffectsAreLimited
  refine ⟨?_, ?_, ?_, fun s i j level => ⟨irqSet_line s i j level, irqSet_rest s i level⟩,
    fun s => ⟨rfl, fun op ops => rfl⟩, fun s n => ⟨rfl, fun op ops => rfl⟩, ?_, ?_⟩
  · intro s t ops ht
    have effect : DeviceEffect s t := by
      rcases ht with rfl | ⟨n, rfl⟩
      · exact deviceOps_effect ops s
      · exact writeOps_effect n ops s
    exact ⟨effect.sameOutsideDevices, effect.sameCop0, effect.sameLoHi, effect.gpr, by rw [effect.rest],
      by rw [effect.rest], by rw [effect.rest], effect.outside⟩
  · intro s t ops ht
    have same : t = s.deviceOps ops := by
      rcases ht with rfl | ⟨n, hn, rfl⟩
      · rfl
      · exact writeOps_eq_deviceOps hn ops s
    rw [same]
    exact (deviceOps_notWake ops s).no_wake
  · intro s hf
    exact if_pos ⟨rfl, rfl, hf⟩
  · intro s hf
    refine ⟨deviceCall_registerFunction cfg hf, deviceCall_addEvent cfg hf, deviceCall_addTimer cfg hf,
      deviceCall_irqSet cfg hf, deviceCall_interlockRequest cfg hf, deviceCall_wakeGraphics cfg hf,
      fun w pa v => ⟨?_, fun ha => (deviceCall_cfg v hf ha).1, fun ha => (deviceCall_cfg v hf ha).2⟩⟩
    intro ha
    rw [deviceCall_read_misaligned cfg hf ha, deviceCall_write_misaligned cfg hf v ha]
    exact ⟨⟨pa, rfl⟩, pa, rfl⟩
  · intro c s w pa v d hf ha hd hk
    obtain ⟨read, write⟩ := deviceCall_memory c hf v ha hd hk
    obtain ⟨noRead, noWrite⟩ := deviceCall_noDelegate c hf v ha hd hk
    exact ⟨read, write, fun hw => ⟨unmappedValue w c, unmappedValue_toNat w c, noRead hw⟩, noWrite⟩

/-! ### Loads and stores at a REGISTER device -/

/-- The low bits of a value survive the cut to a width that holds them (R61). -/
theorem cutTo_extract {w : Width} {n : Nat} (v : Quad) (hn : n ≤ 8 * w.bytes) :
    (cutTo w v).extractLsb' 0 n = v.extractLsb' 0 n := by
  apply BitVec.eq_of_toNat_eq
  simp only [BitVec.extractLsb'_toNat, Nat.shiftRight_zero, cutTo_toNat, pow256]
  exact Nat.mod_mod_of_dvd _ (pow_dvd_pow 2 hn)

/-- The widest access cuts nothing. -/
theorem cutTo_w128 (v : Quad) : cutTo .w128 v = v := by
  apply BitVec.eq_of_toNat_eq
  rw [cutTo_toNat]
  exact Nat.mod_eq_of_lt v.isLt

/-- A store of a 64-bit register takes the bits of its width alone (`44_loadstore.md` R181). -/
theorem cutTo_low {w : Width} {n : Nat} (v : Dword) (hn : n = 8 * w.bytes) :
    cutTo w (v.zeroExtend 128) = cutTo w ((v.extractLsb' 0 n).zeroExtend 128) := by
  subst hn
  have hw : 8 * w.bytes ≤ 128 := by cases w <;> decide
  have fits : ∀ m : Nat, m % 2 ^ (8 * w.bytes) < 2 ^ 128 := fun m =>
    Nat.lt_of_lt_of_le (Nat.mod_lt _ (by positivity)) (Nat.pow_le_pow_right (by decide) hw)
  apply BitVec.eq_of_toNat_eq
  simp only [cutTo_toNat, pow256, BitVec.zeroExtend, BitVec.toNat_setWidth, BitVec.extractLsb'_toNat,
    Nat.shiftRight_zero, Nat.mod_eq_of_lt (fits _), Nat.mod_mod, Nat.mod_mod_of_dvd _ (pow_dvd_pow 2 hw)]

/-- `Done` and the tracker touch no element of `SameOutsideDevices`. -/
theorem retire_done_outside {s u : State} (d : Descriptor) (h : SameOutsideDevices s u) :
    SameOutsideDevices s (u.retire d .done) := by
  obtain ⟨h1, h2, h3, h4, h5, h6, h7, h8, h9, h10⟩ := h
  constructor <;> simpa

/-- `Done` and the tracker touch nothing that a device's side effects touch, but the streams. -/
theorem retire_done_devices (u : State) (d : Descriptor) : DevicesAs u (u.retire d .done) := by
  constructor <;> simp only [State.retire, State.hazardTrack, State.advance] <;> split <;> rfl

/-- The frame of an instruction that ends `Done` after a device's side effects and a write of general registers. -/
theorem deviceFrame {s u v : State} (i : Instr) (h : DeviceEffect s u) (g : Vector Quad 32)
    (hv : v = { u with gpr := g }) : DeviceFrame i s u (v.retire (descriptor i) .done) := by
  subst hv
  exact
    { tracker := tracked_done i (by rw [h.rest]) (by rw [h.rest]) (by rw [h.rest]) (by rw [h.rest])
        (by rw [h.sched.rest])
      advanced := advancedDone _ (by rw [h.rest]) (by rw [h.rest]) (by rw [h.rest])
      loHi := ⟨(retire_lo _ _ _).trans h.sameLoHi.lo, (retire_hi _ _ _).trans h.sameLoHi.hi⟩
      cop0 := retire_done_cop0 _ { h.sameCop0 with }
      rest := retire_done_outside _ { h.sameOutsideDevices with }
      devices := { retire_done_devices { u with gpr := g } (descriptor i) with } }

section
variable {s : State} {i : Instr} (w : Width) {base : Reg} {imm : Half} {d : Device} (hf : s.fatal = false)
  (hd : route (s.physWord base imm).toNat = some d) (hk : d.kind = .register)
  (ha : (s.physWord base imm).toNat % w.bytes = 0)
include hf hd hk ha

/-- A load from a REGISTER device whose register write `wr` touches general registers alone (R78, R181). -/
theorem deviceLoad_of_loadOp {wr : State → Quad → State} {wrote : State → Prop}
    (hi : exec i s = loadOp (descriptor i) w base imm wr s)
    (hwr : ∀ u v, wr u v = { u with gpr := (wr u v).gpr })
    (hw : ∀ u t, u.gpr = s.gpr → t.gpr = (wr u (cutTo w s.nextAnswer.value)).gpr → wrote t) :
    DeviceLoad s i d.name w (s.physWord base imm) wrote := by
  have access := busRead_register hf ha hd hk
  have effect := registerRead_effect s d.name w (s.physWord base imm)
  unfold DeviceLoad
  rw [hi]
  exact ⟨loadOp_fatal _ wr access, fun live => ⟨_, loadOp_ok _ wr access live,
    hw _ _ effect.gpr (retire_gpr _ _ _), deviceFrame i effect _ (hwr _ _)⟩⟩

/-- A load that writes an extension of its low `n` bits into bits 63:0 (R181). -/
theorem deviceLoad_setX {rt : Reg} {n : Nat} (extend : BitVec n → Dword) (hn : n ≤ 8 * w.bytes)
    (hi : exec i s =
      loadOp (descriptor i) w base imm (fun t v => t.setX rt (extend (v.extractLsb' 0 n))) s) :
    DeviceLoad s i d.name w (s.physWord base imm)
      (fun t => WroteX s t rt (extend (s.nextAnswer.value.extractLsb' 0 n))) := by
  refine deviceLoad_of_loadOp w hf hd hk ha hi (fun _ _ => rfl) fun u t hu ht => ?_
  rw [← cutTo_extract _ hn]
  exact (wroteX_setX u rt _).congr hu.symm ht

/-- A store to a REGISTER device of a value that the access cuts like `v` (R78, R181). -/
theorem deviceStore_of_storeOp {x v : Quad} (hi : exec i s = storeOp (descriptor i) w base imm x s)
    (hv : cutTo w x = cutTo w v) :
    DeviceStore s i d.name w (s.physWord base imm) v := by
  have same : s.registerWrite d.name w (s.physWord base imm) x = s.registerWrite d.name w (s.physWord base imm) v := by
    rw [registerWrite_eq, registerWrite_eq, hv]
  have access := busWrite_register x hf ha hd hk
  have effect := registerWrite_effect s d.name w (s.physWord base imm) v
  rw [same] at access
  unfold DeviceStore
  rw [hi]
  exact ⟨storeOp_fatal _ access, fun live => ⟨_, storeOp_ok _ access live,
    sameGprs_of_gpr ((retire_gpr _ _ _).trans effect.gpr), deviceFrame i effect _ rfl⟩⟩

end

/-- LQ takes the whole value into the register (`44_loadstore.md` R189). -/
theorem deviceLoad_lq {s : State} (rt : Reg) {base : Reg} {imm : Half} {d : Device} (hf : s.fatal = false)
    (hd : route (s.physWord base imm).toNat = some d) (hk : d.kind = .register)
    (ha : (s.physWord base imm).toNat % 16 = 0) :
    DeviceLoad s (.lq rt base imm) d.name .w128 (s.physWord base imm) (fun t => WroteXq s t rt s.nextAnswer.value) := by
  refine deviceLoad_of_loadOp .w128 hf hd hk ha rfl (fun _ _ => rfl) fun u t hu ht => ?_
  rw [cutTo_w128] at ht
  exact (wroteXq_setXq u rt _).congr hu.symm ht

/-- The next answer is the first of those listed, and is consumed (log entry 5). -/
theorem nextAnswer_listed {s : State} {a : EnvAnswer} {as : List EnvAnswer} (h : s.env = a :: as) :
    s.nextAnswer = a ∧ s.takeAnswer = { s with env := as } := by
  unfold State.nextAnswer State.takeAnswer
  rw [h]
  exact ⟨rfl, rfl⟩

/-- With none listed, the next answer is a free one, and the counter advances (log entry 5). -/
theorem nextAnswer_free {s : State} (h : s.env = []) :
    s.nextAnswer = Config.freeAnswer s.draws ∧ s.takeAnswer = { s with draws := s.draws + 1 } := by
  unfold State.nextAnswer State.takeAnswer
  rw [h]
  exact ⟨rfl, rfl⟩

/-- Settles O23: `deviceLoad_setX` for each load but LQ and `deviceLoad_lq`; then the access itself and the answer it
takes. -/
theorem loadsFromRegisterDevices : Obligations.LoadsFromRegisterDevices := by
  unfold Obligations.LoadsFromRegisterDevices
  refine ⟨?_, ?_, fun s => ⟨fun a as => nextAnswer_listed, nextAnswer_free⟩⟩
  · rintro s rt base imm pa d hf rfl hd hk
    exact ⟨deviceLoad_setX .w8 hf hd hk (Nat.mod_one _) (·.signExtend 64) (by decide) rfl,
      deviceLoad_setX .w8 hf hd hk (Nat.mod_one _) (·.zeroExtend 64) (by decide) rfl,
      fun ha => ⟨deviceLoad_setX .w16 hf hd hk ha (·.signExtend 64) (by decide) rfl,
        deviceLoad_setX .w16 hf hd hk ha (·.zeroExtend 64) (by decide) rfl⟩,
      fun ha => ⟨deviceLoad_setX .w32 hf hd hk ha (·.signExtend 64) (by decide) rfl,
        deviceLoad_setX .w32 hf hd hk ha (·.zeroExtend 64) (by decide) rfl⟩,
      fun ha => deviceLoad_setX .w64 hf hd hk ha id (by decide) rfl, deviceLoad_lq rt hf hd hk⟩
  · intro s n w pa
    have read := registerRead_eq s n w pa
    obtain ⟨l, hl, quiet⟩ := (deviceOps_records s.nextAnswer.ops
      { s.takeAnswer with out := .devRead n w pa (cutTo w s.nextAnswer.value) :: s.out }).noAccess
    exact ⟨cutTo w s.nextAnswer.value, l, cutTo_toNat w _, read, by rw [read]; exact hl, quiet⟩

/-- Settles O24: `deviceStore_of_storeOp` for the five stores, then the access itself. -/
theorem storesToRegisterDevices : Obligations.StoresToRegisterDevices := by
  unfold Obligations.StoresToRegisterDevices
  constructor
  · rintro s rt base imm pa d hf rfl hd hk
    exact ⟨deviceStore_of_storeOp .w8 hf hd hk (Nat.mod_one _) rfl (cutTo_low _ rfl),
      fun ha => deviceStore_of_storeOp .w16 hf hd hk ha rfl (cutTo_low _ rfl),
      fun ha => deviceStore_of_storeOp .w32 hf hd hk ha rfl (cutTo_low _ rfl),
      fun ha => deviceStore_of_storeOp .w64 hf hd hk ha rfl rfl,
      fun ha => deviceStore_of_storeOp .w128 hf hd hk ha rfl rfl⟩
  · intro s n w pa x
    have write := registerWrite_eq s n w pa x
    obtain ⟨l, hl, quiet⟩ := (writeOps_records n s.nextAnswer.ops
      { s.takeAnswer with out := .devWrite n w pa (cutTo w x) :: s.out }).noAccess
    exact ⟨cutTo w x, l, cutTo_toNat w x, write, by rw [write]; exact hl, quiet⟩

/-! ### A fetch from an unmapped address -/

/-- Fetch from an unmapped address answers the word 0 and logs the read (R75, R79). -/
theorem fetch_unmapped {s : State} (hf : s.fatal = false) (ha : s.pc.toNat % 4 = 0)
    (hr : route (cfg.translate s.pc).toNat = none) :
    s.fetch = .ok (0, s.latchNextPc.emit (.unmappedRead (cfg.translate s.pc) .w32)) := by
  have aligned : (cfg.translate s.pc).toNat % Width.w32.bytes = 0 := (translate_mod _ (by decide)).trans ha
  have access := busRead_unmapped (s := s.latchNextPc) (w := .w32) hf aligned hr
  unfold State.fetch State.memRead
  rw [access, unmappedRead_cfg]
  rfl

/-- The word 0 is the NOP, SLL r0, r0, 0 (R79). -/
theorem runWord_zero (s : State) : runWord 0 s = exec (.sll 0 0 0) s := by
  rw [runWord_eq, show decodeWord 0 = .ok (.sll 0 0 0) by decide]

/-- The NOP ends `Done` and writes no register (`10_state.md` R22). -/
theorem exec_nop (s : State) :
    Completes (exec (.sll 0 0 0) s) fun t => t.gpr = s.gpr ∧ DoneFrame (.sll 0 0 0) s t := by
  obtain ⟨t, ht, wrote, frame⟩ := writeDone_completes (.sll 0 0 0) 0 (sext64 (s.x32 0 <<< 0)) s
  exact ⟨t, ht, wrote.zero rfl, frame⟩

/-- Settles O8: the step is the NOP on the state that the logged fetch leaves, charged. -/
theorem unmappedFetchRunsNop : Obligations.UnmappedFetchRunsNop := by
  unfold Obligations.UnmappedFetchRunsNop
  intro s on ha hr
  have live : s.fatal = false := on.1
  obtain ⟨t, ran, gpr, tracker, advanced, loHi, cop0, memory, rest⟩ :=
    exec_nop (s.latchNextPc.emit (.unmappedRead (cfg.translate s.pc) .w32))
  have stepped : step s = .next t.charge := by
    rw [step_slice on, chargedStep_eq, coreStep, fetch_unmapped live ha hr]
    simp only [emit_fatal, latchNextPc_fatal, live, runWord_zero, ran, charged]
    rfl
  refine ⟨t.charge, stepped, ?_⟩
  rw [charge_eq]
  exact ⟨advanced.pcNext, advanced.pcInSlot, advanced.pending, sameGprs_of_gpr gpr, { loHi with }, { cop0 with },
    memory, rest.fatal.trans live, { tracker with }⟩

end Sys2Proof.Machine

/-! ## Decoding and encoding

What a row of the decode table asks of a word (`30_encoding.md` R101), the row that decides a word, the two round trips
between words and instructions, and the words that no row matches (R109, R110). -/

namespace Sys2Proof

/-! ### What a row asks of a word -/

theorem Row.matches_iff {r : Row} {w : Word} : r.matches w = true ↔ w &&& r.mask = r.pattern := by
  simp [Row.matches]

/-- The row's mask covers the bits from `lo` up that hold `v` in its pattern. -/
abbrev Row.Fixes (r : Row) {n : Nat} (lo : Nat) (v : BitVec n) : Prop :=
  r.mask.extractLsb' lo n = BitVec.allOnes n ∧ r.pattern.extractLsb' lo n = v

theorem Row.Fixes.field {r : Row} {n lo : Nat} {v : BitVec n} (h : r.Fixes lo v) {w : Word}
    (m : r.matches w = true) : w.extractLsb' lo n = v := by
  obtain ⟨mask, pattern⟩ := h
  rw [← pattern, ← Row.matches_iff.1 m, BitVec.extractLsb'_and, mask, BitVec.and_allOnes]

/-- Two rows that match one word agree where both masks look. -/
theorem Row.patterns_agree {a b : Row} {w : Word} (ha : a.matches w = true) (hb : b.matches w = true) :
    a.pattern &&& b.mask = b.pattern &&& a.mask := by
  rw [← Row.matches_iff.1 ha, ← Row.matches_iff.1 hb, BitVec.and_assoc, BitVec.and_assoc, BitVec.and_comm a.mask]

/-- No two rows of R101 agree where both masks look. -/
theorem decodeTable_patterns_differ : ∀ a b : Fin decodeTable.length,
    decodeTable[a].pattern &&& decodeTable[b].mask = decodeTable[b].pattern &&& decodeTable[a].mask → a = b := by
  decide

/-- Settles O4: two rows that match one word agree where both masks look. -/
theorem decodeRowsAreDisjoint : Obligations.DecodeRowsAreDisjoint := by
  unfold Obligations.DecodeRowsAreDisjoint
  exact fun a b w ha hb => decodeTable_patterns_differ a b (Row.patterns_agree ha hb)

/-! ### The row that decides a word -/

theorem matching_row_unique {a b : Row} {w : Word} (ha : a ∈ decodeTable) (hb : b ∈ decodeTable)
    (ma : a.matches w = true) (mb : b.matches w = true) : a = b := by
  obtain ⟨i, rfl⟩ := List.mem_iff_get.1 ha
  obtain ⟨j, rfl⟩ := List.mem_iff_get.1 hb
  rw [decodeRowsAreDisjoint i j w ma mb]

/-- The decoder's answer is what the matching row builds (R108). -/
theorem decodeWord_ok_iff {w : Word} {i : Instr} :
    decodeWord w = .ok i ↔ ∃ r ∈ decodeTable, r.matches w = true ∧ r.build w = i := by
  unfold decodeWord decodeWith
  cases h : decodeTable.find? (fun r => r.matches w) with
  | none =>
    have none_matches := List.find?_eq_none.1 h
    constructor
    · intro e
      cases e
    · rintro ⟨r, hr, m, -⟩
      exact absurd m (none_matches r hr)
  | some r =>
    have hr : r ∈ decodeTable := List.mem_of_find?_eq_some h
    have m : r.matches w = true := List.find?_some (p := fun r : Row => r.matches w) h
    constructor
    · intro e
      cases e
      exact ⟨r, hr, m, rfl⟩
    · rintro ⟨r', hr', m', rfl⟩
      rw [matching_row_unique hr hr' m m']

/-- A word that no row matches is no instruction (R110). -/
theorem decodeWord_unknown {w : Word} (h : ∀ r ∈ decodeTable, ¬ r.matches w = true) :
    decodeWord w = .error .unknownInstruction := by
  unfold decodeWord decodeWith
  rw [List.find?_eq_none.2 h]

/-! ### Bytes -/

/-- Four bytes decode as their little-endian word, whatever follows (R100, `20_memory.md` R62). -/
theorem decode_append {bs : List Byte} (h : bs.length = 4) (rest : List Byte) :
    decode (bs ++ rest) = (decodeWord (BitVec.ofNat 32 (leNat bs))).map (·, rest) := by
  obtain ⟨b0, b1, b2, b3, rfl⟩ := List.length_eq_four.1 h
  simp only [List.cons_append, List.nil_append, decode]
  cases decodeWord (BitVec.ofNat 32 (leNat [b0, b1, b2, b3])) <;> rfl

/-- The bytes of an instruction hold its word (R100). -/
theorem leNat_encodeBytes (i : Instr) : BitVec.ofNat 32 (leNat (encodeBytes i)) = encode i := by
  have fits : (encode i).toNat < 256 ^ 4 := (encode i).isLt
  rw [encodeBytes, leNat_leBytes, Nat.mod_eq_of_lt fits, BitVec.ofNat_toNat, BitVec.setWidth_eq]

/-! ### Decoding an encoded instruction -/

/-- Each instruction has its row (R101). -/
theorem encode_matches_row : ∀ i : Instr, Laws.Encoding.Statement i
  | .sll rd rt sa => Laws.Encoding.sll rd rt sa
  | .add rd rs rt => Laws.Encoding.add rd rs rt
  | .addi rt rs imm => Laws.Encoding.addi rt rs imm
  | .daddu rd rs rt => Laws.Encoding.daddu rd rs rt
  | .mult rs rt => Laws.Encoding.mult rs rt
  | .div rs rt => Laws.Encoding.div rs rt
  | .mfhi rd => Laws.Encoding.mfhi rd
  | .mflo rd => Laws.Encoding.mflo rd
  | .beq rs rt imm => Laws.Encoding.beq rs rt imm
  | .bne rs rt imm => Laws.Encoding.bne rs rt imm
  | .j index => Laws.Encoding.j index
  | .jal index => Laws.Encoding.jal index
  | .jr rs => Laws.Encoding.jr rs
  | .lb rt base imm => Laws.Encoding.lb rt base imm
  | .lbu rt base imm => Laws.Encoding.lbu rt base imm
  | .lh rt base imm => Laws.Encoding.lh rt base imm
  | .lhu rt base imm => Laws.Encoding.lhu rt base imm
  | .lw rt base imm => Laws.Encoding.lw rt base imm
  | .lwu rt base imm => Laws.Encoding.lwu rt base imm
  | .ld rt base imm => Laws.Encoding.ld rt base imm
  | .lq rt base imm => Laws.Encoding.lq rt base imm
  | .sb rt base imm => Laws.Encoding.sb rt base imm
  | .sh rt base imm => Laws.Encoding.sh rt base imm
  | .sw rt base imm => Laws.Encoding.sw rt base imm
  | .sd rt base imm => Laws.Encoding.sd rt base imm
  | .sq rt base imm => Laws.Encoding.sq rt base imm
  | .tge rs rt code => Laws.Encoding.tge rs rt code
  | .tgeu rs rt code => Laws.Encoding.tgeu rs rt code
  | .tlt rs rt code => Laws.Encoding.tlt rs rt code
  | .tltu rs rt code => Laws.Encoding.tltu rs rt code
  | .teq rs rt code => Laws.Encoding.teq rs rt code
  | .tne rs rt code => Laws.Encoding.tne rs rt code
  | .syscall code => Laws.Encoding.syscall code
  | .breakpoint code => Laws.Encoding.breakpoint code
  | .eret => Laws.Encoding.eret
  | .mfc0 rt n => Laws.Encoding.mfc0 rt n
  | .mtc0 rt n => Laws.Encoding.mtc0 rt n
  | .wait => Laws.Encoding.wait
  | .cfc2i => Laws.Encoding.cfc2i

theorem decodeWord_encode {i : Instr} (h : i.wf = true) : decodeWord (encode i) = .ok i :=
  decodeWord_ok_iff.2 (encode_matches_row i h)

/-- Settles O2: the instruction's row is the one that decides its word, and its bytes hold that word. -/
theorem decodeInvertsEncode : Obligations.DecodeInvertsEncode := by
  unfold Obligations.DecodeInvertsEncode
  intro i rest h
  have word := decodeWord_encode h
  refine ⟨word, ?_⟩
  rw [decode_append (bs := encodeBytes i) (leBytes_length 4 _), leNat_encodeBytes, word]
  rfl

/-! ### Encoding a decoded word -/

@[simp] theorem regBits_regField (w : Word) (lo : Nat) : regBits (regField w lo) = w.extractLsb' lo 5 := by
  apply BitVec.eq_of_toNat_eq
  simp [regBits, regField]

@[simp] theorem ofNat_numField (w : Word) (lo n : Nat) : BitVec.ofNat n (numField w lo n) = w.extractLsb' lo n := by
  rw [numField, BitVec.ofNat_toNat, BitVec.setWidth_eq]

theorem numField_lt (w : Word) (lo n : Nat) : numField w lo n < 2 ^ n := (w.extractLsb' lo n).isLt

/-- In every word the row matches, the bits from `lo` up are what `g` takes out of the word. -/
def Row.Reads (r : Row) {n : Nat} (lo : Nat) (g : Word → BitVec n) : Prop :=
  ∀ w, r.matches w = true → w.extractLsb' lo n = g w

theorem Row.reads_fixed {r : Row} {n lo : Nat} {v : BitVec n} (h : r.Fixes lo v := by decide) :
    r.Reads lo fun _ => v := fun _ m => h.field m

theorem Row.reads_reg (r : Row) (lo : Nat) : r.Reads lo fun w => regBits (regField w lo) :=
  fun w _ => (regBits_regField w lo).symm

theorem Row.reads_num (r : Row) (lo n : Nat) : r.Reads lo fun w => BitVec.ofNat n (numField w lo n) :=
  fun w _ => (ofNat_numField w lo n).symm

/-- The instruction that the row builds from a word it matches is well formed, and its encoding is that word. -/
def Row.Sound (r : Row) : Prop := ∀ w, r.matches w = true → (r.build w).wf = true ∧ encode (r.build w) = w

section
variable {r : Row} (wf : ∀ w, (r.build w).wf = true)
include wf

theorem Row.sound_formatR {rs rt rd : Word → Reg} {sa : Word → BitVec 5} {f : BitVec 6}
    (enc : ∀ w, encode (r.build w) = formatR (rs w) (rt w) (rd w) (sa w) f)
    (hrs : r.Reads 21 fun w => regBits (rs w)) (hrt : r.Reads 16 fun w => regBits (rt w))
    (hrd : r.Reads 11 fun w => regBits (rd w)) (hsa : r.Reads 6 sa)
    (hop : r.Fixes 26 0#6 := by decide) (hf : r.Fixes 0 f := by decide) : r.Sound := by
  refine fun w m => ⟨wf w, ?_⟩
  have rsBits : w.extractLsb' 21 5 = regBits (rs w) := hrs w m
  have rtBits : w.extractLsb' 16 5 = regBits (rt w) := hrt w m
  have rdBits : w.extractLsb' 11 5 = regBits (rd w) := hrd w m
  rw [enc, formatR, ← hop.field m, ← rsBits, ← rtBits, ← rdBits, ← hsa w m, ← hf.field m]
  simp (disch := decide) only [BitVec.extractLsb'_append_extractLsb'_eq_extractLsb', BitVec.extractLsb'_eq_self]

theorem Row.sound_formatI {op : BitVec 6}
    (enc : ∀ w, encode (r.build w) = formatI op (regField w 21) (regField w 16) (immField w))
    (hop : r.Fixes 26 op := by decide) : r.Sound := by
  refine fun w m => ⟨wf w, ?_⟩
  rw [enc, formatI, ← hop.field m, regBits_regField, regBits_regField, immField]
  simp (disch := decide) only [BitVec.extractLsb'_append_extractLsb'_eq_extractLsb', BitVec.extractLsb'_eq_self]

theorem Row.sound_formatJ {op : BitVec 6} (enc : ∀ w, encode (r.build w) = formatJ op (indexField w))
    (hop : r.Fixes 26 op := by decide) : r.Sound := by
  refine fun w m => ⟨wf w, ?_⟩
  rw [enc, formatJ, ← hop.field m, indexField]
  exact BitVec.extractLsb'_append_extractLsb'

theorem Row.sound_formatTrap {f : BitVec 6}
    (enc : ∀ w, encode (r.build w) = formatTrap (regField w 21) (regField w 16) (numField w 6 10) f)
    (hop : r.Fixes 26 0#6 := by decide) (hf : r.Fixes 0 f := by decide) : r.Sound := by
  refine fun w m => ⟨wf w, ?_⟩
  rw [enc, formatTrap, ← hop.field m, regBits_regField, regBits_regField, ofNat_numField, ← hf.field m]
  simp (disch := decide) only [BitVec.extractLsb'_append_extractLsb'_eq_extractLsb', BitVec.extractLsb'_eq_self]

theorem Row.sound_formatCode {f : BitVec 6} (enc : ∀ w, encode (r.build w) = formatCode (numField w 6 20) f)
    (hop : r.Fixes 26 0#6 := by decide) (hf : r.Fixes 0 f := by decide) : r.Sound := by
  refine fun w m => ⟨wf w, ?_⟩
  rw [enc, formatCode, ← hop.field m, ofNat_numField, ← hf.field m]
  simp (disch := decide) only [BitVec.extractLsb'_append_extractLsb'_eq_extractLsb', BitVec.extractLsb'_eq_self]

theorem Row.sound_formatC {sub : BitVec 5}
    (enc : ∀ w, encode (r.build w) = formatC sub (regField w 16) (numField w 11 5))
    (hop : r.Fixes 26 0x10#6 := by decide) (hsub : r.Fixes 21 sub := by decide)
    (hlow : r.Fixes 0 0#11 := by decide) : r.Sound := by
  refine fun w m => ⟨wf w, ?_⟩
  rw [enc, formatC, ← hop.field m, ← hsub.field m, regBits_regField, ofNat_numField, ← hlow.field m]
  simp (disch := decide) only [BitVec.extractLsb'_append_extractLsb'_eq_extractLsb', BitVec.extractLsb'_eq_self]

/-- A row that fixes every bit. -/
theorem Row.sound_constant (enc : ∀ w, encode (r.build w) = r.pattern)
    (all : r.Fixes 0 r.pattern := by decide) : r.Sound := by
  refine fun w m => ⟨wf w, ?_⟩
  rw [enc, ← all.field m, BitVec.extractLsb'_eq_self]

end

section
open Row

/-- SLL, ADD, ADDI, DADDU, MULT, DIV, MFHI, MFLO. -/
theorem integerRows_sound : ∀ r ∈ integerRows, r.Sound := by
  simp only [integerRows, List.forall_mem_cons]
  exact ⟨sound_formatR (fun w => decide_eq_true (numField_lt w 6 5)) (fun _ => rfl) reads_fixed (reads_reg _ 16)
      (reads_reg _ 11) (reads_num _ 6 5),
    sound_formatR (fun _ => rfl) (fun _ => rfl) (reads_reg _ 21) (reads_reg _ 16) (reads_reg _ 11) reads_fixed,
    sound_formatI (fun _ => rfl) (fun _ => rfl),
    sound_formatR (fun _ => rfl) (fun _ => rfl) (reads_reg _ 21) (reads_reg _ 16) (reads_reg _ 11) reads_fixed,
    sound_formatR (fun _ => rfl) (fun _ => rfl) (reads_reg _ 21) (reads_reg _ 16) reads_fixed reads_fixed,
    sound_formatR (fun _ => rfl) (fun _ => rfl) (reads_reg _ 21) (reads_reg _ 16) reads_fixed reads_fixed,
    sound_formatR (fun _ => rfl) (fun _ => rfl) reads_fixed reads_fixed (reads_reg _ 11) reads_fixed,
    sound_formatR (fun _ => rfl) (fun _ => rfl) reads_fixed reads_fixed (reads_reg _ 11) reads_fixed,
    List.forall_mem_nil _⟩

/-- BEQ, BNE, J, JAL, JR. -/
theorem branchRows_sound : ∀ r ∈ branchRows, r.Sound := by
  simp only [branchRows, List.forall_mem_cons]
  exact ⟨sound_formatI (fun _ => rfl) (fun _ => rfl),
    sound_formatI (fun _ => rfl) (fun _ => rfl),
    sound_formatJ (fun _ => rfl) (fun _ => rfl),
    sound_formatJ (fun _ => rfl) (fun _ => rfl),
    sound_formatR (fun _ => rfl) (fun _ => rfl) (reads_reg _ 21) reads_fixed reads_fixed reads_fixed,
    List.forall_mem_nil _⟩

/-- The eight loads are of format I. -/
theorem loadRows_sound : ∀ r ∈ loadRows, r.Sound := by
  simp only [loadRows, List.forall_mem_cons]
  refine ⟨?_, ?_, ?_, ?_, ?_, ?_, ?_, ?_, List.forall_mem_nil _⟩
  all_goals exact sound_formatI (fun _ => rfl) (fun _ => rfl)

/-- The five stores are of format I. -/
theorem storeRows_sound : ∀ r ∈ storeRows, r.Sound := by
  simp only [storeRows, List.forall_mem_cons]
  refine ⟨?_, ?_, ?_, ?_, ?_, List.forall_mem_nil _⟩
  all_goals exact sound_formatI (fun _ => rfl) (fun _ => rfl)

/-- The six traps, SYSCALL, BREAK, ERET, MFC0, MTC0, WAIT, CFC2.I. -/
theorem systemRows_sound : ∀ r ∈ systemRows, r.Sound := by
  have trap (w : Word) : decide (numField w 6 10 < 1024) = true := decide_eq_true (numField_lt w 6 10)
  have code (w : Word) : decide (numField w 6 20 < 1048576) = true := decide_eq_true (numField_lt w 6 20)
  have number (w : Word) : decide (numField w 11 5 < 32) = true := decide_eq_true (numField_lt w 11 5)
  simp only [systemRows, List.forall_mem_cons]
  exact ⟨sound_formatTrap trap (fun _ => rfl), sound_formatTrap trap (fun _ => rfl),
    sound_formatTrap trap (fun _ => rfl), sound_formatTrap trap (fun _ => rfl),
    sound_formatTrap trap (fun _ => rfl), sound_formatTrap trap (fun _ => rfl),
    sound_formatCode code (fun _ => rfl), sound_formatCode code (fun _ => rfl),
    sound_constant (fun _ => rfl) (fun _ => rfl),
    sound_formatC number (fun _ => rfl), sound_formatC number (fun _ => rfl),
    sound_constant (fun _ => rfl) (fun _ => rfl), sound_constant (fun _ => rfl) (fun _ => rfl),
    List.forall_mem_nil _⟩

end

theorem decodeTable_sound : ∀ r ∈ decodeTable, r.Sound := by
  simp only [decodeTable, List.forall_mem_append]
  exact ⟨⟨⟨⟨integerRows_sound, branchRows_sound⟩, loadRows_sound⟩, storeRows_sound⟩, systemRows_sound⟩

/-- Settles O3: the matching row fixes every bit that its `build` does not take into an operand. -/
theorem encodeInvertsDecode : Obligations.EncodeInvertsDecode := by
  unfold Obligations.EncodeInvertsDecode
  intro w i h
  obtain ⟨r, hr, m, rfl⟩ := decodeWord_ok_iff.1 h
  exact decodeTable_sound r hr w m

/-! ### Words that no row matches -/

/-- The row agrees with a word that holds `p` under the mask `m`, as far as both masks look. -/
abbrev Row.Agrees (r : Row) (m p : Word) : Prop := r.pattern &&& m = p &&& r.mask

theorem Row.agrees_of_matches {r : Row} {w m p : Word} (hw : w &&& m = p) (h : r.matches w = true) :
    r.Agrees m p := by
  unfold Row.Agrees
  rw [← Row.matches_iff.1 h, ← hw, BitVec.and_assoc, BitVec.and_assoc, BitVec.and_comm m]

/-- A word is no instruction where every row that its bits under `m` leave fixes a field at another value. -/
theorem decodeWord_unknown_of_field {w m p : Word} {n lo : Nat} {v : BitVec n}
    (left : ∀ r ∈ decodeTable, r.Agrees m p → r.Fixes lo v) (hw : w &&& m = p) (hv : w.extractLsb' lo n ≠ v) :
    decodeWord w = .error .unknownInstruction :=
  decodeWord_unknown fun r hr h => hv ((left r hr (Row.agrees_of_matches hw h)).field h)

section
variable {rs rt rd : Reg} {sa : BitVec 5} {f : BitVec 6}

/-- A word of format R with a non-zero field that the row of its `funct` does not use. -/
theorem formatR_unknown {n lo : Nat} (unused : (formatR rs rt rd sa f).extractLsb' lo n ≠ 0)
    (left : ∀ r ∈ decodeTable, r.Agrees 0xFC00003F#32 (0#26 ++ f) → r.Fixes lo (0 : BitVec n) := by decide) :
    decodeWord (formatR rs rt rd sa f) = .error .unknownInstruction :=
  decodeWord_unknown_of_field left (formatR_and_funct rs rt rd sa f) unused

theorem formatR_rs_ne (h : rs ≠ 0) : (formatR rs rt rd sa f).extractLsb' 21 5 ≠ 0 := by
  rwa [formatR_rs, ne_eq, regBits_zero_iff]

theorem formatR_rt_ne (h : rt ≠ 0) : (formatR rs rt rd sa f).extractLsb' 16 5 ≠ 0 := by
  rwa [formatR_rt, ne_eq, regBits_zero_iff]

theorem formatR_rd_ne (h : rd ≠ 0) : (formatR rs rt rd sa f).extractLsb' 11 5 ≠ 0 := by
  rwa [formatR_rd, ne_eq, regBits_zero_iff]

theorem formatR_sa_ne (h : sa ≠ 0) : (formatR rs rt rd sa f).extractLsb' 6 5 ≠ 0 := by
  rwa [formatR_sa]

end

/-- The mask of the operation and sub-operation of a coprocessor-0 word (R105). -/
theorem cop0_and (sub : BitVec 5) (rt : Reg) (n : BitVec 5) (low : BitVec 11) :
    (0x10#6 ++ sub ++ regBits rt ++ n ++ low) &&& 0xFFE00000#32 = 0x10#6 ++ sub ++ 0#21 := by
  apply BitVec.eq_of_getLsbD_eq
  intro i hi
  simp only [BitVec.getLsbD_and, BitVec.getLsbD_append]
  interval_cases i <;> simp

/-- A coprocessor-0 word with non-zero low bits, which the row of its sub-operation does not use. -/
theorem cop0_unknown {sub : BitVec 5} {rt : Reg} {n : BitVec 5} {low : BitVec 11} (h : low ≠ 0)
    (left : ∀ r ∈ decodeTable, r.Agrees 0xFFE00000#32 (0x10#6 ++ sub ++ 0#21) → r.Fixes 0 (0 : BitVec 11) := by
      decide) :
    decodeWord (0x10#6 ++ sub ++ regBits rt ++ n ++ low) = .error .unknownInstruction := by
  refine decodeWord_unknown_of_field left (cop0_and sub rt n low) ?_
  rwa [BitVec.extractLsb'_append_eq_right]

/-- Settles O5: the row of the word's `funct` or sub-operation is the only one left, and it fixes the field at 0. -/
theorem unusedFieldsMustBeZero : Obligations.UnusedFieldsMustBeZero := by
  unfold Obligations.UnusedFieldsMustBeZero
  refine ⟨fun rs rt rd sa h => formatR_unknown (formatR_rs_ne h),
    fun rs rt rd sa h => ⟨formatR_unknown (formatR_sa_ne h), formatR_unknown (formatR_sa_ne h)⟩,
    ?_, ?_, ?_, fun rt n low h => ⟨cop0_unknown h, cop0_unknown h⟩,
    fun rs rt c k s => ⟨rfl, rfl, rfl, rfl, rfl, rfl, rfl, rfl⟩⟩
  · rintro rs rt rd sa (h | h)
    · exact ⟨formatR_unknown (formatR_rd_ne h), formatR_unknown (formatR_rd_ne h)⟩
    · exact ⟨formatR_unknown (formatR_sa_ne h), formatR_unknown (formatR_sa_ne h)⟩
  · rintro rs rt rd sa (h | h | h)
    · exact ⟨formatR_unknown (formatR_rs_ne h), formatR_unknown (formatR_rs_ne h)⟩
    · exact ⟨formatR_unknown (formatR_rt_ne h), formatR_unknown (formatR_rt_ne h)⟩
    · exact ⟨formatR_unknown (formatR_sa_ne h), formatR_unknown (formatR_sa_ne h)⟩
  · rintro rs rt rd sa (h | h | h)
    · exact formatR_unknown (formatR_rt_ne h)
    · exact formatR_unknown (formatR_rd_ne h)
    · exact formatR_unknown (formatR_sa_ne h)

end Sys2Proof

namespace Sys2Proof.Machine

/-! ### The fetch of an unknown word -/

/-- Fetch of an aligned address in memory answers the four bytes there and changes nothing more (R121). -/
theorem fetch_memory {s : State} (hf : s.fatal = false) (ha : s.pc.toNat % 4 = 0)
    (hm : inMemory (cfg.translate s.pc).toNat = true) :
    s.fetch = .ok (BitVec.ofNat 32 (leNat (Memory.readBytes s.mem (cfg.translate s.pc).toNat 4)), s.latchNextPc) := by
  have aligned : (cfg.translate s.pc).toNat % Width.w32.bytes = 0 := (translate_mod _ (by decide)).trans ha
  have access := busRead_memory (s := s.latchNextPc) (w := .w32) hf aligned hm
  have fits := leNat_lt (Memory.readBytes s.mem (cfg.translate s.pc).toNat 4)
  rw [Memory.readBytes_length] at fits
  unfold State.fetch State.memRead
  rw [access]
  show Except.ok (BitVec.extractLsb' 0 32 (s.latchNextPc.memValue .w32 _), _) = _
  rw [State.memValue, extract_low _ fits (by decide)]
  rfl

/-- The instruction step after a fetch that latched nothing (`40_core_step.md` R120). -/
theorem coreStep_fetched {s t : State} {w : Word} (h : s.fetch = .ok (w, t)) (live : t.fatal = false) :
    coreStep s = runWord w t := by
  unfold coreStep
  rw [h]
  exact if_neg (by simp [live])

/-- A word that matches no row latches `UnknownInstruction` and does nothing else (R110). -/
theorem runWord_unknown {w : Word} (s : State) (h : decodeWord w = .error .unknownInstruction) :
    Latches (runWord w s) s .unknownInstruction := by
  rw [runWord_eq, h]
  exact ⟨_, rfl, w, rfl⟩

/-- Four bytes whose word matches no row. -/
theorem decodeWord_of_decode_unknown {bs : List Byte} (hl : bs.length = 4)
    (h : decode bs = .error .unknownInstruction) :
    decodeWord (BitVec.ofNat 32 (leNat bs)) = .error .unknownInstruction := by
  have bytes := decode_append hl []
  rw [List.append_nil, h] at bytes
  cases word : decodeWord (BitVec.ofNat 32 (leNat bs)) with
  | ok i => rw [word] at bytes; cases bytes
  | error e => rw [word] at bytes; cases bytes; rfl

/-- Settles O7: the fetched word runs as `runWord_unknown`, charged. -/
theorem unknownWordIsFatal : Obligations.UnknownWordIsFatal := by
  unfold Obligations.UnknownWordIsFatal
  intro s on ha hm bytes
  have live : s.fatal = false := on.1
  have word := decodeWord_of_decode_unknown (Memory.readBytes_length _ _ _) bytes
  obtain ⟨t, ran, latched⟩ := runWord_unknown s.latchNextPc word
  refine ⟨t, latched, ?_⟩
  rw [step_slice on, chargedStep_eq, coreStep_fetched (fetch_memory live ha hm) live, ran]
  rfl

end Sys2Proof.Machine

/-! ## The step of the CORE

An instruction step as Fetch, Decode, `exec` and the charge (`40_core_step.md` R120, R139), and how an instruction can
end: `Ended` lists the ends once, `exec_ended` shows them of every instruction, and the statements on the delay slot
(R136) and on the tracker (`70_reset_and_hazards.md` R312) are read off it. -/

namespace Sys2Proof.Machine

/-! ### Fetch, Decode, Dispatch, charge -/

/-- Dispatch of a word that decodes (R130). -/
theorem runWord_ok {w : Word} {i : Instr} (s : State) (h : decodeWord w = .ok i) : runWord w s = exec i s := by
  rw [runWord_eq, h]

/-- A step of a slice whose fetch latched nothing (R120, R139). -/
theorem step_fetched {s t : State} {w : Word} (on : s.stepsNext) (h : s.fetch = .ok (w, t)) (live : t.fatal = false) :
    step s = charged (runWord w t) := by
  rw [step_slice on, chargedStep_eq, coreStep_fetched h live]

/-- A step of a slice whose fetch latched `fatal` ends there (log entry 6). -/
theorem step_fetch_fatal {s t : State} {w : Word} (on : s.stepsNext) (h : s.fetch = .ok (w, t))
    (dead : t.fatal = true) : step s = .next t.charge := by
  rw [step_slice on, chargedStep_eq, coreStep, h]
  simp only [dead, if_true, charged]

/-- Four bytes that decode hold the word of the instruction. -/
theorem decodeWord_of_decode {bs : List Byte} {i : Instr} (hl : bs.length = 4) (h : decode bs = .ok (i, [])) :
    decodeWord (BitVec.ofNat 32 (leNat bs)) = .ok i := by
  have bytes := decode_append hl []
  rw [List.append_nil, h] at bytes
  cases word : decodeWord (BitVec.ofNat 32 (leNat bs)) with
  | ok j => rw [word] at bytes; cases bytes; rfl
  | error e => rw [word] at bytes; cases bytes

/-- Settles O6: `step_fetched` with the word that memory or the fetch access answers, and `step_fetch_fatal`. -/
theorem stepRunsDecodedInstruction : Obligations.StepRunsDecodedInstruction := by
  unfold Obligations.StepRunsDecodedInstruction
  refine fun s i on => ⟨fun ha hm bytes => ?_, fun w t fetched live word => ?_, fun w t => step_fetch_fatal on⟩
  · have word := decodeWord_of_decode (Memory.readBytes_length _ _ _) bytes
    rw [step_fetched on (fetch_memory on.1 ha hm) on.1, runWord_ok _ word]
  · rw [step_fetched on fetched live, runWord_ok _ word]

/-- Settles O10: an instruction step leaves the slice's counter and the scheduler's cycles to the charge. -/
theorem everyInstructionStepIsCharged : Obligations.EveryInstructionStepIsCharged := by
  unfold Obligations.EveryInstructionStepIsCharged
  intro s t r on slice stepped
  obtain ⟨u, ran, -, effect⟩ := chargedStep_effect s
  rw [step_slice on, ran] at stepped
  cases stepped
  have phase : u.phase = .core r := by rw [effect.rest]; exact slice
  refine ⟨by simp only [State.charge, phase], ?_, ?_⟩ <;> rw [charge_sched, effect.sched.rest] <;> rfl

/-! ### The placed word -/

/-- A word can be placed only at an aligned address of memory. -/
theorem fetchable_memory {v : Word} (h : fetchable v = true) :
    v.toNat % 4 = 0 ∧ inMemory (cfg.translate v).toNat = true := by
  unfold fetchable at h
  rw [Bool.and_eq_true, decide_eq_true_eq, translate_mod v (by decide)] at h
  obtain ⟨aligned, behind⟩ := h
  refine ⟨aligned, ?_⟩
  cases hd : route (cfg.translate v).toNat with
  | none => rw [hd] at behind; cases behind
  | some d =>
    rw [hd, Bool.and_eq_true] at behind
    rw [inMemory, hd]
    exact behind.1

/-- The address of a placed word is aligned and in memory: `pc`, or else `RESET_PC` in the boot ROM. -/
theorem placePc_memory (s : State) : s.placePc.toNat % 4 = 0 ∧ inMemory (cfg.translate s.placePc).toNat = true := by
  unfold State.placePc
  split
  · exact fetchable_memory ‹_›
  · exact fetchable_memory (by decide)

/-- The slice of a placed word has a cycle left. -/
theorem placePhase_core (s : State) : ∃ r, s.placePhase = .core r ∧ 0 < r := by
  have cost : 0 < cfg.stepCost := by decide
  unfold State.placePhase
  split
  · split
    · exact ⟨_, rfl, ‹_›⟩
    · exact ⟨_, rfl, cost⟩
  all_goals exact ⟨_, rfl, cost⟩

/-- Nothing keeps the CORE from running a placed word (log entry 4). -/
theorem withFetchWord_stepsNext (s : State) (nbits w : Nat) : (s.withFetchWord nbits w).stepsNext := by
  obtain ⟨r, slice, left⟩ := placePhase_core s
  exact ⟨rfl, (sliceOn_iff _).2 ⟨r, slice, left, rfl⟩⟩

/-- A placed word is read back from the bytes it was stored in. -/
theorem withFetchWord_word (s : State) (w : Word) :
    BitVec.ofNat 32 (leNat (Memory.readBytes (s.withFetchWord 32 w.toNat).mem
      (cfg.translate (s.withFetchWord 32 w.toNat).pc).toNat 4)) = w := by
  have stored := Memory.readBytes_writeBytes s.mem (cfg.translate s.placePc).toNat (leBytes 4 (w.toNat % 2 ^ 32))
  rw [leBytes_length] at stored
  show BitVec.ofNat 32 (leNat (Memory.readBytes (Memory.writeBytes s.mem (cfg.translate s.placePc).toNat _)
    (cfg.translate s.placePc).toNat 4)) = w
  rw [stored, leNat_leBytes]
  apply BitVec.eq_of_toNat_eq
  rw [BitVec.toNat_ofNat]
  omega

/-- Settles O9: the fetch of the placed state answers the placed word. -/
theorem placedWordIsTheNextInstruction : Obligations.PlacedWordIsTheNextInstruction := by
  unfold Obligations.PlacedWordIsTheNextInstruction
  intro s w
  obtain ⟨aligned, memory⟩ := placePc_memory s
  have fetched := fetch_memory (s := s.withFetchWord 32 w.toNat) rfl aligned memory
  rw [withFetchWord_word] at fetched
  exact step_fetched (withFetchWord_stepsNext s 32 w.toNat) fetched rfl

/-! ### How an instruction ends -/

/-- Settles O18: R132's test precedes every other of the six handlers. -/
theorem transferInDelaySlotIsFatal : Obligations.TransferInDelaySlotIsFatal := by
  unfold Obligations.TransferInDelaySlotIsFatal
  intro s rs rt imm index slot
  have transfer (d : Descriptor) (o : Completion) :
      Latches (.next (s.retire d (s.transfer o))) s .branchInDelaySlot := ⟨_, rfl, transfer_slot slot d o⟩
  refine ⟨transfer _ _, transfer _ _, transfer _ _, ?_, transfer _ _, ?_⟩
  · simp only [exec, execJal, if_pos slot]
    exact transfer _ _
  · simp only [exec, execEret, if_pos slot]
    exact ⟨_, rfl, retire_fatal _ _ _ _⟩

/-- What an instruction leaves alone until it retires: its place, the branch state, the tracker and its clock. The
streams only grow. -/
structure Unretired (s u : State) : Prop where
  pc : u.pc = s.pc := by rfl
  pending : u.branchPending = s.branchPending := by rfl
  target : u.branchTarget = s.branchTarget := by rfl
  lastDesc : u.lastDesc = s.lastDesc := by rfl
  mdReadyCycle : u.mdReadyCycle = s.mdReadyCycle := by rfl
  phase : u.phase = s.phase := by rfl
  runCycles : u.sched.runCycles = s.sched.runCycles := by rfl
  out : ∃ l, u.out = l ++ s.out := by exact ⟨[], rfl⟩

theorem Unretired.trans {s t u : State} (h : Unretired s t) (g : Unretired t u) : Unretired s u where
  pc := g.pc.trans h.pc
  pending := g.pending.trans h.pending
  target := g.target.trans h.target
  lastDesc := g.lastDesc.trans h.lastDesc
  mdReadyCycle := g.mdReadyCycle.trans h.mdReadyCycle
  phase := g.phase.trans h.phase
  runCycles := g.runCycles.trans h.runCycles
  out := by
    obtain ⟨a, ha⟩ := h.out
    obtain ⟨b, hb⟩ := g.out
    exact ⟨b ++ a, by rw [hb, ha, List.append_assoc]⟩

/-- Neither an access nor an interlock request touches what only retiring changes. -/
theorem UnitEffect.unretired {s t : State} (h : UnitEffect s t) : Unretired s t where
  pc := by rw [h.rest]
  pending := by rw [h.rest]
  target := by rw [h.rest]
  lastDesc := by rw [h.rest]
  mdReadyCycle := by rw [h.rest]
  phase := by rw [h.rest]
  runCycles := by rw [h.sched.rest]
  out := h.out

theorem setX_unretired (s : State) (r : Reg) (v : Dword) : Unretired s (s.setX r v) := {}

theorem setXq_unretired (s : State) (r : Reg) (v : Quad) : Unretired s (s.setXq r v) := {}

theorem setCop0_unretired {s t : State} {n : Nat} {v : Word} (h : s.setCop0 n v = some t) : Unretired s t := by
  unfold State.setCop0 at h
  split at h
  · cases h; exact {}
  · split at h
    · cases h; exact {}
    · split at h
      · cases h; exact {}
      · cases h

/-- The instructions that can raise an exception or return from one (`45_system.md` R200, R207, R208, R213). -/
def Diverts (i : Instr) : Prop :=
  (∃ k, i = .syscall k ∨ i = .breakpoint k) ∨
  (∃ rs rt k, i = .tge rs rt k ∨ i = .tgeu rs rt k ∨ i = .tlt rs rt k ∨ i = .tltu rs rt k ∨ i = .teq rs rt k ∨
    i = .tne rs rt k) ∨
  i = .eret

/-- The ends of the instruction `i` that leave the latch clear (`00_scope.md` R12). Only a control transfer ends
`Branch` and only ERET returns, neither in a delay slot (R132). -/
inductive Ended (i : Instr) (s : State) : State → Prop
  | done {u : State} (work : Unretired s u) : Ended i s (u.retire (descriptor i) .done)
  | branch {u : State} (target : Word) (work : Unretired s u) (free : s.branchPending = false) :
      Ended i s (u.retire (descriptor i) (.branch target))
  | ret (eret : i = .eret) (free : s.branchPending = false) :
      Ended i s (s.popStatus.retire (descriptor i) (.ret s.epc))
  | exception (code : BitVec 5) (diverts : Diverts i) : Ended i s (s.retire (descriptor i) (.exception code))
  | held (cfc2i : i = .cfc2i) (vu : s.ilockVu = false) : Ended i s { s with ilockCop2 := true }

/-- A state with the latch set meets every statement about the states with the latch clear. -/
theorem latched_completes {t : State} {p : State → Prop} (dead : t.fatal = true) :
    Completes (.next t) fun t => t.fatal = false → p t :=
  ⟨t, rfl, fun live => Bool.noConfusion (dead.symm.trans live)⟩

/-- The outcome is a next state that latched `fatal` or is an end of `i`. -/
abbrev Ends (i : Instr) (s : State) (o : Host.Outcome State Fault Refusal) : Prop :=
  Completes o fun t => t.fatal = false → Ended i s t

section
variable {s u : State} (i : Instr)

theorem done_ends (work : Unretired s u) : Ends i s (.next (u.retire (descriptor i) .done)) :=
  ⟨_, rfl, fun _ => .done work⟩

theorem fatal_ends (c : FatalCode) (info : Word) : Ends i s (.next (u.retire (descriptor i) (.fatal c info))) :=
  latched_completes rfl

theorem writeDone_ends (rd : Reg) (v : Dword) : Ends i s (writeDone (descriptor i) rd v s) :=
  done_ends i (setX_unretired s rd v)

/-- A control transfer: fatal in a delay slot, else its own outcome (R132). -/
theorem transfer_ends (o : Completion) (h : s.branchPending = false → Ends i s (.next (u.retire (descriptor i) o))) :
    Ends i s (.next (u.retire (descriptor i) (s.transfer o))) := by
  unfold State.transfer
  split
  · exact fatal_ends i _ _
  · rename_i free
    exact h (Bool.eq_false_of_not_eq_true free)

theorem branch_ends (target : Word) (work : Unretired s u) :
    Ends i s (.next (u.retire (descriptor i) (s.transfer (.branch target)))) :=
  transfer_ends i _ fun free => ⟨_, rfl, fun _ => .branch target work free⟩

theorem trapIf_ends (cond : Bool) (diverts : Diverts i) : Ends i s (trapIf (descriptor i) cond s) := by
  cases cond
  · exact done_ends i {}
  · exact ⟨_, rfl, fun _ => .exception _ diverts⟩

/-- A load whose register write touches general registers only. -/
theorem loadOp_ends (w : Width) (base : Reg) (imm : Half) (wr : State → Quad → State)
    (hw : ∀ t v, Unretired t (wr t v)) : Ends i s (loadOp (descriptor i) w base imm wr s) := by
  unfold loadOp
  cases h : s.memRead w (s.effAddr base imm) with
  | error f => exact fatal_ends i _ _
  | ok r =>
    obtain ⟨v, t⟩ := r
    have access : Unretired s t := (busRead_effect h).unit.unretired
    simp only
    split
    · exact latched_completes ‹_›
    · exact done_ends i (access.trans (hw t v))

theorem storeOp_ends (w : Width) (base : Reg) (imm : Half) (v : Quad) :
    Ends i s (storeOp (descriptor i) w base imm v s) := by
  unfold storeOp
  cases h : s.memWrite w (s.effAddr base imm) v with
  | error f => exact fatal_ends i _ _
  | ok t =>
    simp only
    split
    · exact latched_completes ‹_›
    · exact done_ends i (busWrite_effect h).unit.unretired

end

section
variable (s : State)

theorem jr_ends (rs : Reg) : Ends (.jr rs) s (execJr rs s) := by
  refine transfer_ends (.jr rs) _ fun free => ?_
  split
  · exact ⟨_, rfl, fun _ => .branch _ {} free⟩
  · exact fatal_ends (.jr rs) _ _

/-- JAL links before it retires (`43_branch.md` R173). -/
theorem jal_ends (index : BitVec 26) : Ends (.jal index) s (execJal index s) := by
  refine branch_ends (.jal index) _ ?_
  split
  · exact {}
  · exact setX_unretired s 31 _

theorem eret_ends : Ends .eret s (execEret s) := by
  unfold execEret
  split
  · exact fatal_ends .eret _ _
  · rename_i free
    split
    · exact fatal_ends .eret _ _
    · exact ⟨_, rfl, fun _ => .ret rfl (Bool.eq_false_of_not_eq_true free)⟩

theorem mfc0_ends (rt : Reg) (n : Nat) : Ends (.mfc0 rt n) s (execMfc0 rt n s) := by
  unfold execMfc0
  split
  · exact writeDone_ends (.mfc0 rt n) rt _
  · exact fatal_ends (.mfc0 rt n) _ _

theorem mtc0_ends (rt : Reg) (n : Nat) : Ends (.mtc0 rt n) s (execMtc0 rt n s) := by
  unfold execMtc0
  split
  · exact done_ends (.mtc0 rt n) (setCop0_unretired ‹_›)
  · exact fatal_ends (.mtc0 rt n) _ _

/-- MUST_WAIT with the latch clear: the vector unit's side has not asked, and only the CORE's flag is set (R85). -/
theorem interlockRequest_mustWait {s t : State} (h : s.interlockRequest .cop2 = (.mustWait, t))
    (live : t.fatal = false) : s.ilockVu = false ∧ t = { s with ilockCop2 := true } := by
  unfold State.interlockRequest at h
  split at h
  · rename_i dead
    cases h
    exact Bool.noConfusion (dead.symm.trans live)
  · split at h
    · cases h; exact ⟨‹_›, rfl⟩
    · split at h <;> cases h

theorem cfc2i_ends : Ends .cfc2i s (execCfc2i s) := by
  have asked := (interlockRequest_effect s .cop2).unretired
  unfold execCfc2i
  split
  · rename_i t answer
    refine ⟨t, rfl, fun live => ?_⟩
    obtain ⟨vu, rfl⟩ := interlockRequest_mustWait answer live
    exact .held rfl vu
  · rename_i t answer
    rw [answer] at asked
    exact done_ends .cfc2i (asked.trans (setX_unretired t 0 0))

end

/-- Every instruction latches `fatal` or ends in one of the ways of `Ended`. -/
theorem exec_ended (i : Instr) (s : State) : Ends i s (exec i s) := by
  cases i with
  | sll _ _ _ | add _ _ _ | addi _ _ _ | daddu _ _ _ | mfhi _ | mflo _ => exact writeDone_ends _ _ _
  | mult _ _ | div _ _ => exact done_ends (u := s.setLoHi _ _) _ {}
  | beq _ _ _ | bne _ _ _ | j _ => exact branch_ends _ _ {}
  | jal index => exact jal_ends s index
  | jr rs => exact jr_ends s rs
  | lb rt _ _ | lbu rt _ _ | lh rt _ _ | lhu rt _ _ | lw rt _ _ | lwu rt _ _ | ld rt _ _ =>
    exact loadOp_ends _ _ _ _ _ fun t _ => setX_unretired t rt _
  | lq rt _ _ => exact loadOp_ends _ _ _ _ _ fun t v => setXq_unretired t rt v
  | sb _ _ _ | sh _ _ _ | sw _ _ _ | sd _ _ _ | sq _ _ _ => exact storeOp_ends _ _ _ _ _
  | tge rs rt k | tgeu rs rt k | tlt rs rt k | tltu rs rt k | teq rs rt k | tne rs rt k =>
    exact trapIf_ends _ _ (.inr (.inl ⟨rs, rt, k, by simp⟩))
  | syscall k => exact ⟨_, rfl, fun _ => .exception _ (.inl ⟨k, .inl rfl⟩)⟩
  | breakpoint k => exact ⟨_, rfl, fun _ => .exception _ (.inl ⟨k, .inr rfl⟩)⟩
  | eret => exact eret_ends s
  | mfc0 rt n => exact mfc0_ends s rt n
  | mtc0 rt n => exact mtc0_ends s rt n
  | wait => exact done_ends (u := { s with waitForIrq := true }) .wait {}
  | cfc2i => exact cfc2i_ends s

/-! ### The delay slot -/

/-- The ends of an instruction in a delay slot (R136): at the target, still in the slot, or in an exception whose
saved pc is the branch. -/
theorem Ended.in_slot {i : Instr} {s t : State} (h : Ended i s t) (slot : s.branchPending = true) :
    (t.pc = s.branchTarget ∧ t.branchPending = false) ∨
    (t.pc = s.pc ∧ t.branchPending = true ∧ t.branchTarget = s.branchTarget ∧ t.gpr = s.gpr) ∨
    (t.pc = cfg.excVector ∧ t.branchPending = false ∧ t.epc = s.pc - 4 ∧ t.bd = true) := by
  cases h with
  | @done u work =>
    have advanced : AdvancedDone u (u.retire (descriptor i) .done) := advancedDone _ rfl rfl rfl
    exact .inl ⟨(advanced.pcInSlot (work.pending.trans slot)).trans work.target, advanced.pending⟩
  | branch target work free | ret eret free => rw [slot] at free; cases free
  | exception code diverts =>
    have entry : Entered s (s.retire (descriptor i) (.exception code)) code := entered code rfl
    exact .inr (.inr ⟨entry.pc, entry.pending, entry.epc.trans (if_pos slot), entry.bd.trans slot⟩)
  | held cfc2i vu => exact .inr (.inl ⟨rfl, slot, rfl, rfl⟩)

/-- An instruction step latches `fatal`, or an instruction runs on the state that Fetch leaves and ends in one of its
ways (R120). -/
theorem coreStep_ended (s : State) : Completes (coreStep s) fun t => t.fatal = false →
    ∃ i u, DeviceEffect s.latchNextPc u ∧ Ended i u t := by
  unfold coreStep
  cases fetched : s.fetch with
  | error f => exact latched_completes rfl
  | ok r =>
    obtain ⟨w, u⟩ := r
    simp only
    split
    · exact latched_completes ‹_›
    · rw [runWord_eq]
      cases decodeWord w with
      | error e => exact latched_completes rfl
      | ok i =>
        obtain ⟨t, ran, ended⟩ := exec_ended i u
        exact ⟨t, ran, fun live => ⟨i, u, fetch_effect fetched, ended live⟩⟩

/-- Settles O19: Fetch leaves the branch state alone, and the instruction in the slot ends as `Ended.in_slot` says. -/
theorem delaySlotExecutesOnce : Obligations.DelaySlotExecutesOnce := by
  unfold Obligations.DelaySlotExecutesOnce
  intro s t on slot stepped live
  obtain ⟨v, ran, ended⟩ := coreStep_ended s
  rw [step_slice on, chargedStep_eq, ran] at stepped
  cases stepped
  obtain ⟨i, u, fetch, ended⟩ := ended ((charge_fatal v).symm.trans live)
  have same := fetch.unit.unretired
  have ends := ended.in_slot (same.pending.trans slot)
  rw [same.pc, same.target, fetch.gpr] at ends
  rw [charge_eq]
  exact ends

/-! ### The tracker -/

/-- `Done` and `Branch` are tracked after Advance, which leaves the tracker, its clock and the streams alone (R120,
`70_reset_and_hazards.md` R312). -/
theorem retire_track (s : State) (d : Descriptor) {o : Completion} (ho : o = .done ∨ ∃ a, o = .branch a) :
    ∃ v : State, s.retire d o = v.track d s.pc ∧ v.lastDesc = s.lastDesc ∧ v.mdReadyCycle = s.mdReadyCycle ∧
      v.now = s.now ∧ v.out = s.out := by
  have clock : (s.advance o).now = s.now := now_congr (advance_phase s o) (by rw [advance_sched])
  have kept : (s.advance o).lastDesc = s.lastDesc ∧ (s.advance o).out = s.out := by
    rcases ho with rfl | ⟨a, rfl⟩
    · simp only [State.advance]
      split <;> exact ⟨rfl, rfl⟩
    · exact ⟨rfl, rfl⟩
  refine ⟨s.advance o, ?_, kept.1, advance_mdReadyCycle s o, clock, kept.2⟩
  rcases ho with rfl | ⟨a, rfl⟩ <;> rfl

/-- The multiply/divide ready time moves for MULT and DIV alone (R312). -/
theorem track_ready (s : State) (d : Descriptor) (p : Word) : (s.track d p).mdReadyCycle =
    if d.kind = .mult ∨ d.kind = .div then s.now + d.latency else s.mdReadyCycle := by
  rw [track_mdReadyCycle]
  cases d.kind <;> rfl

/-- What the tracker holds and records after `Done` or `Branch` (R312). -/
theorem retire_tracked (s : State) (d : Descriptor) {o : Completion} (ho : o = .done ∨ ∃ a, o = .branch a) :
    (s.retire d o).lastDesc = some d ∧
    (s.retire d o).mdReadyCycle =
      (if d.kind = .mult ∨ d.kind = .div then s.now + d.latency else s.mdReadyCycle) ∧
    (s.retire d o).out = .hazard s.pc (raw s.lastDesc d) (war s.lastDesc d) (waw s.lastDesc d)
      (mdBusy d s.now s.mdReadyCycle) :: s.out := by
  obtain ⟨v, tracked, last, ready, clock, out⟩ := retire_track s d ho
  rw [tracked, track_ready, track_out, State.hazardRecord, last, ready, clock, out]
  exact ⟨rfl, rfl, rfl⟩

/-- What every end of an instruction leaves in the tracker: its own descriptor with its own record; nothing after a
return or an exception; what was there after a hold. -/
theorem Ended.tracker {i : Instr} {s t : State} (h : Ended i s t) :
    (∃ l, Tracked i s t (l ++ s.out)) ∨
    (Diverts i ∧ t.lastDesc = none ∧ t.mdReadyCycle = s.mdReadyCycle ∧ t.out = s.out) ∨
    (i = .cfc2i ∧ s.ilockVu = false ∧ t = { s with ilockCop2 := true }) := by
  cases h with
  | @done u work =>
    obtain ⟨l, hl⟩ := work.out
    exact .inl ⟨l, hl ▸ tracked_done i work.lastDesc work.mdReadyCycle work.pc work.phase work.runCycles⟩
  | @branch u target work free =>
    obtain ⟨l, hl⟩ := work.out
    exact .inl ⟨l, hl ▸ tracked_branch i target work.lastDesc work.mdReadyCycle work.pc work.phase work.runCycles⟩
  | ret eret free => exact .inr (.inl ⟨.inr (.inr eret), rfl, rfl, rfl⟩)
  | exception code diverts => exact .inr (.inl ⟨diverts, rfl, rfl, rfl⟩)
  | held cfc2i vu => exact .inr (.inr ⟨cfc2i, vu, rfl⟩)

/-! ### Hazard sets -/

theorem mem_addOnce {x y : RegFile × Nat} {l : List (RegFile × Nat)} : y ∈ addOnce x l ↔ y = x ∨ y ∈ l := by
  unfold addOnce
  split
  · constructor
    · exact .inr
    · rintro (rfl | h)
      · assumption
      · exact h
  · rw [List.mem_append, List.mem_singleton, or_comm]

theorem mem_foldl_addOnce {y : RegFile × Nat} (l : List (RegFile × Nat)) : ∀ acc,
    y ∈ l.foldl (fun acc x => addOnce x acc) acc ↔ y ∈ acc ∨ y ∈ l := by
  induction l with
  | nil => simp
  | cons x l ih =>
    intro acc
    rw [List.foldl_cons, ih, mem_addOnce, List.mem_cons]
    tauto

/-- The registers with a record of one direction, general register 0 dropped (R313). -/
theorem mem_regs {d : Descriptor} {dir : DepDir} {f : RegFile} {n : Nat} :
    (f, n) ∈ d.regs dir ↔ ⟨dir, f, n⟩ ∈ d.deps ∧ ¬(f = .gpr ∧ n = 0) := by
  have counts (r : Dep) : r.counts = true ↔ ¬(r.file = .gpr ∧ r.index = 0) := by
    simp [Dep.counts, imp_iff_not_or]
  rw [Descriptor.regs, mem_foldl_addOnce, List.mem_map]
  simp only [List.mem_filter, Bool.and_eq_true, decide_eq_true_eq, counts, List.not_mem_nil, false_or]
  constructor
  · rintro ⟨⟨dir, f, n⟩, ⟨mem, kept, rfl⟩, ⟨⟩⟩
    exact ⟨mem, kept⟩
  · rintro ⟨mem, kept⟩
    exact ⟨⟨dir, f, n⟩, ⟨mem, kept, rfl⟩, rfl⟩

/-- A hazard set, by the records of the previous and the current descriptor (R314). -/
theorem mem_conflicts {dp dc : DepDir} {p d : Descriptor} {f : RegFile} {n : Nat} :
    (f, n) ∈ conflicts dp dc (some p) d ↔
      ⟨dp, f, n⟩ ∈ p.deps ∧ ⟨dc, f, n⟩ ∈ d.deps ∧ ¬(f = .gpr ∧ n = 0) := by
  rw [conflicts, List.mem_filter, decide_eq_true_eq, mem_regs, mem_regs]
  tauto

/-- `md_busy` (R315). -/
theorem mdBusy_iff {d : Descriptor} {now ready : Nat} : mdBusy d now ready = true ↔
    now < ready ∧ ∃ r ∈ d.deps, r.file = .special ∧ (r.index = 0 ∨ r.index = 1) := by
  simp only [mdBusy, Bool.and_eq_true, List.any_eq_true, Bool.or_eq_true, decide_eq_true_eq, and_comm]

/-! ### Descriptors -/

section
variable {rt rs : Reg} {imm : Half} {k : Nat} {i : Instr} {h : Handler}

theorem load_descriptor (mem : (i, h) ∈ [(.lb rt rs imm, .lb), (.lbu rt rs imm, .lbu), (.lh rt rs imm, .lh),
      (.lhu rt rs imm, .lhu), (.lw rt rs imm, .lw), (.lwu rt rs imm, .lwu), (.ld rt rs imm, .ld),
      (.lq rt rs imm, Handler.lq)]) :
    HasDescriptor i h .ldst .plain [⟨.read, .gpr, rs⟩, ⟨.write, .gpr, rt⟩] := by
  simp only [List.mem_cons, Prod.mk.injEq, List.not_mem_nil, or_false] at mem
  rcases mem with ⟨rfl, rfl⟩ | ⟨rfl, rfl⟩ | ⟨rfl, rfl⟩ | ⟨rfl, rfl⟩ | ⟨rfl, rfl⟩ | ⟨rfl, rfl⟩ | ⟨rfl, rfl⟩ | ⟨rfl, rfl⟩
  all_goals rfl

theorem store_descriptor (mem : (i, h) ∈ [(.sb rt rs imm, .sb), (.sh rt rs imm, .sh), (.sw rt rs imm, .sw),
      (.sd rt rs imm, .sd), (.sq rt rs imm, Handler.sq)]) :
    HasDescriptor i h .ldst .plain [⟨.read, .gpr, rs⟩, ⟨.read, .gpr, rt⟩] := by
  simp only [List.mem_cons, Prod.mk.injEq, List.not_mem_nil, or_false] at mem
  rcases mem with ⟨rfl, rfl⟩ | ⟨rfl, rfl⟩ | ⟨rfl, rfl⟩ | ⟨rfl, rfl⟩ | ⟨rfl, rfl⟩
  all_goals rfl

theorem trap_descriptor (mem : (i, h) ∈ [(.tge rs rt k, .tge), (.tgeu rs rt k, .tgeu), (.tlt rs rt k, .tlt),
      (.tltu rs rt k, .tltu), (.teq rs rt k, .teq), (.tne rs rt k, Handler.tne)]) :
    HasDescriptor i h .int .plain [⟨.read, .gpr, rs⟩, ⟨.read, .gpr, rt⟩] := by
  simp only [List.mem_cons, Prod.mk.injEq, List.not_mem_nil, or_false] at mem
  rcases mem with ⟨rfl, rfl⟩ | ⟨rfl, rfl⟩ | ⟨rfl, rfl⟩ | ⟨rfl, rfl⟩ | ⟨rfl, rfl⟩ | ⟨rfl, rfl⟩
  all_goals rfl

end

/-- Settles O54: the table by its rows, the retired states by outcome, every instruction by `exec_ended`, the sets by
membership. -/
theorem hazardTracker : Obligations.HazardTracker := by
  unfold Obligations.HazardTracker
  refine ⟨fun rd rs rt imm k => ⟨rfl, rfl, rfl, rfl, rfl, rfl, rfl, rfl, rfl, rfl, fun _ => ⟨rfl, rfl⟩, rfl,
      fun _ _ => load_descriptor, fun _ _ => store_descriptor, fun _ _ => trap_descriptor, rfl, rfl, rfl, rfl, rfl, rfl,
      rfl⟩,
    fun s r slice => by rw [State.now, slice], fun d now ready => mdBusy_iff,
    fun s d => ⟨fun o => retire_tracked s d, fun a => ⟨rfl, rfl, rfl⟩, fun c => ⟨rfl, rfl, rfl⟩, rfl,
      fun c a => ⟨rfl, rfl, rfl⟩⟩, fun i s t ran live => ?_,
    fun p d f n => ⟨mem_conflicts, mem_conflicts, mem_conflicts, rfl, rfl, rfl⟩⟩
  obtain ⟨u, hu, ended⟩ := exec_ended i s
  rw [ran] at hu
  cases hu
  exact (ended live).tracker

end Sys2Proof.Machine

/-! ## The integer instructions

The words of the examples (`30_encoding.md` R101) and the results of `41_integer.md` R150 to R153 as numbers: a 32-bit
operation on the low halves of two registers is the operation on the registers' values, wrapped to 32 bits (R154). -/

namespace Sys2Proof

/-- Settles O1: each word is the encoding of its instruction, and no row matches the last. -/
theorem sampleWordsDecode : Obligations.SampleWordsDecode := by
  unfold Obligations.SampleWordsDecode
  exact ⟨decodeWord_encode (i := .sll 2 1 4) rfl, decodeWord_encode (i := .mult 1 2) rfl,
    decodeWord_encode (i := .beq 1 2 2) rfl, decodeWord_encode (i := .lq 2 1 16) rfl,
    decodeWord_encode (i := .sw 2 1 8) rfl, decodeWord_encode (i := .teq 1 2 0x2B5) rfl,
    decodeWord_encode (i := .mfc0 2 14) rfl, decodeWord_encode (i := .cfc2i) rfl, decodeWord_unknown (by decide)⟩

end Sys2Proof

namespace Sys2Proof.Machine

/-! ### The operands as numbers -/

/-- The 32-bit operand is the register's value mod 2^32 (R154). -/
theorem x32_eq_ofNat (s : State) (r : Reg) : s.x32 r = BitVec.ofNat 32 (s.x r).toNat := rfl

/-- The same for the register's signed value. -/
theorem x32_eq_ofInt (s : State) (r : Reg) : s.x32 r = BitVec.ofInt 32 (s.x r).toInt :=
  (BitVec.signExtend_eq_setWidth_of_le (s.x r) (by decide)).symm

theorem x32_shiftLeft (s : State) (r : Reg) (n : Nat) :
    s.x32 r <<< n = BitVec.ofNat 32 ((s.x r).toNat * 2 ^ n) := by
  apply BitVec.eq_of_toNat_eq
  rw [x32_eq_ofNat, BitVec.toNat_shiftLeft, BitVec.toNat_ofNat, BitVec.toNat_ofNat, Nat.shiftLeft_eq, Nat.mod_mul_mod]

theorem x32_add (s : State) (r k : Reg) : s.x32 r + s.x32 k = BitVec.ofNat 32 ((s.x r).toNat + (s.x k).toNat) := by
  rw [BitVec.ofNat_add, x32_eq_ofNat, x32_eq_ofNat]

theorem x32_add_sextImm (s : State) (r : Reg) (imm : Half) :
    s.x32 r + sextImm imm = BitVec.ofInt 32 ((s.x r).toInt + imm.toInt) := by
  rw [BitVec.ofInt_add, x32_eq_ofInt]
  rfl

theorem x_add (s : State) (r k : Reg) : s.x r + s.x k = BitVec.ofNat 64 ((s.x r).toNat + (s.x k).toNat) := by
  rw [BitVec.ofNat_add, BitVec.ofNat_toNat, BitVec.ofNat_toNat, BitVec.setWidth_eq, BitVec.setWidth_eq]

/-! ### The results -/

/-- Settles O12: each of the six ends as `writeDone_completes` says, with its result as a number. -/
theorem integerResults : Obligations.IntegerResults := by
  unfold Obligations.IntegerResults
  intro s rd rs rt sa imm
  rw [← x32_shiftLeft, ← x32_add, ← x32_add_sextImm, ← x_add]
  exact ⟨writeDone_completes (.sll rd rt sa) rd _ s, writeDone_completes (.add rd rs rt) rd _ s,
    writeDone_completes (.addi rt rs imm) rt _ s, writeDone_completes (.daddu rd rs rt) rd _ s,
    writeDone_completes (.mfhi rd) rd _ s, writeDone_completes (.mflo rd) rd _ s⟩

end Sys2Proof.Machine

/-! ## Multiply and divide

MULT and DIV (`42_muldiv.md` R160 to R163): what each leaves in LO and HI as a number. Both end as `setLoHi_completes`
says; the rest is arithmetic on the two words written. -/

namespace Sys2Proof.Machine

/-! ### The pair LO and HI -/

/-- Everything an instruction that writes the pair LO and HI and ends `Done` does (R160). -/
theorem setLoHi_completes (i : Instr) (l h : Word) (s : State) :
    Completes (.next ((s.setLoHi l h).retire (descriptor i) .done)) fun t =>
      (t.lo.extractLsb' 0 64 = sext64 l ∧ t.hi.extractLsb' 0 64 = sext64 h) ∧
      t.lo.extractLsb' 64 64 = s.lo.extractLsb' 64 64 ∧ t.hi.extractLsb' 64 64 = s.hi.extractLsb' 64 64 ∧
      Tracked i s t s.out ∧ SameGprs s t ∧ AdvancedDone s t ∧ SameCop0 s t ∧ SameMemory s t ∧ SameRest s t := by
  refine ⟨_, rfl, ?_⟩
  simp only [retire_lo, retire_hi]
  obtain ⟨loUpper, hiUpper⟩ := setLoHi_high s l h
  exact ⟨setLoHi_low s l h, loUpper, hiUpper, tracked_done i rfl rfl rfl rfl rfl, sameGprs_of_gpr (retire_gpr _ _ _),
    advancedDone _ rfl rfl rfl, retire_done_cop0 _ { SameCop0.refl s with }, fun a => by simp [State.byteAt],
    retire_done_rest _ { SameRest.refl s with }⟩

theorem sext64_low (v : Word) : (sext64 v).extractLsb' 0 32 = v := by
  rw [← BitVec.setWidth_eq_extractLsb' (by decide), ← BitVec.signExtend_eq_setWidth_of_le _ (by decide),
    BitVec.signExtend, sext64, BitVec.toInt_signExtend_of_le (by decide), BitVec.ofInt_toInt]

/-- A half of the pair that holds a sign-extended word has that word in bits 31:0. -/
theorem lowWord_of_sext64 {q : Quad} {v : Word} (h : q.extractLsb' 0 64 = sext64 v) : q.extractLsb' 0 32 = v := by
  rw [← sext64_low v, ← h, BitVec.extractLsb'_extractLsb'_of_le (by decide)]

/-! ### MULT -/

/-- The product of two signed words fits 64 bits, so its pattern is exact (R162). -/
theorem multProduct_toInt (a b : Word) : (multProduct a b).toInt = a.toInt * b.toInt := by
  have low := BitVec.le_toInt_mul_toInt (x := a) (y := b)
  have high := BitVec.toInt_mul_toInt_le (x := a) (y := b)
  exact BitVec.toInt_ofInt_eq_self (by decide) (by omega) (by omega)

/-- Settles O13: the words in LO and HI append to the pattern of the product, which is exact. -/
theorem multGivesTheExactProduct : Obligations.MultGivesTheExactProduct := by
  unfold Obligations.MultGivesTheExactProduct
  intro s rs rt
  obtain ⟨t, next, ⟨lo, hi⟩, frame⟩ := setLoHi_completes (.mult rs rt)
    ((multProduct (s.x32 rs) (s.x32 rt)).extractLsb' 0 32) ((multProduct (s.x32 rs) (s.x32 rt)).extractLsb' 32 32) s
  refine ⟨t, next, ?_, ?_, ?_, frame⟩
  · rw [lowWord_of_sext64 lo, lowWord_of_sext64 hi, BitVec.extractLsb'_append_extractLsb' (w := 32) (len := 32),
      multProduct_toInt]
    rfl
  · rw [lowWord_of_sext64 lo, lo, sext64]
  · rw [lowWord_of_sext64 hi, hi, sext64]

/-! ### DIV -/

/-- The integer is the value of a signed word (R10). -/
abbrev FitsWord (v : Int) : Prop := -2147483648 ≤ v ∧ v < 2147483648

theorem toInt_fitsWord (w : Word) : FitsWord w.toInt := ⟨w.le_toInt, w.toInt_lt⟩

theorem sext64_toInt {v : Int} (h : FitsWord v) : (sext64 (BitVec.ofInt 32 v)).toInt = v := by
  obtain ⟨low, high⟩ := h
  rw [sext64, BitVec.toInt_signExtend_of_le (by decide), BitVec.toInt_ofInt_eq_self (by decide) low high]

/-- The first two rows of R161's table. -/
theorem divResult_zero (a : Int) : divResult a 0 = (if 0 ≤ a then -1 else 1, a) := rfl

/-- The overflow row of R161's table. -/
theorem divResult_overflow : divResult (-2147483648) (-1) = (-2147483648, 0) := rfl

/-- The last row of R161's table. -/
theorem divResult_ordinary {a b : Int} (zero : b ≠ 0) (overflow : ¬(a = -2147483648 ∧ b = -1)) :
    divResult a b = (a.tdiv b, a.tmod b) := by
  rw [divResult, if_neg zero, if_neg overflow]

theorem natAbs_tmod_lt (a : Int) {b : Int} (zero : b ≠ 0) : (a.tmod b).natAbs < b.natAbs := by
  rw [Int.natAbs_tmod]
  exact Nat.mod_lt _ (Int.natAbs_pos.mpr zero)

theorem tmod_nonpos {a : Int} (b : Int) (h : a ≤ 0) : a.tmod b ≤ 0 := by
  have negated := Int.tmod_nonneg b (Int.neg_nonneg_of_nonpos h)
  rw [Int.neg_tmod] at negated
  omega

/-- Only -2^31 / -1 has a quotient of 2^31. -/
theorem tdiv_fitsWord {a b : Int} (ha : FitsWord a) (zero : b ≠ 0) (overflow : ¬(a = -2147483648 ∧ b = -1)) :
    FitsWord (a.tdiv b) := by
  obtain ⟨low, high⟩ := ha
  have small := Int.natAbs_tdiv_le_natAbs a b
  have top : a.tdiv b ≠ 2147483648 := fun top => by
    have whole := Int.mul_tdiv_add_tmod a b
    have rest := natAbs_tmod_lt a zero
    rw [top] at whole
    omega
  omega

theorem tmod_fitsWord {a : Int} (b : Int) (ha : FitsWord a) : FitsWord (a.tmod b) := by
  have small : (a.tmod b).natAbs ≤ a.natAbs := by
    rw [Int.natAbs_tmod]
    exact Nat.mod_le _ _
  have sign := tmod_nonpos (a := a) b
  omega

/-- Every entry of R161's table is the value of a word. -/
theorem divResult_fitsWord {a : Int} (b : Int) (ha : FitsWord a) :
    FitsWord (divResult a b).1 ∧ FitsWord (divResult a b).2 := by
  by_cases zero : b = 0
  · subst zero
    rw [divResult_zero]
    refine ⟨?_, ha⟩
    dsimp only
    split <;> decide
  by_cases overflow : a = -2147483648 ∧ b = -1
  · obtain ⟨rfl, rfl⟩ := overflow
    rw [divResult_overflow]
    decide
  · rw [divResult_ordinary zero overflow]
    exact ⟨tdiv_fitsWord ha zero overflow, tmod_fitsWord b ha⟩

/-- Settles O14: LO and HI hold the entries of R161's table, and each of its four rows is what the statement asks. -/
theorem divResults : Obligations.DivResults := by
  unfold Obligations.DivResults
  intro s rs rt a b ha hb
  obtain ⟨quotient, remainder⟩ := divResult_fitsWord b (ha ▸ toInt_fitsWord _)
  obtain ⟨t, next, ⟨lo, hi⟩, frame⟩ := setLoHi_completes (.div rs rt) (BitVec.ofInt 32 (divResult a b).1)
    (BitVec.ofInt 32 (divResult a b).2) s
  rw [ha, hb] at next
  refine ⟨t, next, ?_⟩
  simp only [lo, hi, sext64_toInt quotient, sext64_toInt remainder]
  refine ⟨?_, ?_, ?_, ?_, frame⟩
  · rintro rfl nonneg
    rw [divResult_zero, if_pos nonneg]
    exact ⟨rfl, rfl⟩
  · rintro rfl neg
    rw [divResult_zero, if_neg (Int.not_le.mpr neg)]
    exact ⟨rfl, rfl⟩
  · rintro rfl rfl
    rw [divResult_overflow]
    exact ⟨rfl, rfl⟩
  · intro zero overflow
    rw [divResult_ordinary zero overflow]
    exact ⟨(Int.mul_tdiv_add_tmod a b).symm, natAbs_tmod_lt a zero, Int.tmod_nonneg b, tmod_nonpos b⟩

end Sys2Proof.Machine

/-! ## Control transfers

Outside a delay slot (`43_branch.md` R170 to R178): BEQ, BNE, J and JR end as `branch_completes` says, JAL links first;
the rest is the two targets as numbers. -/

namespace Sys2Proof.Machine

/-! ### The targets as numbers -/

/-- The displacement of a conditional branch: four times the signed field (R170). -/
theorem sextImm_shiftLeft_two (imm : Half) : sextImm imm <<< 2 = BitVec.ofInt 32 (4 * imm.toInt) := by
  rw [BitVec.shiftLeft_eq_mul_twoPow, mul_comm, BitVec.ofInt_mul]
  rfl

theorem branchDest_eq (a : Word) (imm : Half) : branchDest a imm = a + BitVec.ofInt 32 (4 * imm.toInt) := by
  rw [branchDest, sextImm_shiftLeft_two]

/-- The top four bits of `next_pc` above the index times four (R170). -/
theorem jumpDest_toNat (a : Word) (index : BitVec 26) :
    (jumpDest a index).toNat = a.toNat / 2 ^ 28 * 2 ^ 28 + 4 * index.toNat := by
  have region : (a.extractLsb' 28 4).toNat = a.toNat / 2 ^ 28 := by
    rw [BitVec.extractLsb'_toNat, Nat.shiftRight_eq_div_pow]
    omega
  rw [jumpDest, ofNat_append, ofNat_append, region, BitVec.toNat_ofNat]
  omega

/-! ### How a transfer ends -/

section
variable {s : State} (free : s.branchPending = false)
include free

theorem transfer_free (o : Completion) : s.transfer o = o := by
  rw [State.transfer, if_neg (by rw [free]; decide)]

/-- Everything a control transfer that writes no register and ends `Branch(target)` does (R131, R135). -/
theorem branch_completes (i : Instr) (target : Word) :
    Completes (.next (s.retire (descriptor i) (s.transfer (.branch target)))) fun t =>
      SameGprs s t ∧ BranchFrame i s t target := by
  rw [transfer_free free]
  exact ⟨_, rfl, sameGprs_of_gpr (retire_gpr _ _ _), branchFrame i target s.gpr rfl⟩

/-- A conditional branch, taken or not (R170, R131). -/
theorem branchIf_completes (i : Instr) (taken : Bool) (imm : Half) :
    Completes (branchIf (descriptor i) taken imm s) fun t => SameGprs s t ∧ BranchFrame i s t
      (if taken then s.nextPc + BitVec.ofInt 32 (4 * imm.toInt) else s.nextPc + 4) := by
  rw [← branchDest_eq]
  exact branch_completes free i _

/-- JAL, which links before it retires (R173). -/
theorem jal_completes (index : BitVec 26) :
    Completes (execJal index s) fun t =>
      WroteX s t 31 (sext64 s.afterSlot) ∧ BranchFrame (.jal index) s t (jumpDest s.nextPc index) := by
  rw [execJal, transfer_free free, if_neg (by rw [free]; decide)]
  exact ⟨_, rfl, (wroteX_setX s 31 _).congr rfl (retire_gpr _ _ _), branchFrame (.jal index) _ _ rfl⟩

end

/-! ### The instructions -/

/-- Settles O15: BEQ is taken when the registers are equal, BNE when they are not. -/
theorem conditionalBranches : Obligations.ConditionalBranches := by
  unfold Obligations.ConditionalBranches
  intro s rs rt imm free
  have beq := branchIf_completes free (.beq rs rt imm) (decide (s.x rs = s.x rt)) imm
  have bne := branchIf_completes free (.bne rs rt imm) (decide (s.x rs ≠ s.x rt)) imm
  simp only [decide_eq_true_eq, ne_eq, ite_not] at beq bne
  exact ⟨beq, bne⟩

/-- Settles O16: the number determines the target, which is `jumpDest`. -/
theorem jumps : Obligations.Jumps := by
  unfold Obligations.Jumps
  intro s index target free region
  obtain rfl : target = jumpDest s.nextPc index := BitVec.eq_of_toNat_eq (region.trans (jumpDest_toNat _ _).symm)
  exact ⟨branch_completes free (.j index) _, jal_completes free index⟩

/-- Settles O17: the alignment check of R177 chooses the end. -/
theorem jumpRegister : Obligations.JumpRegister := by
  unfold Obligations.JumpRegister
  intro s rs free
  refine ⟨fun (aligned : (s.x32 rs).toNat % 4 = 0) => ?_, fun (misaligned : (s.x32 rs).toNat % 4 ≠ 0) => ?_⟩
  · rw [exec, execJr, if_pos aligned]
    exact branch_completes free (.jr rs) _
  · rw [exec, execJr, if_neg misaligned, transfer_free free]
    exact ⟨_, rfl, retire_fatal _ _ _ _⟩

end Sys2Proof.Machine

/-! ## Loads and stores

The forms of `44_loadstore.md` by what the bus access answers: a MEMORY device's bytes, the sentinel of an unmapped
address, or the fatal of a misaligned one. A load that ends `Done` is `load_done`, a store that stores nothing
`store_dropped`. -/

namespace Sys2Proof.Machine

/-! ### Misaligned accesses -/

/-- Settles O25: the bus refuses the access before it looks at the route table, so each load and store latches. -/
theorem misalignedAccessesAreFatal : Obligations.MisalignedAccessesAreFatal := by
  unfold Obligations.MisalignedAccessesAreFatal
  rintro s rt base imm _ hf rfl
  have load (w : Width) (ha : (s.effAddr base imm).toNat % w.bytes ≠ 0) {d : Descriptor} {wr : State → Quad → State} :
      Latches (loadOp d w base imm wr s) s .misalignedAccess := loadOp_misaligned d wr hf ha
  have store (w : Width) (ha : (s.effAddr base imm).toNat % w.bytes ≠ 0) {d : Descriptor} {v : Quad} :
      Latches (storeOp d w base imm v s) s .misalignedAccess := storeOp_misaligned d hf ha
  exact ⟨fun ha => ⟨load .w16 ha, load .w16 ha, store .w16 ha⟩, fun ha => ⟨load .w32 ha, load .w32 ha, store .w32 ha⟩,
    fun ha => ⟨load .w64 ha, store .w64 ha⟩, fun ha => ⟨load .w128 ha, store .w128 ha⟩⟩

/-! ### How a load ends -/

/-- A frame from a state with other records on the streams is one from `s`: only the tracker's record stands on them
(`70_reset_and_hazards.md` R312). -/
theorem DoneFrame.on_log {i : Instr} {s t : State} {log : List OutEvent} (h : DoneFrame i { s with out := log } t) :
    DoneFrame i s t log where
  tracker := { h.tracker with }
  advanced := { h.advanced with }
  loHi := { h.loHi with }
  cop0 := { h.cop0 with }
  memory := h.memory
  rest := { h.rest with }

section
variable {s : State} {i : Instr} {w : Width} {base : Reg} {imm : Half} {v : Quad} {log : List OutEvent}
  (hf : s.fatal = false) (access : s.busRead w (s.physWord base imm) = .ok (v, { s with out := log }))
include hf access

/-- A load whose access answers `v` and changes the streams alone, with a register write that makes the general
registers `g` (`44_loadstore.md` R180). -/
theorem load_done {wr : State → Quad → State} {g : Vector Quad 32}
    (hi : exec i s = loadOp (descriptor i) w base imm wr s)
    (hg : wr { s with out := log } v = { s with gpr := g, out := log }) :
    Completes (exec i s) fun t => t.gpr = g ∧ DoneFrame i s t log := by
  rw [hi, loadOp_ok _ wr access hf]
  exact ⟨_, rfl, by rw [hg]; exact retire_gpr _ _ _, (doneFrame i g hg).on_log⟩

/-- A load that writes an extension of its low `n` bits, here the value `x`, into bits 63:0 (R181). -/
theorem load_setX {rt : Reg} {n : Nat} {x : BitVec n} (extend : BitVec n → Dword) (hx : v.extractLsb' 0 n = x)
    (hi : exec i s = loadOp (descriptor i) w base imm (fun t v => t.setX rt (extend (v.extractLsb' 0 n))) s) :
    Completes (exec i s) fun t => WroteX s t rt (extend x) ∧ DoneFrame i s t log := by
  obtain ⟨t, ran, gpr, frame⟩ := load_done hf access hi rfl
  rw [hx] at gpr
  exact ⟨t, ran, (wroteX_setX s rt (extend x)).congr rfl gpr, frame⟩

end

/-- LQ takes the whole value into the register (R189). -/
theorem load_setXq {s : State} {rt base : Reg} {imm : Half} {v : Quad} {log : List OutEvent} (hf : s.fatal = false)
    (access : s.busRead .w128 (s.physWord base imm) = .ok (v, { s with out := log })) :
    Completes (exec (.lq rt base imm) s) fun t => WroteXq s t rt v ∧ DoneFrame (.lq rt base imm) s t log := by
  obtain ⟨t, ran, gpr, frame⟩ := load_done (i := .lq rt base imm) hf access rfl rfl
  exact ⟨t, ran, (wroteXq_setXq s rt v).congr rfl gpr, frame⟩

/-- Settles O20: the access answers the bytes of memory (`busRead_memory`), which `memValue_byte` to `memValue_quad`
read as the value of each width. -/
theorem loadsFromMemory : Obligations.LoadsFromMemory := by
  unfold Obligations.LoadsFromMemory
  rintro s rt base imm _ hf rfl hm
  have access {w : Width} (ha : s.physAddr base imm % w.bytes = 0) := busRead_memory hf ha hm
  refine ⟨load_setX hf (access (w := .w8) (Nat.mod_one _)) (·.signExtend 64) (memValue_byte _ _) rfl,
    load_setX hf (access (w := .w8) (Nat.mod_one _)) (·.zeroExtend 64) (memValue_byte _ _) rfl, fun ha => ?_,
    fun ha => ?_, fun ha => ?_, fun ha => ?_⟩
  · have half := access (w := .w16) ha
    exact ⟨load_setX hf half (·.signExtend 64) (memValue_half _ _) rfl,
      load_setX hf half (·.zeroExtend 64) (memValue_half _ _) rfl⟩
  · have word := access (w := .w32) ha
    exact ⟨load_setX hf word (·.signExtend 64) (memValue_word _ _) rfl,
      load_setX hf word (·.zeroExtend 64) (memValue_word _ _) rfl⟩
  · exact load_setX hf (access (w := .w64) ha) id (memValue_dword _ _) rfl
  · rw [← memValue_quad]
    exact load_setXq hf (access (w := .w128) ha)

/-! ### How a store ends -/

section
variable {s : State} {i : Instr} {w : Width} {base : Reg} {imm : Half} {v : Quad} (hf : s.fatal = false)
  (hi : exec i s = storeOp (descriptor i) w base imm v s)
include hf hi

/-- A store whose access is dropped (`20_memory.md` R76). -/
theorem store_dropped (access : s.busWrite w (s.physWord base imm) v = .ok s) :
    Completes (exec i s) fun t => SameGprs s t ∧ DoneFrame i s t := by
  rw [hi, storeOp_ok _ access hf]
  exact ⟨_, rfl, sameGprs_of_gpr (retire_gpr _ _ _), doneFrame i s.gpr rfl⟩

/-- A store to writable memory leaves its own bytes at the address (R77). -/
theorem store_memory (ha : s.physAddr base imm % w.bytes = 0) (hm : inWritableMemory (s.physAddr base imm) = true) :
    Completes (exec i s) fun t =>
      t.mem = (s.memStore w (s.physAddr base imm) v).mem ∧ StoreFrame i s t (s.physAddr base imm) w.bytes := by
  rw [hi, storeOp_ok _ (busWrite_memory v hf ha hm) hf]
  exact ⟨_, rfl, retire_mem _ _ _, storeFrame s i w _ v⟩

end

/-- What a store left is read back, cut to the width (R61, R62). -/
theorem memValue_memStore (s : State) (w : Width) (a : Nat) (v : Quad) :
    (s.memStore w a v).memValue w a = cutTo w v := by
  rw [State.memValue, memStore_value, ← pow256]
  rfl

/-- The value of an access depends on the memory alone. -/
theorem memValue_congr {s t : State} (h : t.mem = s.mem) (w : Width) (a : Nat) : t.memValue w a = s.memValue w a := by
  rw [State.memValue, State.memValue, h]

/-- The low bits of the value of a store are those of the register (`44_loadstore.md` R181). -/
theorem storeValue_extract (s : State) (rt : Reg) (n : Nat) :
    (s.storeValue rt).extractLsb' 0 n = (s.x rt).extractLsb' 0 n := by
  apply BitVec.eq_of_toNat_eq
  have fits : (s.x rt).toNat < 2 ^ 128 := Nat.lt_trans (s.x rt).isLt (by decide)
  simp only [State.storeValue, BitVec.zeroExtend, BitVec.extractLsb'_toNat, BitVec.toNat_setWidth,
    Nat.mod_eq_of_lt fits]

/-- A store to writable memory, by the value `read` that stands at the address afterwards: the low `n` bits of what was
stored, here `x`. -/
theorem store_read {s : State} {i : Instr} {w : Width} {base : Reg} {imm : Half} {v : Quad} {n : Nat} {x : BitVec n}
    (hf : s.fatal = false) (hm : inWritableMemory (s.physAddr base imm) = true)
    (ha : s.physAddr base imm % w.bytes = 0) (read : State → Nat → BitVec n)
    (hr : ∀ t a, (t.memValue w a).extractLsb' 0 n = read t a) (hx : v.extractLsb' 0 n = x) (hn : n ≤ 8 * w.bytes)
    (hi : exec i s = storeOp (descriptor i) w base imm v s) :
    Completes (exec i s) fun t =>
      read t (s.physAddr base imm) = x ∧ StoreFrame i s t (s.physAddr base imm) w.bytes := by
  obtain ⟨t, ran, mem, frame⟩ := store_memory hf hi ha hm
  have stored : read t (s.physAddr base imm) = x := by
    rw [← hr, memValue_congr mem, memValue_memStore, cutTo_extract v hn, hx]
  exact ⟨t, ran, stored, frame⟩

/-- Settles O21: `store_read` for each width at a writable device, `busWrite_readOnly` at a read-only one. -/
theorem storesToMemory : Obligations.StoresToMemory := by
  unfold Obligations.StoresToMemory
  constructor
  · rintro s rt base imm _ hf rfl hm
    have low := storeValue_extract s rt
    refine ⟨store_read (w := .w8) hf hm (Nat.mod_one _) State.byteAt memValue_byte (low _) (by decide) rfl,
      fun ha => store_read (w := .w16) hf hm ha State.halfAt memValue_half (low _) (by decide) rfl,
      fun ha => store_read (w := .w32) hf hm ha State.wordAt memValue_word (low _) (by decide) rfl,
      fun ha => store_read (w := .w64) hf hm ha State.dwordAt memValue_dword ?_ (by decide) rfl,
      fun ha => store_read (w := .w128) hf hm ha State.quadAt ?_ BitVec.extractLsb'_eq_self (by decide) rfl⟩
    · exact (low 64).trans BitVec.extractLsb'_eq_self
    · exact fun t a => BitVec.extractLsb'_eq_self.trans (memValue_quad t a)
  · rintro s rt base imm _ hf rfl hm hw
    have access {w : Width} (v : Quad) (ha : s.physAddr base imm % w.bytes = 0) := busWrite_readOnly v hf ha hm hw
    exact ⟨store_dropped hf rfl (access (w := .w8) _ (Nat.mod_one _)),
      fun ha => store_dropped hf rfl (access (w := .w16) _ ha),
      fun ha => store_dropped hf rfl (access (w := .w32) _ ha),
      fun ha => store_dropped hf rfl (access (w := .w64) _ ha),
      fun ha => store_dropped hf rfl (access (w := .w128) _ ha)⟩

/-! ### Unmapped addresses -/

section
variable {s : State} {w : Width} {base : Reg} {imm : Half} (hf : s.fatal = false)
  (hr : route (s.physWord base imm).toNat = none) (ha : (s.physWord base imm).toNat % w.bytes = 0)
include hf hr ha

/-- A load's access where no route leads is logged and answers 0 (R75). -/
theorem loadAccess_unmapped : s.busRead w (s.physWord base imm) =
    .ok (0, { s with out := .unmappedRead (s.physWord base imm) w :: s.out }) := by
  rw [busRead_unmapped hf ha hr, unmappedRead_cfg]

/-- A load at an unmapped address other than LQ: the extension is applied to 0 (`44_loadstore.md` R196). -/
theorem load_unmapped {i : Instr} {rt : Reg} {n : Nat} (extend : BitVec n → Dword) (hz : extend 0 = 0)
    (hi : exec i s = loadOp (descriptor i) w base imm (fun t v => t.setX rt (extend (v.extractLsb' 0 n))) s) :
    Completes (exec i s) fun t =>
      WroteX s t rt 0 ∧ DoneFrame i s t (.unmappedRead (s.physWord base imm) w :: s.out) := by
  have zero : (0 : Quad).extractLsb' 0 n = 0 := by simp
  rw [← hz]
  exact load_setX hf (loadAccess_unmapped hf hr ha) extend zero hi

/-- A store at an unmapped address is dropped (R76). -/
theorem store_unmapped {i : Instr} {v : Quad} (hi : exec i s = storeOp (descriptor i) w base imm v s) :
    Completes (exec i s) fun t => SameGprs s t ∧ DoneFrame i s t :=
  store_dropped hf hi (busWrite_unmapped v hf ha hr)

end

/-- Settles O22: `load_unmapped` and `store_unmapped` for each width; LQ takes the sentinel whole. -/
theorem unmappedAccessesAreHarmless : Obligations.UnmappedAccessesAreHarmless := by
  unfold Obligations.UnmappedAccessesAreHarmless
  rintro s rt base imm _ hf rfl hr
  refine ⟨load_unmapped (w := .w8) hf hr (Nat.mod_one _) (·.signExtend 64) (by decide) rfl,
    load_unmapped (w := .w8) hf hr (Nat.mod_one _) (·.zeroExtend 64) (by decide) rfl,
    store_unmapped (w := .w8) hf hr (Nat.mod_one _) rfl, fun ha => ?_, fun ha => ?_, fun ha => ?_, fun ha => ?_⟩
  · exact ⟨load_unmapped (w := .w16) hf hr ha (·.signExtend 64) (by decide) rfl,
      load_unmapped (w := .w16) hf hr ha (·.zeroExtend 64) (by decide) rfl, store_unmapped (w := .w16) hf hr ha rfl⟩
  · exact ⟨load_unmapped (w := .w32) hf hr ha (·.signExtend 64) (by decide) rfl,
      load_unmapped (w := .w32) hf hr ha (·.zeroExtend 64) (by decide) rfl, store_unmapped (w := .w32) hf hr ha rfl⟩
  · exact ⟨load_unmapped (w := .w64) hf hr ha id rfl rfl, store_unmapped (w := .w64) hf hr ha rfl⟩
  · exact ⟨load_setXq hf (loadAccess_unmapped hf hr ha), store_unmapped (w := .w128) hf hr ha rfl⟩

/-! ### The effective address and the configuration -/

/-- The effective address as a number: base plus signed displacement, modulo 2^32 (R180). -/
theorem effAddr_toNat (s : State) (base : Reg) (imm : Half) :
    ((s.effAddr base imm).toNat : Int) = ((s.x base).toNat + imm.toInt) % 2 ^ 32 := by
  have sum : s.effAddr base imm = BitVec.ofInt 32 ((s.x base).toNat + imm.toInt) := by
    rw [BitVec.ofInt_add, BitVec.ofInt_natCast]
    rfl
  rw [sum, BitVec.toNat_ofInt, Int.toNat_of_nonneg (Int.emod_nonneg _ (by decide))]
  rfl

/-- Settles O26: `effAddr_toNat` and the laws of TRANSLATE; the rest reads the fields of `cfg`. -/
theorem effectiveAddressAndConfiguration : Obligations.EffectiveAddressAndConfiguration := by
  unfold Obligations.EffectiveAddressAndConfiguration
  refine ⟨effAddr_toNat, fun v => translate_mod v (by decide), by decide, fun i s => ⟨(meaning_cfg i s).symm, rfl⟩,
    translate_toNat, ⟨rfl, rfl, rfl, rfl, rfl⟩, ?causeCodes, ?pipeline, ⟨rfl, rfl, rfl, rfl, rfl, rfl⟩,
    ⟨rfl, rfl, rfl, rfl⟩, cfg_initImage, cfg_unitReset, cfg_deviceReset⟩
  case causeCodes => intro k; cases k <;> rfl
  case pipeline => intro k; cases k <;> rfl

end Sys2Proof.Machine

/-! ## Traps and system instructions

The instructions of `45_system.md`. A trap ends as `trapIf_completes` says; MTC0 and WAIT write coprocessor 0 before they
end `Done` (`cop0Write_completes`); CFC2.I ends as the interlock answers. -/

namespace Sys2Proof.Machine

/-! ### Exceptions -/

/-- A trap instruction on a condition `p`, with `q` its contrary (R200). -/
theorem trapIf_completes (i : Instr) (s : State) {p q : Prop} [Decidable p] (contrary : q → ¬p) :
    Completes (trapIf (descriptor i) (decide p) s) fun t =>
      (p → Entered s t (cfg.causeCode .trap)) ∧ (q → SameGprs s t ∧ DoneFrame i s t) := by
  by_cases h : p
  · rw [decide_eq_true h]
    exact ⟨_, rfl, fun _ => entered _ rfl, fun hq => absurd h (contrary hq)⟩
  · rw [decide_eq_false h]
    exact ⟨_, rfl, fun hp => absurd hp h, fun _ => ⟨sameGprs_of_gpr (retire_gpr _ _ _), doneFrame i s.gpr rfl⟩⟩

/-- Settles O33: the six are `trapIf` on their conditions, each with the contrary order or equality. -/
theorem trapsOnCondition : Obligations.TrapsOnCondition := by
  unfold Obligations.TrapsOnCondition
  intro s rs rt code
  exact ⟨trapIf_completes (.tge rs rt code) s Int.not_le.mpr, trapIf_completes (.tgeu rs rt code) s Nat.not_le.mpr,
    trapIf_completes (.tlt rs rt code) s Int.not_lt.mpr, trapIf_completes (.tltu rs rt code) s Nat.not_lt.mpr,
    trapIf_completes (.teq rs rt code) s id, trapIf_completes (.tne rs rt code) s not_not_intro⟩

/-- Settles O34: both raise their exception in every state. -/
theorem syscallAndBreakEnter : Obligations.SyscallAndBreakEnter := by
  unfold Obligations.SyscallAndBreakEnter
  exact fun s code => ⟨⟨_, rfl, entered _ rfl⟩, ⟨_, rfl, entered _ rfl⟩⟩

/-! ### ERET -/

/-- The pop of the enable stack, bit by bit (`60_exceptions.md` R290). -/
theorem popIE_popped (st : Word) : Popped st (popIE st) where
  moved i hi := by
    rw [cfg_ieStackDepth] at hi
    rw [popIE_bit st i (by omega), if_pos (by omega)]
  kept i hi := by
    rw [cfg_ieStackDepth] at hi
    by_cases word : i < 32
    · rw [popIE_bit st i word, if_neg (by omega)]
    · rw [BitVec.getLsbD_of_ge _ _ (by omega), BitVec.getLsbD_of_ge _ _ (by omega)]

/-- A pop undoes a push but for the deepest entry, which the push lost (R282, R290). -/
theorem popIE_pushIE_bit (st : Word) {i : Nat} (h : i ≠ 2) : (popIE (pushIE st)).getLsbD i = st.getLsbD i := by
  by_cases word : i < 32
  · rw [popIE_bit _ i word]
    split
    · rw [pushIE_bit st (i + 1) (by omega), if_neg (by omega), if_pos (by omega), Nat.add_sub_cancel]
    · rw [pushIE_bit st i word, if_neg (by omega), if_neg (by omega)]
  · rw [BitVec.getLsbD_of_ge _ _ (by omega), BitVec.getLsbD_of_ge _ _ (by omega)]

/-- Settles O35: the alignment of EPC chooses how ERET ends; the last clause is `popIE_pushIE_bit`. -/
theorem returnFromException : Obligations.ReturnFromException := by
  unfold Obligations.ReturnFromException
  refine ⟨fun s free => ?_, fun st i deepest => ?_⟩
  · have outside : ¬s.branchPending = true := by rw [free]; decide
    refine ⟨fun aligned => ?_, fun misaligned => ?_⟩
    · rw [exec, execEret, if_neg outside, if_neg (not_not_intro aligned)]
      exact ⟨_, rfl, rfl, rfl, rfl, popIE_popped s.status, rfl, rfl, rfl, rfl, rfl, rfl, rfl, fun _ => rfl, ⟨rfl, rfl⟩,
        fun _ => rfl, { SameRest.refl s with }⟩
    · rw [exec, execEret, if_neg outside, if_pos misaligned]
      exact ⟨_, rfl, retire_fatal _ _ _ _⟩
  · rw [cfg_ieStackDepth] at deepest
    exact popIE_pushIE_bit st (by omega)

/-! ### Coprocessor-0 moves -/

/-- No other number names a coprocessor-0 register that can be read (R209). -/
theorem cop0_none (s : State) {n : Nat} (status : n ≠ 12) (cause : n ≠ 13) (epc : n ≠ 14) : s.cop0 n = none := by
  rw [State.cop0, if_neg status, if_neg cause, if_neg epc]

/-- Nor one that can be written (R210). -/
theorem setCop0_none (s : State) {n : Nat} (v : Word) (status : n ≠ 12) (cause : n ≠ 13) (epc : n ≠ 14) :
    s.setCop0 n v = none := by
  rw [State.setCop0, if_neg status, if_neg cause, if_neg epc]

/-- The fields of CAUSE from bit 0 up: two zeros, `ExcCode`, a zero, the lines, fifteen zeros, `BD` (`10_state.md` R35).
Each stands at the low end once the fields below it are skipped. -/
theorem cause_fields (s : State) :
    s.cause.extractLsb' 0 2 = 0 ∧ s.cause.extractLsb' 2 5 = s.excCode ∧ s.cause.getLsbD 7 = false ∧
    s.cause.extractLsb' 8 8 = s.irqLine ∧ s.cause.extractLsb' 16 15 = 0 ∧ s.cause.getLsbD 31 = s.bd := by
  unfold State.cause
  refine ⟨BitVec.extractLsb'_append_eq_right, ?_, ?_, ?_, ?_, ?_⟩
  · rw [BitVec.extractLsb'_append_eq_of_le (by decide)]
    exact BitVec.extractLsb'_append_eq_right
  · iterate 3 rw [BitVec.getLsbD_append]
    rfl
  · iterate 3 rw [BitVec.extractLsb'_append_eq_of_le (by decide)]
    exact BitVec.extractLsb'_append_eq_right
  · iterate 4 rw [BitVec.extractLsb'_append_eq_of_le (by decide)]
    exact BitVec.extractLsb'_append_eq_right
  · iterate 5 rw [BitVec.getLsbD_append]
    exact BitVec.getLsbD_ofBool s.bd 0

/-- MFC0 of a register that exists (R209). -/
theorem mfc0_completes {s : State} {n : Nat} {v : Word} (rt : Reg) (h : s.cop0 n = some v) :
    Completes (exec (.mfc0 rt n) s) fun t => WroteX s t rt (sext64 v) ∧ DoneFrame (.mfc0 rt n) s t := by
  rw [exec, execMfc0, h]
  exact writeDone_completes (.mfc0 rt n) rt _ s

/-- Settles O36: `mfc0_completes` for the three registers; no other number names one. -/
theorem moveFromCop0 : Obligations.MoveFromCop0 := by
  unfold Obligations.MoveFromCop0
  intro s rt
  obtain ⟨low, excCode, bit7, lines, reserved, bd⟩ := cause_fields s
  refine ⟨mfc0_completes rt rfl, ⟨s.cause, low, excCode, bit7, lines, reserved, bd, mfc0_completes rt rfl⟩,
    mfc0_completes rt rfl, fun n status cause epc => ?_⟩
  rw [exec, execMfc0, cop0_none s status cause epc]
  exact ⟨_, rfl, retire_fatal _ _ _ _⟩

/-- The bits of STATUS that MTC0 writes (R210, `10_state.md` R34). -/
theorem statusWrite_bit (s : State) (r : Reg) (i : Nat) : (s.x32 r &&& statusWmask).getLsbD i =
    ((decide (i < 3) || (decide (8 ≤ i) && decide (i < 16))) && (s.x r).getLsbD i) := by
  rw [BitVec.getLsbD_and, State.x32, BitVec.getLsbD_extractLsb', Nat.zero_add]
  by_cases word : i < 32
  · rw [statusWmask_bit i word, decide_eq_true word, Bool.true_and, Bool.and_comm]
  · simp only [word, decide_false, Bool.false_and, show ¬i < 3 by omega, show ¬i < 16 by omega, Bool.and_false,
      Bool.or_false]

/-- Everything an instruction that writes STATUS, EPC and the wait flag alone and ends `Done` does. -/
theorem cop0Write_completes {s u : State} (i : Instr) (status epc : Word) (wait : Bool)
    (hu : u = { s with status := status, epc := epc, waitForIrq := wait }) :
    Completes (.next (u.retire (descriptor i) .done)) fun t =>
      SameCop0 u t ∧ Tracked i s t s.out ∧ AdvancedDone s t ∧ SameGprs s t ∧ SameLoHi s t ∧ SameMemory s t ∧
      SameRest s t := by
  subst hu
  exact ⟨_, rfl, retire_done_cop0 _ (SameCop0.refl _), tracked_done i rfl rfl rfl rfl rfl, advancedDone _ rfl rfl rfl,
    sameGprs_of_gpr (retire_gpr _ _ _), ⟨retire_lo _ _ _, retire_hi _ _ _⟩, fun a => by simp [State.byteAt],
    retire_done_rest _ { SameRest.refl s with }⟩

/-- Settles O37: each register that exists is written before `Done`, STATUS through `statusWrite_bit`. -/
theorem moveToCop0 : Obligations.MoveToCop0 := by
  unfold Obligations.MoveToCop0
  intro s rt
  refine ⟨?_, ?_, ?_, fun n status cause epc => ?_⟩
  · obtain ⟨t, ran, cop0, frame⟩ := cop0Write_completes (.mtc0 rt 12) (s.x32 rt &&& statusWmask) s.epc s.waitForIrq rfl
    refine ⟨t, ran, fun i => ?_, cop0.excCode, cop0.bd, cop0.epc, cop0.waitForIrq, frame⟩
    exact (congrArg (·.getLsbD i) cop0.status).trans (statusWrite_bit s rt i)
  · exact ⟨_, rfl, sameGprs_of_gpr (retire_gpr _ _ _), doneFrame (.mtc0 rt 13) s.gpr rfl⟩
  · obtain ⟨t, ran, cop0, frame⟩ := cop0Write_completes (.mtc0 rt 14) s.status (s.x32 rt) s.waitForIrq rfl
    exact ⟨t, ran, cop0.epc, cop0.status, cop0.excCode, cop0.bd, cop0.waitForIrq, frame⟩
  · rw [exec, execMtc0, setCop0_none s _ status cause epc]
    exact ⟨_, rfl, retire_fatal _ _ _ _⟩

/-! ### WAIT -/

/-- A slice that does not go on ends (`40_core_step.md` R139). -/
theorem step_endSlice {s : State} {r : Nat} (live : s.fatal = false) (slice : s.phase = .core r)
    (ended : s.sliceOn = false) : step s = .next s.endSlice := by
  simp [step, move, live, slice, ended]

/-- Settles O38: WAIT writes the flag before `Done`, and a slice with the flag set does not go on. -/
theorem waitHaltsUntilWoken : Obligations.WaitHaltsUntilWoken := by
  unfold Obligations.WaitHaltsUntilWoken
  refine ⟨fun s => ?_, fun s r live waiting slice => ?_⟩
  · obtain ⟨t, ran, cop0, tracker, advanced, gprs, loHi, memory, rest⟩ :=
      cop0Write_completes .wait s.status s.epc true rfl
    exact ⟨t, ran, cop0.waitForIrq, tracker, advanced, gprs, loHi, cop0.status, cop0.excCode, cop0.bd, cop0.epc, memory,
      rest⟩
  · exact step_endSlice live slice (by simp [State.sliceOn, slice, waiting])

/-! ### CFC2.I -/

/-- Once the vector unit has asked, the CORE is satisfied: both flags are set if it had not asked yet, else both are
clear (`20_memory.md` R85). -/
theorem interlockRequest_satisfied {s : State} (live : s.fatal = false) (vu : s.ilockVu = true) :
    s.interlockRequest .cop2 = (.satisfied, { s with ilockCop2 := !s.ilockCop2, ilockVu := !s.ilockCop2 }) := by
  cases cop2 : s.ilockCop2 with
  | false =>
    rw [interlockRequest_meet (x := .cop2) live vu cop2, State.setIlock, vu]
    rfl
  | true => exact interlockRequest_clear (x := .cop2) live vu cop2

/-- Settles O39: the interlock's answer chooses the end (R212); the transfer to register 0 writes nothing. -/
theorem interlockInstruction : Obligations.InterlockInstruction := by
  unfold Obligations.InterlockInstruction
  refine fun s live => ⟨fun vu => ?_, fun vu => ?_⟩
  · rw [exec, execCfc2i, interlockRequest_wait (x := .cop2) live vu]
    rfl
  · rw [exec, execCfc2i, interlockRequest_satisfied live vu]
    refine ⟨_, rfl, retire_ilockVu _ _ _, retire_ilockCop2 _ _ _, sameGprs_of_gpr (retire_gpr _ _ _), ?_⟩
    rw [retire_ilockVu, retire_ilockCop2]
    exact doneFrame .cfc2i s.gpr rfl

end Sys2Proof.Machine

/-! ## The scheduler

What a step does to the scheduler, its clock and its snapshot (`46_scheduler.md`), and what an entry does when it fires
(R222, R233). -/

namespace Sys2Proof.Machine

/-! ### What a step does to the scheduler -/

/-- Registrations leave the clock alone (R224, R226, R228). -/
theorem SchedGrows.runCycles {c k : Sched} (h : SchedGrows c k) : k.runCycles = c.runCycles := by rw [h.rest]

/-- Outside the beginning of an iteration the scheduler `k` comes from `c` by firing at most one entry, then by
registrations (R233, R238). -/
def SchedMoves (c k : Sched) : Prop :=
  SchedGrows c k ∨ (∃ e, SchedGrows (c.removeEvent e) k) ∨ ∃ m, SchedGrows (c.rearm m) k

theorem SchedMoves.of_eq {c k : Sched} (h : k = c) : SchedMoves c k := by
  rw [h]
  exact .inl (SchedGrows.refl c)

theorem SchedMoves.inv {c k : Sched} (h : SchedMoves c k) (hi : c.Inv) : k.Inv := by
  rcases h with grows | ⟨e, grows⟩ | ⟨m, grows⟩
  · exact grows.inv hi
  · exact grows.inv (removeEvent_inv e hi)
  · exact grows.inv (rearm_inv m hi)

theorem SchedMoves.runCycles {c k : Sched} (h : SchedMoves c k) : k.runCycles = c.runCycles := by
  rcases h with grows | ⟨e, grows⟩ | ⟨m, grows⟩ <;> exact grows.runCycles

/-- The beginning of an iteration commits a budget and touches the scheduler in no other way (`47_run_loop_host.md`
R251). -/
theorem beginIteration_sched {s : State} (live : s.fatal = false) :
    s.beginIteration.sched = s.sched.calculateRunCycles.updateCycleCounts := by
  rw [beginIteration_eq live]
  exact interruptCheck_sched _

theorem fireDue_sched (s : State) (d : Due) : SchedMoves s.sched (s.fireDue d).sched := by
  rcases fireDue_effect s d with ⟨e, -, u, effect, fired⟩ | ⟨m, -, u, effect, fired⟩
  · rw [fired]
    exact .inr (.inl ⟨e, effect.sched⟩)
  · rw [fired]
    exact .inr (.inr ⟨m, effect.sched⟩)

/-- Everything a step can do to the scheduler: the beginning of an iteration commits a budget, every other step fires
at most one entry and registers. -/
theorem step_sched {s t : State} (h : step s = .next t) :
    (s.phase = .frame ∧ t.sched = s.sched.calculateRunCycles.updateCycleCounts) ∨
    (s.phase ≠ .frame ∧ SchedMoves s.sched t.sched) := by
  obtain ⟨live, ⟨on, u, -, effect, rfl⟩ | ⟨-, loop⟩⟩ := step_cases h
  · obtain ⟨r, slice, -⟩ := (sliceOn_iff s).1 on
    rw [charge_sched]
    exact .inr ⟨by simp [slice], .inl effect.sched⟩
  · rcases loop with ⟨phase, rfl⟩ | ⟨phase, rfl⟩ | ⟨⟨r, phase⟩, rfl⟩ | ⟨phase, rfl⟩ |
      ⟨u, us, phase, rfl⟩ | ⟨phase, rfl⟩ | ⟨d, ds, phase, rfl⟩
    · exact .inr ⟨by simp [phase], .of_eq rfl⟩
    · exact .inl ⟨phase, beginIteration_sched live⟩
    · exact .inr ⟨by simp [phase], .of_eq rfl⟩
    · exact .inr ⟨by simp [phase], .of_eq rfl⟩
    · exact .inr ⟨by simp [phase], .inl (unitTurn_effect { s with phase := .units us } u).sched⟩
    · exact .inr ⟨by simp [phase], .of_eq rfl⟩
    · exact .inr ⟨by simp [phase], fireDue_sched { s with phase := .firing ds } d⟩

/-- Settles O60: of what `step_sched` lists, the commit touches nothing that the invariant speaks of, and firing and
registering keep it. -/
theorem stepKeepsTheSchedulerInvariant : Obligations.StepKeepsTheSchedulerInvariant := by
  unfold Obligations.StepKeepsTheSchedulerInvariant
  intro s t hi h
  rcases step_sched h with ⟨-, committed⟩ | ⟨-, moves⟩
  · rw [committed]
    exact hi.congr rfl rfl rfl rfl rfl
  · exact moves.inv hi

/-- Committing a budget moves the clock forward, since every budget is at least `MIN_RUN_CYCLES` (R231, R239). -/
theorem commit_runCycles (c : Sched) : c.runCycles < c.calculateRunCycles.updateCycleCounts.runCycles :=
  Nat.lt_add_of_pos_right (Nat.lt_of_lt_of_le (by decide) (budget_pos c))

/-- Settles O49: by what `step_sched` says of the clock. -/
theorem timeMovesForwardOnly : Obligations.TimeMovesForwardOnly := by
  unfold Obligations.TimeMovesForwardOnly
  intro s t h
  rcases step_sched h with ⟨frame, committed⟩ | ⟨other, moves⟩
  · rw [committed]
    exact ⟨absurd frame, fun _ => commit_runCycles s.sched⟩
  · exact ⟨fun _ => moves.runCycles, fun frame => absurd frame other⟩

/-! ### The budget -/

/-- The least number of a list is the member that no other is below. -/
theorem listMin_eq_some {l : List Nat} {m : Nat} (member : m ∈ l) (least : ∀ n ∈ l, m ≤ n) : listMin l = some m := by
  obtain ⟨empty, minimal⟩ := listMin_spec l
  cases found : listMin l with
  | none =>
    rw [empty.1 found] at member
    cases member
  | some k =>
    obtain ⟨hk, lower⟩ := minimal k found
    rw [Nat.le_antisymm (lower m member) (least k hk)]

/-- With something pending, the budget is the distance to the earliest cycle, at least `MIN_RUN_CYCLES` (R229). -/
theorem budget_earliest {c : Sched} {e : Nat} (member : e ∈ c.pendingCycles) (least : ∀ n ∈ c.pendingCycles, e ≤ n) :
    c.budget = if e ≤ c.runCycles then cfg.minRunCycles else max cfg.minRunCycles (e - c.runCycles) := by
  rw [Sched.budget, listMin_eq_some member least]

/-- Something is pending exactly at the cycles of the events and of the timers (R229). -/
theorem mem_pendingCycles {c : Sched} {n : Nat} :
    n ∈ c.pendingCycles ↔ n ∈ c.events.map (·.absoluteCycle) ∨ n ∈ c.timers.map (·.nextFireCycle) :=
  List.mem_append

/-- Settles O45: `budget_earliest` for the CPU's budget; the rest is how the budgets are latched. -/
theorem budgetReachesTheEarliestEntry : Obligations.BudgetReachesTheEarliestEntry := by
  unfold Obligations.BudgetReachesTheEarliestEntry
  refine fun c => ⟨fun noEvents noTimers => ?_, fun e pending events timers => ?_, budget_pos c, rfl, rfl, rfl⟩
  · show c.budget = cfg.idleBudget
    rw [Sched.budget, Sched.pendingCycles, noEvents, noTimers]
    rfl
  · refine budget_earliest (mem_pendingCycles.2 pending) fun n hn => ?_
    rcases mem_pendingCycles.1 hn with hn | hn
    · obtain ⟨f, hf, rfl⟩ := List.mem_map.1 hn
      exact events f hf
    · obtain ⟨t, ht, rfl⟩ := List.mem_map.1 hn
      exact timers t ht

/-! ### The clock ratios -/

/-- A divider that gets `b j` cycles in round `j`, gives out the quotient `q j` and carries the remainder `r j`, has
after `k` rounds given out all that it got but the remainder it carries. -/
theorem divider_total {d k : Nat} {r b q : Nat → Nat} (start : r 0 = 0)
    (quotient : ∀ j, q j = (r j + b j) / d) (carry : ∀ j < k, r (j + 1) = (r j + b j) % d) :
    d * ((List.range k).map q).sum + r k = ((List.range k).map b).sum := by
  induction k with
  | zero => simpa using start
  | succ k ih =>
    have total := ih fun j hj => carry j (Nat.lt_succ_of_lt hj)
    have round : d * q k + r (k + 1) = r k + b k := by
      rw [quotient, carry k (Nat.lt_succ_self k)]
      exact Nat.div_add_mod _ _
    simp only [List.range_succ, List.map_append, List.map_cons, List.map_nil, List.sum_append, List.sum_cons,
      List.sum_nil, Nat.mul_add]
    omega

/-- So it gives out the quotient of the total and carries the total's remainder (R232). -/
theorem divider_ratio {d k : Nat} {r b q : Nat → Nat} (pos : 0 < d) (start : r 0 = 0)
    (quotient : ∀ j, q j = (r j + b j) / d) (carry : ∀ j < k, r (j + 1) = (r j + b j) % d) :
    ((List.range k).map q).sum = ((List.range k).map b).sum / d ∧ r k = ((List.range k).map b).sum % d := by
  have below : r k < d := by
    cases k with
    | zero => rwa [start]
    | succ k =>
      rw [carry k (Nat.lt_succ_self k)]
      exact Nat.mod_lt _ pos
  rw [← divider_total start quotient carry, Nat.mul_add_div pos, Nat.mul_add_mod, Nat.div_eq_of_lt below,
    Nat.mod_eq_of_lt below]
  exact ⟨rfl, rfl⟩

/-- Settles O46: the bus's and the secondary CPU's clocks are two such dividers. -/
theorem clockRatiosCarry : Obligations.ClockRatiosCarry := by
  unfold Obligations.ClockRatiosCarry
  intro c k bus iop carry
  obtain ⟨busSum, busRem⟩ := divider_ratio (d := cfg.busDiv) (r := fun j => (c j).busRem) (by decide) bus
    (fun j => rfl) (fun j hj => (carry j hj).1)
  obtain ⟨iopSum, iopRem⟩ := divider_ratio (d := cfg.iopDiv) (r := fun j => (c j).iopRem) (by decide) iop
    (fun j => rfl) (fun j hj => (carry j hj).2)
  exact ⟨busSum, busRem, iopSum, iopRem⟩

/-! ### The snapshot -/

/-- Fires no later than, in the order by (cycle, seq) (R233, R234). -/
theorem Due.before_iff (a b : Due) : a.before b = true ↔ a.cycle < b.cycle ∨ (a.cycle = b.cycle ∧ a.seq ≤ b.seq) := by
  simp [Due.before]

theorem Due.before_trans {a b c : Due} (h : a.before b = true) (g : b.before c = true) : a.before c = true := by
  rw [Due.before_iff] at *
  omega

theorem Due.before_of_not {a b : Due} (h : ¬a.before b = true) : b.before a = true := by
  rw [Due.before_iff] at *
  omega

theorem insertDue_perm (d : Due) (l : List Due) : (insertDue d l).Perm (d :: l) := by
  induction l with
  | nil => exact .refl _
  | cons e es ih =>
    rw [insertDue]
    split
    · exact (ih.cons e).trans (.swap d e es)
    · exact .refl _

theorem insertDue_sorted (d : Due) {l : List Due} (sorted : l.Pairwise (·.before ·)) :
    (insertDue d l).Pairwise (·.before ·) := by
  induction l with
  | nil => exact List.pairwise_singleton _ d
  | cons e es ih =>
    obtain ⟨first, rest⟩ := List.pairwise_cons.1 sorted
    rw [insertDue]
    split
    · rename_i earlier
      refine List.pairwise_cons.2 ⟨fun x hx => ?_, ih rest⟩
      rcases List.mem_cons.1 ((insertDue_perm d es).mem_iff.1 hx) with rfl | hx
      · exact earlier
      · exact first x hx
    · rename_i later
      refine List.pairwise_cons.2 ⟨fun x hx => ?_, sorted⟩
      rcases List.mem_cons.1 hx with rfl | hx
      · exact Due.before_of_not later
      · exact Due.before_trans (Due.before_of_not later) (first x hx)

/-- Inserting entries one by one into a sorted list, as `sortDue` does from the empty one. -/
theorem foldl_insertDue (l : List Due) : ∀ {acc : List Due}, acc.Pairwise (·.before ·) →
    (l.foldl (fun acc d => insertDue d acc) acc).Pairwise (·.before ·) ∧
    (l.foldl (fun acc d => insertDue d acc) acc).Perm (acc ++ l) := by
  induction l with
  | nil => exact fun {acc} sorted => ⟨sorted, by rw [List.append_nil]; exact .refl _⟩
  | cons d ds ih =>
    intro acc sorted
    obtain ⟨sorted', perm⟩ := ih (insertDue_sorted d sorted)
    exact ⟨sorted', perm.trans (((insertDue_perm d acc).append_right ds).trans List.perm_middle.symm)⟩

/-- Sorting arranges the same entries in firing order (R233). -/
theorem sortDue_spec (l : List Due) : (sortDue l).Pairwise (·.before ·) ∧ (sortDue l).Perm l :=
  foldl_insertDue l .nil

/-- Settles O47: the snapshot is `sortDue` of the due entries. -/
theorem snapshotIsDueEntriesInOrder : Obligations.SnapshotIsDueEntriesInOrder := by
  unfold Obligations.SnapshotIsDueEntriesInOrder
  intro c
  obtain ⟨sorted, perm⟩ := sortDue_spec _
  exact ⟨sorted.imp (Due.before_iff _ _).1, perm⟩

/-- A due event is in the snapshot (R233). -/
theorem event_mem_dueNow {c : Sched} {e : ScheduledEvent} (member : e ∈ c.events)
    (due : e.absoluteCycle ≤ c.runCycles) :
    Due.event e ∈ c.dueNow := by
  refine (snapshotIsDueEntriesInOrder c).2.mem_iff.2 (List.mem_append_left _ (List.mem_map_of_mem ?_))
  exact List.mem_filter.2 ⟨member, decide_eq_true due⟩

/-! ### Registration -/

section
variable {s : State} (live : s.fatal = false)
include live

/-- The port `register_function` is the scheduler's (R221, R224). -/
theorem registerFunction_live :
    s.registerFunction = (s.sched.registerFunction.1, { s with sched := s.sched.registerFunction.2 }) :=
  if_neg (by simp [live])

/-- The port `add_event` answers as the scheduler does (R221, R226). -/
theorem addEvent_live (h : Nat) (d p : Dword) : s.addEvent h d p = s.schedAnswer h (s.sched.addEvent h d p) :=
  if_neg (by simp [live])

/-- The port `add_timer` answers as the scheduler does (R221, R228). -/
theorem addTimer_live (h : Nat) (n : Dword) : s.addTimer h n = s.schedAnswer h (s.sched.addTimer h n) :=
  if_neg (by simp [live])

/-- An event for an unregistered handler is fatal and adds nothing (R226). -/
theorem addEvent_unregistered {h : Nat} (d p : Dword) (unknown : h ∉ s.sched.handlers) :
    LatchedOnly s (s.addEvent h d p).2 .unregisteredHandler := by
  rw [addEvent_live live, addEvent_eq, if_neg unknown]
  exact ⟨_, rfl⟩

/-- A timer for an unregistered handler is fatal and adds nothing (R228). -/
theorem addTimer_unregistered {h : Nat} (n : Dword) (unknown : h ∉ s.sched.handlers) :
    LatchedOnly s (s.addTimer h n).2 .unregisteredHandler := by
  rw [addTimer_live live, addTimer_eq, if_neg unknown]
  exact ⟨_, rfl⟩

end

/-- Settles O44: `addEvent_eq` and `addTimer_eq` decide by the handler table, and the ports answer as they do. -/
theorem schedulerRegistration : Obligations.SchedulerRegistration := by
  unfold Obligations.SchedulerRegistration
  intro c h d p n
  refine ⟨rfl, ?register, fun known => ?event, fun known => ?timer, fun unknown => ?unregistered⟩
  case register =>
    rintro s rfl live
    exact registerFunction_live live
  case event =>
    refine ⟨((c.runCycles : Int) + d.toInt).toNat, by omega, by rw [addEvent_eq, if_pos known], ?_, fun past => ?_⟩
    · rintro s rfl live
      rw [addEvent_live live, addEvent_eq, if_pos known]
      rfl
    · exact event_mem_dueNow (List.mem_append_right _ (List.mem_singleton_self _))
        (show ((c.runCycles : Int) + d.toInt).toNat ≤ c.runCycles by omega)
  case timer =>
    refine ⟨by rw [addTimer_eq, if_pos known], ?_⟩
    rintro s rfl live
    rw [addTimer_live live, addTimer_eq, if_pos known]
    rfl
  case unregistered =>
    refine ⟨by rw [addEvent_eq, if_neg unknown], by rw [addTimer_eq, if_neg unknown], ?_⟩
    rintro s rfl live
    have event := addEvent_unregistered live d p unknown
    have timer := addTimer_unregistered live n unknown
    refine ⟨event, timer, ?_, ?_⟩
    · rwa [State.deviceOp, deviceCall_addEvent cfg live]
    · rwa [State.deviceOp, deviceCall_addTimer cfg live]

/-! ### Firing -/

/-- The state in which the handler of a fired entry acts: the rest of the snapshot is left, the scheduler has the entry
removed or re-armed, the `Fire` record is on the streams (R222, R233). -/
def State.fired (s : State) (ds : List Due) (k : Sched) (out : List OutEvent) : State :=
  { s with phase := .firing ds, sched := k, out := out }

/-- The frame-end handler sets `frame_complete` and does nothing else (`47_run_loop_host.md` R254). -/
theorem fire_frameEnd {s : State} {ds : List Due} {k : Sched} {h : Nat} (p : Dword) (c : Nat)
    (frameEnd : s.frameHandler = some h) :
    ({ s with phase := .firing ds, sched := k } : State).fire h p c =
      { s.fired ds k (.fire h p c :: s.out) with frameComplete := true } :=
  if_pos frameEnd

/-- Taking an answer commutes with what a firing changes (log entry 5). -/
theorem takeAnswer_fired (s : State) (ds : List Due) (k : Sched) (r : OutEvent) :
    ({ s with phase := .firing ds, sched := k } : State).takeAnswer.emit r = s.takeAnswer.fired ds k (r :: s.out) := by
  cases h : s.env <;> simp [State.takeAnswer, State.emit, State.fired, h]

/-- Any other handler's action is the environment's next answer (R222). -/
theorem fire_answer {s : State} {ds : List Due} {k : Sched} {h : Nat} (p : Dword) (c : Nat)
    (other : s.frameHandler ≠ some h) :
    ({ s with phase := .firing ds, sched := k } : State).fire h p c =
      (s.takeAnswer.fired ds k (.fire h p c :: s.out)).deviceOps s.nextAnswer.ops := by
  rw [← takeAnswer_fired]
  exact if_neg other

/-- Everything the firing of an entry does, from the scheduler `k` that has the entry removed or re-armed, with the
record `Fire(h, p, c)`. -/
structure FiresFrom (s : State) (ds : List Due) (k : Sched) (h : Nat) (p : Dword) (c : Nat) (t : State) : Prop where
  phase : t.phase = .firing ds
  sched : SchedGrows k t.sched
  out : ∃ l, t.out = l ++ .fire h p c :: s.out ∧ ∀ g q n, .fire g q n ∉ l
  answer : s.frameHandler ≠ some h → t = (s.takeAnswer.fired ds k (.fire h p c :: s.out)).deviceOps s.nextAnswer.ops
  frameEnd : s.frameHandler = some h → t = { s.fired ds k (.fire h p c :: s.out) with frameComplete := true }

/-- A handler's port operations record no `Fire` (R222). -/
theorem DeviceRecords.noFire {s t : State} (h : DeviceRecords s t) :
    ∃ l, t.out = l ++ s.out ∧ ∀ g q n, .fire g q n ∉ l := by
  obtain ⟨l, grown, ports⟩ := h
  exact ⟨l, grown, fun _ _ _ fire => by cases ports _ fire⟩

theorem fire_firesFrom (s : State) (ds : List Due) (k : Sched) (h : Nat) (p : Dword) (c : Nat) :
    FiresFrom s ds k h p c (({ s with phase := .firing ds, sched := k } : State).fire h p c) := by
  by_cases frameEnd : s.frameHandler = some h
  · rw [fire_frameEnd p c frameEnd]
    exact
      { phase := rfl
        sched := SchedGrows.refl k
        out := ⟨[], rfl, by simp⟩
        answer := fun other => absurd frameEnd other
        frameEnd := fun _ => rfl }
  · rw [fire_answer p c frameEnd]
    have effect := deviceOps_effect s.nextAnswer.ops (s.takeAnswer.fired ds k (.fire h p c :: s.out))
    have records := (deviceOps_records s.nextAnswer.ops (s.takeAnswer.fired ds k (.fire h p c :: s.out))).noFire
    exact
      { phase := by rw [effect.rest]; rfl
        sched := effect.sched
        out := records
        answer := fun _ => rfl
        frameEnd := fun h => absurd h frameEnd }

/-- A step inside `process_events` fires the first entry of the snapshot (R233). -/
theorem step_firing {s : State} {d : Due} {ds : List Due} (live : s.fatal = false)
    (firing : s.phase = .firing (d :: ds)) :
    step s = .next (({ s with phase := .firing ds }).fireDue d) := by
  simp [step, move, live, firing]

/-- An event is gone when its handler acts (R233). -/
theorem step_event {s t : State} {e : ScheduledEvent} {ds : List Due} (live : s.fatal = false) (h : step s = .next t)
    (firing : s.phase = .firing (.event e :: ds)) :
    FiresFrom s ds (s.sched.removeEvent e) e.handlerId e.payload e.absoluteCycle t := by
  rw [step_firing live firing] at h
  cases h
  exact fire_firesFrom s ds _ _ _ _

/-- A timer is re-armed when its handler acts (R233). -/
theorem step_timer {s t : State} {m : PeriodicTimer} {ds : List Due} (live : s.fatal = false) (h : step s = .next t)
    (firing : s.phase = .firing (.timer m :: ds)) :
    FiresFrom s ds (s.sched.rearm m) m.handlerId 0 m.nextFireCycle t := by
  rw [step_firing live firing] at h
  cases h
  exact fire_firesFrom s ds _ _ _ _

/-- The re-arm replaces a timer where it stands in the list (R233). -/
theorem rearm_at {c : Sched} {m : PeriodicTimer} {before after : List PeriodicTimer}
    (timers : c.timers = before ++ m :: after) (first : m ∉ before) :
    c.rearm m = { c with timers := before ++ m.rearmed c.seq :: after, seq := c.seq + 1 } := by
  rw [Sched.rearm, timers, replace_append first]

/-- Settles O48: `step_event` and `step_timer`, with the timer re-armed where it stands. -/
theorem firingConsumesTheSnapshot : Obligations.FiringConsumesTheSnapshot := by
  unfold Obligations.FiringConsumesTheSnapshot
  refine fun s t ds live h => ⟨fun e firing => ?_, fun m before after firing timers first => ?_⟩
  · obtain ⟨phase, sched, out, answer, frameEnd⟩ := step_event live h firing
    refine ⟨phase, sched.events, sched.timers, out, fun fired hfired => ?_⟩
    rw [hfired, hfired]
    exact ⟨answer, frameEnd⟩
  · have fires := step_timer live h firing
    rw [rearm_at timers first] at fires
    obtain ⟨phase, sched, out, answer, frameEnd⟩ := fires
    refine ⟨phase, sched.timers, sched.events, out, fun fired hfired => ?_⟩
    rw [hfired, hfired]
    exact ⟨answer, frameEnd⟩

end Sys2Proof.Machine

/-! ## The run loop

The moves that `step` makes one at a time, put together to `run_iteration` and `run_frame` (`47_run_loop_host.md` R250,
R251; `40_core_step.md` R139). Each part of an iteration ends with the latch set or in the phase in which the next part
begins (`Rests`). -/

namespace Sys2Proof.Machine

/-! ### The beginning of an iteration -/

/-- The interrupt check neither reads nor writes the scheduler (`60_exceptions.md` R275). -/
theorem interruptCheck_withSched (s : State) (k : Sched) :
    ({ s with sched := k } : State).interruptCheck = { s.interruptCheck with sched := k } := by
  have pend : ({ s with sched := k } : State).pend = s.pend := rfl
  have ie0 : ({ s with sched := k } : State).ie0 = s.ie0 := rfl
  rw [State.interruptCheck, State.interruptCheck, pend, ie0]
  split
  · rfl
  · split <;> rfl

@[simp] theorem interruptCheck_phase (s : State) : s.interruptCheck.phase = s.phase := by
  rw [(interruptCheck_effect s).rest]

/-- An iteration begins with the interrupt check, the committed budget and a slice of it (R251, R139). -/
theorem beginIteration_live {s : State} (live : s.fatal = false) :
    s.beginIteration = { s.interruptCheck with
      sched := s.sched.calculateRunCycles.updateCycleCounts, phase := .core s.sched.calculateRunCycles.cpuBudget } := by
  rw [beginIteration_eq live, interruptCheck_withSched]
  rfl

theorem step_frame {s : State} (live : s.fatal = false) (frame : s.phase = .frame) :
    step s = .next s.beginIteration := by
  simp [step, move, live, frame]

/-- Settles O41: by `beginIteration_live`; the interrupt check touches neither the scheduler nor the phase. -/
theorem iterationBegins : Obligations.IterationBegins := by
  unfold Obligations.IterationBegins
  refine ⟨fun s live frame => ⟨_, step_frame live frame, ?_⟩, fun c => rfl⟩
  rw [beginIteration_live live]
  exact ⟨rfl, rfl, rfl, congrArg₂ (fun k p => { s.interruptCheck with sched := k, phase := p })
    (interruptCheck_sched s).symm (interruptCheck_phase s).symm⟩

/-! ### Runs of steps -/

/-- `t` is reached from `s` by steps of the machine. -/
abbrev Steps : State → State → Prop := Relation.ReflTransGen fun s t => step s = .next t

/-- A run is its first step, then the rest. -/
theorem core_run_succ (M : Host.Core) {s t : M.State} (k : Nat) (first : M.step s = .next t) :
    M.run (k + 1) s = M.run k t := by
  rw [Host.Core.run, first]

/-- States reached by steps are those that `Core.run` answers. -/
theorem Steps.run {s t : State} (h : Steps s t) : ∃ k, Host.Core.run Sys2Proof.core k s = .next t := by
  induction h using Relation.ReflTransGen.head_induction_on with
  | refl => exact ⟨0, rfl⟩
  | head first _ ih =>
    obtain ⟨k, reached⟩ := ih
    exact ⟨k + 1, (core_run_succ Sys2Proof.core k first).trans reached⟩

/-- A part of an iteration comes to rest in `t`: steps lead there, and there the latch is set or the phase is `p`. -/
structure Rests (s t : State) (p : Phase) : Prop where
  steps : Steps s t
  phase : t.fatal = false → t.phase = p

/-- With the latch set nothing follows (`60_exceptions.md` R295). -/
theorem Rests.of_fatal {s : State} (h : s.fatal = true) (p : Phase) : Rests s s p :=
  ⟨.refl, fun live => by rw [h] at live; cases live⟩

theorem Rests.head {s t u : State} {p : Phase} (first : step s = .next t) (rest : Rests t u p) : Rests s u p :=
  ⟨.head first rest.steps, rest.phase⟩

/-! ### The parts of an iteration -/

/-- A charge takes `STEP_COST` from the slice (`40_core_step.md` R140). -/
theorem charge_core {s : State} {r : Nat} (slice : s.phase = .core r) :
    s.charge = { s with phase := .core (r - cfg.stepCost) } := by
  rw [State.charge, slice]

theorem sliceOn_core {s : State} {r : Nat} (slice : s.phase = .core r) :
    s.sliceOn = (decide (0 < r) && !s.waitForIrq) := by
  rw [State.sliceOn, slice]

/-- `CoreRun`'s loop answers: every step is charged, so a fuel of the cycles left lets the slice end (R139). -/
theorem coreLoop_ends (fuel : Nat) : ∀ {s : State} {r : Nat}, s.phase = .core r → r ≤ fuel →
    ∃ t, coreLoop fuel s = .next t ∧ Steps s t ∧ (∃ q, t.phase = .core q) ∧ (t.fatal = false → t.sliceOn = false) := by
  induction fuel with
  | zero =>
    intro s r slice enough
    exact ⟨s, rfl, .refl, ⟨r, slice⟩, fun _ => by simp [sliceOn_core slice, Nat.le_zero.1 enough]⟩
  | succ fuel ih =>
    intro s r slice enough
    by_cases stopped : (s.fatal || !s.sliceOn) = true
    · exact ⟨s, by rw [coreLoop, if_pos stopped], .refl, ⟨r, slice⟩, fun live => by simpa [live] using stopped⟩
    · have next : s.stepsNext := by simpa [State.stepsNext] using stopped
      obtain ⟨t, ran, -, effect⟩ := chargedStep_effect s
      have charged : t.charge.phase = .core (r - cfg.stepCost) := by
        rw [charge_core (r := r) (by rw [effect.rest]; exact slice)]
      have less : r - cfg.stepCost ≤ fuel := by
        rw [cfg_stepCost]
        omega
      obtain ⟨u, answer, steps, ended⟩ := ih charged less
      refine ⟨u, ?_, .head ((step_slice next).trans ran) steps, ended⟩
      rw [coreLoop, if_neg stopped, ran]
      exact answer

/-- `CoreRun` answers from every state (R139). -/
theorem coreRun_answers (n : Nat) (s : State) : ∃ t, coreRun n s = .next t := by
  unfold coreRun
  split
  · exact ⟨s, rfl⟩
  · obtain ⟨t, answer, -⟩ := coreLoop_ends n (s := { s.interruptCheck with phase := .core n }) rfl (Nat.le_refl n)
    exact ⟨t, answer⟩

theorem step_unit {s : State} {u : ExtUnit} {us : List ExtUnit} (live : s.fatal = false)
    (turn : s.phase = .units (u :: us)) : step s = .next (({ s with phase := .units us }).unitTurn u) := by
  simp [step, move, live, turn]

theorem step_snapshot {s : State} (live : s.fatal = false) (turns : s.phase = .units []) :
    step s = .next s.snapshot := by
  simp [step, move, live, turns]

theorem step_endIteration {s : State} (live : s.fatal = false) (fired : s.phase = .firing []) :
    step s = .next s.endIteration := by
  simp [step, move, live, fired]

/-- A turn leaves the run loop's place as it is (`47_run_loop_host.md` R258). -/
theorem unitTurn_phase (s : State) (u : ExtUnit) : (s.unitTurn u).phase = s.phase := by
  rw [(unitTurn_effect s u).rest]

/-- So does the firing of an entry. -/
theorem fireDue_phase (s : State) (d : Due) : (s.fireDue d).phase = s.phase := by
  rcases fireDue_effect s d with ⟨e, -, u, effect, fired⟩ | ⟨m, -, u, effect, fired⟩
  · rw [fired, effect.rest]
  · rw [fired, effect.rest]

/-- The external units' turns (R251). -/
theorem runUnits_rests (us : List ExtUnit) :
    ∀ {s : State}, s.phase = .units us → Rests s (runUnits us s) (.units []) := by
  induction us with
  | nil => exact fun {s} turns => ⟨.refl, fun _ => turns⟩
  | cons u us ih =>
    intro s turn
    rw [runUnits]
    split
    · exact .of_fatal ‹_› _
    · exact (ih (unitTurn_phase _ u)).head (step_unit (Bool.eq_false_of_not_eq_true ‹_›) turn)

/-- The firing of the snapshot's entries (`46_scheduler.md` R233). -/
theorem fireAll_rests (ds : List Due) :
    ∀ {s : State}, s.phase = .firing ds → Rests s (fireAll ds s) (.firing []) := by
  induction ds with
  | nil => exact fun {s} fired => ⟨.refl, fun _ => fired⟩
  | cons d ds ih =>
    intro s firing
    rw [fireAll]
    split
    · exact .of_fatal ‹_› _
    · exact (ih (fireDue_phase _ d)).head (step_firing (Bool.eq_false_of_not_eq_true ‹_›) firing)

/-- `process_events` (R233). -/
theorem processEvents_rests {s : State} (turns : s.fatal = false → s.phase = .units []) :
    Rests s (processEvents s) (.firing []) := by
  unfold processEvents
  split
  · exact .of_fatal ‹_› _
  · have live : s.fatal = false := Bool.eq_false_of_not_eq_true ‹_›
    exact (fireAll_rests _ rfl).head (step_snapshot live (turns live))

/-- What follows the slice (R251). -/
theorem finishIteration_steps {s : State} (slice : ∃ r, s.phase = .core r)
    (ended : s.fatal = false → s.sliceOn = false) : Steps s (finishIteration s) := by
  obtain ⟨r, slice⟩ := slice
  unfold finishIteration
  split
  · exact .refl
  · have live : s.fatal = false := Bool.eq_false_of_not_eq_true ‹_›
    have units := runUnits_rests unitOrder (s := s.endSlice) rfl
    have events := processEvents_rests units.phase
    have done : Steps s (processEvents (runUnits unitOrder s.endSlice)) :=
      .head (step_endSlice live slice (ended live)) (units.steps.trans events.steps)
    dsimp only
    split
    · exact done
    · have live' := Bool.eq_false_of_not_eq_true ‹_›
      exact done.tail (step_endIteration live' (events.phase live'))

/-! ### `run_iteration` and `run_frame` -/

/-- The slice of an iteration is the committed budget (R251, R139). -/
theorem beginIteration_slice (s : State) : s.beginIteration =
    { s.commitBudget.interruptCheck with phase := .core s.commitBudget.sched.cpuBudget } :=
  congrArg (fun k : Sched => { s.commitBudget.interruptCheck with phase := .core k.cpuBudget })
    (interruptCheck_sched s.commitBudget)

/-- `CoreRun` of the committed budget begins where the machine's own iteration does (R251, R139). -/
theorem coreRun_commitBudget {s : State} (live : s.fatal = false) :
    coreRun s.commitBudget.sched.cpuBudget s.commitBudget =
      coreLoop s.commitBudget.sched.cpuBudget s.beginIteration := by
  have committed : s.commitBudget.fatal = false := by
    rw [commitBudget_eq live]
    exact live
  rw [coreRun, if_neg (by simp [committed]), beginIteration_slice]

/-- The state that `run_iteration` answers (R251). -/
def afterIteration (s : State) : State :=
  match runIteration s with
  | .next t => t
  | .fault _ => s
  | .refused _ => s

/-- `run_iteration` answers from every state (R251). -/
theorem runIteration_eq (s : State) : runIteration s = .next (afterIteration s) := by
  have answers : ∃ t, runIteration s = .next t := by
    unfold runIteration
    split
    · exact ⟨s, rfl⟩
    · obtain ⟨t, answer⟩ := coreRun_answers s.commitBudget.sched.cpuBudget s.commitBudget
      exact ⟨finishIteration t, by rw [answer]⟩
  obtain ⟨t, answer⟩ := answers
  rw [afterIteration, answer]

/-- From the top of the loop the machine's own steps reach the state that `run_iteration` answers (R251). -/
theorem afterIteration_steps {s : State} (live : s.fatal = false) (frame : s.phase = .frame) :
    Steps s (afterIteration s) := by
  have slice : s.beginIteration.phase = .core s.commitBudget.sched.cpuBudget := by
    rw [beginIteration_slice]
  obtain ⟨t, answer, steps, core, ended⟩ := coreLoop_ends _ slice (Nat.le_refl _)
  have result : afterIteration s = finishIteration t := by
    rw [afterIteration, runIteration, if_neg (by simp [live]), coreRun_commitBudget live, answer]
  rw [result]
  exact .head (step_frame live frame) (steps.trans (finishIteration_steps core ended))

/-- How `run_frame`, given at most `k` iterations, may end after `n` of them in the state `t` (R250; log entry 23). -/
def FrameEnds (k n : Nat) (r : FrameResult) (t : State) : Prop :=
  (r = .fatal ∧ t.fatal = true) ∨
    (r = .frameDone ∧ t.fatal = false ∧ t.frameComplete = true) ∨
    (r = .running ∧ n = k ∧ t.fatal = false ∧ t.frameComplete = false)

theorem FrameEnds.succ {k n : Nat} {r : FrameResult} {t : State} (h : FrameEnds k n r t) :
    FrameEnds (k + 1) (n + 1) r t :=
  h.imp_right (.imp_right fun ⟨running, used, flags⟩ => ⟨running, congrArg (· + 1) used, flags⟩)

/-- The repeat loop of `run_frame` iterates `run_iteration` while neither the latch nor `frame_complete` is set
(R250). -/
theorem frameLoop_iterates (k : Nat) : ∀ {s : State}, s.fatal = false → s.frameComplete = false →
    ∃ (n : Nat) (r : FrameResult), frameLoop k s = .next (r, afterIteration^[n] s) ∧ n ≤ k ∧
      (∀ j < n, (afterIteration^[j] s).fatal = false ∧ (afterIteration^[j] s).frameComplete = false) ∧
      FrameEnds k n r (afterIteration^[n] s) := by
  induction k with
  | zero =>
    intro s live unfinished
    exact ⟨0, .running, rfl, Nat.le_refl 0, by simp, .inr (.inr ⟨rfl, rfl, live, unfinished⟩)⟩
  | succ k ih =>
    intro s live unfinished
    have once : ∀ j < 1, (afterIteration^[j] s).fatal = false ∧ (afterIteration^[j] s).frameComplete = false := by
      intro j first
      rw [Nat.lt_one_iff.1 first]
      exact ⟨live, unfinished⟩
    rw [frameLoop, runIteration_eq]
    dsimp only
    by_cases fatal : (afterIteration s).fatal = true
    · exact ⟨1, .fatal, if_pos fatal, Nat.succ_pos k, once, .inl ⟨rfl, fatal⟩⟩
    · rw [if_neg fatal]
      have live' : (afterIteration s).fatal = false := by simpa using fatal
      by_cases complete : (afterIteration s).frameComplete = true
      · exact ⟨1, .frameDone, if_pos complete, Nat.succ_pos k, once, .inr (.inl ⟨rfl, live', complete⟩)⟩
      · rw [if_neg complete]
        obtain ⟨n, r, answer, bound, before, ends⟩ := ih live' (by simpa using complete)
        refine ⟨n + 1, r, answer, Nat.succ_le_succ bound, fun j hj => ?_, ends.succ⟩
        cases j with
        | zero => exact ⟨live, unfinished⟩
        | succ j => exact before j (Nat.lt_of_succ_lt_succ hj)

/-- Settles O50: `afterIteration_steps` for one iteration, `frameLoop_iterates` for the frame. -/
theorem stepsRunAnIteration : Obligations.StepsRunAnIteration := by
  unfold Obligations.StepsRunAnIteration
  constructor
  · intro s live frame
    obtain ⟨k, reached⟩ := (afterIteration_steps live frame).run
    exact ⟨_, k, runIteration_eq s, reached⟩
  · intro k s live
    obtain ⟨n, r, answer, bound, before, ends⟩ := frameLoop_iterates k (s := s.startFrame) live rfl
    refine ⟨n, fun j => afterIteration^[j] s.startFrame, r, ?_, bound, rfl, fun j hj => ?_, ends⟩
    · rw [runFrame, if_neg (by simp [live])]
      exact answer
    · exact ⟨(before j hj).1, (before j hj).2,
        by rw [runIteration_eq, ← Function.iterate_succ_apply' afterIteration]⟩

end Sys2Proof.Machine

/-! ## Other agents than the CORE

What the run loop's moves outside the CORE's slice touch (`47_run_loop_host.md` R258), the turns of the external units
(R253, R255) and where `frame_complete` moves (R254). -/

namespace Sys2Proof.Machine

/-! ### What an agent outside the CORE cannot write -/

/-- The two states differ in nothing but memory, the scheduler, the lines, the interlock, the frame flag, the latch and
what is the model's own (R258). -/
def OutsideCore (s t : State) : Prop :=
  t = { s with
    mem := t.mem, sched := t.sched, irqLine := t.irqLine, ilockCop2 := t.ilockCop2, ilockVu := t.ilockVu
    frameComplete := t.frameComplete, fatal := t.fatal, fatalCode := t.fatalCode, phase := t.phase
    env := t.env, draws := t.draws, out := t.out }

/-- The interlock flags are unchanged (`10_state.md` R42). -/
def SameIlock (s t : State) : Prop := t.ilockCop2 = s.ilockCop2 ∧ t.ilockVu = s.ilockVu

theorem DeviceEffect.sameIlock {s t : State} (h : DeviceEffect s t) : SameIlock s t := by
  constructor <;> rw [h.rest]

/-- A turn of another unit than vector unit 0 is within what a device can do. -/
theorem unitTurn_device (s : State) {u : ExtUnit} (hu : u ≠ .vu0) : DeviceEffect s (s.unitTurn u) := by
  unfold State.unitTurn
  split
  · exact emit_effect s _
  · exact ((takeAnswer_effect s).trans (emit_effect _ _)).trans (unitOps_ilock hu _ _)

theorem unitTurn_outsideCore (s : State) (u : ExtUnit) (us : List ExtUnit) :
    OutsideCore s (({ s with phase := .units us } : State).unitTurn u) := by
  rw [OutsideCore, (unitTurn_effect { s with phase := .units us } u).rest]

theorem fireDue_outsideCore (s : State) (d : Due) (ds : List Due) :
    OutsideCore s (({ s with phase := .firing ds } : State).fireDue d) ∧
    SameIlock s (({ s with phase := .firing ds } : State).fireDue d) := by
  rcases fireDue_effect { s with phase := .firing ds } d with ⟨e, -, u, effect, fired⟩ | ⟨m, -, u, effect, fired⟩
  all_goals
    rw [fired, effect.rest]
    exact ⟨rfl, rfl, rfl⟩

/-- A step that is neither an instruction nor the beginning of an iteration is a move of the run loop outside the CORE;
of these only the turn of vector unit 0 moves the interlock flags (R258). -/
theorem step_outside {s t : State} (h : step s = .next t) (off : s.sliceOn = false) (other : s.phase ≠ .frame) :
    OutsideCore s t ∧ ((∀ us, s.phase ≠ .units (.vu0 :: us)) → SameIlock s t) := by
  obtain ⟨-, ⟨on, -⟩ | ⟨-, loop⟩⟩ := step_cases h
  · rw [off] at on
    cases on
  · rcases loop with ⟨-, rfl⟩ | ⟨frame, -⟩ | ⟨-, rfl⟩ | ⟨-, rfl⟩ | ⟨u, us, turn, rfl⟩ | ⟨-, rfl⟩ | ⟨d, ds, -, rfl⟩
    · exact ⟨rfl, fun _ => ⟨rfl, rfl⟩⟩
    · exact absurd frame other
    · exact ⟨rfl, fun _ => ⟨rfl, rfl⟩⟩
    · exact ⟨rfl, fun _ => ⟨rfl, rfl⟩⟩
    · refine ⟨unitTurn_outsideCore s u us, fun notVu0 => ?_⟩
      have hu : u ≠ .vu0 := fun vu0 => notVu0 us (vu0 ▸ turn)
      exact (unitTurn_device { s with phase := .units us } hu).sameIlock
    · exact ⟨rfl, fun _ => ⟨rfl, rfl⟩⟩
    · obtain ⟨outside, same⟩ := fireDue_outsideCore s d ds
      exact ⟨outside, fun _ => same⟩

/-! ### A turn -/

/-- A unit given no cycles does nothing (R253). -/
theorem unitTurn_zero {s : State} {u : ExtUnit} (us : List ExtUnit) (zero : s.sched.unitBudget u = 0) :
    ({ s with phase := .units us } : State).unitTurn u = { s with phase := .units us, out := .unitTurn u 0 :: s.out } :=
  if_pos zero

/-- Taking an answer commutes with what the beginning of a turn changes (log entry 5). -/
theorem takeAnswer_turn (s : State) (us : List ExtUnit) (r : OutEvent) :
    ({ s with phase := .units us } : State).takeAnswer.emit r =
      { s.takeAnswer with phase := .units us, out := r :: s.out } := by
  cases h : s.env <;> simp [State.takeAnswer, State.emit, h]

/-- Any other turn is the port operations of the environment's next answer (R255). -/
theorem unitTurn_answer {s : State} {u : ExtUnit} (us : List ExtUnit) (cycles : s.sched.unitBudget u ≠ 0) :
    ({ s with phase := .units us } : State).unitTurn u = State.unitOps u
      { s.takeAnswer with phase := .units us, out := .unitTurn u (s.sched.unitBudget u) :: s.out }
      s.nextAnswer.ops := by
  rw [← takeAnswer_turn]
  exact if_neg cycles

/-- A unit's port operations record no turn (R255). -/
theorem PortRecords.noTurn {s t : State} (h : PortRecords s t) :
    ∃ l, t.out = l ++ s.out ∧ ∀ v n, .unitTurn v n ∉ l := by
  obtain ⟨l, grown, ports⟩ := h
  exact ⟨l, grown, fun _ _ turn => by cases ports _ turn⟩

/-- A turn makes one turn record, below those of its port operations. -/
theorem unitTurn_records (s : State) (u : ExtUnit) (us : List ExtUnit) :
    ∃ l, (({ s with phase := .units us } : State).unitTurn u).out = l ++ .unitTurn u (s.sched.unitBudget u) :: s.out ∧
      ∀ v n, .unitTurn v n ∉ l := by
  by_cases zero : s.sched.unitBudget u = 0
  · rw [unitTurn_zero us zero, zero]
    exact ⟨[], rfl, by simp⟩
  · rw [unitTurn_answer us zero]
    exact (unitOps_records u s.nextAnswer.ops _).noTurn

/-- The budget each unit receives (R253). -/
theorem unitBudget_eq {c : Sched} {u : ExtUnit} {b : Nat} (iop : u = .iop → b = c.iopBudget)
    (bus : u = .dma ∨ u = .vif → b = c.busBudget) (cpu : u = .vu0 ∨ u = .vu1 → b = c.cpuBudget) :
    b = c.unitBudget u := by
  cases u with
  | iop => exact iop rfl
  | dma => exact bus (.inl rfl)
  | vu0 => exact cpu (.inl rfl)
  | vu1 => exact cpu (.inr rfl)
  | vif => exact bus (.inr rfl)

/-! ### A unit's port operations, one by one -/

section
variable {s : State} (u : ExtUnit) (live : s.fatal = false)
include live

theorem unitCall_read {w : Width} {pa : Word} {v : Quad} {t : State} (h : s.busRead w pa = .ok (v, t)) :
    State.unitCall u s (.busRead w pa) = (.value v, t) := by
  simp [State.unitCall, live, State.unitRead, h]

theorem unitCall_read_fatal {w : Width} {pa : Word} {f : FatalCode} (h : s.busRead w pa = .error f) :
    State.unitCall u s (.busRead w pa) = (.none, s.latchFatal f pa) := by
  simp [State.unitCall, live, State.unitRead, h]

theorem unitCall_write {w : Width} {pa : Word} {v : Quad} {t : State} (h : s.busWrite w pa v = .ok t) :
    State.unitCall u s (.busWrite w pa v) = (.none, t) := by
  simp [State.unitCall, live, State.unitWrite, h]

theorem unitCall_write_fatal {w : Width} {pa : Word} {v : Quad} {f : FatalCode} (h : s.busWrite w pa v = .error f) :
    State.unitCall u s (.busWrite w pa v) = (.none, s.latchFatal f pa) := by
  simp [State.unitCall, live, State.unitWrite, h]

/-- The interlock request is vector unit 0's alone (R258; log entry 19). -/
theorem unitCall_interlockRequest : State.unitCall u s .interlockRequest =
    if u = .vu0 then (.interlock (s.interlockRequest .vu).1, (s.interlockRequest .vu).2) else (.none, s) :=
  if_neg (by simp [live])

/-- A unit's other ports are those of a device (R258). -/
theorem unitCall_device (op : PortOp) (read : ∀ w pa, op ≠ .busRead w pa) (write : ∀ w pa v, op ≠ .busWrite w pa v)
    (interlock : op ≠ .interlockRequest) : State.unitCall u s op = s.deviceCall op := by
  have notFatal : ¬s.fatal = true := by simp [live]
  cases op with
  | busRead w pa => exact absurd rfl (read w pa)
  | busWrite w pa v => exact absurd rfl (write w pa v)
  | interlockRequest => exact absurd rfl interlock
  | registerFunction => exact if_neg notFatal
  | addEvent h d p => exact if_neg notFatal
  | addTimer h n => exact if_neg notFatal
  | irqSet i level => exact if_neg notFatal
  | wakeGraphics => exact if_neg notFatal

end

/-! ### The frame's end -/

/-- The handler that an entry of the snapshot names (`46_scheduler.md` R233). -/
def Due.handlerId : Due → Nat
  | .event e => e.handlerId
  | .timer m => m.handlerId

/-- A fired handler sets `frame_complete` exactly if it is the frame-end handler (R254). -/
theorem fire_frameComplete (s : State) (h : Nat) (p : Dword) (c : Nat) :
    (s.fire h p c).frameComplete = if s.frameHandler = some h then true else s.frameComplete := by
  split
  · rename_i frameEnd
    rw [State.fire, if_pos frameEnd]
  · rename_i other
    rw [(fire_effect s h p c other).rest]

theorem fireDue_frameComplete (s : State) (d : Due) :
    (s.fireDue d).frameComplete = if s.frameHandler = some d.handlerId then true else s.frameComplete := by
  cases d with
  | event e => exact fire_frameComplete _ e.handlerId e.payload e.absoluteCycle
  | timer m => exact fire_frameComplete _ m.handlerId 0 m.nextFireCycle

/-- Where `frame_complete` moves (R254, `10_state.md` R51): `run_frame` begins, or an entry of the snapshot fires. -/
theorem step_frameComplete {s t : State} (h : step s = .next t) :
    (s.phase = .idle ∧ t.frameComplete = false) ∨
    (∃ d ds, s.phase = .firing (d :: ds) ∧
      t.frameComplete = if s.frameHandler = some d.handlerId then true else s.frameComplete) ∨
    (s.phase ≠ .idle ∧ (∀ d ds, s.phase ≠ .firing (d :: ds)) ∧ t.frameComplete = s.frameComplete) := by
  obtain ⟨live, ⟨on, u, -, effect, rfl⟩ | ⟨-, loop⟩⟩ := step_cases h
  · obtain ⟨r, slice, -⟩ := (sliceOn_iff s).1 on
    refine .inr (.inr ⟨by simp [slice], by simp [slice], ?_⟩)
    rw [charge_frameComplete, effect.rest]
    rfl
  · rcases loop with ⟨idle, rfl⟩ | ⟨frame, rfl⟩ | ⟨⟨r, slice⟩, rfl⟩ | ⟨turns, rfl⟩ | ⟨u, us, turn, rfl⟩ |
      ⟨fired, rfl⟩ | ⟨d, ds, firing, rfl⟩
    · exact .inl ⟨idle, rfl⟩
    · refine .inr (.inr ⟨by simp [frame], by simp [frame], ?_⟩)
      rw [beginIteration_live live]
      show s.interruptCheck.frameComplete = s.frameComplete
      rw [(interruptCheck_effect s).rest]
    · exact .inr (.inr ⟨by simp [slice], by simp [slice], rfl⟩)
    · exact .inr (.inr ⟨by simp [turns], by simp [turns], rfl⟩)
    · refine .inr (.inr ⟨by simp [turn], by simp [turn], ?_⟩)
      rw [(unitTurn_effect { s with phase := .units us } u).rest]
    · exact .inr (.inr ⟨by simp [fired], by simp [fired], rfl⟩)
    · exact .inr (.inl ⟨d, ds, firing, fireDue_frameComplete { s with phase := .firing ds } d⟩)

/-- A firing entry of the frame-end handler leaves `frame_complete` set. -/
theorem step_frameEnd {s t : State} {d : Due} {ds : List Due} (h : step s = .next t)
    (firing : s.phase = .firing (d :: ds)) (frameEnd : s.frameHandler = some d.handlerId) : t.frameComplete = true := by
  rcases step_frameComplete h with ⟨idle, -⟩ | ⟨e, es, fired, complete⟩ | ⟨-, notFiring, -⟩
  · simp [firing] at idle
  · rw [firing] at fired
    cases fired
    rw [complete, if_pos frameEnd]
  · exact absurd firing (notFiring d ds)

/-- Settles O51: the frame is `step_outside`, a turn `unitTurn_zero` and `unitTurn_answer`, the frame's end
`step_frameComplete`. -/
theorem otherAgentsLeaveTheCore : Obligations.OtherAgentsLeaveTheCore := by
  unfold Obligations.OtherAgentsLeaveTheCore
  refine ⟨?frame, ?turn, fun u s => ⟨rfl, fun op ops => rfl⟩, ?ports, ?frameComplete⟩
  case frame =>
    intro s t h off other
    obtain ⟨outside, ilock⟩ := step_outside h off other
    unfold OutsideCore at outside
    refine ⟨?_, ⟨?_, ?_⟩, ⟨?_, ?_, ?_, ?_, ?_⟩, ?_, ?_, ?_, ?_, ?_, ?_, ilock⟩ <;> rw [outside]
  case turn =>
    intro s u us b live turn iop bus cpu
    rw [unitBudget_eq iop bus cpu]
    exact ⟨_, step_unit live turn, unitTurn_phase _ u, unitTurn_records s u us, unitTurn_zero us, unitTurn_answer us⟩
  case ports =>
    intro u s live
    have device := unitCall_device u live
    refine ⟨fun w pa v t => unitCall_read u live, fun w pa f h => ?_, fun w pa v t => unitCall_write u live,
      fun w pa v f h => ?_, ?_, fun h d p => ?_, fun h n => ?_, fun i level => ?_, unitCall_interlockRequest u live, ?_⟩
    · rw [unitCall_read_fatal u live h]
      exact ⟨pa, rfl⟩
    · rw [unitCall_write_fatal u live h]
      exact ⟨pa, rfl⟩
    · rw [device _ (by simp) (by simp) (by simp), deviceCall_registerFunction cfg live]
    · rw [device _ (by simp) (by simp) (by simp), deviceCall_addEvent cfg live]
    · rw [device _ (by simp) (by simp) (by simp), deviceCall_addTimer cfg live]
    · rw [device _ (by simp) (by simp) (by simp), deviceCall_irqSet cfg live]
    · rw [device _ (by simp) (by simp) (by simp), deviceCall_wakeGraphics cfg live]
  case frameComplete =>
    intro s t h
    refine ⟨fun idle => ?_, fun e ds firing => step_frameEnd (d := .event e) h firing,
      fun m ds firing => step_frameEnd (d := .timer m) h firing, fun moved => ?_⟩
    · rcases step_frameComplete h with ⟨-, cleared⟩ | ⟨d, ds, firing, -⟩ | ⟨notIdle, -⟩
      · exact cleared
      · simp [idle] at firing
      · exact absurd idle notIdle
    · rcases step_frameComplete h with ⟨idle, -⟩ | ⟨d, ds, firing, complete⟩ | ⟨-, -, same⟩
      · exact .inl idle
      · have frameEnd : s.frameHandler = some d.handlerId := by
          by_contra other
          exact moved (complete.trans (if_neg other))
        cases d with
        | event e => exact .inr (.inl ⟨e, ds, firing, frameEnd⟩)
        | timer m => exact .inr (.inr ⟨m, ds, firing, frameEnd⟩)
      · exact absurd same moved

end Sys2Proof.Machine

/-! ## The host's ports

`restore` (`47_run_loop_host.md` R262 to R264), the ports between and in the middle of iterations (R260, R261), and what
the components' own `reset()` come to (`70_reset_and_hazards.md` R303, R305). -/

namespace Sys2Proof.Machine

/-! ### `restore` -/

theorem allDifferent_iff (l : List Nat) : allDifferent l = true ↔ l.Nodup := by
  induction l with
  | nil => simp [allDifferent]
  | cons n ns ih => simp [allDifferent, ih]

/-- The bits of STATUS that `WellFormed` asks to be 0 (R264, `10_state.md` R34). -/
theorem statusReserved_iff (v : Word) : v &&& ~~~statusWmask = 0 ↔
    ∀ i, cfg.ieStackDepth ≤ i → (i < 8 ∨ 8 + cfg.nIrq ≤ i) → v.getLsbD i = false := by
  rw [cfg_ieStackDepth, cfg_nIrq]
  constructor
  · intro zero i deep outside
    by_cases word : i < 32
    · have masked : statusWmask.getLsbD i = false := by
        rw [statusWmask_bit i word]
        simp only [Bool.or_eq_false_iff, Bool.and_eq_false_iff, decide_eq_false_iff_not]
        omega
      have bit : (v &&& ~~~statusWmask).getLsbD i = false := by
        rw [zero]
        exact BitVec.getLsbD_zero
      rw [BitVec.getLsbD_and, BitVec.getLsbD_not, masked] at bit
      simpa [word] using bit
    · exact BitVec.getLsbD_of_ge v i (by omega)
  · intro reserved
    refine BitVec.eq_of_getLsbD_eq fun i word => ?_
    by_cases kept : 3 ≤ i ∧ (i < 8 ∨ 16 ≤ i)
    · simp [reserved i kept.1 kept.2]
    · have masked : statusWmask.getLsbD i = true := by
        rw [statusWmask_bit i word]
        simp only [Bool.or_eq_true, Bool.and_eq_true, decide_eq_true_eq]
        omega
      simp [masked]

/-- Everything that `WellFormed` asks of the elements of a blob (R264). -/
structure Saved.WellFormed (k : Saved) (handlers : List Nat) : Prop where
  pcAligned : k.pc.toNat % 4 = 0
  targetAligned : k.branchPending = true → k.branchTarget.toNat % 4 = 0
  busRem : k.busRem < cfg.busDiv
  iopRem : k.iopRem < cfg.iopDiv
  statusReserved : k.status &&& ~~~statusWmask = 0
  cause : k.cause.wf = true
  eventHandlers : ∀ e ∈ k.events, e.handlerId ∈ handlers
  timerHandlers : ∀ t ∈ k.timers, t.handlerId ∈ handlers
  seqs : ∀ q ∈ k.seqs, q < k.seq
  seqsOnce : k.seqs.Nodup
  gprZero : k.gpr[0] = 0

theorem Saved.wf_iff (k : Saved) (handlers : List Nat) : k.wf handlers = true ↔ k.WellFormed handlers := by
  have target : (!k.branchPending || decide (k.branchTarget.toNat % 4 = 0)) = true ↔
      (k.branchPending = true → k.branchTarget.toNat % 4 = 0) := by
    cases k.branchPending <;> simp
  simp only [Saved.wf, Bool.and_eq_true, target, decide_eq_true_eq, List.all_eq_true, List.contains_iff_mem,
    allDifferent_iff]
  constructor
  · rintro ⟨⟨⟨⟨⟨⟨⟨⟨⟨⟨pc, target⟩, bus⟩, iop⟩, status⟩, cause⟩, events⟩, timers⟩, seqs⟩, once⟩, zero⟩
    exact ⟨pc, target, bus, iop, status, cause, events, timers, seqs, once, zero⟩
  · rintro ⟨pc, target, bus, iop, status, cause, events, timers, seqs, once, zero⟩
    exact ⟨⟨⟨⟨⟨⟨⟨⟨⟨⟨pc, target⟩, bus⟩, iop⟩, status⟩, cause⟩, events⟩, timers⟩, seqs⟩, once⟩, zero⟩

/-- The sequence numbers of a blob are those of its events and those of its timers. -/
theorem Saved.seqs_lt_iff (k : Saved) :
    (∀ q ∈ k.seqs, q < k.seq) ↔ (∀ e ∈ k.events, e.seq < k.seq) ∧ ∀ t ∈ k.timers, t.seq < k.seq := by
  rw [Saved.seqs, List.forall_mem_append, List.forall_mem_map, List.forall_mem_map]

/-- What `restore` asks of the state and of the blob (R263, R264). -/
def Blob.Accepted (b : Blob) (s : State) : Prop :=
  s.fatal = false ∧ b.signature = Config.saveSignature ∧ b.version = Config.saveVersion ∧
    b.saved.WellFormed s.sched.handlers

theorem restore_accepted {s : State} {b : Blob} (h : b.Accepted s) : s.restore b = (.ok, s.load b.saved) := by
  obtain ⟨live, signature, version, wellFormed⟩ := h
  simp [State.restore, live, signature, version, (Saved.wf_iff _ _).2 wellFormed]

/-- Validation happens before any state is overwritten (R263). -/
theorem restore_rejected {s : State} {b : Blob} (h : ¬b.Accepted s) : s.restore b = (.failed, s) := by
  unfold State.restore
  split
  · rfl
  · rename_i live
    split
    · rfl
    · rename_i header
      obtain ⟨signature, version⟩ := not_or.1 header
      split
      · rfl
      · rename_i wf
        exact absurd ⟨Bool.eq_false_of_not_eq_true live, not_not.1 signature, not_not.1 version,
          (Saved.wf_iff _ _).1 (Bool.eq_true_of_not_eq_false wf)⟩ h

/-- `restore` answers OK exactly for a blob that is accepted (R263). -/
theorem restore_ok_iff (s : State) (b : Blob) : (s.restore b).1 = .ok ↔ b.Accepted s := by
  by_cases accepted : b.Accepted s
  · simp [restore_accepted accepted, accepted]
  · simp [restore_rejected accepted, accepted]

/-- After a load the saved elements are those that were loaded, if the reserved bits of CAUSE are 0 (R262, R263). -/
theorem saved_load (s : State) {k : Saved} (cause : k.cause.wf = true) : (s.load k).saved = k := by
  rw [State.saved, savedCause_load s cause]
  rfl

/-- What is saved of a state that meets the invariants is well formed (R262, R264). -/
theorem saved_wellFormed {s : State} (h : s.Inv) (sched : s.sched.Inv) : s.saved.WellFormed s.sched.handlers where
  pcAligned := h.pcAligned
  targetAligned := h.targetAligned
  busRem := h.busRem
  iopRem := h.iopRem
  statusReserved := h.statusReserved
  cause := savedCause_wf s
  eventHandlers := sched.eventHandlers
  timerHandlers := sched.timerHandlers
  seqs := sched.seqs
  seqsOnce := sched.seqsOnce
  gprZero := h.gprZero

/-- Settles O55: `restore_ok_iff` with R264's list written out, then `restore_accepted` and `restore_rejected`. -/
theorem restoreIsAllOrNothing : Obligations.RestoreIsAllOrNothing := by
  unfold Obligations.RestoreIsAllOrNothing
  refine ⟨?_, fun s h sched live => (restore_ok_iff s _).2 ⟨live, rfl, rfl, saved_wellFormed h sched⟩⟩
  rintro s b k rfl
  refine ⟨?_, fun failed => ?_, fun ok => ?_⟩
  · rw [restore_ok_iff, ← statusReserved_iff, ← SavedCause.wf_iff]
    constructor
    · rintro ⟨live, signature, version, pc, target, bus, iop, status, cause, events, timers, seqs, once, zero⟩
      obtain ⟨eventSeqs, timerSeqs⟩ := (Saved.seqs_lt_iff _).1 seqs
      exact ⟨live, signature, version, pc, target, bus, iop, status, cause, events, timers, eventSeqs, timerSeqs, once,
        zero⟩
    · rintro ⟨live, signature, version, pc, target, bus, iop, status, cause, events, timers, eventSeqs, timerSeqs, once,
        zero⟩
      exact ⟨live, signature, version, pc, target, bus, iop, status, cause, events, timers,
        (Saved.seqs_lt_iff _).2 ⟨eventSeqs, timerSeqs⟩, once, zero⟩
  · have rejected : ¬b.Accepted s := fun accepted => by
      rw [restore_accepted accepted] at failed
      cases failed
    rw [restore_rejected rejected]
  · have accepted := (restore_ok_iff s b).1 ok
    rw [restore_accepted accepted]
    obtain ⟨-, signature, version, wellFormed⟩ := accepted
    refine ⟨?_, rfl⟩
    rw [State.serialize, saved_load s wellFormed.cause, ← signature, ← version]

/-! ### The components' own `reset()` -/

/-- The host's reset begins with the reset state, in which the LOOP may have registered (R303). -/
theorem registerFrame_effect (c : Config) (e : List EnvAnswer) (d : Nat) (o : List OutEvent) (n : Option Dword) :
    ∃ h, ResetEffect { State.resetOf c with env := e, draws := d, out := o, frameHandler := h }
      (({ State.resetOf c with env := e, draws := d, out := o } : State).registerFrame n) ∧
      (({ State.resetOf c with env := e, draws := d, out := o } : State).registerFrame n).irqLine = 0 := by
  cases n with
  | none => exact ⟨none, rfl, rfl⟩
  | some n =>
    rw [registerFrame_reset]
    exact ⟨some 0, rfl, rfl⟩

/-- Every line is deasserted unless the latch is set. -/
def LinesOff (s : State) : Prop := s.fatal = false → s.irqLine = 0

section
variable {α : Type} (ops : α → List PortOp) (c : Config)

/-- The `reset()` of one component after another (R303). -/
theorem componentResets_effect (l : List α) :
    ∀ s : State, ResetEffect s (l.foldl (fun t x => t.componentReset (ops x) c) s) := by
  induction l with
  | nil => exact ResetEffect.refl
  | cons x l ih => exact fun s => (componentReset_effect s (ops x) c).trans (ih _)

/-- The components leave every line deasserted, unless one of them is fatal (R305). -/
theorem componentResets_lines (l : List α) :
    ∀ {s : State}, LinesOff s → LinesOff (l.foldl (fun t x => t.componentReset (ops x) c) s) := by
  induction l with
  | nil => exact id
  | cons x l ih => exact fun _ => ih componentReset_lines

end

/-- Under every configuration the host's reset reaches outside the reset state only what a component can touch, and
leaves the lines off (R300, R303, R305). -/
theorem hostReset_effect (c : Config) (s : State) :
    (∃ h, ResetEffect { State.resetOf c with env := s.env, draws := s.draws, out := s.out, frameHandler := h }
      (s.hostReset c)) ∧ LinesOff (s.hostReset c) := by
  obtain ⟨h, loop, off⟩ := registerFrame_effect c s.env s.draws s.out c.frameCycles
  constructor
  · exact ⟨h, loop.trans ((componentResets_effect c.unitReset c unitOrder _).trans
      (componentResets_effect c.deviceReset c (registerDevices c) _))⟩
  · exact componentResets_lines c.deviceReset c _ (componentResets_lines c.unitReset c _ fun _ => off)

/-! ### Components that register in order -/

/-- The scheduler after `k` components have registered one handler and one timer each, the component `i` with the
interval `f i` (R303). -/
def Sched.filled (f : Nat → Dword) (k : Nat) : Sched :=
  { Sched.reset with
    seq := k, handlers := List.range k, nextHandlerId := k
    timers := (List.range k).map fun i => ⟨f i, (f i).toNat, i, i, i⟩ }

theorem filled_succ (f : Nat → Dword) (k : Nat) : Sched.filled f (k + 1) =
    { Sched.filled f k with
      handlers := (Sched.filled f k).handlers ++ [k], nextHandlerId := k + 1
      timers := (Sched.filled f k).timers ++ [⟨f k, (Sched.filled f k).runCycles + (f k).toNat, k, k, k⟩]
      seq := k + 1 } := by
  simp [Sched.filled, List.range_succ, Sched.reset]

/-- Port operations on the interrupt lines alone. -/
def LinesOnly (ops : List PortOp) : Prop := ∀ op ∈ ops, ∃ i level, op = .irqSet i level

theorem linesOnly_nil : LinesOnly [] := fun _ h => by cases h

theorem linesOnly_one (i : Nat) (level : Bool) : LinesOnly [.irqSet i level] :=
  fun _ h => ⟨i, level, List.mem_singleton.1 h⟩

/-- Such operations move the lines alone, unless the latch is set (R258). -/
theorem resetOps_linesOnly {ops : List PortOp} (c : Config) (only : LinesOnly ops) : ∀ {s : State}, s.fatal = false →
    ∃ l, ops.foldl (fun t op => t.resetOp op c) s = { s with irqLine := l } := by
  induction ops with
  | nil => exact fun {s} _ => ⟨s.irqLine, rfl⟩
  | cons op ops ih =>
    intro s live
    obtain ⟨i, level, rfl⟩ := only op List.mem_cons_self
    have moved : ∃ l, s.resetOp (.irqSet i level) c = { s with irqLine := l } := by
      rw [State.resetOp, State.deviceOp, deviceCall_irqSet c live, State.irqSet]
      split
      · exact ⟨_, rfl⟩
      · exact ⟨s.irqLine, rfl⟩
    obtain ⟨l, hl⟩ := moved
    rw [List.foldl_cons, hl]
    exact ih (fun op h => only op (List.mem_cons_of_mem _ h)) live

/-- A component's `reset()` whose port operations moved only lines of `t` ends in `t`, every line deasserted (R305). -/
theorem componentReset_eq {s t : State} {ops : List PortOp} {c : Config} {l : Byte} (live : t.fatal = false)
    (off : t.irqLine = 0) (ran : ops.foldl (fun t op => t.resetOp op c) s = { t with irqLine := l }) :
    s.componentReset ops c = t := by
  rw [State.componentReset, ran]
  refine (if_neg (by simp [live])).trans ?_
  rw [← off]

/-- A component that registers a handler and a timer for it is the next of the components that have. -/
theorem componentReset_registers {s : State} {lines : List PortOp} (f : Nat → Dword) (k : Nat) (c : Config)
    (live : s.fatal = false) (off : s.irqLine = 0) (only : LinesOnly lines) :
    ({ s with sched := Sched.filled f k } : State).componentReset
      (.registerFunction :: .addTimer k (f k) :: lines) c = { s with sched := Sched.filled f (k + 1) } := by
  have registered := resetOps_register (s := { s with sched := Sched.filled f k }) live (f k) lines c
  obtain ⟨l, moved⟩ := resetOps_linesOnly c only (s := { s with sched := Sched.filled f (k + 1) }) live
  rw [filled_succ] at moved ⊢
  exact componentReset_eq live off (registered.trans moved)

/-- Each of these components registers a handler and a timer under its number, then moves lines alone. -/
def Registers {α : Type} (f : Nat → Dword) (number : α → Nat) (ops : α → List PortOp) : Prop :=
  ∀ x, ∃ lines, LinesOnly lines ∧ ops x = .registerFunction :: .addTimer (number x) (f (number x)) :: lines

/-- Such components, numbered from `k` on, come after the `k` that have registered. -/
theorem componentResets_register {α : Type} {s : State} {f : Nat → Dword} {number : α → Nat} {ops : α → List PortOp}
    (c : Config) (live : s.fatal = false) (off : s.irqLine = 0) (registers : Registers f number ops) (l : List α) :
    ∀ {k : Nat}, l.map number = List.range' k l.length →
      l.foldl (fun t x => t.componentReset (ops x) c) { s with sched := Sched.filled f k } =
        { s with sched := Sched.filled f (k + l.length) } := by
  induction l with
  | nil => exact fun _ => rfl
  | cons x l ih =>
    intro k numbered
    rw [List.map_cons, List.length_cons, List.range'_succ, List.cons.injEq] at numbered
    obtain ⟨first, rest⟩ := numbered
    obtain ⟨lines, only, opsOf⟩ := registers x
    rw [List.foldl_cons, opsOf, first, componentReset_registers f k c live off only, ih rest, List.length_cons,
      Nat.add_right_comm, Nat.add_assoc]

/-- The host's reset where every component registers one handler and one timer under its number (R303): the LOOP 0, the
external units from 1 on, the REGISTER devices from 6 on. -/
theorem hostReset_register {c : Config} {f : Nat → Dword} {u : ExtUnit → Nat} {d : DeviceName → Nat} (s : State)
    (loop : c.frameCycles = some (f 0)) (units : Registers f u c.unitReset) (devices : Registers f d c.deviceReset)
    (unitNumbers : unitOrder.map u = List.range' 1 unitOrder.length)
    (deviceNumbers : (registerDevices c).map d = List.range' 6 (registerDevices c).length) :
    s.hostReset c =
      { State.resetOf c with
        env := s.env, draws := s.draws, out := s.out, frameHandler := some 0
        sched := Sched.filled f (6 + (registerDevices c).length) } := by
  have first : Sched.filled f 1 = { Sched.reset with
      seq := 1, handlers := [0], nextHandlerId := 1, timers := [⟨f 0, 0 + (f 0).toNat, 0, 0, 0⟩] } := by
    simp [Sched.filled]
  rw [State.hostReset, loop, registerFrame_reset, ← first]
  dsimp only
  rw [componentResets_register c (s := { State.resetOf c with
    env := s.env, draws := s.draws, out := s.out, frameHandler := some 0 }) rfl rfl units unitOrder unitNumbers]
  exact componentResets_register c rfl rfl devices (registerDevices c) deviceNumbers

/-- The REGISTER devices of CFG_REF's route table in its order (`20_memory.md` R72). -/
theorem registerDevices_of {c : Config} (windows : c.windows = cfg.windows) (entries : c.exact = cfg.exact) :
    registerDevices c = [.timers, .gsPriv, .dmac, .intcStat, .intcMask] := by
  rw [registerDevices, windows, entries]
  decide

/-- Settles O56: `hostReset_effect` under every configuration, `componentResets_register` for the order of the
components, and `hostReset_cfg` among the ports. -/
theorem hostCalls : Obligations.HostCalls := by
  unfold Obligations.HostCalls
  refine ⟨fun c s => ?_, ?_, fun s => ⟨?_, fun between => ?_, fun mid h => ?_⟩⟩
  · obtain ⟨⟨h, effect⟩, off⟩ := hostReset_effect c s
    refine ⟨?_, off⟩
    rw [effect]
    rfl
  · intro s c f u d hu hd hc
    have table := registerDevices_of (c := c) (by rw [hc]) (by rw [hc])
    have reset := hostReset_register s (c := c) (f := f) (by rw [hc])
      (fun x => ⟨_, linesOnly_one (u x) true, by rw [hc]⟩) (fun x => ⟨_, linesOnly_nil, by rw [hc]⟩)
      (by rw [hu]; rfl) (by rw [table, hd]; rfl)
    rw [reset, table]
    exact ⟨rfl, rfl, rfl⟩
  · simp [State.betweenIterations, or_assoc]
  · refine ⟨(if_pos between).trans ?_, fun live => (if_pos between).trans ?_, fun t ran => (if_pos between).trans ?_,
      fun k r t ran => (if_pos between).trans ?_, if_pos between, fun b => if_pos between⟩
    · show Host.Outcome.next (HostAnswer.none, s.hostReset) = _
      rw [hostReset_cfg]
    · rw [State.coreHalt, if_neg (by simp [live])]
    · show plainAnswer (runIteration s) = _
      rw [ran, plainAnswer]
    · show frameAnswer (runFrame k s) = _
      rw [ran, frameAnswer]
  · exact if_neg (by simp [mid])

end Sys2Proof.Machine

/-! ## What the hazard tracker cannot influence

Every operation commutes with leaving the tracker out (`State.withoutTracker`): done without the tracker it answers the
same value, and the same state without the tracker (`…_withoutTracker`). Only `State.retire` fills the tracker, so an
instruction agrees only in what is left when the tracker is left out of its outcome (`…_visible`;
`70_reset_and_hazards.md` R316). -/

namespace Sys2Proof.Machine

@[simp] theorem withoutTracker_twice (s : State) : s.withoutTracker.withoutTracker = s.withoutTracker := by
  simp [State.withoutTracker]

/-! ### The shared operations -/

/-- A record of another stream than the tracker's stays (R316). -/
theorem emit_withoutTracker (s : State) {e : OutEvent} (h : e.notHazard = true) :
    s.withoutTracker.emit e = (s.emit e).withoutTracker := by
  simp [State.withoutTracker, State.emit, h]

theorem advance_withoutTracker (s : State) (o : Completion) :
    s.withoutTracker.advance o = (s.advance o).withoutTracker := by
  cases o with
  | done =>
    simp only [State.advance, apply_ite State.withoutTracker]
    rfl
  | branch _ | ret _ | hold | exception _ | fatal _ _ => rfl

/-- The tracker's update is seen by nothing else (R312, R316). -/
theorem hazardTrack_withoutTracker (s : State) (d : Descriptor) (o : Completion) (p : Word) :
    (s.hazardTrack d o p).withoutTracker = s.withoutTracker := by
  cases o <;> rfl

theorem retire_withoutTracker (s : State) (d : Descriptor) (o : Completion) :
    (s.withoutTracker.retire d o).withoutTracker = (s.retire d o).withoutTracker := by
  simp only [State.retire, hazardTrack_withoutTracker, advance_withoutTracker, withoutTracker_twice]

theorem interruptCheck_withoutTracker (s : State) :
    s.withoutTracker.interruptCheck = s.interruptCheck.withoutTracker := by
  simp only [State.interruptCheck, apply_ite State.withoutTracker]
  rfl

theorem irqSet_withoutTracker (s : State) (i : Nat) (level : Bool) :
    s.withoutTracker.irqSet i level = (s.irqSet i level).withoutTracker := by
  simp only [State.irqSet, apply_ite State.withoutTracker]
  rfl

theorem registerFunction_withoutTracker (s : State) :
    s.withoutTracker.registerFunction = s.registerFunction.map id State.withoutTracker := by
  simp only [State.registerFunction, apply_ite (Prod.map id State.withoutTracker)]
  rfl

theorem schedAnswer_withoutTracker (s : State) (h : Nat) (a : Option (Nat × Sched)) :
    s.withoutTracker.schedAnswer h a = (s.schedAnswer h a).map id State.withoutTracker := by
  cases a <;> rfl

theorem addEvent_withoutTracker (s : State) (h : Nat) (d p : Dword) :
    s.withoutTracker.addEvent h d p = (s.addEvent h d p).map id State.withoutTracker := by
  simp only [State.addEvent, schedAnswer_withoutTracker, apply_ite (Prod.map id State.withoutTracker)]
  rfl

theorem addTimer_withoutTracker (s : State) (h : Nat) (n : Dword) :
    s.withoutTracker.addTimer h n = (s.addTimer h n).map id State.withoutTracker := by
  simp only [State.addTimer, schedAnswer_withoutTracker, apply_ite (Prod.map id State.withoutTracker)]
  rfl

theorem interlockRequest_withoutTracker (s : State) (x : IlockSide) :
    s.withoutTracker.interlockRequest x = (s.interlockRequest x).map id State.withoutTracker := by
  cases x with
  | cop2 | vu =>
    simp only [State.interlockRequest, apply_ite (Prod.map id State.withoutTracker)]
    rfl

/-! ### The devices and the bus -/

theorem deviceRead_withoutTracker (s : State) (w : Width) (pa : Word) :
    s.withoutTracker.deviceRead w pa = (s.deviceRead w pa).map id State.withoutTracker := by
  unfold State.deviceRead
  cases route pa.toNat with
  | none => rfl
  | some d =>
    simp only [apply_ite (Prod.map id State.withoutTracker)]
    rfl

theorem deviceStore_withoutTracker (s : State) (w : Width) (pa : Nat) (v : Quad) :
    s.withoutTracker.deviceStore w pa v = (s.deviceStore w pa v).withoutTracker := by
  unfold State.deviceStore
  cases route pa with
  | none => rfl
  | some d =>
    simp only [apply_ite State.withoutTracker]
    rfl

theorem deviceCall_withoutTracker (s : State) (op : PortOp) :
    s.withoutTracker.deviceCall op = (s.deviceCall op).map id State.withoutTracker := by
  cases op with
  | busRead _ _ | busWrite _ _ _ | registerFunction | addEvent _ _ _ | addTimer _ _ | irqSet _ _ | interlockRequest
  | wakeGraphics =>
    simp only [State.deviceCall, deviceRead_withoutTracker, deviceStore_withoutTracker,
      registerFunction_withoutTracker, addEvent_withoutTracker, addTimer_withoutTracker, irqSet_withoutTracker,
      apply_ite (Prod.map id State.withoutTracker)]
    rfl

theorem deviceOp_withoutTracker (s : State) (op : PortOp) :
    s.withoutTracker.deviceOp op = (s.deviceOp op).withoutTracker :=
  congrArg Prod.snd (deviceCall_withoutTracker s op)

theorem deviceOps_withoutTracker (s : State) (ops : List PortOp) :
    s.withoutTracker.deviceOps ops = (s.deviceOps ops).withoutTracker :=
  List.foldl_hom State.withoutTracker deviceOp_withoutTracker

theorem writeOp_withoutTracker (n : DeviceName) (s : State) (op : PortOp) :
    State.writeOp n s.withoutTracker op = (State.writeOp n s op).withoutTracker := by
  simp only [State.writeOp, deviceOp_withoutTracker, apply_ite State.withoutTracker]
  rfl

theorem writeOps_withoutTracker (s : State) (n : DeviceName) (ops : List PortOp) :
    s.withoutTracker.writeOps n ops = (s.writeOps n ops).withoutTracker :=
  List.foldl_hom State.withoutTracker (writeOp_withoutTracker n)

theorem takeAnswer_withoutTracker (s : State) : s.withoutTracker.takeAnswer = s.takeAnswer.withoutTracker := by
  cases env : s.env with
  | nil => rw [(nextAnswer_free env).2, (nextAnswer_free (s := s.withoutTracker) env).2]; rfl
  | cons a as => rw [(nextAnswer_listed env).2, (nextAnswer_listed (s := s.withoutTracker) env).2]; rfl

theorem registerRead_withoutTracker (s : State) (n : DeviceName) (w : Width) (pa : Word) :
    s.withoutTracker.registerRead n w pa = (s.registerRead n w pa).map id State.withoutTracker := by
  rw [State.registerRead, takeAnswer_withoutTracker, emit_withoutTracker _ rfl, deviceOps_withoutTracker]
  rfl

theorem registerWrite_withoutTracker (s : State) (n : DeviceName) (w : Width) (pa : Word) (v : Quad) :
    s.withoutTracker.registerWrite n w pa v = (s.registerWrite n w pa v).withoutTracker := by
  rw [State.registerWrite, takeAnswer_withoutTracker, emit_withoutTracker _ rfl, writeOps_withoutTracker]
  rfl

theorem devRead_withoutTracker (s : State) (d : Device) (w : Width) (pa : Word) :
    s.withoutTracker.devRead d w pa = (s.devRead d w pa).map id State.withoutTracker := by
  unfold State.devRead
  cases d.kind with
  | memory _ => rfl
  | register => exact registerRead_withoutTracker s d.name w pa

theorem devWrite_withoutTracker (s : State) (d : Device) (w : Width) (pa : Word) (v : Quad) :
    s.withoutTracker.devWrite d w pa v = (s.devWrite d w pa v).withoutTracker := by
  unfold State.devWrite
  cases d.kind with
  | memory readOnly => cases readOnly <;> rfl
  | register => exact registerWrite_withoutTracker s d.name w pa v

theorem busRead_withoutTracker (s : State) (w : Width) (pa : Word) :
    s.withoutTracker.busRead w pa = (s.busRead w pa).map (Prod.map id State.withoutTracker) := by
  unfold State.busRead
  cases route pa.toNat with
  | none =>
    simp only [apply_ite (Except.map (Prod.map id State.withoutTracker))]
    rfl
  | some d =>
    simp only [devRead_withoutTracker, apply_ite (Except.map (Prod.map id State.withoutTracker))]
    rfl

theorem busWrite_withoutTracker (s : State) (w : Width) (pa : Word) (v : Quad) :
    s.withoutTracker.busWrite w pa v = (s.busWrite w pa v).map State.withoutTracker := by
  unfold State.busWrite
  cases route pa.toNat with
  | none =>
    simp only [apply_ite (Except.map State.withoutTracker)]
    rfl
  | some d =>
    simp only [devWrite_withoutTracker, apply_ite (Except.map State.withoutTracker)]
    rfl

/-! ### The external units and the fired handlers -/

theorem unitRead_withoutTracker (s : State) (w : Width) (pa : Word) :
    s.withoutTracker.unitRead w pa = (s.unitRead w pa).map id State.withoutTracker := by
  rw [State.unitRead, State.unitRead, busRead_withoutTracker]
  cases s.busRead w pa <;> rfl

theorem unitWrite_withoutTracker (s : State) (w : Width) (pa : Word) (v : Quad) :
    s.withoutTracker.unitWrite w pa v = (s.unitWrite w pa v).map id State.withoutTracker := by
  rw [State.unitWrite, State.unitWrite, busWrite_withoutTracker]
  cases s.busWrite w pa v <;> rfl

theorem unitInterlock_withoutTracker (u : ExtUnit) (s : State) :
    State.unitInterlock u s.withoutTracker = (State.unitInterlock u s).map id State.withoutTracker := by
  simp only [State.unitInterlock, interlockRequest_withoutTracker, apply_ite (Prod.map id State.withoutTracker)]
  rfl

theorem unitCall_withoutTracker (u : ExtUnit) (s : State) (op : PortOp) :
    State.unitCall u s.withoutTracker op = (State.unitCall u s op).map id State.withoutTracker := by
  cases op with
  | busRead _ _ | busWrite _ _ _ | registerFunction | addEvent _ _ _ | addTimer _ _ | irqSet _ _ | interlockRequest
  | wakeGraphics =>
    simp only [State.unitCall, unitRead_withoutTracker, unitWrite_withoutTracker, unitInterlock_withoutTracker,
      deviceCall_withoutTracker, apply_ite (Prod.map id State.withoutTracker)]
    rfl

theorem unitOps_withoutTracker (u : ExtUnit) (s : State) (ops : List PortOp) :
    State.unitOps u s.withoutTracker ops = (State.unitOps u s ops).withoutTracker :=
  List.foldl_hom State.withoutTracker fun t op => congrArg Prod.snd (unitCall_withoutTracker u t op)

theorem unitTurn_withoutTracker (s : State) (u : ExtUnit) :
    s.withoutTracker.unitTurn u = (s.unitTurn u).withoutTracker := by
  have record (t : State) (n : Nat) : t.withoutTracker.emit (.unitTurn u n) = (t.emit (.unitTurn u n)).withoutTracker :=
    emit_withoutTracker t rfl
  simp only [State.unitTurn, takeAnswer_withoutTracker, record, unitOps_withoutTracker, apply_ite State.withoutTracker]
  rfl

theorem fire_withoutTracker (s : State) (h : Nat) (p : Dword) (k : Nat) :
    s.withoutTracker.fire h p k = (s.fire h p k).withoutTracker := by
  have record (t : State) : t.withoutTracker.emit (.fire h p k) = (t.emit (.fire h p k)).withoutTracker :=
    emit_withoutTracker t rfl
  simp only [State.fire, takeAnswer_withoutTracker, record, deviceOps_withoutTracker, apply_ite State.withoutTracker]
  rfl

theorem fireDue_withoutTracker (s : State) (d : Due) :
    s.withoutTracker.fireDue d = (s.fireDue d).withoutTracker := by
  cases d with
  | event e => exact fire_withoutTracker { s with sched := s.sched.removeEvent e } _ _ _
  | timer m => exact fire_withoutTracker { s with sched := s.sched.rearm m } _ _ _

/-! ### An instruction -/

/-- What every rule but the tracker's can see of an outcome (R316). -/
def visible : Host.Outcome State Fault Refusal → Host.Outcome State Fault Refusal
  | .next t => .next t.withoutTracker
  | .fault f => .fault f
  | .refused r => .refused r

theorem visible_next (t : State) : visible (.next t.withoutTracker) = visible (.next t) :=
  congrArg Host.Outcome.next (withoutTracker_twice t)

theorem visible_eq_next {o : Host.Outcome State Fault Refusal} {t : State} (h : visible o = .next t) :
    ∃ v, o = .next v ∧ v.withoutTracker = t := by
  cases o with
  | next v => exact ⟨v, rfl, Host.Outcome.next.inj h⟩
  | fault f => cases h
  | refused r => cases h

theorem retire_visible (s : State) (d : Descriptor) (o : Completion) :
    visible (.next (s.withoutTracker.retire d o)) = visible (.next (s.retire d o)) :=
  congrArg Host.Outcome.next (retire_withoutTracker s d o)

theorem writeDone_visible (d : Descriptor) (rd : Reg) (v : Dword) (s : State) :
    visible (writeDone d rd v s.withoutTracker) = visible (writeDone d rd v s) :=
  retire_visible (s.setX rd v) d .done

/-- A load whose register write does not see the tracker. -/
theorem loadOp_visible (d : Descriptor) (w : Width) (base : Reg) (imm : Half) (wr : State → Quad → State)
    (hw : ∀ t v, wr t.withoutTracker v = (wr t v).withoutTracker) (s : State) :
    visible (loadOp d w base imm wr s.withoutTracker) = visible (loadOp d w base imm wr s) := by
  have access : s.withoutTracker.memRead w (s.withoutTracker.effAddr base imm) =
      (s.memRead w (s.effAddr base imm)).map (Prod.map id State.withoutTracker) := busRead_withoutTracker s w _
  rw [loadOp, loadOp, access]
  cases s.memRead w (s.effAddr base imm) with
  | error f => exact retire_visible s d _
  | ok r =>
    obtain ⟨v, t⟩ := r
    show visible (if t.fatal then .next t.withoutTracker else .next ((wr t.withoutTracker v).retire d .done)) = _
    simp only [hw, apply_ite visible, visible_next, retire_visible]

theorem storeOp_visible (d : Descriptor) (w : Width) (base : Reg) (imm : Half) (v : Quad) (s : State) :
    visible (storeOp d w base imm v s.withoutTracker) = visible (storeOp d w base imm v s) := by
  have access : s.withoutTracker.memWrite w (s.withoutTracker.effAddr base imm) v =
      (s.memWrite w (s.effAddr base imm) v).map State.withoutTracker := busWrite_withoutTracker s w _ v
  rw [storeOp, storeOp, access]
  cases s.memWrite w (s.effAddr base imm) v with
  | error f => exact retire_visible s d _
  | ok t =>
    show visible (if t.fatal then .next t.withoutTracker else .next (t.withoutTracker.retire d .done)) = _
    simp only [apply_ite visible, visible_next, retire_visible]

theorem jal_visible (index : BitVec 26) (s : State) :
    visible (execJal index s.withoutTracker) = visible (execJal index s) := by
  have linked : (if s.withoutTracker.branchPending then s.withoutTracker
      else s.withoutTracker.setX 31 (sext64 s.withoutTracker.afterSlot)) =
      (if s.branchPending then s else s.setX 31 (sext64 s.afterSlot)).withoutTracker := by
    rw [apply_ite State.withoutTracker]
    rfl
  rw [execJal, linked]
  exact retire_visible _ _ _

theorem eret_visible (s : State) : visible (execEret s.withoutTracker) = visible (execEret s) := by
  have popped : s.withoutTracker.popStatus = s.popStatus.withoutTracker := rfl
  simp only [execEret, popped, apply_ite visible, retire_visible]
  rfl

theorem mfc0_visible (rt : Reg) (n : Nat) (s : State) :
    visible (execMfc0 rt n s.withoutTracker) = visible (execMfc0 rt n s) := by
  rw [execMfc0, execMfc0, show s.withoutTracker.cop0 n = s.cop0 n from rfl]
  cases s.cop0 n with
  | none => exact retire_visible s _ _
  | some v => exact writeDone_visible _ rt _ s

theorem setCop0_withoutTracker (s : State) (n : Nat) (v : Word) :
    s.withoutTracker.setCop0 n v = (s.setCop0 n v).map State.withoutTracker := by
  simp only [State.setCop0, apply_ite (Option.map State.withoutTracker)]
  rfl

theorem mtc0_visible (rt : Reg) (n : Nat) (s : State) :
    visible (execMtc0 rt n s.withoutTracker) = visible (execMtc0 rt n s) := by
  rw [execMtc0, execMtc0, show s.withoutTracker.x32 rt = s.x32 rt from rfl, setCop0_withoutTracker]
  cases s.setCop0 n (s.x32 rt) with
  | none => exact retire_visible s _ _
  | some t => exact retire_visible t _ _

theorem cfc2i_visible (s : State) : visible (execCfc2i s.withoutTracker) = visible (execCfc2i s) := by
  rw [execCfc2i, execCfc2i, interlockRequest_withoutTracker]
  obtain ⟨answer, t⟩ := s.interlockRequest .cop2
  cases answer with
  | mustWait => exact retire_visible t _ _
  | satisfied => exact retire_visible (t.setX 0 0) _ _

/-- No instruction sees the tracker before it retires. -/
theorem exec_visible (i : Instr) (s : State) : visible (exec i s.withoutTracker) = visible (exec i s) := by
  cases i with
  | sll _ _ _ | add _ _ _ | addi _ _ _ | daddu _ _ _ | mfhi _ | mflo _ => exact writeDone_visible _ _ _ s
  | mult _ _ | div _ _ => exact retire_visible (s.setLoHi _ _) _ _
  | beq _ _ _ | bne _ _ _ | j _ | jr _ => exact retire_visible s _ _
  | jal index => exact jal_visible index s
  | lb _ _ _ | lbu _ _ _ | lh _ _ _ | lhu _ _ _ | lw _ _ _ | lwu _ _ _ | ld _ _ _ | lq _ _ _ =>
    exact loadOp_visible _ _ _ _ _ (fun _ _ => rfl) s
  | sb _ _ _ | sh _ _ _ | sw _ _ _ | sd _ _ _ | sq _ _ _ => exact storeOp_visible _ _ _ _ _ s
  | tge _ _ _ | tgeu _ _ _ | tlt _ _ _ | tltu _ _ _ | teq _ _ _ | tne _ _ _ => exact retire_visible s _ _
  | syscall _ | breakpoint _ => exact retire_visible s _ _
  | eret => exact eret_visible s
  | mfc0 rt n => exact mfc0_visible rt n s
  | mtc0 rt n => exact mtc0_visible rt n s
  | wait => exact retire_visible { s with waitForIrq := true } _ _
  | cfc2i => exact cfc2i_visible s

/-! ### A step -/

theorem fetch_withoutTracker (s : State) :
    s.withoutTracker.fetch = s.fetch.map (Prod.map id State.withoutTracker) := by
  have access : s.withoutTracker.latchNextPc.memRead .w32 s.withoutTracker.pc =
      (s.latchNextPc.memRead .w32 s.pc).map (Prod.map id State.withoutTracker) :=
    busRead_withoutTracker s.latchNextPc .w32 _
  rw [State.fetch, State.fetch, access]
  cases s.latchNextPc.memRead .w32 s.pc <;> rfl

theorem runWord_visible (w : Word) (s : State) : visible (runWord w s.withoutTracker) = visible (runWord w s) := by
  rw [runWord_eq, runWord_eq]
  cases decodeWord w with
  | ok i => exact exec_visible i s
  | error _ => exact visible_next (s.latchFatal .unknownInstruction w)

theorem coreStep_visible (s : State) : visible (coreStep s.withoutTracker) = visible (coreStep s) := by
  rw [coreStep, coreStep, fetch_withoutTracker]
  cases s.fetch with
  | error f => exact visible_next (s.latchNextPc.latchFatal f s.pc)
  | ok r =>
    obtain ⟨w, t⟩ := r
    show visible (if t.fatal then .next t.withoutTracker else runWord w t.withoutTracker) = _
    simp only [apply_ite visible, visible_next, runWord_visible]

theorem charge_withoutTracker (s : State) : s.withoutTracker.charge = s.charge.withoutTracker := by
  have place : s.withoutTracker.phase = s.phase := rfl
  cases phase : s.phase with
  | core r =>
    rw [charge_core phase, charge_core (s := s.withoutTracker) phase]
    rfl
  | idle | frame | units _ | firing _ => simp only [State.charge, place, phase]

theorem charged_visible (o : Host.Outcome State Fault Refusal) : visible (charged o) = charged (visible o) := by
  cases o with
  | next t => exact congrArg Host.Outcome.next (charge_withoutTracker t).symm
  | fault _ | refused _ => rfl

theorem chargedStep_visible (s : State) : visible (chargedStep s.withoutTracker) = visible (chargedStep s) := by
  simp only [chargedStep_eq, charged_visible, coreStep_visible]

theorem beginIteration_withoutTracker {s : State} (live : s.fatal = false) :
    s.withoutTracker.beginIteration = s.beginIteration.withoutTracker := by
  rw [beginIteration_live live, beginIteration_live (s := s.withoutTracker) live, interruptCheck_withoutTracker]
  rfl

theorem step_idle {s : State} (live : s.fatal = false) (idle : s.phase = .idle) : step s = .next s.startFrame := by
  simp [step, move, live, idle]

/-- No move of the machine sees the tracker: an instruction, or one move of the run loop. -/
theorem step_visible (s : State) : visible (step s.withoutTracker) = visible (step s) := by
  by_cases dead : s.fatal = true
  · rw [step_fatal dead, step_fatal (s := s.withoutTracker) dead]
    rfl
  have live : s.fatal = false := Bool.eq_false_of_not_eq_true dead
  by_cases on : s.sliceOn = true
  · rw [step_slice ⟨live, on⟩, step_slice (s := s.withoutTracker) ⟨live, on⟩, chargedStep_visible]
  have off : s.sliceOn = false := Bool.eq_false_of_not_eq_true on
  cases phase : s.phase with
  | idle =>
    rw [step_idle live phase, step_idle (s := s.withoutTracker) live phase]
    exact visible_next s.startFrame
  | frame =>
    rw [step_frame live phase, step_frame (s := s.withoutTracker) live phase, beginIteration_withoutTracker live]
    exact visible_next s.beginIteration
  | core r =>
    rw [step_endSlice live phase off, step_endSlice (s := s.withoutTracker) live phase off]
    exact visible_next s.endSlice
  | units us =>
    cases us with
    | nil =>
      rw [step_snapshot live phase, step_snapshot (s := s.withoutTracker) live phase]
      exact visible_next s.snapshot
    | cons u us =>
      have turn := unitTurn_withoutTracker { s with phase := .units us } u
      rw [step_unit live phase, step_unit (s := s.withoutTracker) live phase]
      exact (congrArg (visible ∘ .next) turn).trans (visible_next _)
  | firing ds =>
    cases ds with
    | nil =>
      rw [step_endIteration live phase, step_endIteration (s := s.withoutTracker) live phase]
      exact visible_next s.endIteration
    | cons d ds =>
      have fired := fireDue_withoutTracker { s with phase := .firing ds } d
      rw [step_firing live phase, step_firing (s := s.withoutTracker) live phase]
      exact (congrArg (visible ∘ .next) fired).trans (visible_next _)

/-- Settles O53: by `step_visible` each of the two states steps as their common state without the tracker does. -/
theorem trackerChangesNothingElse : Obligations.TrackerChangesNothingElse := by
  unfold Obligations.TrackerChangesNothingElse
  intro s u t same stepped
  have seen : visible (step u) = .next t.withoutTracker :=
    calc visible (step u) = visible (step u.withoutTracker) := (step_visible u).symm
      _ = visible (step s) := by rw [← same, step_visible]
      _ = .next t.withoutTracker := by rw [stepped, visible]
  exact visible_eq_next seen

end Sys2Proof.Machine

/-! ## Exceptions, the latch and reset

When a step has a next state, what enters an exception and what the latch stops (`60_exceptions.md` R271 to R281, R295),
and the state after reset (`70_reset_and_hazards.md` R300, R302). -/

namespace Sys2Proof.Machine

/-! ### Every state without the latch has a next state -/

theorem step_answers {s : State} (live : s.fatal = false) : ∃ t, step s = .next t := by
  by_cases on : s.sliceOn = true
  · obtain ⟨t, ran, -⟩ := chargedStep_effect s
    exact ⟨_, (step_slice ⟨live, on⟩).trans ran⟩
  · cases phase : s.phase with
    | idle => exact ⟨_, step_idle live phase⟩
    | frame => exact ⟨_, step_frame live phase⟩
    | core r => exact ⟨_, step_endSlice live phase (Bool.eq_false_of_not_eq_true on)⟩
    | units us =>
      cases us with
      | nil => exact ⟨_, step_snapshot live phase⟩
      | cons u us => exact ⟨_, step_unit live phase⟩
    | firing ds =>
      cases ds with
      | nil => exact ⟨_, step_endIteration live phase⟩
      | cons d ds => exact ⟨_, step_firing live phase⟩

/-- Settles O11: `step_answers` while the latch is clear, `step_fatal` while it is set. -/
theorem stepAnswersUnlessFatal : Obligations.StepAnswersUnlessFatal := by
  unfold Obligations.StepAnswersUnlessFatal
  exact fun s => ⟨step_answers, step_fatal⟩

/-! ### The interrupt check -/

theorem pend_getLsbD (s : State) {i : Nat} (h : i < 8) :
    s.pend.getLsbD i = (s.irqLine.getLsbD i && s.status.getLsbD (8 + i)) := by
  simp [State.pend, State.im, h]

theorem pend_eq_zero {s : State} (h : ∀ i, i < 8 → (s.irqLine.getLsbD i && s.status.getLsbD (8 + i)) = false) :
    s.pend = 0 := by
  apply BitVec.eq_of_getLsbD_eq
  intro i hi
  rw [pend_getLsbD s hi, h i hi]
  exact BitVec.getLsbD_zero.symm

theorem pend_ne_zero {s : State} {i : Nat} (h : i < 8)
    (asserted : (s.irqLine.getLsbD i && s.status.getLsbD (8 + i)) = true) : s.pend ≠ 0 := by
  intro zero
  rw [← pend_getLsbD s h, zero] at asserted
  exact Bool.noConfusion (BitVec.getLsbD_zero.symm.trans asserted)

/-- With a line pending the wait ends, and the entry clears the wait flag in any case (R276, R281). -/
theorem interruptCheck_pending {s : State} (h : s.pend ≠ 0) : s.interruptCheck =
    if s.ie0 then s.trapEntry (cfg.causeCode .interrupt) s.pc s.branchPending else { s with waitForIrq := false } := by
  rw [State.interruptCheck, if_neg h]
  rfl

/-- Settles O40: the check by whether a line is pending, then by `IE0`; and `State.stepCheck` by its configuration. -/
theorem interruptCheck : Obligations.InterruptCheck := by
  unfold Obligations.InterruptCheck
  refine ⟨fun s => ⟨fun none => if_pos (pend_eq_zero none), fun i hi asserted => ?_⟩, fun c s => ⟨?_, ?_⟩⟩
  · rw [interruptCheck_pending (pend_ne_zero hi asserted)]
    exact ⟨fun off => if_neg (ne_true_of_eq_false off), fun on => entered _ (if_pos on)⟩
  · intro perStep
    rw [chargedStep, State.stepCheck, perStep]
  · intro perSlice
    rw [chargedStep, State.stepCheck, perSlice]

/-! ### No other event enters an exception -/

/-- `CAUSE.ExcCode` and `CAUSE.BD` are unchanged (`10_state.md` R35). -/
def SameCause (s t : State) : Prop := (t.excCode, t.bd) = (s.excCode, s.bd)

theorem SameCop0.sameCause {s t : State} (h : SameCop0 s t) : SameCause s t :=
  congrArg₂ Prod.mk h.excCode h.bd

/-- The outcome raises no exception (`00_scope.md` R12). -/
def Completion.Quiet (o : Completion) : Prop := ∀ code, o ≠ .exception code

/-- Only the outcome `Exception` writes the cause (`40_core_step.md` R135). -/
theorem retire_cause {s t : State} (h : SameCause s t) (d : Descriptor) {o : Completion} (quiet : o.Quiet) :
    Completes (.next (t.retire d o)) (SameCause s) := by
  refine ⟨_, rfl, Eq.trans ?_ h⟩
  cases o with
  | done =>
    simp only [State.retire, State.hazardTrack, State.advance]
    split <;> rfl
  | branch _ | ret _ | hold | fatal _ _ => rfl
  | exception code => exact absurd rfl (quiet code)

theorem transfer_quiet (s : State) {o : Completion} (quiet : o.Quiet) : (s.transfer o).Quiet := by
  unfold State.transfer
  split
  · exact nofun
  · exact quiet

/-- A load whose register write leaves the cause alone. -/
theorem loadOp_cause (d : Descriptor) (w : Width) (base : Reg) (imm : Half) (s : State) {wr : State → Quad → State}
    (hw : ∀ t v, SameCause t (wr t v)) : Completes (loadOp d w base imm wr s) (SameCause s) := by
  unfold loadOp
  cases h : s.memRead w (s.effAddr base imm) with
  | error f => exact retire_cause rfl d nofun
  | ok r =>
    obtain ⟨v, t⟩ := r
    have access : SameCause s t := (busRead_effect h).sameCop0.sameCause
    simp only
    split
    · exact ⟨t, rfl, access⟩
    · exact retire_cause ((hw t v).trans access) d nofun

theorem storeOp_cause (d : Descriptor) (w : Width) (base : Reg) (imm : Half) (v : Quad) (s : State) :
    Completes (storeOp d w base imm v s) (SameCause s) := by
  unfold storeOp
  cases h : s.memWrite w (s.effAddr base imm) v with
  | error f => exact retire_cause rfl d nofun
  | ok t =>
    have access : SameCause s t := (busWrite_effect h).sameCop0.sameCause
    simp only
    split
    · exact ⟨t, rfl, access⟩
    · exact retire_cause access d nofun

theorem jal_cause (index : BitVec 26) (s : State) : Completes (execJal index s) (SameCause s) := by
  refine retire_cause ?_ _ (transfer_quiet s nofun)
  split <;> rfl

theorem jr_cause (rs : Reg) (s : State) : Completes (execJr rs s) (SameCause s) := by
  refine retire_cause rfl _ (transfer_quiet s ?_)
  split <;> exact nofun

theorem eret_cause (s : State) : Completes (execEret s) (SameCause s) := by
  unfold execEret
  split
  · exact retire_cause rfl _ nofun
  · split
    · exact retire_cause rfl _ nofun
    · exact retire_cause (t := s.popStatus) rfl _ nofun

theorem mfc0_cause (rt : Reg) (n : Nat) (s : State) : Completes (execMfc0 rt n s) (SameCause s) := by
  unfold execMfc0
  split
  · exact retire_cause (t := s.setX rt _) rfl _ nofun
  · exact retire_cause rfl _ nofun

/-- MTC0 to CAUSE writes nothing (`45_system.md` R210). -/
theorem setCop0_cause {s t : State} {n : Nat} {v : Word} (h : s.setCop0 n v = some t) : SameCause s t := by
  unfold State.setCop0 at h
  split at h
  · cases h; rfl
  · split at h
    · cases h; rfl
    · split at h
      · cases h; rfl
      · cases h

theorem mtc0_cause (rt : Reg) (n : Nat) (s : State) : Completes (execMtc0 rt n s) (SameCause s) := by
  unfold execMtc0
  split
  · exact retire_cause (setCop0_cause ‹_›) _ nofun
  · exact retire_cause rfl _ nofun

theorem cfc2i_cause (s : State) : Completes (execCfc2i s) (SameCause s) := by
  have asked : SameCause s (s.interlockRequest .cop2).2 := by rw [SameCause, (interlockRequest_effect s .cop2).rest]
  unfold execCfc2i
  split
  · rename_i t answer
    rw [answer] at asked
    exact retire_cause asked _ nofun
  · rename_i t answer
    rw [answer] at asked
    exact retire_cause (t := t.setX 0 0) asked _ nofun

/-- The instructions that can raise an exception: SYSCALL, BREAK and the six traps (R271). -/
def Raises (i : Instr) : Prop :=
  (∃ c, i = .syscall c ∨ i = .breakpoint c) ∨
  ∃ rs rt c, i = .tge rs rt c ∨ i = .tgeu rs rt c ∨ i = .tlt rs rt c ∨ i = .tltu rs rt c ∨ i = .teq rs rt c ∨
    i = .tne rs rt c

/-- Every other instruction leaves the cause as it is, also when it ends `Fatal` (R272). -/
theorem exec_cause (i : Instr) (s : State) (quiet : ¬Raises i) : Completes (exec i s) (SameCause s) := by
  cases i with
  | sll rd _ _ | add rd _ _ | addi rd _ _ | daddu rd _ _ | mfhi rd | mflo rd =>
    exact retire_cause (t := s.setX rd _) rfl _ nofun
  | mult _ _ | div _ _ => exact retire_cause (t := s.setLoHi _ _) rfl _ nofun
  | beq _ _ _ | bne _ _ _ | j _ => exact retire_cause rfl _ (transfer_quiet s nofun)
  | jal index => exact jal_cause index s
  | jr rs => exact jr_cause rs s
  | lb _ _ _ | lbu _ _ _ | lh _ _ _ | lhu _ _ _ | lw _ _ _ | lwu _ _ _ | ld _ _ _ | lq _ _ _ =>
    refine loadOp_cause _ _ _ _ s ?_
    exact fun _ _ => rfl
  | sb _ _ _ | sh _ _ _ | sw _ _ _ | sd _ _ _ | sq _ _ _ => exact storeOp_cause _ _ _ _ _ s
  | tge rs rt c | tgeu rs rt c | tlt rs rt c | tltu rs rt c | teq rs rt c | tne rs rt c =>
    exact absurd (.inr ⟨rs, rt, c, by simp⟩) quiet
  | syscall c | breakpoint c => exact absurd (.inl ⟨c, by simp⟩) quiet
  | eret => exact eret_cause s
  | mfc0 rt n => exact mfc0_cause rt n s
  | mtc0 rt n => exact mtc0_cause rt n s
  | wait => exact retire_cause (t := { s with waitForIrq := true }) rfl _ nofun
  | cfc2i => exact cfc2i_cause s

/-- Settles O42: `exec_cause` for the instructions, `step_outside` for the other moves. -/
theorem onlyTheListedExceptions : Obligations.OnlyTheListedExceptions := by
  unfold Obligations.OnlyTheListedExceptions
  refine ⟨fun i s t ran changed => ?_, fun s t stepped off other => ?_⟩
  · by_contra quiet
    obtain ⟨u, answer, same⟩ := exec_cause i s quiet
    rw [ran] at answer
    cases answer
    exact changed same
  · obtain ⟨outside, -⟩ := step_outside stepped off other
    rw [outside]

/-! ### What the latch stops -/

/-- Settles O43: every port but `reset` and `serialize` tests the latch before anything else. -/
theorem fatalStopsEveryPort : Obligations.FatalStopsEveryPort := by
  unfold Obligations.FatalStopsEveryPort
  intro s dead
  have device (op : PortOp) : s.deviceOp op = s := deviceOps_fatal dead [op]
  have unit (u : ExtUnit) (op : PortOp) : State.unitCall u s op = (fatalResult op, s) := if_pos dead
  have between : s.betweenIterations = true := by rw [State.betweenIterations, dead]; rfl
  exact ⟨fun _ => if_pos dead, if_pos dead, fun _ => if_pos dead, fun _ _ => if_pos dead, fun _ _ _ => if_pos dead,
    if_pos dead, fun _ _ _ => if_pos dead, fun _ _ => if_pos dead, if_pos dead, if_pos dead, if_pos dead, if_pos dead,
    device, fun u op => congrArg Prod.snd (unit u op), fun u => unit u _, fun u _ _ _ => unit u _,
    fun u _ _ => unit u _, fun u _ _ => unit u _, fun _ => if_pos dead, if_pos dead, if_pos dead, fun _ => if_pos dead,
    rfl, if_pos between, rfl, rfl⟩

/-! ### The state after reset -/

/-- Settles O57: `State.reset` field by field. -/
theorem resetState : Obligations.ResetState := by
  unfold Obligations.ResetState
  have gprs : ∀ r : Reg, State.reset.xq r = 0 := by decide
  have fprs : ∀ r : Fin 32, State.reset.fpr[r] = 0 := by decide
  have lines : ∀ l ∈ State.reset.icache, l.valid = false ∧ l.tag = 0 := nofun
  exact ⟨gprs, rfl, rfl, rfl, fprs, rfl, rfl, rfl, rfl, rfl, rfl, rfl, rfl, rfl, lines, rfl, rfl, rfl, rfl,
    fun _ => rfl, rfl, rfl, rfl, rfl, rfl, rfl, rfl, rfl, rfl, rfl, rfl, rfl, rfl, rfl⟩

theorem reset_inv : State.reset.Inv where
  gprZero := rfl
  pcAligned := by decide
  targetAligned := nofun
  statusReserved := by decide
  memory := Memory.wf_reset
  busRem := by decide
  iopRem := by decide
  fatalCode := rfl

theorem reset_sched_inv : State.reset.sched.Inv where
  eventHandlers := nofun
  timerHandlers := nofun
  handlerIds := nofun
  seqs := nofun
  seqsOnce := .nil
  timerIds := nofun
  timerIdsOnce := .nil

/-- Settles O58: `reset_inv` for the machine, `reset_sched_inv` for the scheduler. -/
theorem resetMeetsTheInvariants : Obligations.ResetMeetsTheInvariants := ⟨reset_inv, reset_sched_inv⟩

end Sys2Proof.Machine
